-- ==== Sys2Proof/Word.lean ====
section
/-! DEFINITION. The words of the weigher memory and the fixed sets of names that commands and state share:
sides, ports, zones, and the records that hold one thing for each of them (00 "Conventions", R133). -/

namespace Sys2Proof

/-- A memory word: 32 bits (00 "Memory words"). -/
abbrev Word := BitVec 32

/-- One byte lane of a memory word. -/
abbrev Byte := BitVec 8

/-- A word address, 0 to 1,048,575 (00 "Quantities and units"). -/
abbrev Addr := BitVec 20

/-- The two discharge sides. -/
inductive Side where
  | a
  | b
  deriving DecidableEq, Repr

/-- The three upstream ports (R133). -/
inductive Port where
  | ca
  | cb
  | hl
  deriving DecidableEq, Repr

/-- The two zones (R73). -/
inductive Zone where
  | z0
  | z1
  deriving DecidableEq, Repr

/-- One thing for each side. -/
structure PerSide (α : Type) where
  a : α
  b : α
  deriving DecidableEq, Repr

/-- One thing for each zone. -/
structure PerZone (α : Type) where
  z0 : α
  z1 : α
  deriving DecidableEq, Repr

/-- One thing for each upstream port. -/
structure PerPort (α : Type) where
  ca : α
  cb : α
  hl : α
  deriving DecidableEq, Repr

def PerSide.get {α : Type} (p : PerSide α) : Side → α
  | .a => p.a
  | .b => p.b

def PerSide.set {α : Type} (p : PerSide α) (s : Side) (x : α) : PerSide α :=
  match s with
  | .a => { p with a := x }
  | .b => { p with b := x }

def PerZone.get {α : Type} (p : PerZone α) : Zone → α
  | .z0 => p.z0
  | .z1 => p.z1

def PerZone.set {α : Type} (p : PerZone α) (z : Zone) (x : α) : PerZone α :=
  match z with
  | .z0 => { p with z0 := x }
  | .z1 => { p with z1 := x }

def PerPort.get {α : Type} (p : PerPort α) : Port → α
  | .ca => p.ca
  | .cb => p.cb
  | .hl => p.hl

def PerPort.set {α : Type} (p : PerPort α) (q : Port) (x : α) : PerPort α :=
  match q with
  | .ca => { p with ca := x }
  | .cb => { p with cb := x }
  | .hl => { p with hl := x }

/-- The number of a side: 0 for A, 1 for B (R168). -/
def Side.number : Side → Nat
  | .a => 0
  | .b => 1

/-- The number of a zone (R168). -/
def Zone.number : Zone → Nat
  | .z0 => 0
  | .z1 => 1

end Sys2Proof
end

