-- ==== Sys2Proof/Syntax.lean ====
section
/-! DEFINITION. The commands of the block: one constructor for each row of spec/opcode_table.json, with the row's
operands. A port's write or read carries the word address it uses; a control-block word's address follows from
CBASE, so those commands name the word by its side or its offset. -/

namespace Sys2Proof

/-- The steps of the part (spec/opcode_table.json). For a command written into a command slot the operands are the
writing port, the side of the slot and the 8-bit argument field (R152, R176). -/
inductive Instr where
  | load (port : Port) (slot : Side) (arg : BitVec 8)
  | unload (port : Port) (slot : Side) (arg : BitVec 8)
  | start (port : Port) (slot : Side) (arg : BitVec 8)
  | stop (port : Port) (slot : Side) (arg : BitVec 8)
  | halt (port : Port) (slot : Side) (arg : BitVec 8)
  | headEnable (port : Port) (slot : Side) (arg : BitVec 8)
  | headDisable (port : Port) (slot : Side) (arg : BitVec 8)
  | recover (port : Port) (slot : Side) (arg : BitVec 8)
  | headPurge (port : Port) (slot : Side) (arg : BitVec 8)
  | zeroSet (port : Port) (slot : Side) (arg : BitVec 8)
  | applySide (port : Port) (slot : Side) (arg : BitVec 8)
  | applyZone (port : Port) (slot : Side) (arg : BitVec 8)
  | noteAck (port : Port) (slot : Side) (arg : BitVec 8)
  | reportHeaderWrite (addr : Addr) (word : Word)
  | reportSampleWrite (addr : Addr) (word : Word)
  | candidateHeaderRead (port : Port) (addr : Addr) (strobes : BitVec 4)
  | candidateEntryRead (port : Port) (addr : Addr) (strobes : BitVec 4)
  | orderWordWrite (port : Port) (addr : Addr) (word : Word)
  | orderSubmit (port : Port) (addr : Addr) (word : Word)
  | commitClear (port : Port) (addr : Addr) (word : Word)
  | feedEnvelopeWrite (port : Port) (addr : Addr) (word : Word)
  | topEnvelopeWrite (port : Port) (addr : Addr) (word : Word)
  | consumeWordWrite (port : Port) (side : Side) (word : Word)
  | clearWordWrite (port : Port) (side : Side) (word : Word)
  | enableWordWrite (port : Port) (side : Side) (word : Word)
  | controlBlockWrite (port : Port) (offset : BitVec 9) (strobes : BitVec 4) (word : Word)
  | refusedPortWrite (port : Port) (addr : Addr) (strobes : BitVec 4) (word : Word)
  | bagRequest (side : Side)
  | doubleRequestSetting (side : Side)
  | release (side : Side)
  | settleExpiry (head : Fin 32)
  | silenceExpiry (head : Fin 32)
  | gateExpiry (head : Fin 32)
  | holdExpiry (side : Side) (place : Fin 2)
  | dischPulseEnd (side : Side)
  | issueQueueWrite
  | resetInput (cbase : BitVec 4) (oneck : Bool)
  deriving DecidableEq, Repr

end Sys2Proof
end

