-- ==== Sys2Proof/Config.lean ====
section
/-! DEFINITION. What every HX32 fixes: the sizes and steps that the rules write as numbers. The spec leaves no
result value open, so there is no free value here; the open orders and power-up values are named in the
assumption log (entries 1 to 8). -/

namespace Sys2Proof.Config

/-- Entries of the issue queue (R142). -/
def queueDepth : Nat := 64

/-- Occupied entries from which the issue queue is granted first (R141). -/
def queueUrgent : Nat := 48

/-- Entries of a side's holding queue (R161). -/
def holdingDepth : Nat := 8

/-- Orders a side's queue holds at most (R110). -/
def orderDepth : Nat := 2

/-- Dumps a side holds open at most (R126). -/
def dumpDepth : Nat := 2

/-- Length of a DISCH pulse in ms (R125). -/
def pulseMs : Nat := 20

/-- The least fill target in mg (R57). -/
def targetFloor : Int := 500

/-- The ends of the yield's range in yield units (R6). -/
def yieldMin : Nat := 16
def yieldMax : Nat := 1048575

/-- The ends of a sample's range in mg (R30, check 5). -/
def sampleMin : Int := -200000
def sampleMax : Int := 2000000

/-- The end of the top trim's range (R67). -/
def trimMax : Int := 20

/-- Words of the control block (R135). -/
def controlWords : Nat := 512

/-- The greatest word address (R136). -/
def lastAddress : Nat := 1048575

/-- The counter value at which a head is OUT (R4). -/
def healthOut : Nat := 256

end Sys2Proof.Config
end

