-- ==== Sys2Proof/Machine/State.lean ====
section
/-! DEFINITION. The state of the part: the records of its units (Units), the memory path around them (State), and
the machine right after reset. Plain data throughout. -/

namespace Sys2Proof.Machine

/-! ### The head table (01) -/

/-- Why a head is purged (R20). -/
inductive PurgeReason where
  | over | under | stale | barred | unsettled | disturbed | command | start | recover
  deriving DecidableEq, Repr

/-- The discharge destination; the purge reason exists only for REJECT (R3). -/
inductive Destination where
  | bag (side : Side)
  | reject (reason : PurgeReason)
  deriving DecidableEq, Repr

/-- The cycle state with the three fields that exist only in particular states (R3). A claiming order is named by
its side and its acceptance order there (R3, R110; log entry 15). -/
inductive CycleState where
  | disabled
  | stopped
  | empty
  | settling
  | ready
  | claimed (side : Side) (accept : Nat)
  | discharging (dest : Destination)
  | out
  deriving DecidableEq, Repr

/-- The cycle state's name alone, as a candidate entry shows it (R93). -/
inductive CycleName where
  | disabled | stopped | empty | settling | ready | claimed | discharging | out
  deriving DecidableEq, Repr

/-- The levels of the health counter (R4). -/
inductive Level where
  | good | watch | barred | out
  deriving DecidableEq, Repr

/-- The kinds of the head timer (R8). -/
inductive TimerKind where
  | settle | gate | silence
  deriving DecidableEq, Repr

/-- The head timer: stopped, running with the milliseconds left, or with its expiry pending (R8, R50). -/
inductive HeadTimer where
  | stopped
  | running (kind : TimerKind) (left : Nat)
  | expired (kind : TimerKind)
  deriving DecidableEq, Repr

/-- A feed envelope: amplitude in percent and the tick range (R6). -/
structure Envelope where
  amplitude : Nat
  tmin : Nat
  tmax : Nat
  deriving DecidableEq, Repr

/-- A pool feed record (R6). -/
structure Feed where
  ticks : Nat
  seq : BitVec 4
  deriving DecidableEq, Repr

/-- A head record (R2 to R8). -/
structure Head where
  state : CycleState
  health : Nat
  zero : Int
  lastStable : Option Int
  frozen : Option Int
  age : Nat
  yield : Nat
  envelope : Option Envelope
  pool : Option Feed
  bucket : Option Nat
  feedSeq : BitVec 4
  gateSeq : BitVec 4
  retryUsed : Bool
  lastSeq : Option (BitVec 8)
  present : Bool
  timer : HeadTimer
  deriving DecidableEq, Repr

/-- A head record after the reset input or UNLOAD (R9). -/
def Head.cleared : Head :=
  { state := .disabled, health := 0, zero := 0, lastStable := none, frozen := none, age := 0,
    yield := Config.yieldMin, envelope := none, pool := none, bucket := none, feedSeq := 0, gateSeq := 0,
    retryUsed := false, lastSeq := none, present := false, timer := .stopped }

/-! ### The zone unit (05) and the top feeders (04) -/

/-- One entry of an offer pattern (R81). -/
inductive Offer where
  | a | b | ab
  deriving DecidableEq, Repr

/-- A zone parameter block (R75). Weights and spread entries are signed mg (R168). -/
structure ZoneBlock where
  share : Int
  spread : List Int
  offer : List Offer
  staleAge : Nat
  purgeAge : Nat
  stabilityBand : Int
  zeroBand : Int
  emptyBand : Int
  minFill : Int
  ceiling : Int
  disturbBand : Int
  settleLimit : Nat
  gateLimit : Nat
  silenceLimit : Nat
  stagger : Nat
  initialYield : Nat
  deriving DecidableEq, Repr

/-- A top envelope: nominal, minimum and maximum amplitude in percent (R67). -/
structure TopEnvelope where
  nominal : Nat
  minimum : Nat
  maximum : Nat
  deriving DecidableEq, Repr

/-- A zone's top feeder record (R67). -/
structure TopFeeder where
  envelope : Option TopEnvelope
  trim : Int
  applied : Option Nat
  seq : BitVec 4
  deriving DecidableEq, Repr

/-- A zone record (R74). -/
structure ZoneRec where
  live : Option ZoneBlock
  staged : Option ZoneBlock
  rotation : Nat
  top : TopFeeder
  deriving DecidableEq, Repr

/-- A top feeder record after reset, LOAD or UNLOAD (R67). -/
def TopFeeder.cleared : TopFeeder := { envelope := none, trim := 0, applied := none, seq := 0 }

/-- A zone record after the reset input or UNLOAD (R74). -/
def ZoneRec.cleared : ZoneRec := { live := none, staged := none, rotation := 0, top := .cleared }

/-! ### Write groups, orders and sides (02, 07) -/

/-- A write-group stage that holds a slot: the words kept at offsets 1, 2 and 3 (R27, R102). -/
structure WriteGroup where
  slot : Nat
  w1 : Option Word
  w2 : Option Word
  w3 : Option Word
  deriving DecidableEq, Repr

/-- A side parameter block (R115). -/
structure SideBlock where
  bagMin : Int
  bagTarget : Int
  bagMax : Int
  minHeads : Nat
  maxHeads : Nat
  holdLimit : Nat
  intake : Bool
  deriving DecidableEq, Repr

/-- An order's hold timer: running with the milliseconds left, or with its expiry pending (R111). -/
inductive HoldTimer where
  | running (left : Nat)
  | expired
  deriving DecidableEq, Repr

/-- An order record (R110). Its reservation is counted by the notice unit (R162). -/
structure OrderRec where
  accept : Nat
  tag : BitVec 16
  heads : List (Fin 32)
  total : Int
  target : Int
  hold : HoldTimer
  deriving DecidableEq, Repr

/-- The order unit's state for one side (07): blocks, stage and queue, oldest order first. -/
structure OrderSide where
  live : Option SideBlock
  staged : Option SideBlock
  stage : Option WriteGroup
  queue : List OrderRec
  accepts : Nat
  deriving DecidableEq, Repr

/-- A side's order unit after the reset input or UNLOAD (R102, R110, R115). -/
def OrderSide.cleared : OrderSide := { live := none, staged := none, stage := none, queue := [], accepts := 0 }

/-! ### The release unit (08) -/

/-- A dump's mark of one head (R126). -/
inductive Mark where
  | pending | confirmed | unconfirmed
  deriving DecidableEq, Repr

/-- An open dump: its heads in list order with their marks (R126). -/
structure Dump where
  tag : BitVec 16
  heads : List (Fin 32 × Mark)
  total : Int
  target : Int
  deriving DecidableEq, Repr

/-- The release unit's state for one side: request latch, pending release, pending DOUBLE-REQUEST setting, open
dumps oldest first, and the milliseconds left of a DISCH pulse, present exactly while the line is high
(R118 to R120, R125, R126). -/
structure ReleaseSide where
  latch : Bool
  releasePending : Bool
  doublePending : Bool
  dumps : List Dump
  disch : Option Nat
  deriving DecidableEq, Repr

/-- A side's release unit after the reset input (R132). -/
def ReleaseSide.cleared : ReleaseSide :=
  { latch := false, releasePending := false, doublePending := false, dumps := [], disch := none }

/-! ### The notice unit (11) -/

/-- The causes of a HEALTH-LEVEL notice (R47). -/
inductive HealthCause where
  | silence | settle | disturbed | range | zeroDrift | boardFault | gate | gateFinal | fill | confirm | recover
  deriving DecidableEq, Repr

/-- The causes of a report's refusal (R35). -/
inductive ReportCause where
  | length | incomplete | range
  deriving DecidableEq, Repr

/-- The causes of a write's refusal (R138). -/
inductive WriteCause where
  | permission | partialWrite | value | range
  deriving DecidableEq, Repr

/-- The causes of a top trim change (R69). -/
inductive TrimCause where
  | tmax | tmin | over | under
  deriving DecidableEq, Repr

/-- The reasons of a withdrawal (R113, R114). -/
inductive WithdrawReason where
  | disturbed | barred | headOut | halt
  deriving DecidableEq, Repr

/-- A notice without its number: one constructor for each kind, with the fields its rule gives (R173). -/
inductive Notice where
  | purge (head : Fin 32) (reason : PurgeReason) (gateSeq : BitVec 4) (weight : Option Int)
  | healthLevel (head : Fin 32) (old new : Level) (counter : Nat) (cause : HealthCause)
  | zeroDrift (head : Fin 32) (seq : BitVec 8) (weight zero : Int)
  | headPresent (head : Fin 32) (seq : BitVec 8)
  | reportRefused (cause : ReportCause) (slot : Nat) (head : Fin 32) (seq : BitVec 8) (count : Nat) (sample : Nat)
  | writeRefused (port : Port) (addr : Addr) (cause : WriteCause)
  | topTrim (zone : Zone) (cause : TrimCause) (head : Fin 32) (trim : Int) (applied : Nat)
  | orderExpired (tag : BitVec 16) (heads : List (Fin 32)) (total : Int)
  | orderWithdrawn (tag : BitVec 16) (reason : WithdrawReason) (offender : Option (Fin 32 × Nat))
      (heads : List (Fin 32)) (total : Int)
  | dumpComplete (tag : BitVec 16) (heads : List (Fin 32 × Mark)) (total giveaway : Int)
  deriving DecidableEq, Repr

/-- The eight flags (R165). -/
inductive Flag where
  | noticeWritten | noticeLost | ringHigh | writeRefused | doubleRequest | headOut | orderEnded | partState
  deriving DecidableEq, Repr

/-- The notice unit's state for one side: ring indices, notice number, holding queue oldest first, reservations,
flags and enables with bit 0 for flag 1, the content of the flag word queued last, note pending, and the flag words
that must reach memory before the NOTE line rises (R160 to R167). -/
structure NoticeSide where
  writeIx : Nat
  consumeIx : Nat
  number : BitVec 16
  holding : List (BitVec 16 × Notice)
  reservations : Nat
  flags : BitVec 8
  enables : BitVec 8
  lastFlagWord : Word
  notePending : Bool
  noteWait : Nat
  deriving DecidableEq, Repr

/-- A side's notice unit after the reset input (R160, R162, R165, R167). -/
def NoticeSide.cleared : NoticeSide :=
  { writeIx := 0, consumeIx := 0, number := 0, holding := [], reservations := 0, flags := 0, enables := 0,
    lastFlagWord := 0, notePending := false, noteWait := 0 }

/-! ### The candidate server (06) -/

/-- A snapshot entry: the seven values of R93. -/
structure ViewEntry where
  state : CycleName
  offered : Bool
  frozen : Int
  age : Nat
  stale : Bool
  level : Level
  deviation : Int
  deriving DecidableEq, Repr

/-- A side's snapshot (R90). -/
structure View where
  generation : BitVec 16
  offered : Nat
  entries : Vector ViewEntry 32
  deriving DecidableEq, Repr

/-- The empty entry (R90). -/
def ViewEntry.cleared : ViewEntry :=
  { state := .disabled, offered := false, frozen := 0, age := 0, stale := false, level := .good, deviation := 0 }

/-- The empty snapshot (R90). -/
def View.cleared : View := { generation := 0, offered := 0, entries := Vector.replicate 32 .cleared }

/-! ### The control unit (10) -/

/-- The part state (00 "Terms"). -/
inductive PartState where
  | transparent | stopped | running | draining
  deriving DecidableEq, Repr

/-- The nine windows, in the order of the table in R135. -/
inductive Window where
  | report
  | candidate (side : Side)
  | order (side : Side)
  | feed
  | gate
  | notice (side : Side)
  deriving DecidableEq, Repr

/-- One row of the window table (R135). -/
structure WindowRow where
  window : Window
  base : Nat
  size : Nat
  deriving DecidableEq, Repr

/-- The loaded configuration record (R149). A side holds its binding exactly when it is enabled. -/
structure Loaded where
  headCount : Nat
  zoneCount : Nat
  split : Nat
  binding : PerSide (Option Zone)
  clockKHz : Nat
  reportSlots : Nat
  orderSlots : PerSide Nat
  ringSize : PerSide Nat
  windows : List WindowRow
  deriving DecidableEq, Repr

/-! ### The units together -/

/-- Everything the part's units hold. -/
structure Units where
  part : PartState
  config : Option Loaded
  clock : Option Nat
  cbase : BitVec 4
  oneck : Bool
  changeCount : BitVec 8
  mirror : List (Nat × Word)
  stage : Option WriteGroup
  heads : Vector Head 32
  zones : PerZone ZoneRec
  orders : PerSide OrderSide
  releases : PerSide ReleaseSide
  notices : PerSide NoticeSide
  views : PerSide View
  deriving DecidableEq, Repr

/-- Every unit's initial state, with the straps as sampled (R159). -/
def Units.initial (cbase : BitVec 4) (oneck : Bool) : Units :=
  { part := .transparent, config := none, clock := none, cbase := cbase, oneck := oneck, changeCount := 0,
    mirror := [], stage := none, heads := Vector.replicate 32 .cleared, zones := ⟨.cleared, .cleared⟩,
    orders := ⟨.cleared, .cleared⟩, releases := ⟨.cleared, .cleared⟩, notices := ⟨.cleared, .cleared⟩,
    views := ⟨.cleared, .cleared⟩ }

/-! ### The memory path (09) -/

/-- An access of a port: a read, or a write with its data word, with the four byte strobes (R133). -/
inductive Access where
  | read (addr : Addr) (strobes : BitVec 4)
  | write (addr : Addr) (strobes : BitVec 4) (data : Word)
  deriving DecidableEq, Repr

/-- What a port last received (R133). -/
inductive Answer where
  | none
  | acknowledged
  | data (word : Word)
  deriving DecidableEq, Repr

/-- A port's front end: the access it holds, the accesses the port has issued behind it, oldest first, and the
port's last answer (R133). -/
structure FrontEnd where
  current : Option Access
  upstream : List Access
  answer : Answer
  deriving DecidableEq, Repr

/-- An issue queue entry (R142). -/
structure QueueEntry where
  addr : Addr
  data : Word
  deriving DecidableEq, Repr

/-- The sources of the memory port (R141). -/
inductive Source where
  | port (p : Port)
  | queue
  deriving DecidableEq, Repr

/-- The owner of a held event (R143). A hold expiry names its order by the acceptance order on the side. -/
inductive Owner where
  | port (p : Port)
  | headTimer (head : Fin 32)
  | hold (side : Side) (accept : Nat)
  | release (side : Side)
  | double (side : Side)
  deriving DecidableEq, Repr

/-- A held event and the writes it needs, as last worked out (R144). -/
structure Held where
  owner : Owner
  need : Nat
  deriving DecidableEq, Repr

/-- The weigher memory as bytes: byte lane i of word a is cell 4 x a + i. Only cells that differ from 0 are listed,
in rising order (log entries 5 and 6). -/
abbrev Memory := List Host.Cell

/-- The machine: the units, the weigher memory, the issue queue oldest first, the START tail, the held list in the
order first held, the front ends, the last granted source, and the commands that wait. -/
structure State where
  units : Units
  mem : Memory
  queue : List QueueEntry
  startTail : List QueueEntry
  held : List Held
  ports : PerPort FrontEnd
  lastGranted : Source
  pending : List Instr
  deriving DecidableEq, Repr

/-- An idle front end that has received nothing. -/
def FrontEnd.cleared : FrontEnd := { current := none, upstream := [], answer := .none }

/-- The machine right after reset (R159, R141, R144, R145). CBASE 0 and ONECK clear stand for straps not yet
sampled: DESIGN CHOICE, log entry 8. Memory lists nothing: log entry 5. -/
def State.reset : State :=
  { units := .initial 0 false, mem := [], queue := [], startTail := [], held := [],
    ports := ⟨.cleared, .cleared, .cleared⟩, lastGranted := .queue, pending := [] }

/-- Why the machine may stop with a fault. The spec names no event that stops the part, so there is none: no command
raises a fault, which is safe and leaves nothing out (INVENTORY.md "Faults"). -/
inductive Fault where
  deriving DecidableEq, Repr

/-- Why the machine may refuse a command. -/
inductive Refusal where
  /-- The command has no meaning yet. Raised by an arm of exec and by nothing else; safe, as the run ends. No arm
  raises it now. -/
  | notModelled (mnemonic : String)
  deriving DecidableEq, Repr

end Sys2Proof.Machine
end

