-- ==== Sys2Proof/Machine/Operands.lean ====
section
/-! DEFINITION. The operand forms: every word that the part reads or forms, field by field, from the layouts of
chapter 12 (R168 to R176). A word the part forms is written as the concatenation of its fields from bit 31 down; a
bit without a field is 0 (R168). -/

namespace Sys2Proof.Machine

/-! ### Fields -/

/-- The unsigned value of len bits from bit lo up. -/
def bits (w : Word) (lo len : Nat) : Nat := (w.extractLsb' lo len).toNat

/-- A head number taken modulo 32; used only after a test against the head count, which is at most 32 (R149). -/
def headNumber (n : Nat) : Fin 32 := ⟨n % 32, Nat.mod_lt n (by decide)⟩

/-- The one-bit field of a Bool. -/
def bit (b : Bool) : BitVec 1 := BitVec.ofBool b

/-! ### Codes (R168) -/

def CycleName.code : CycleName → BitVec 3
  | .disabled => 0
  | .stopped => 1
  | .empty => 2
  | .settling => 3
  | .ready => 4
  | .claimed => 5
  | .discharging => 6
  | .out => 7

def CycleState.name : CycleState → CycleName
  | .disabled => .disabled
  | .stopped => .stopped
  | .empty => .empty
  | .settling => .settling
  | .ready => .ready
  | .claimed _ _ => .claimed
  | .discharging _ => .discharging
  | .out => .out

def Level.code : Level → BitVec 2
  | .good => 0
  | .watch => 1
  | .barred => 2
  | .out => 3

def PartState.code : PartState → BitVec 2
  | .transparent => 0
  | .stopped => 1
  | .running => 2
  | .draining => 3

def Destination.code : Destination → BitVec 2
  | .bag .a => 1
  | .bag .b => 2
  | .reject _ => 3

def portCode : Port → BitVec 2
  | .ca => 1
  | .cb => 2
  | .hl => 3

/-- The offer entry a word stands for; none for a code without a meaning (R168). -/
def Offer.ofWord (w : Word) : Option Offer :=
  if w = 1 then some .a else if w = 2 then some .b else if w = 3 then some .ab else none

/-! ### Report slot (R25, R169) -/

/-- A report header word's fields. -/
structure ReportHeader where
  seq : BitVec 8
  head : Fin 32
  boardFault : Bool
  hello : Bool
  gateClosed : Bool
  poolDrop : Bool
  still : Bool
  count : Nat
  echo : BitVec 4
  deriving DecidableEq, Repr

def reportHeader (w : Word) : ReportHeader :=
  { seq := w.extractLsb' 24 8, head := headNumber (bits w 16 5), boardFault := w.getLsbD 12, hello := w.getLsbD 11,
    gateClosed := w.getLsbD 10, poolDrop := w.getLsbD 9, still := w.getLsbD 8, count := bits w 4 3,
    echo := w.extractLsb' 0 4 }

/-! ### Write groups (R27, R28, R102) -/

/-- The word a stage keeps at an offset. -/
def WriteGroup.at (g : WriteGroup) : Nat → Option Word
  | 1 => g.w1
  | 2 => g.w2
  | 3 => g.w3
  | _ => none

/-- Keep a word at an offset of a group. -/
def WriteGroup.keep (g : WriteGroup) (off : Nat) (w : Word) : WriteGroup :=
  match off with
  | 1 => { g with w1 := some w }
  | 2 => { g with w2 := some w }
  | 3 => { g with w3 := some w }
  | _ => g

/-- A word written at an offset of a slot, against the stage as it stands: an empty stage begins, the same slot
keeps the word, another slot's group is discarded (R28, R102). -/
def stageWord (stage : Option WriteGroup) (slot off : Nat) (w : Word) : Option WriteGroup :=
  let fresh : WriteGroup := { slot := slot, w1 := none, w2 := none, w3 := none }
  match stage with
  | none => some (fresh.keep off w)
  | some g => if g.slot = slot then some (g.keep off w) else some (fresh.keep off w)

/-! ### Order slot (R171) -/

/-- The status SUBMIT of a commit word. -/
def isSubmit (w : Word) : Bool := bits w 30 2 == 1

def commitTag (w : Word) : BitVec 16 := w.extractLsb' 4 16

def commitCount (w : Word) : Nat := bits w 0 4

/-- The head number field at list position i (0 for the first), from head words 1 and 2. -/
def headField (w1 w2 : Word) (i : Nat) : Nat := if i < 4 then bits w1 (8 * i) 8 else bits w2 (8 * (i - 4)) 8

/-- Why an order is refused, in the order of the checks (R104). -/
inductive OrderReason where
  | notRunning | sideOff | incomplete | count | zone | duplicate | claimed | notReady | notOffered | total | window
  | queueFull | noticeFull
  deriving DecidableEq, Repr

def OrderReason.code : OrderReason → BitVec 4
  | .notRunning => 1
  | .sideOff => 2
  | .incomplete => 3
  | .count => 4
  | .zone => 5
  | .duplicate => 6
  | .claimed => 7
  | .notReady => 8
  | .notOffered => 9
  | .total => 10
  | .window => 11
  | .queueFull => 12
  | .noticeFull => 13

/-- The verdict of a commit (R108): a queue position, or a reason with a list position. -/
inductive OrderVerdict where
  | accepted (position : Nat)
  | refused (reason : OrderReason) (position : Nat)
  deriving DecidableEq, Repr

/-- The commit word as it reaches memory: tag and head count as written, status and detail replaced (R108). -/
def orderVerdictWord (w : Word) (v : OrderVerdict) : Word :=
  match v with
  | .accepted p => 2#2 ++ 0#4 ++ BitVec.ofNat 4 p ++ 0#2 ++ commitTag w ++ w.extractLsb' 0 4
  | .refused r p => 3#2 ++ r.code ++ BitVec.ofNat 4 p ++ 0#2 ++ commitTag w ++ w.extractLsb' 0 4

/-! ### FEED and GATE words (R172) -/

/-- The head feed envelope a word carries. -/
def envelopeOf (w : Word) : Envelope := { amplitude := bits w 0 7, tmin := bits w 8 8, tmax := bits w 16 8 }

/-- A valid feed envelope (R64). -/
def Envelope.valid (e : Envelope) : Bool := e.amplitude ≤ 100 && 1 ≤ e.tmin && e.tmin ≤ e.tmax

/-- The top envelope a word carries. -/
def topEnvelopeOf (w : Word) : TopEnvelope := { nominal := bits w 0 7, minimum := bits w 8 7, maximum := bits w 16 7 }

/-- A valid top envelope (R67, R68). -/
def TopEnvelope.valid (e : TopEnvelope) : Bool :=
  e.nominal ≤ 100 && e.minimum ≤ 100 && e.maximum ≤ 100 && e.minimum ≤ e.nominal && e.nominal ≤ e.maximum

/-- A feed order, or a stop with 0 ticks, as memory holds it. -/
def feedWord (amplitude ticks : Nat) (seq : BitVec 4) : Word :=
  0#12 ++ seq ++ BitVec.ofNat 8 ticks ++ 0#1 ++ BitVec.ofNat 7 amplitude

/-- A top order as memory holds it. -/
def topWord (applied : Nat) (seq : BitVec 4) : Word := 0#12 ++ seq ++ 0#9 ++ BitVec.ofNat 7 applied

/-- A gate command; the delay is in units of 5 ms (R123). -/
def gateWord (dest : Destination) (delay : Nat) (seq : BitVec 4) : Word :=
  0#12 ++ seq ++ 0#1 ++ BitVec.ofNat 7 delay ++ 0#6 ++ dest.code

/-! ### Candidate window (R168, R170) -/

def candidateHeaderWord (generation : BitVec 16) (part : PartState) (offered : Nat) : Word :=
  generation ++ 0#6 ++ part.code ++ 0#2 ++ BitVec.ofNat 6 offered

/-- An entry word: the age held at 15 (R168). -/
def candidateEntryWord (e : ViewEntry) : Word :=
  e.state.code ++ bit e.offered ++ bit e.stale ++ e.level.code ++ BitVec.ofNat 4 (min 15 e.age) ++ BitVec.ofInt 21 e.frozen

def candidateDeviationWord (e : ViewEntry) : Word := BitVec.ofNat 8 e.age ++ BitVec.ofInt 24 e.deviation

/-! ### Notice records (R173) -/

def PurgeReason.code : PurgeReason → BitVec 4
  | .over => 1
  | .under => 2
  | .stale => 3
  | .barred => 4
  | .unsettled => 5
  | .disturbed => 6
  | .command => 7
  | .start => 8
  | .recover => 9

def HealthCause.code : HealthCause → BitVec 4
  | .silence => 1
  | .settle => 2
  | .disturbed => 3
  | .range => 4
  | .zeroDrift => 5
  | .boardFault => 6
  | .gate => 7
  | .gateFinal => 8
  | .fill => 9
  | .confirm => 10
  | .recover => 11

def ReportCause.code : ReportCause → BitVec 4
  | .length => 1
  | .incomplete => 2
  | .range => 3

def WriteCause.code : WriteCause → BitVec 4
  | .permission => 1
  | .partialWrite => 2
  | .value => 3
  | .range => 4

def TrimCause.code : TrimCause → BitVec 4
  | .tmax => 1
  | .tmin => 2
  | .over => 3
  | .under => 4

def WithdrawReason.code : WithdrawReason → BitVec 4
  | .disturbed => 1
  | .barred => 2
  | .headOut => 3
  | .halt => 4

/-- Word 0 of a head notice: kind, reason or cause, head, number. -/
def headFrame (kind code : BitVec 4) (head : Fin 32) (number : BitVec 16) : Word :=
  kind ++ code ++ 0#3 ++ BitVec.ofNat 5 head.val ++ number

/-- The head number at list position i (0 for the first), 0 beyond the list. -/
def listedHead (heads : List (Fin 32)) (i : Nat) : BitVec 5 := BitVec.ofNat 5 ((heads[i]?.map Fin.val).getD 0)

/-- Words 2 and 3 of an order notice: the heads and the declared total. -/
def orderWord2 (heads : List (Fin 32)) : Word :=
  0#2 ++ listedHead heads 5 ++ listedHead heads 4 ++ listedHead heads 3 ++ listedHead heads 2 ++ listedHead heads 1
    ++ listedHead heads 0

def orderWord3 (heads : List (Fin 32)) (total : Int) : Word :=
  listedHead heads 7 ++ listedHead heads 6 ++ BitVec.ofInt 22 total

/-- The unconfirmed positions of a dump: bit 0 for position 1 to bit 7 for position 8. -/
def unconfirmedBits (heads : List (Fin 32 × Mark)) : BitVec 8 :=
  let at_ (i : Nat) : BitVec 1 := bit ((heads[i]?.map Prod.snd) == some Mark.unconfirmed)
  at_ 7 ++ at_ 6 ++ at_ 5 ++ at_ 4 ++ at_ 3 ++ at_ 2 ++ at_ 1 ++ at_ 0

/-- A notice's four words, with its number. -/
def Notice.words (number : BitVec 16) : Notice → List Word
  | .purge h r g w =>
      [headFrame 1 r.code h number, 0#23 ++ bit w.isSome ++ 0#4 ++ g, BitVec.ofInt 32 (w.getD 0), 0]
  | .healthLevel h old new counter cause =>
      [headFrame 2 cause.code h number, 0#7 ++ BitVec.ofNat 9 counter ++ 0#10 ++ new.code ++ 0#2 ++ old.code, 0, 0]
  | .zeroDrift h q w z => [headFrame 3 0 h number, 0#24 ++ q, BitVec.ofInt 32 w, BitVec.ofInt 32 z]
  | .headPresent h q => [headFrame 4 0 h number, 0#24 ++ q, 0, 0]
  | .reportRefused c slot h q n sample =>
      [headFrame 5 c.code h number,
       0#2 ++ BitVec.ofNat 2 sample ++ 0#1 ++ BitVec.ofNat 3 n ++ q ++ 0#7 ++ BitVec.ofNat 9 slot, 0, 0]
  | .writeRefused p a c => [headFrame 6 c.code 0 number, 0#30 ++ portCode p, 0#12 ++ a, 0]
  | .topTrim z c h trim applied =>
      [headFrame 7 c.code h number,
       0#9 ++ BitVec.ofNat 7 applied ++ BitVec.ofInt 8 trim ++ 0#7 ++ BitVec.ofNat 1 z.number, 0, 0]
  | .orderExpired tag heads total =>
      [8#4 ++ 0#8 ++ BitVec.ofNat 4 heads.length ++ number, tag ++ 0#16, orderWord2 heads, orderWord3 heads total]
  | .orderWithdrawn tag r off heads total =>
      [9#4 ++ r.code ++ BitVec.ofNat 4 ((off.map Prod.snd).getD 0) ++ BitVec.ofNat 4 heads.length ++ number,
       tag ++ 0#11 ++ BitVec.ofNat 5 ((off.map fun x => x.1.val).getD 0), orderWord2 heads, orderWord3 heads total]
  | .dumpComplete tag heads total giveaway =>
      [10#4 ++ unconfirmedBits heads ++ BitVec.ofNat 4 heads.length ++ number, tag ++ BitVec.ofInt 16 giveaway,
       orderWord2 (heads.map Prod.fst), orderWord3 (heads.map Prod.fst) total]

/-! ### Command word (R152, R176) -/

/-- The commands (R152). -/
inductive Command where
  | load | unload | start | stop | halt | headEnable | headDisable | recover | headPurge | zeroSet | applySide
  | applyZone | noteAck
  deriving DecidableEq, Repr

def Command.code : Command → BitVec 5
  | .load => 1
  | .unload => 2
  | .start => 3
  | .stop => 4
  | .halt => 5
  | .headEnable => 6
  | .headDisable => 7
  | .recover => 8
  | .headPurge => 9
  | .zeroSet => 10
  | .applySide => 11
  | .applyZone => 12
  | .noteAck => 13

/-- The command a code names; none for a code without a meaning (R168). -/
def Command.ofCode (c : BitVec 5) : Option Command :=
  match c.toNat with
  | 1 => some .load
  | 2 => some .unload
  | 3 => some .start
  | 4 => some .stop
  | 5 => some .halt
  | 6 => some .headEnable
  | 7 => some .headDisable
  | 8 => some .recover
  | 9 => some .headPurge
  | 10 => some .zeroSet
  | 11 => some .applySide
  | 12 => some .applyZone
  | 13 => some .noteAck
  | _ => none

def isIssue (w : Word) : Bool := bits w 30 2 == 1

def commandCode (w : Word) : BitVec 5 := w.extractLsb' 25 5

def commandArg (w : Word) : BitVec 8 := w.extractLsb' 0 8

/-- The word a port writes to issue a command. -/
def issueWord (c : Command) (arg : BitVec 8) : Word := 1#2 ++ c.code ++ 0#3 ++ 0#14 ++ arg

/-- Why a command is refused (R152). -/
inductive CommandReason where
  | state | arg | busy | check
  deriving DecidableEq, Repr

def CommandReason.code : CommandReason → BitVec 3
  | .state => 1
  | .arg => 2
  | .busy => 3
  | .check => 4

/-- A command's verdict with its detail field, bits 21:8 of the word (R176). -/
inductive Verdict where
  | done (detail : BitVec 14)
  | refused (reason : CommandReason) (detail : BitVec 14)
  deriving DecidableEq, Repr

/-- The command word as it reaches memory: code and argument kept (R152). -/
def verdictWord (w : Word) : Verdict → Word
  | .done d => 2#2 ++ commandCode w ++ 0#3 ++ d ++ commandArg w
  | .refused r d => 3#2 ++ commandCode w ++ r.code ++ d ++ commandArg w

/-- Detail APPLIED and STAGED (R76, R116). -/
def detailApplied : BitVec 14 := 1
def detailStaged : BitVec 14 := 2

/-- Detail DRAINING and STOPPED of STOP (R155). -/
def detailDraining : BitVec 14 := 3
def detailStopped : BitVec 14 := 4

/-- Detail of BUSY and of START's CHECK for a head: bits 12:8 of the word. -/
def detailHead (h : Fin 32) : BitVec 14 := 0#9 ++ BitVec.ofNat 5 h.val

/-- Detail of START's CHECK for a zone: bit 13 of the word set, the zone in bits 12:8. -/
def detailZone (z : Zone) : BitVec 14 := 0#8 ++ 1#1 ++ BitVec.ofNat 5 z.number

/-- Detail of CHECK of APPLY_SIDE and APPLY_ZONE: the check number in bits 18:14 of the word. -/
def detailCheck (check : Nat) : BitVec 14 := 0#3 ++ BitVec.ofNat 5 check ++ 0#6

/-- The part of LOAD's configuration that failed (R150). -/
inductive LoadPart where
  | record | windows | sideA | sideB | zone0 | zone1
  deriving DecidableEq, Repr

def LoadPart.code : LoadPart → BitVec 3
  | .record => 1
  | .windows => 2
  | .sideA => 3
  | .sideB => 4
  | .zone0 => 5
  | .zone1 => 6

/-- Detail of CHECK of LOAD: part in 21:19, check in 18:14, window in 13:10. -/
def detailLoad (part : LoadPart) (check window : Nat) : BitVec 14 :=
  part.code ++ BitVec.ofNat 5 check ++ BitVec.ofNat 4 window ++ 0#2

/-! ### Status word (R158, R175) -/

def statusWord (part : PartState) (cbase : BitVec 4) (oneck : Bool) (count : BitVec 8) : Word :=
  0#8 ++ count ++ 0#7 ++ bit oneck ++ cbase ++ 0#2 ++ part.code

/-! ### Configuration record and parameter blocks (R75, R115, R149, R174), read through a word reader -/

/-- The number of the first failing check of a table, from 1; none when every check passes. -/
def firstFailing (checks : List Bool) : Option Nat := (checks.findIdx? (· == false)).map (· + 1)

/-- The checks of the configuration record's own fields, in the order of R149. -/
def recordChecks (r : Nat → Word) : List Bool :=
  let heads := (r 0).toNat
  let zones := (r 1).toNat
  let split := (r 2).toNat
  let aOn := (r 3).getLsbD 0
  let aZone1 := (r 3).getLsbD 1
  let bOn := (r 3).getLsbD 4
  let bZone1 := (r 3).getLsbD 5
  let ok (on zone1 : Bool) : Bool := !on || !zone1 || zones == 2
  let covers (zone1 : Bool) : Bool := (aOn && aZone1 == zone1) || (bOn && bZone1 == zone1)
  [ 1 ≤ heads && heads ≤ 32,
    zones == 1 || zones == 2,
    zones != 2 || (1 ≤ split && split + 1 ≤ heads),
    ok aOn aZone1 && ok bOn bZone1,
    covers false && (zones != 2 || covers true),
    1000 ≤ (r 4).toNat && (r 4).toNat ≤ 100000,
    16 ≤ (r 5).toNat && (r 5).toNat ≤ 512,
    2 ≤ (r 6).toNat && (r 6).toNat ≤ 16 && 2 ≤ (r 7).toNat && (r 7).toNat ≤ 16,
    16 ≤ (r 8).toNat && (r 8).toNat ≤ 256 && 16 ≤ (r 9).toNat && (r 9).toNat ≤ 256 ]

/-- The nine windows in the order of the table in R135. -/
def windowOrder : List Window :=
  [.report, .candidate .a, .candidate .b, .order .a, .order .b, .feed, .gate, .notice .a, .notice .b]

/-- A window's row of the table: base then size, from 00Ah on (R174). -/
def windowRows (r : Nat → Word) : List WindowRow :=
  windowOrder.zipIdx.map fun (w, i) =>
    { window := w, base := (r (0x00A + 2 * i)).toNat, size := (r (0x00B + 2 * i)).toNat }

/-- The configuration the record holds. -/
def loadedOf (r : Nat → Word) : Loaded :=
  let bind (on zone1 : Bool) : Option Zone := if on then some (if zone1 then .z1 else .z0) else none
  { headCount := (r 0).toNat, zoneCount := (r 1).toNat, split := (r 2).toNat,
    binding := ⟨bind ((r 3).getLsbD 0) ((r 3).getLsbD 1), bind ((r 3).getLsbD 4) ((r 3).getLsbD 5)⟩,
    clockKHz := (r 4).toNat, reportSlots := (r 5).toNat, orderSlots := ⟨(r 6).toNat, (r 7).toNat⟩,
    ringSize := ⟨(r 8).toNat, (r 9).toNat⟩, windows := windowRows r }

/-- A window's required size in words (R135). -/
def requiredSize (c : Loaded) : Window → Nat
  | .report => 4 * c.reportSlots
  | .candidate _ => 65
  | .order s => 4 * c.orderSlots.get s
  | .feed => 34
  | .gate => 32
  | .notice s => 4 * c.ringSize.get s

/-- Two address ranges share an address. -/
def overlaps (base size base' size' : Nat) : Bool := base < base' + size' && base' < base + size

/-- The window checks of R136 in their order: for each check, which rows fail it. -/
def windowChecks (c : Loaded) (cbase : BitVec 4) : List (List Bool) :=
  let rows := c.windows
  [ rows.map fun w => w.size == requiredSize c w.window,
    rows.map fun w => w.base + w.size ≤ Config.lastAddress + 1,
    rows.zipIdx.map fun (w, i) => !(rows.take i).any fun v => overlaps v.base v.size w.base w.size,
    rows.map fun w => !overlaps w.base w.size (cbase.toNat * 65536) Config.controlWords ]

/-- The first failing window check and window, both from 1 (R136). -/
def firstFailingWindow (checks : List (List Bool)) : Option (Nat × Nat) :=
  (checks.zipIdx.filterMap fun (rows, i) => (firstFailing rows).map fun w => (i + 1, w)).head?

/-- The seven checks of a side block, in the order of R115. -/
def sideChecks (r : Nat → Word) : List Bool :=
  let lo := (r 0).toInt
  let target := (r 1).toInt
  let hi := (r 2).toInt
  let least := (r 3).toNat
  let most := (r 4).toNat
  [ 0 ≤ lo && lo ≤ 4000000,
    lo ≤ target && target ≤ 4000000,
    target ≤ hi && hi ≤ 4000000,
    1 ≤ least && least ≤ 8,
    least ≤ most && most ≤ 8,
    100 ≤ (r 5).toNat && (r 5).toNat ≤ 10000,
    r 6 == 0 || r 6 == 1 ]

/-- The side block the words hold. -/
def sideBlockOf (r : Nat → Word) : SideBlock :=
  { bagMin := (r 0).toInt, bagTarget := (r 1).toInt, bagMax := (r 2).toInt, minHeads := (r 3).toNat,
    maxHeads := (r 4).toNat, holdLimit := (r 5).toNat, intake := r 6 == 1 }

/-- Spread entries 0 to L - 1; at most 16 are read (R75, R174). -/
def spreadOf (r : Nat → Word) : List Int :=
  (List.range (min 16 (r 0x01).toNat)).map fun i => (r (0x02 + i)).toInt

/-- Offer entries 0 to length - 1, each as its code stands for one. -/
def offerWords (r : Nat → Word) : List Word := (List.range (min 16 (r 0x12).toNat)).map fun i => r (0x13 + i)

/-- The nineteen checks of a zone block, in the order of R75. -/
def zoneChecks (r : Nat → Word) : List Bool :=
  let share := (r 0x00).toInt
  let stale := (r 0x23).toNat
  let purge := (r 0x24).toNat
  let band (i : Nat) (most : Int) : Bool := 0 ≤ (r i).toInt && (r i).toInt ≤ most
  let minFill := (r 0x28).toInt
  let ceiling := (r 0x29).toInt
  let within (i lo hi : Nat) : Bool := lo ≤ (r i).toNat && (r i).toNat ≤ hi
  [ 1000 ≤ share && share ≤ 500000,
    within 0x01 1 16,
    (spreadOf r).all fun x => -32768 ≤ x && x ≤ 32767,
    within 0x12 1 16,
    (offerWords r).all fun w => (Offer.ofWord w).isSome,
    1 ≤ stale && stale ≤ 63,
    purge == 0 || (stale + 1 ≤ purge && purge ≤ 255),
    band 0x25 5000,
    band 0x26 20000,
    band 0x27 20000,
    band 0x28 500000,
    minFill < ceiling && ceiling ≤ 2000000,
    (spreadOf r).all fun x => minFill ≤ max Config.targetFloor (share + x) && max Config.targetFloor (share + x) ≤ ceiling,
    band 0x2A 20000,
    within 0x2B 50 2550,
    within 0x2C 20 1000,
    within 0x2D 100 5000,
    (r 0x2E).toNat ≤ 15,
    within 0x2F 16 1048575 ]

/-- The zone block the words hold. -/
def zoneBlockOf (r : Nat → Word) : ZoneBlock :=
  { share := (r 0x00).toInt, spread := spreadOf r, offer := (offerWords r).filterMap Offer.ofWord,
    staleAge := (r 0x23).toNat, purgeAge := (r 0x24).toNat, stabilityBand := (r 0x25).toInt,
    zeroBand := (r 0x26).toInt, emptyBand := (r 0x27).toInt, minFill := (r 0x28).toInt, ceiling := (r 0x29).toInt,
    disturbBand := (r 0x2A).toInt, settleLimit := (r 0x2B).toNat, gateLimit := (r 0x2C).toNat,
    silenceLimit := (r 0x2D).toNat, stagger := (r 0x2E).toNat, initialYield := (r 0x2F).toNat }

/-- Where the side and zone blocks stand in the control block (R174). -/
def sideBlockOffset : Side → Nat
  | .a => 0x020
  | .b => 0x028

def zoneBlockOffset : Zone → Nat
  | .z0 => 0x040
  | .z1 => 0x080

end Sys2Proof.Machine
end

