-- ==== Sys2Proof/Machine/Flags.lean ====
section
/-! DEFINITION. Every flag computation of the notice unit: flags, lead cause, flag word, ring counts and the rise of
note pending (R160 to R167), and the level of the health counter (R4). -/

namespace Sys2Proof.Machine

/-- The level of a health counter (R4). -/
def levelOf (counter : Nat) : Level :=
  if counter < 96 then .good else if counter < 128 then .watch else if counter < 256 then .barred else .out

/-- A flag's bit in the flag, clear and enable words: flag 1 is bit 0 (R165, R175). -/
def Flag.index : Flag → Nat
  | .noticeWritten => 0
  | .noticeLost => 1
  | .ringHigh => 2
  | .writeRefused => 3
  | .doubleRequest => 4
  | .headOut => 5
  | .orderEnded => 6
  | .partState => 7

/-- A flag's mask. -/
def Flag.mask (f : Flag) : BitVec 8 := 1#8 <<< f.index

/-- The flag is set. -/
def NoticeSide.has (n : NoticeSide) (f : Flag) : Bool := n.flags.getLsbD f.index

/-- Set a flag; a flag already set stays set (R165). -/
def NoticeSide.setFlag (n : NoticeSide) (f : Flag) : NoticeSide := { n with flags := n.flags ||| f.mask }

/-- The lead cause: the number of the lowest-numbered flag that is both set and enabled, 0 for none (R165). -/
def leadCause (flags enables : BitVec 8) : Nat :=
  match (List.range 8).find? (fun i => (flags &&& enables).getLsbD i) with
  | some i => i + 1
  | none => 0

/-- The side's flag word: write index, lead cause and all eight flags (R165, R175). -/
def NoticeSide.flagWord (n : NoticeSide) : Word :=
  0#8 ++ BitVec.ofNat 8 n.writeIx ++ 0#4 ++ BitVec.ofNat 4 (leadCause n.flags n.enables) ++ n.flags

/-- An enabled flag goes from 0 to 1 (R167). -/
def flagRises (before after : NoticeSide) : Bool := (after.flags &&& ~~~before.flags &&& after.enables) != 0

/-- The unread count of a ring of size entries (R160). -/
def NoticeSide.unread (n : NoticeSide) (size : Nat) : Nat := (n.writeIx + size - n.consumeIx) % size

/-- The ring's free entries (R160). -/
def NoticeSide.ringFree (n : NoticeSide) (size : Nat) : Nat := size - 1 - n.unread size

/-- The side's room: free ring entries plus free holding queue entries (R162). -/
def NoticeSide.room (n : NoticeSide) (size : Nat) : Nat :=
  n.ringFree size + (Config.holdingDepth - n.holding.length)

/-- A clear write's effect: bits written as 1 clear their flags, and note pending is cleared when no flag is left
both set and enabled (R166). -/
def NoticeSide.clear (n : NoticeSide) (w : Word) : NoticeSide :=
  let flags := n.flags &&& ~~~(w.extractLsb' 0 8)
  { n with flags := flags, notePending := n.notePending && (flags &&& n.enables) != 0 }

/-- An enable write's effect: the value replaces the enable bits, and note pending is set when a bit goes from 0 to 1
while its flag is set (R166). -/
def NoticeSide.enable (n : NoticeSide) (w : Word) : NoticeSide :=
  let enables := w.extractLsb' 0 8
  { n with enables := enables, notePending := n.notePending || (enables &&& ~~~n.enables &&& n.flags) != 0 }

end Sys2Proof.Machine
end

