-- ==== Sys2Proof/Machine/Ops.lean ====
section
/-! DEFINITION. The named operations that the units share: reads and writes of sparse cells (memory and control
mirror), the record accessors, an event in the making (Ev) with the writes it puts into the issue queue, notices,
head timers, gate commands and purges, feed orders and stops, and the top trim. -/

namespace Sys2Proof.Machine

/-! ### Sparse cells: keys strictly rising, no cell equal to 0 -/

/-- The value of a key; an unlisted key reads 0. -/
def Cells.read {n : Nat} : List (Nat × BitVec n) → Nat → BitVec n
  | [], _ => 0
  | (k, v) :: rest, a => if k = a then v else Cells.read rest a

/-- Write a key, keeping the canonical form: writing 0 removes the cell. -/
def Cells.write {n : Nat} : List (Nat × BitVec n) → Nat → BitVec n → List (Nat × BitVec n)
  | [], a, v => if v = 0 then [] else [(a, v)]
  | (k, w) :: rest, a, v =>
    if a < k then (if v = 0 then (k, w) :: rest else (a, v) :: (k, w) :: rest)
    else if a = k then (if v = 0 then rest else (a, v) :: rest)
    else (k, w) :: Cells.write rest a v

/-- Every key of the list is above a bound. -/
def Cells.above {n : Nat} (b : Nat) : List (Nat × BitVec n) → Bool
  | [] => true
  | (k, _) :: _ => b < k

/-- The canonical form. -/
def Cells.wf {n : Nat} : List (Nat × BitVec n) → Bool
  | [] => true
  | (k, v) :: rest => v != 0 && Cells.above k rest && Cells.wf rest

/-- The canonical form of the weigher memory. -/
def Memory.wf (m : Memory) : Bool := Cells.wf m

/-- One byte lane of a word address. -/
def Memory.byte (m : Memory) (addr : Addr) (lane : Nat) : Byte := Cells.read m (4 * addr.toNat + lane)

/-- Memory's word at an address: lane i is bits 8i+7..8i (log entry 6). -/
def Memory.word (m : Memory) (addr : Addr) : Word :=
  m.byte addr 3 ++ m.byte addr 2 ++ m.byte addr 1 ++ m.byte addr 0

/-- Write one lane if its strobe is on (log entry 6). -/
def Memory.lane (m : Memory) (addr : Addr) (strobes : BitVec 4) (w : Word) (lane : Nat) : Memory :=
  if strobes.getLsbD lane then Cells.write m (4 * addr.toNat + lane) (w.extractLsb' (8 * lane) 8) else m

/-- A write with its strobes (R137). -/
def Memory.write (m : Memory) (addr : Addr) (strobes : BitVec 4) (w : Word) : Memory :=
  (((m.lane addr strobes w 0).lane addr strobes w 1).lane addr strobes w 2).lane addr strobes w 3

/-- All four strobes on. -/
def allStrobes : BitVec 4 := 15

/-- A word with the lanes of another one whose strobes are on (R140). -/
def mergeLanes (old new : Word) (strobes : BitVec 4) : Word :=
  let pick (lane : Nat) : Byte :=
    if strobes.getLsbD lane then new.extractLsb' (8 * lane) 8 else old.extractLsb' (8 * lane) 8
  pick 3 ++ pick 2 ++ pick 1 ++ pick 0

/-! ### Reading the units -/

/-- All head numbers in increasing order. -/
def allHeads : List (Fin 32) :=
  [0, 1, 2, 3, 4, 5, 6, 7, 8, 9, 10, 11, 12, 13, 14, 15, 16, 17, 18, 19, 20, 21, 22, 23, 24, 25, 26, 27, 28, 29, 30, 31]

/-- A head's record. -/
def Units.head (u : Units) (h : Fin 32) : Head := u.heads[h.val]

/-- Replace a head's record. -/
def Units.setHead (u : Units) (h : Fin 32) (x : Head) : Units := { u with heads := u.heads.set h.val x h.isLt }

/-- Replace one thing of a zone or a side: zone record, order unit, release unit, notice unit, snapshot. -/
def Units.setZone (u : Units) (z : Zone) (x : ZoneRec) : Units := { u with zones := u.zones.set z x }

def Units.setOrder (u : Units) (s : Side) (x : OrderSide) : Units := { u with orders := u.orders.set s x }

def Units.setRelease (u : Units) (s : Side) (x : ReleaseSide) : Units := { u with releases := u.releases.set s x }

def Units.setNotice (u : Units) (s : Side) (x : NoticeSide) : Units := { u with notices := u.notices.set s x }

def Units.setView (u : Units) (s : Side) (x : View) : Units := { u with views := u.views.set s x }

/-- A word enters the control mirror at an offset (R148). -/
def Units.setMirror (u : Units) (offset : Nat) (w : Word) : Units := { u with mirror := Cells.write u.mirror offset w }

/-- The HL write-group stage takes a value (R27). -/
def Units.setStage (u : Units) (g : Option WriteGroup) : Units := { u with stage := g }

/-- The part goes to a part state. -/
def Units.setPart (u : Units) (p : PartState) : Units := { u with part := p }

/-- A control mirror word (R148). -/
def Units.mirrorWord (u : Units) (offset : Nat) : Word := Cells.read u.mirror offset

/-- The head count in force; 0 while no configuration is loaded. -/
def Units.headCount (u : Units) : Nat := (u.config.map Loaded.headCount).getD 0

/-- The zone count in force. -/
def Units.zoneCount (u : Units) : Nat := (u.config.map Loaded.zoneCount).getD 0

/-- The zone a head number belongs to (R73). -/
def Units.zoneOf (u : Units) (h : Nat) : Option Zone :=
  match u.config with
  | none => none
  | some c =>
    if h < c.headCount then (if c.zoneCount = 2 ∧ c.split ≤ h then some .z1 else some .z0) else none

/-- The first head of a zone (R73). -/
def Units.firstHead (u : Units) : Zone → Nat
  | .z0 => 0
  | .z1 => (u.config.map Loaded.split).getD 0

/-- The zone a side is bound to; none for a side that is not enabled. -/
def Units.binding (u : Units) (s : Side) : Option Zone := u.config.bind fun c => c.binding.get s

/-- The side is enabled in the loaded configuration. -/
def Units.enabled (u : Units) (s : Side) : Bool := (u.binding s).isSome

/-- The reporting side of a zone: A when side A is bound to it, B otherwise (R163). -/
def Units.reporting (u : Units) (z : Zone) : Side := if u.binding .a = some z then .a else .b

/-- The reporting side of a head's zone. -/
def Units.reportingHead (u : Units) (h : Fin 32) : Side := ((u.zoneOf h.val).map u.reporting).getD .a

/-- The zone parameters read where no zone has any; no reachable state reads them (R74; log entry 16). -/
def ZoneBlock.unread : ZoneBlock :=
  { share := 0, spread := [], offer := [], staleAge := 0, purgeAge := 0, stabilityBand := 0, zeroBand := 0,
    emptyBand := 0, minFill := 0, ceiling := 0, disturbBand := 0, settleLimit := 0, gateLimit := 0,
    silenceLimit := 0, stagger := 0, initialYield := Config.yieldMin }

/-- A zone's live parameters (R74). -/
def Units.zoneParams (u : Units) (z : Zone) : ZoneBlock := (u.zones.get z).live.getD .unread

/-- The live parameters of a head's zone. -/
def Units.params (u : Units) (h : Fin 32) : ZoneBlock := ((u.zoneOf h.val).map u.zoneParams).getD .unread

/-- A side's ring size in entries (R160). -/
def Units.ringSize (u : Units) (s : Side) : Nat := (u.config.map fun c => c.ringSize.get s).getD 0

/-- A window's base address in the table in force (R135). -/
def Units.base (u : Units) (w : Window) : Nat :=
  ((u.config.bind fun c => c.windows.find? fun r => r.window = w).map WindowRow.base).getD 0

/-- The control block's first address (R135, R147). -/
def Units.controlBase (u : Units) : Nat := u.cbase.toNat * 65536

/-- The addresses of the words the part writes in the control block (R174). -/
def Units.flagAddr (u : Units) (s : Side) : Addr := BitVec.ofNat 20 (u.controlBase + 0x108 + s.number)

def Units.statusAddr (u : Units) : Addr := BitVec.ofNat 20 (u.controlBase + 0x10A)

/-- The fill target of a head (R57): the share plus its spread entry, raised to 500 mg. -/
def Units.fillTarget (u : Units) (h : Fin 32) : Int :=
  match u.zoneOf h.val with
  | none => Config.targetFloor
  | some z =>
    let p := u.zoneParams z
    max Config.targetFloor (p.share + p.spread.getD ((h.val - u.firstHead z) % p.spread.length) 0)

/-- A head is granted to a side (R81): with one side bound every head of the zone is; with two, by the offer entry at
the rotation. -/
def Units.granted (u : Units) (h : Fin 32) (s : Side) : Bool :=
  match u.zoneOf h.val with
  | none => false
  | some z =>
    if u.binding s ≠ some z then false
    else if u.binding .a = some z ∧ u.binding .b = some z then
      let p := u.zoneParams z
      match p.offer[(h.val - u.firstHead z + (u.zones.get z).rotation) % p.offer.length]? with
      | some .ab => true
      | some .a => s = .a
      | some .b => s = .b
      | none => false
    else true

/-- The part is RUNNING or DRAINING. -/
def Units.active (u : Units) : Bool := u.part = .running || u.part = .draining

/-! ### An event in the making (R10, R142, R143) -/

/-- An event's effects so far: the units as it leaves them, the writes it puts into the issue queue in order, the
entries left for a release's notices (R122), whether a release that the event allows may be taken in it (R120,
R128), the sides for which a release requires a flag word entry (R122), and, for a port's write, the word it
carries to memory, none when it is refused (R138, R139). -/
structure Ev where
  units : Units
  out : List QueueEntry
  spare : Nat
  release : Bool
  required : PerSide Bool
  word : Option Word

/-- An event before its first effect. -/
def Ev.begin (u : Units) (release : Bool) (spare : Nat) : Ev :=
  { units := u, out := [], spare := spare, release := release, required := ⟨false, false⟩, word := none }

/-- Put one write into the issue queue. -/
def Ev.push (e : Ev) (addr : Addr) (data : Word) : Ev := { e with out := e.out ++ [⟨addr, data⟩] }

/-- Change the units. -/
def Ev.mod (e : Ev) (f : Units → Units) : Ev := { e with units := f e.units }

/-- Change one head record. -/
def Ev.modHead (e : Ev) (h : Fin 32) (f : Head → Head) : Ev :=
  { e with units := e.units.setHead h (f (e.units.head h)) }

/-- Change one zone record. -/
def Ev.modZone (e : Ev) (z : Zone) (f : ZoneRec → ZoneRec) : Ev :=
  { e with units := e.units.setZone z (f (e.units.zones.get z)) }

/-- Change one side's order unit. -/
def Ev.modOrder (e : Ev) (s : Side) (f : OrderSide → OrderSide) : Ev :=
  { e with units := e.units.setOrder s (f (e.units.orders.get s)) }

/-- Change one side's release unit. -/
def Ev.modRelease (e : Ev) (s : Side) (f : ReleaseSide → ReleaseSide) : Ev :=
  { e with units := e.units.setRelease s (f (e.units.releases.get s)) }

/-- Change one side's notice unit. -/
def Ev.modNotice (e : Ev) (s : Side) (f : NoticeSide → NoticeSide) : Ev :=
  { e with units := e.units.setNotice s (f (e.units.notices.get s)) }

/-- Do something for each head number of a list, in order. -/
def Ev.eachHead (e : Ev) (hs : List (Fin 32)) (f : Fin 32 → Ev → Ev) : Ev := hs.foldl (fun e h => f h e) e

/-! ### Notices and flags (R160 to R165) -/

/-- Set a flag of a side. -/
def Ev.setFlag (e : Ev) (s : Side) (f : Flag) : Ev := e.modNotice s fun n => n.setFlag f

/-- Write a numbered notice into the ring at the write index (R160, R161 case 1). -/
def Ev.ringWrite (e : Ev) (s : Side) (number : BitVec 16) (n : Notice) : Ev :=
  let size := e.units.ringSize s
  let at_ := e.units.base (.notice s) + 4 * (e.units.notices.get s).writeIx
  let writes := (n.words number).zipIdx.map fun (w, i) => (⟨BitVec.ofNat 20 (at_ + i), w⟩ : QueueEntry)
  let e := { e with out := e.out ++ writes }
  e.modNotice s fun r =>
    let r := { r with writeIx := (r.writeIx + 1) % size }
    let r := r.setFlag .noticeWritten
    if 3 * size ≤ r.unread size * 4 then r.setFlag .ringHigh else r

/-- A notice takes the side's next number (R161). -/
def Ev.takeNumber (e : Ev) (s : Side) : Ev := e.modNotice s fun r => { r with number := r.number + 1 }

/-- A notice placed now goes into the ring (R161 case 1). -/
def Ev.ringOpen (e : Ev) (s : Side) : Bool :=
  let r := e.units.notices.get s
  r.holding.isEmpty && 0 < r.ringFree (e.units.ringSize s)

/-- Join the holding queue at its tail when it has a free entry (R161 case 2). -/
def Ev.holdNotice (e : Ev) (s : Side) (n : Notice) : Ev :=
  e.modNotice s fun r =>
    if r.holding.length < Config.holdingDepth then { r with holding := r.holding ++ [(r.number, n)] } else r

/-- Place a notice that has taken its number (R161). -/
def Ev.place (e : Ev) (s : Side) (n : Notice) : Ev :=
  if e.ringOpen s then e.ringWrite s (e.units.notices.get s).number n else e.holdNotice s n

/-- The room test of a head notice (R162). -/
def Ev.hasRoom (e : Ev) (s : Side) : Bool :=
  let r := e.units.notices.get s
  r.reservations < r.room (e.units.ringSize s)

/-- Raise a head notice: it takes a number and is placed, or dropped with NOTICE-LOST (R161, R162). -/
def Ev.headNotice (e : Ev) (s : Side) (n : Notice) : Ev :=
  let e := e.takeNumber s
  if e.hasRoom s then e.place s n else e.setFlag s .noticeLost

/-- Raise an order notice: placed with the reservation of its order or dump, which is consumed (R162). -/
def Ev.orderNotice (e : Ev) (s : Side) (n : Notice) : Ev :=
  ((e.takeNumber s).place s n).modNotice s fun r => { r with reservations := r.reservations - 1 }

/-- Raise the PURGE notice of a STALE purge in a release: subject to the room test and, in the ring, to four entries
beyond the required writes (R122). -/
def Ev.releaseNotice (e : Ev) (s : Side) (n : Notice) : Ev :=
  let e := e.takeNumber s
  if !e.hasRoom s then e.setFlag s .noticeLost
  else if !e.ringOpen s then e.holdNotice s n
  else if 4 ≤ e.spare then { e.place s n with spare := e.spare - 4 }
  else e.setFlag s .noticeLost

/-! ### Head timers (R8, R50) -/

/-- The limit of a timer kind in a zone's live parameters (R8). -/
def ZoneBlock.limit (p : ZoneBlock) : TimerKind → Nat
  | .settle => p.settleLimit
  | .gate => p.gateLimit
  | .silence => p.silenceLimit

/-- Start or restart a head's timer with the zone's limit in force (R8). A pending expiry is thereby discarded
(R50). -/
def Ev.startTimer (e : Ev) (h : Fin 32) (k : TimerKind) : Ev :=
  e.modHead h fun x => { x with timer := .running k ((e.units.params h).limit k) }

/-- A head goes to READY, EMPTY or CLAIMED, each with its SILENCE timer (R8). -/
def Ev.enterWatched (e : Ev) (h : Fin 32) (st : CycleState) : Ev :=
  (e.modHead h fun x => { x with state := st }).startTimer h .silence

/-- A head goes to STOPPED (R23): timer stopped, frozen net weight and bucket feed record absent. -/
def Ev.stopHead (e : Ev) (h : Fin 32) : Ev :=
  e.modHead h fun x => { x with state := .stopped, timer := .stopped, frozen := none, bucket := none }

/-! ### Gate commands and purges (R19, R20, R123, R129) -/

/-- A head goes to DISCHARGING: retry used no, gate sequence incremented, GATE timer started (R19, R20). -/
def Ev.enterDischarge (e : Ev) (h : Fin 32) (d : Destination) : Ev :=
  (e.modHead h fun x => { x with state := .discharging d, retryUsed := false, gateSeq := x.gateSeq + 1 }).startTimer h .gate

/-- Queue a gate command for a head: destination, delay in units of 5 ms, and the head's gate sequence (R123). -/
def Ev.gateCommand (e : Ev) (h : Fin 32) (d : Destination) (delay : Nat) : Ev :=
  e.push (BitVec.ofNat 20 (e.units.base .gate + h.val)) (gateWord d delay (e.units.head h).gateSeq)

/-- The head table's part of a purge and its gate command: destination REJECT, delay 0; the bucket feed record is
discarded, the frozen net weight and the pool feed record are kept (R20, R129). -/
def Ev.purgeGate (e : Ev) (h : Fin 32) (r : PurgeReason) : Ev :=
  ((e.modHead h fun x => { x with bucket := none }).enterDischarge h (.reject r)).gateCommand h (.reject r) 0

/-- A purge: gate command, then the PURGE notice to the reporting side of the head's zone (R129). -/
def Ev.purge (e : Ev) (h : Fin 32) (r : PurgeReason) (weight : Option Int) : Ev :=
  let e := e.purgeGate h r
  e.headNotice (e.units.reportingHead h) (.purge h r (e.units.head h).gateSeq weight)

/-! ### Feeds and the top trim (R59 to R61, R69, R70) -/

/-- The amplitude a top envelope and a trim give (R67). -/
def TopEnvelope.apply (t : TopEnvelope) (trim : Int) : Nat :=
  (max (t.minimum : Int) (min (t.maximum : Int) ((t.nominal : Int) + trim))).toNat

/-- The trim after a change, held in -20 to +20 (R67, R69). -/
def trimAfter (trim delta : Int) : Int := max (-Config.trimMax) (min Config.trimMax (trim + delta))

/-- Queue a top order to a zone's top word (R70). -/
def Ev.topOrder (e : Ev) (z : Zone) (applied : Nat) (seq : BitVec 4) : Ev :=
  e.push (BitVec.ofNat 20 (e.units.base .feed + 32 + z.number)) (topWord applied seq)

/-- A change of a zone's top trim, with the top order and the TOP-TRIM notice when the applied amplitude moves
(R69, R70). -/
def Ev.changeTrim (e : Ev) (z : Zone) (delta : Int) (cause : TrimCause) (h : Fin 32) : Ev :=
  let t := (e.units.zones.get z).top
  let trim := trimAfter t.trim delta
  match t.envelope with
  | none => e.modZone z fun r => { r with top := { t with trim := trim } }
  | some env =>
    let applied := env.apply trim
    if t.applied = some applied then e.modZone z fun r => { r with top := { t with trim := trim } }
    else
      let e := e.modZone z fun r => { r with top := { t with trim := trim, applied := some applied, seq := t.seq + 1 } }
      let e := e.topOrder z applied (t.seq + 1)
      e.headNotice (e.units.reporting z) (.topTrim z cause h trim applied)

/-- The ticks a target and a yield ask for, rounded up (R59). -/
def ticksFor (target : Int) (yield : Nat) : Nat := ((target * 16 + (yield : Int) - 1) / (yield : Int)).toNat

/-- Queue a word to a head's FEED word. -/
def Ev.feedOrder (e : Ev) (h : Fin 32) (amplitude ticks : Nat) (seq : BitVec 4) : Ev :=
  e.push (BitVec.ofNat 20 (e.units.base .feed + h.val)) (feedWord amplitude ticks seq)

/-- Issue a feed of so many ticks: sequence, pool feed record and order (R60). -/
def Ev.feed (e : Ev) (h : Fin 32) (amplitude ticks : Nat) : Ev :=
  let seq := (e.units.head h).feedSeq + 1
  (e.modHead h fun x => { x with feedSeq := seq, pool := some ⟨ticks, seq⟩ }).feedOrder h amplitude ticks seq

/-- A feed issue, made only when the pool feed record is absent, the part RUNNING and the head not OUT (R58): the
ticks are held inside the envelope's range, and a clamp changes the zone's top trim after the order (R59, R60). -/
def Ev.feedIssue (e : Ev) (h : Fin 32) : Ev :=
  let x := e.units.head h
  if x.pool.isSome ∨ e.units.part ≠ .running ∨ x.state = .out then e
  else match x.envelope, e.units.zoneOf h.val with
    | some env, some z =>
      let t := ticksFor (e.units.fillTarget h) x.yield
      if env.tmax < t then (e.feed h env.amplitude env.tmax).changeTrim z 1 .tmax h
      else if t < env.tmin then (e.feed h env.amplitude env.tmin).changeTrim z (-1) .tmin h
      else e.feed h env.amplitude t
    | _, _ => e

/-- A feed stop (R61). -/
def Ev.feedStop (e : Ev) (h : Fin 32) : Ev :=
  let seq := (e.units.head h).feedSeq + 1
  (e.modHead h fun x => { x with feedSeq := seq, pool := none }).feedOrder h 0 0 seq

/-! ### Part-state changes (R158) -/

/-- A part-state change after the part state has been set: the change count, the status word, and PART-STATE on both
sides (R158). -/
def Ev.partChange (e : Ev) : Ev :=
  let e := e.mod fun u => { u with changeCount := u.changeCount + 1 }
  let e := e.push e.units.statusAddr (statusWord e.units.part e.units.cbase e.units.oneck e.units.changeCount)
  (e.setFlag .a .partState).setFlag .b .partState

/-! ### The end of an event (R165, R167) -/

/-- Set note pending when an enabled flag rose in the event, and queue the side's flag word when the event has changed
its content and it differs from the one queued last. Neither of two rules that speak of changed flags only is an exception to
it, where no flag changes and the write index does (log entry 31: the model's choice of R165): a part-state change (R158, R151),
and a second head that goes OUT with HEAD-OUT still set, whose HEALTH-LEVEL notice moves the write index (R49). -/
def Ev.closeSide (before : Units) (s : Side) (e : Ev) : Ev :=
  let old := before.notices.get s
  let e := e.modNotice s fun n => { n with notePending := n.notePending || flagRises old n }
  let n := e.units.notices.get s
  if n.flagWord = old.flagWord ∨ n.flagWord = n.lastFlagWord then e
  else (e.modNotice s fun n => { n with lastFlagWord := n.flagWord }).push (e.units.flagAddr s) n.flagWord

/-- The last of the event's writes: side A's flag word before side B's (R165). -/
def Ev.close (before : Units) (e : Ev) : Ev := (e.closeSide before .a).closeSide before .b

/-- An event run from given units to its end. -/
def runEvent (release : Bool) (spare : Nat) (body : Ev → Ev) (u : Units) : Ev :=
  (body (.begin u release spare)).close u

/-- One entry for a flag word that a release requires and that is not among the event's writes (R122). -/
def Ev.unsent (e : Ev) (s : Side) : Nat :=
  if e.required.get s ∧ ¬ (e.out.any fun x => x.addr = e.units.flagAddr s) then 1 else 0

/-- The writes an event needs (R143); run with no spare entries, the notices of its releases are not among them. -/
def Ev.need (e : Ev) : Nat := e.out.length + e.unsent .a + e.unsent .b

/-- A need fits in the entries available: an event that needs more than 64 is taken when 64 are available (R145). -/
def fits (need avail : Nat) : Bool := min need Config.queueDepth ≤ avail

/-- An event tested against the entries available to it (R143, R144): the event as taken, or the writes it needs.
A release that the event allows is taken in it when everything fits, and otherwise left pending (R120, R128). -/
def attempt (avail : Nat) (body : Ev → Ev) (u : Units) : Except Nat Ev :=
  let whole := runEvent true 0 body u
  if fits whole.need avail then .ok (runEvent true (avail - whole.need) body u)
  else
    let less := runEvent false 0 body u
    if fits less.need avail then .ok less else .error less.need

end Sys2Proof.Machine
end

