-- ==== Sys2Proof/Machine/Feeds.lean ====
section
/-! DEFINITION. Writes into the FEED window (R64, R65, R68), refused writes (R138), and the notice unit's words
(R164, R166). -/

namespace Sys2Proof.Machine

/-- The side that hears of a port's refused writes: A for CA and HL, B for CB (R138, R163). -/
def refusalSide : Port → Side
  | .ca => .a
  | .cb => .b
  | .hl => .a

/-- A refused write: memory is not written; WRITE-REFUSED is set and its notice raised (R138). -/
def Ev.refuse (e : Ev) (p : Port) (a : Addr) (cause : WriteCause) : Ev :=
  let s := refusalSide p
  ({ e with word := none }.setFlag s .writeRefused).headNotice s (.writeRefused p a cause)

/-- An envelope write to a head's FEED word: stored, and rewritten into the order the board already holds (R64), or
refused with RANGE or VALUE (R65). -/
def Ev.feedEnvelope (e : Ev) (p : Port) (a : Addr) (h : Fin 32) (w : Word) : Ev :=
  let env := envelopeOf w
  if e.units.headCount ≤ h.val then e.refuse p a .range
  else if !env.valid then e.refuse p a .value
  else
    let x := e.units.head h
    let e := e.modHead h fun x => { x with envelope := some env }
    { e with word := some (match x.pool with
        | some f => feedWord env.amplitude f.ticks f.seq
        | none => feedWord env.amplitude 0 x.feedSeq) }

/-- The top feeder record that a top envelope write leaves (R68). -/
def TopFeeder.write (t : TopFeeder) (env : TopEnvelope) : TopFeeder :=
  { t with envelope := some env, applied := some (env.apply t.trim), seq := t.seq + 1 }

/-- A top envelope write: stored, and rewritten into a top order with a new sequence, or refused (R68). -/
def Ev.topEnvelope (e : Ev) (p : Port) (a : Addr) (z : Zone) (w : Word) : Ev :=
  let env := topEnvelopeOf w
  if e.units.zoneCount ≤ z.number then e.refuse p a .range
  else if !env.valid then e.refuse p a .value
  else
    let t := (e.units.zones.get z).top.write env
    { e.modZone z fun r => { r with top := t } with word := some (topWord (env.apply t.trim) t.seq) }

/-- Held notices move into the ring, oldest first, while it has a free entry (R164). -/
def Ev.moveHeld (e : Ev) (s : Side) : List (BitVec 16 × Notice) → Ev
  | [] => e
  | (number, n) :: rest =>
    if 0 < (e.units.notices.get s).ringFree (e.units.ringSize s) then
      ((e.modNotice s fun r => { r with holding := rest }).ringWrite s number n).moveHeld s rest
    else e

/-- A word of the control block enters the mirror (R148). -/
def Ev.mirror (e : Ev) (offset : Nat) (w : Word) : Ev := e.mod fun u => u.setMirror offset w

/-- A consume word is taken, with the moves it makes room for, or refused with RANGE (R164). -/
def Ev.consume (e : Ev) (p : Port) (a : Addr) (offset : Nat) (s : Side) (w : Word) : Ev :=
  let size := e.units.ringSize s
  let n := e.units.notices.get s
  let c := w.toNat
  if size ≤ c ∨ n.unread size < (c + size - n.consumeIx) % size then e.refuse p a .range
  else
    let e := { e with word := some w }.mirror offset w
    let e := e.modNotice s fun r => { r with consumeIx := c }
    e.moveHeld s n.holding

end Sys2Proof.Machine
end

