-- ==== Sys2Proof/Machine/Zones.lean ====
section
/-! DEFINITION. The zone unit: staged blocks taking effect, aging, purges due and the offer rotation (R78, R79, R83,
R84, R86, R87). -/

namespace Sys2Proof.Machine

/-- The offer rotation under a block of another offer length: reduced mod the new length (R79). -/
def rotationUnder (old : Option ZoneBlock) (new : ZoneBlock) (rotation : Nat) : Nat :=
  if (old.map fun b => b.offer.length) = some new.offer.length then rotation else rotation % new.offer.length

/-- A zone record in which a block takes effect (R79). -/
def ZoneRec.take (r : ZoneRec) (b : ZoneBlock) : ZoneRec :=
  { r with live := some b, staged := none, rotation := rotationUnder r.live b r.rotation }

/-- A zone's staged block, if one is present, takes effect (R78). -/
def ZoneRec.effect (r : ZoneRec) : ZoneRec :=
  match r.staged with
  | none => r
  | some b => r.take b

/-- The staged block of a zone takes effect in an event (R78). -/
def Ev.zoneEffect (e : Ev) (z : Zone) : Ev := e.modZone z ZoneRec.effect

/-- A head of the zone that is READY. -/
def Units.readyIn (u : Units) (z : Zone) (h : Fin 32) : Bool :=
  u.zoneOf h.val = some z && (u.head h).state = .ready

/-- Aging at a release: every READY head of the zone grows older by 1, at most 255 (R84). -/
def Ev.ageZone (e : Ev) (z : Zone) : Ev :=
  e.eachHead (allHeads.filter (e.units.readyIn z)) fun h e => e.modHead h fun x => { x with age := min 255 (x.age + 1) }

/-- The heads due for a STALE purge, in increasing head number (R86). -/
def Units.dueStale (u : Units) (z : Zone) : List (Fin 32) :=
  let p := u.zoneParams z
  if p.purgeAge = 0 then [] else allHeads.filter fun h => u.readyIn z h && p.purgeAge ≤ (u.head h).age

/-- The purges due at a release: first every gate command, then every PURGE notice; the flag word of the reporting
side is among the required writes when a purge is due (R86, R122). -/
def Ev.stalePurges (e : Ev) (z : Zone) : Ev :=
  let due := e.units.dueStale z
  let s := e.units.reporting z
  let e := e.eachHead due fun h e => e.purgeGate h .stale
  let e := e.eachHead due fun h e =>
    let x := e.units.head h
    e.releaseNotice s (.purge h .stale x.gateSeq x.frozen)
  if due.isEmpty then e else { e with required := e.required.set s true }

/-- The offer rotation advances by one, mod the offer length (R83). -/
def Ev.rotate (e : Ev) (z : Zone) : Ev :=
  let len := (e.units.zoneParams z).offer.length
  e.modZone z fun r => { r with rotation := (r.rotation + 1) % len }

/-- A head of the zone is CLAIMED, by an order of either side (R76). -/
def Units.claimedIn (u : Units) (z : Zone) : Bool :=
  allHeads.any fun h => u.zoneOf h.val = some z && (u.head h).state.name = .claimed

end Sys2Proof.Machine
end

