-- ==== Sys2Proof/Machine/Releases.lean ====
section
/-! DEFINITION. The release unit: the release test, the release, dumps and their completion, the drain condition, and
the withdrawal of orders, which the head events and HALT share (R113 to R117, R120 to R128, R156). -/

namespace Sys2Proof.Machine

/-! ### Side parameter blocks -/

/-- A side's staged block, if one is present, takes effect (R117). -/
def OrderSide.effect (o : OrderSide) : OrderSide :=
  match o.staged with
  | none => o
  | some b => { o with live := some b, staged := none }

/-- The staged block of a side takes effect in an event (R117). -/
def Ev.sideEffect (e : Ev) (s : Side) : Ev := e.modOrder s OrderSide.effect

/-- Every staged side and zone block takes effect, as the part goes to STOPPED (R78, R117). -/
def Ev.allEffects (e : Ev) : Ev := (((e.sideEffect .a).sideEffect .b).zoneEffect .z0).zoneEffect .z1

/-! ### The release (R121) -/

/-- The four tests of a release (R120). -/
def Units.releasable (u : Units) (s : Side) : Bool :=
  (u.releases.get s).latch && u.active && !(u.orders.get s).queue.isEmpty &&
    (u.releases.get s).dumps.length < Config.dumpDepth

/-- The released heads, in list order from a list position (0 for the first), go to DISCHARGING, each with its gate
command; the delay is the position times the stagger step, in units of 5 ms (R121 step 4, R123). -/
def Ev.openGates (e : Ev) (s : Side) (stagger : Nat) : List (Fin 32) → Nat → Ev
  | [], _ => e
  | h :: rest, p =>
    ((e.enterDischarge h (.bag s)).gateCommand h (.bag s) (p * stagger)).openGates s stagger rest (p + 1)

/-- The dump an order becomes: every mark PENDING (R126). -/
def OrderRec.toDump (o : OrderRec) : Dump :=
  { tag := o.tag, heads := o.heads.map fun h => (h, .pending), total := o.total, target := o.target }

/-- The release unit's record after a release: pulse started, dump appended, latch CLEAR, nothing pending
(R121 steps 5, 7, 8; R125). -/
def ReleaseSide.released (r : ReleaseSide) (o : OrderRec) : ReleaseSide :=
  { r with latch := false, releasePending := false, dumps := r.dumps ++ [o.toDump], disch := some Config.pulseMs }

/-- The release of a side's oldest order (R121). -/
def Ev.doRelease (e : Ev) (s : Side) : Ev :=
  match (e.units.orders.get s).queue, e.units.binding s with
  | o :: rest, some z =>
    let e := e.modOrder s fun q => { q with queue := rest }
    let e := (e.sideEffect s).zoneEffect z
    let e := e.openGates s (e.units.zoneParams z).stagger o.heads 0
    let e := ((e.ageZone z).stalePurges z).rotate z
    e.modRelease s fun r => r.released o
  | _, _ => e

/-- The release test that an event makes (R120): when it passes and no release of the side is pending already, the
release is taken in the event, or left pending when the event may not take it (log entry 14). -/
def Ev.releaseTest (e : Ev) (s : Side) : Ev :=
  if e.units.releasable s && !(e.units.releases.get s).releasePending then
    (if e.release then e.doRelease s else e.modRelease s fun r => { r with releasePending := true })
  else e

/-- A pending release tested on its own: taken when the test still passes, and otherwise no longer pending (R120). -/
def Ev.pendingRelease (e : Ev) (s : Side) : Ev :=
  if e.units.releasable s then e.doRelease s else e.modRelease s fun r => { r with releasePending := false }

/-! ### Open dumps (R126 to R128) -/

/-- The dump waits for a head: the head's mark in it is PENDING. -/
def Dump.awaits (d : Dump) (h : Fin 32) : Bool := d.heads.any fun x => x.1 = h && x.2 = .pending

/-- The dump with a head's PENDING mark changed (R127). -/
def Dump.mark (d : Dump) (h : Fin 32) (m : Mark) : Dump :=
  { d with heads := d.heads.map fun x => if x.1 = h && x.2 = .pending then (h, m) else x }

/-- No mark is PENDING (R128). -/
def Dump.complete (d : Dump) : Bool := d.heads.all fun x => x.2 != .pending

/-- The giveaway: the declared total minus the bag target, held in 16 signed bits (R128). -/
def Dump.giveaway (d : Dump) : Int := max (-32768) (min 32767 (d.total - d.target))

/-- A head's mark in its open dump is set; a dump whose last mark it was completes, with its notice and the release
test (R127, R128). -/
def Ev.markDump (e : Ev) (s : Side) (h : Fin 32) (m : Mark) : Ev :=
  let dumps := (e.units.releases.get s).dumps
  match dumps.findIdx? (fun d => d.awaits h) with
  | none => e
  | some i =>
    match dumps[i]? with
    | none => e
    | some d =>
      let d := d.mark h m
      if d.complete then
        let e := e.orderNotice s (.dumpComplete d.tag d.heads d.total d.giveaway)
        let e := e.modRelease s fun r => { r with dumps := dumps.eraseIdx i }
        e.releaseTest s
      else e.modRelease s fun r => { r with dumps := dumps.set i d }

/-! ### Withdrawal (R113, R114) -/

/-- A CLAIMED head goes back to READY: frozen net weight and age kept, SILENCE timer restarted (R17). -/
def Ev.returnHead (e : Ev) (h : Fin 32) : Ev := e.enterWatched h .ready

/-- An order leaves the queue by withdrawal: it is removed, the listed heads that return go to READY, and the
ORDER-WITHDRAWN notice and ORDER-ENDED follow (R113). HALT returns no head and names no offender (R114). -/
def Ev.withdraw (e : Ev) (s : Side) (o : OrderRec) (reason : WithdrawReason) (offender : Option (Fin 32)) : Ev :=
  let e := e.modOrder s fun q => { q with queue := q.queue.filter fun p => p.accept != o.accept }
  let e := match offender with
    | none => e
    | some h => e.eachHead (o.heads.filter (· != h)) fun g e => e.returnHead g
  let position := offender.map fun h => (h, o.heads.idxOf h + 1)
  (e.orderNotice s (.orderWithdrawn o.tag reason position o.heads o.total)).setFlag s .orderEnded

/-- The order that claims a head is withdrawn for that head's cause (R113). -/
def Ev.withdrawClaim (e : Ev) (s : Side) (accept : Nat) (reason : WithdrawReason) (h : Fin 32) : Ev :=
  match (e.units.orders.get s).queue.find? fun o => o.accept = accept with
  | none => e
  | some o => e.withdraw s o reason (some h)

/-! ### Draining (R156) -/

/-- The drain condition: queues and dump lists empty, no head DISCHARGING (R156). -/
def Units.drained (u : Units) : Bool :=
  (u.orders.get .a).queue.isEmpty && (u.orders.get .b).queue.isEmpty &&
    (u.releases.get .a).dumps.isEmpty && (u.releases.get .b).dumps.isEmpty &&
    !allHeads.any fun h => (u.head h).state.name = .discharging

/-- Both request latches become CLEAR and pending releases are discarded (R119, R132). -/
def Ev.clearLatches (e : Ev) : Ev :=
  (e.modRelease .a fun r => { r with latch := false, releasePending := false }).modRelease .b
    fun r => { r with latch := false, releasePending := false }

/-- Drain complete takes an EMPTY, SETTLING or READY head to STOPPED (R23). -/
def stopsAtDrain (n : CycleName) : Bool := n = .empty || n = .settling || n = .ready

/-- Drain complete (R156). -/
def Ev.drainComplete (e : Ev) : Ev :=
  let e := e.mod fun u => u.setPart .stopped
  let e := e.eachHead (allHeads.filter fun h => stopsAtDrain (e.units.head h).state.name) fun h e => e.stopHead h
  (e.clearLatches.allEffects).partChange

/-- The control unit's test at the end of an event that can make the drain condition true (R156). -/
def Ev.drainTest (e : Ev) : Ev := if e.units.part = .draining && e.units.drained then e.drainComplete else e

end Sys2Proof.Machine
end

