-- ==== Sys2Proof/Machine/Heads.lean ====
section
/-! DEFINITION. The head table's shared events: the health counter with its effects, entry to OUT, the BARRED action,
disturbance, zero tracking, confirmation, pool drops, settle outcomes, and the three timer expiries (R13 to R24,
R41 to R55, R62). -/

namespace Sys2Proof.Machine

/-! ### The health counter (R44 to R49) -/

/-- The counter takes a value; a change of level raises a HEALTH-LEVEL notice (R45 steps 1 to 3, R47). -/
def Ev.setHealth (e : Ev) (h : Fin 32) (v : Nat) (cause : HealthCause) : Ev :=
  let old := levelOf (e.units.head h).health
  let e := e.modHead h fun x => { x with health := v }
  if old = levelOf v then e else e.headNotice (e.units.reportingHead h) (.healthLevel h old (levelOf v) v cause)

/-- Entry to OUT (R22, R49), after the HEALTH-LEVEL notice: the withdrawal of a CLAIMED head's order or the mark of a
DISCHARGING head's dump, the HEAD-OUT flag, then the feed stop (log entry 12); with HEAD-OUT set already, Ev.closeSide decides
on the flag word (log entry 31). -/
def Ev.enterOut (e : Ev) (h : Fin 32) : Ev :=
  let before := (e.units.head h).state
  let e := e.modHead h fun x => { x with state := .out, timer := .stopped, frozen := none, bucket := none }
  let e := match before with
    | .claimed s accept => e.withdrawClaim s accept .headOut h
    | .discharging (.bag s) => e.markDump s h .unconfirmed
    | _ => e
  let e := e.setFlag (e.units.reportingHead h) .headOut
  e.feedStop h

/-- A READY or CLAIMED head that has become BARRED is purged, its order first withdrawn (R16). -/
def Ev.barredAction (e : Ev) (h : Fin 32) : Ev :=
  let x := e.units.head h
  match x.state with
  | .ready => e.purge h .barred x.frozen
  | .claimed s accept => (e.withdrawClaim s accept .barred h).purge h .barred x.frozen
  | _ => e

/-- A raise of the counter (R44, R45). A DISABLED or OUT head takes none. The BARRED action is left out where the
raise is a disturbance, which purges the head itself (R16). -/
def Ev.raiseHealth (e : Ev) (h : Fin 32) (amount : Nat) (cause : HealthCause) (barred : Bool) : Ev :=
  let x := e.units.head h
  if x.state = .out ∨ x.state = .disabled then e
  else
    let v := min Config.healthOut (x.health + amount)
    let e := e.setHealth h v cause
    if v = Config.healthOut then e.enterOut h
    else if barred && levelOf v = .barred && levelOf x.health ≠ .barred then e.barredAction h
    else e

/-- A lowering of the counter by one, never below 0 (R46). -/
def Ev.lowerHealth (e : Ev) (h : Fin 32) (cause : HealthCause) : Ev :=
  let v := (e.units.head h).health
  if v = 0 then e else e.setHealth h (v - 1) cause

/-! ### Disturbance (R18) -/

/-- The head is disturbed: the increment, then, unless it took the head OUT, the effect of its state (R18). -/
def Ev.disturb (e : Ev) (h : Fin 32) : Ev :=
  let x := e.units.head h
  let e := e.raiseHealth h 8 .disturbed false
  if (e.units.head h).state = .out then e
  else match x.state with
    | .settling => e.purge h .disturbed none
    | .ready => e.purge h .disturbed x.frozen
    | .claimed s accept => (e.withdrawClaim s accept .disturbed h).purge h .disturbed x.frozen
    | _ => e

/-! ### The yield (R62) -/

/-- The measured yield of a net weight over so many ticks, held in the yield's range (R62 step 1). -/
def measuredYield (net : Int) (ticks : Nat) : Int :=
  max (Config.yieldMin : Int) (min (Config.yieldMax : Int) ((net * 16).tdiv ticks))

/-- The yield moved an eighth of the way toward the measured one, truncated toward zero (R62 steps 2 and 3). -/
def learnedYield (yield : Nat) (net : Int) (ticks : Nat) : Nat :=
  ((yield : Int) + (measuredYield net ticks - yield).tdiv 8).toNat

/-- The yield update of a settle outcome; without a bucket feed record there is none (R62, R63). -/
def Head.learn (x : Head) (net : Int) : Head :=
  match x.bucket with
  | none => x
  | some t => { x with yield := learnedYield x.yield net t, bucket := none }

/-! ### Settle outcome (R15, R16) -/

/-- The settle outcome READY: yield, decrement, frozen net weight, age 0, then the purge of a head whose level was
BARRED at the weight step (R15 case 3, R16). -/
def Ev.settleReady (e : Ev) (h : Fin 32) (net : Int) : Ev :=
  let level := levelOf (e.units.head h).health
  let e := e.modHead h fun x => x.learn net
  let e := e.lowerHealth h .fill
  let e := (e.modHead h fun x => { x with frozen := some net, age := 0 }).enterWatched h .ready
  if level = .barred then e.purge h .barred (some net) else e

/-- A settle outcome OVER or UNDER: yield, top trim, purge (R15 cases 1 and 2). -/
def Ev.settlePurge (e : Ev) (h : Fin 32) (net delta : Int) (cause : TrimCause) (r : PurgeReason) : Ev :=
  let e := e.modHead h fun x => x.learn net
  let e := match e.units.zoneOf h.val with
    | some z => e.changeTrim z delta cause h
    | none => e
  e.purge h r (some net)

/-- The settle outcome of a net weight (R15). -/
def Ev.settle (e : Ev) (h : Fin 32) (net : Int) : Ev :=
  let p := e.units.params h
  if p.ceiling < net then e.settlePurge h net (-1) .over .over
  else if net < p.minFill then e.settlePurge h net 1 .under .under
  else e.settleReady h net

/-! ### Zero tracking (R41, R42) -/

/-- The zero moved a quarter of the way toward a reading, truncated toward zero (R41). -/
def trackedZero (zero w : Int) : Int := zero + (w - zero).tdiv 4

/-- A stable weight reaches zero tracking: it moves the zero inside the zero band, and is a drift beyond it, with the
ZERO-DRIFT notice before the raise (R41, R42). -/
def Ev.trackZero (e : Ev) (h : Fin 32) (w : Int) (seq : BitVec 8) : Ev :=
  let zero := (e.units.head h).zero
  if ((w - zero).natAbs : Int) ≤ (e.units.params h).zeroBand then
    e.modHead h fun x => { x with zero := trackedZero zero w }
  else
    (e.headNotice (e.units.reportingHead h) (.zeroDrift h seq w zero)).raiseHealth h 16 .zeroDrift true

/-! ### Confirmation (R21) -/

/-- The state a confirmed head goes to: EMPTY with its SILENCE timer while RUNNING, STOPPED otherwise (R21). -/
def Ev.leaveDischarge (e : Ev) (h : Fin 32) : Ev :=
  let e := e.modHead h fun x => { x with frozen := none, retryUsed := false, timer := .stopped }
  if e.units.part = .running then e.enterWatched h .empty else e.modHead h fun x => { x with state := .stopped }

/-- GATE-CLOSED with a gate echo (R21, R38): a matching echo confirms a DISCHARGING head, with the decrement of every
purge but RECOVER (R46), and marks a bag's dump (R127). -/
def Ev.gateClosed (e : Ev) (h : Fin 32) (echo : BitVec 4) : Ev :=
  let x := e.units.head h
  match x.state with
  | .discharging d =>
    if x.gateSeq ≠ echo then e
    else
      let e := e.leaveDischarge h
      let e := if d = .reject .recover then e else e.lowerHealth h .confirm
      match d with
      | .bag s => e.markDump s h .confirmed
      | .reject _ => e
  | _ => e

/-! ### Pool drop (R14) -/

/-- POOL-DROP in a taken report, then the feed that an absent pool feed record asks for (R14). -/
def Ev.poolDrop (e : Ev) (h : Fin 32) : Ev :=
  let x := e.units.head h
  let e := match x.state with
    | .empty =>
      (e.modHead h fun x =>
        { x with bucket := x.pool.map Feed.ticks, pool := none, state := .settling }).startTimer h .settle
    | .settling | .ready | .claimed _ _ => (e.disturb h).modHead h fun x => { x with pool := none }
    | .stopped => if x.pool.isSome then e.modHead h fun x => { x with pool := none } else e.disturb h
    | .discharging _ => e.modHead h fun x => { x with pool := none }
    | .out | .disabled => e
  e.feedIssue h

/-! ### The weight (R24, R40) -/

/-- The use of a stable weight in the state the head is in after the flags (R24). The last stable weight is set
first (R5). -/
def Ev.useWeight (e : Ev) (h : Fin 32) (w : Int) (seq : BitVec 8) (poolDropped : Bool) : Ev :=
  let e := e.modHead h fun x => { x with lastStable := some w }
  let x := e.units.head h
  match x.state with
  | .empty | .stopped => if poolDropped then e else e.trackZero h w seq
  | .settling => e.settle h (w - x.zero)
  | .ready | .claimed _ _ =>
    match x.frozen with
    | none => e
    | some f =>
      if (e.units.params h).disturbBand < (((w - x.zero) - f).natAbs : Int) then e.disturb h else e
  | .discharging _ | .out | .disabled => e

/-- A taken report restarts the SILENCE timer of an EMPTY, READY or CLAIMED head in RUNNING or DRAINING (R34 step 5). -/
def Ev.restartSilence (e : Ev) (h : Fin 32) : Ev :=
  let n := (e.units.head h).state.name
  if e.units.active && (n = .empty || n = .ready || n = .claimed) then e.startTimer h .silence else e

/-! ### Timer expiries (R50 to R55) -/

/-- A SETTLE expiry (R51). -/
def Ev.settleExpiry (e : Ev) (h : Fin 32) : Ev :=
  let e := e.raiseHealth h 8 .settle true
  if (e.units.head h).state = .out then e else e.purge h .unsettled none

/-- A SILENCE expiry: the raise, and the timer restarts at once unless the raise has changed the state (R52). -/
def Ev.silenceExpiry (e : Ev) (h : Fin 32) : Ev := (e.startTimer h .silence).raiseHealth h 8 .silence true

/-- A GATE expiry: the first reissues the gate command, the second takes the head OUT (R53). -/
def Ev.gateExpiry (e : Ev) (h : Fin 32) : Ev :=
  let x := e.units.head h
  match x.state with
  | .discharging d =>
    if x.retryUsed then e.raiseHealth h Config.healthOut .gateFinal false
    else
      let e := e.raiseHealth h 32 .gate true
      if (e.units.head h).state = .out then e
      else
        let e := e.modHead h fun x => { x with gateSeq := x.gateSeq + 1, retryUsed := true }
        (e.gateCommand h d 0).startTimer h .gate
  | _ => e

/-- An expiry of a head's timer, with the drain test that its end may ask for (R51 to R53, R156). -/
def Ev.expire (e : Ev) (h : Fin 32) (k : TimerKind) : Ev :=
  (match k with
    | .settle => e.settleExpiry h
    | .silence => e.silenceExpiry h
    | .gate => e.gateExpiry h).drainTest

end Sys2Proof.Machine
end

