-- ==== Sys2Proof/Machine/Orders.lean ====
section
/-! DEFINITION. The order unit: the order stage, the thirteen checks, acceptance, and hold expiry (R100 to R112). -/

namespace Sys2Proof.Machine

/-- The three words an order of n heads needs from its stage: head word 1, head word 2 (0 when the count does not
need it) and the total word (R104 check 3, R105). -/
def orderWords (stage : Option WriteGroup) (slot n : Nat) : Option (Word × Word × Word) :=
  match stage with
  | none => none
  | some g =>
    if g.slot ≠ slot then none
    else match g.w1, g.w3 with
      | some w1, some w3 => if n ≤ 4 then some (w1, 0, w3) else g.w2.map fun w2 => (w1, w2, w3)
      | _, _ => none

/-- The head number fields at list positions 1 to n (R104). -/
def listedNumbers (w1 w2 : Word) (n : Nat) : List Nat := (List.range n).map (headField w1 w2)

/-- The list position, from 1, of the first listed number that fails a test. -/
def firstListed (listed : List Nat) (fails : Nat → Bool) : Option Nat := (listed.findIdx? fails).map (· + 1)

/-- The first list position that names a head named before it: the later of two positions that name one head (R104 check
6, R105). Of two heads named twice, the one whose repeat comes first is reported (log entry 30: the model's choice). -/
def firstDuplicate (listed : List Nat) : Option Nat :=
  ((List.range listed.length).find? fun i => (listed.take i).contains (listed.getD i 0)).map (· + 1)

/-- The sum of the listed heads' frozen net weights (R107). -/
def frozenSum (u : Units) (heads : List (Fin 32)) : Int := (heads.map fun h => (u.head h).frozen.getD 0).sum

/-- Checks 5 to 9, on the listed heads; the first that fails gives its reason and list position (R105, R106). -/
def judgeHeads (u : Units) (s : Side) (listed : List Nat) : Option OrderVerdict :=
  let at_ (r : OrderReason) (fails : Nat → Bool) : Option OrderVerdict := (firstListed listed fails).map (.refused r)
  let x (n : Nat) : Head := u.head (headNumber n)
  (at_ .zone fun n => decide (u.headCount ≤ n) || u.zoneOf n != u.binding s).orElse fun _ =>
  ((firstDuplicate listed).map (.refused .duplicate)).orElse fun _ =>
  (at_ .claimed fun n => (x n).state.name = .claimed).orElse fun _ =>
  (at_ .notReady fun n => (x n).state ≠ .ready).orElse fun _ =>
  at_ .notOffered fun n => !u.granted (headNumber n) s || 128 ≤ (x n).health

/-- Checks 10 to 13, on the order as a bag and as a load on the side (R107). -/
def judgeBag (u : Units) (s : Side) (b : SideBlock) (heads : List (Fin 32)) (total : Int) : OrderVerdict :=
  let sum := frozenSum u heads
  let o := u.orders.get s
  let n := u.notices.get s
  if total ≠ sum then .refused .total 0
  else if sum < b.bagMin ∨ b.bagMax < sum then .refused .window 0
  else if Config.orderDepth ≤ o.queue.length then .refused .queueFull 0
  else if n.room (u.ringSize s) < n.reservations + 1 then .refused .noticeFull 0
  else .accepted (o.queue.length + 1)

/-- A SUBMIT commit judged by the thirteen checks: the verdict, and the heads and declared total as listed (R104). -/
def judgeOrder (u : Units) (s : Side) (slot : Nat) (w : Word) : OrderVerdict × List (Fin 32) × Int :=
  let o := u.orders.get s
  let n := commitCount w
  let refuse (r : OrderReason) : OrderVerdict × List (Fin 32) × Int := (.refused r 0, [], 0)
  if u.part ≠ .running then refuse .notRunning
  else match o.live with
    | none => refuse .sideOff
    | some b =>
      if !u.enabled s || !b.intake then refuse .sideOff
      else match orderWords o.stage slot n with
        | none => refuse .incomplete
        | some (w1, w2, w3) =>
          if n < b.minHeads ∨ b.maxHeads < n then refuse .count
          else
            let listed := listedNumbers w1 w2 n
            let heads := listed.map headNumber
            match judgeHeads u s listed with
            | some v => (v, [], 0)
            | none => (judgeBag u s b heads w3.toInt, heads, w3.toInt)

/-- An order's acceptance: claims, record, reservation, hold timer, and the release that a SET latch asks for
(R109). -/
def Ev.accept (e : Ev) (s : Side) (tag : BitVec 16) (heads : List (Fin 32)) (total : Int) : Ev :=
  let o := e.units.orders.get s
  let b := o.live
  let e := e.eachHead heads fun h e => e.enterWatched h (.claimed s o.accepts)
  let e := e.modOrder s fun q =>
    { q with
      accepts := q.accepts + 1
      queue := q.queue ++
        [{ accept := q.accepts, tag := tag, heads := heads, total := total,
           target := (b.map SideBlock.bagTarget).getD 0, hold := .running ((b.map SideBlock.holdLimit).getD 0) }] }
  let e := e.modNotice s fun n => { n with reservations := n.reservations + 1 }
  let r := e.units.releases.get s
  if r.latch && r.dumps.length < Config.dumpDepth then e.doRelease s else e

/-- A commit write that passes to the order unit (R103): SUBMIT is judged and its verdict written into the word, any
other status passes unchanged; the side's stage is empty afterwards (R102). -/
def Ev.commit (e : Ev) (s : Side) (slot : Nat) (w : Word) : Ev :=
  let e :=
    if isSubmit w then
      let (v, heads, total) := judgeOrder e.units s slot w
      let e := match v with
        | .accepted _ => e.accept s (commitTag w) heads total
        | .refused _ _ => e
      { e with word := some (orderVerdictWord w v) }
    else { e with word := some w }
  e.modOrder s fun q => { q with stage := none }

/-- A write to a head word or the total word: passed to memory and kept in the side's stage (R102). -/
def Ev.orderWord (e : Ev) (s : Side) (slot off : Nat) (w : Word) : Ev :=
  { e with word := some w }.modOrder s fun q => { q with stage := stageWord q.stage slot off w }

/-- The hold expiry of a queued order (R111), with the drain test it may ask for (R156). -/
def Ev.holdExpiry (e : Ev) (s : Side) (accept : Nat) : Ev :=
  match (e.units.orders.get s).queue.find? fun o => o.accept = accept with
  | none => e
  | some o =>
    let e := e.modOrder s fun q => { q with queue := q.queue.filter fun p => p.accept != accept }
    let e := e.eachHead o.heads fun h e => e.returnHead h
    ((e.orderNotice s (.orderExpired o.tag o.heads o.total)).setFlag s .orderEnded).drainTest

end Sys2Proof.Machine
end

