-- ==== Sys2Proof/Machine/Reports.lean ====
section
/-! DEFINITION. Report intake: completeness, the six acceptance checks, sample reduction, and the event of a taken
report (R25 to R40). -/

namespace Sys2Proof.Machine

/-- The stage holds the slot with a word at every offset 1 to n (R29). -/
def groupComplete (stage : Option WriteGroup) (slot n : Nat) : Bool :=
  n = 0 || match stage with
    | none => false
    | some g => g.slot = slot && (List.range n).all fun i => (g.at (i + 1)).isSome

/-- Samples 1 to n as the stage holds them, signed mg (R29). -/
def samplesOf (stage : Option WriteGroup) (n : Nat) : List Int :=
  match stage with
  | none => []
  | some g => (List.range n).filterMap fun i => (g.at (i + 1)).map BitVec.toInt

/-- A sample in range (R30, check 5). -/
def sampleOk (x : Int) : Bool := Config.sampleMin ≤ x && x ≤ Config.sampleMax

/-- What the six checks decide (R30): a refusal that leaves every head unchanged, a RANGE refusal of an enabled
head's sample at an offset, the mark of a DISABLED head, silence, or the report taken. -/
inductive ReportVerdict where
  | refused (cause : ReportCause)
  | sampleRange (sample : Nat)
  | hello
  | ignored
  | taken
  deriving DecidableEq, Repr

/-- The six checks in their order; the first that fails decides (R30 to R33). -/
def judgeReport (u : Units) (slot : Nat) (r : ReportHeader) : ReportVerdict :=
  let x := u.head r.head
  if 3 < r.count then .refused .length
  else if !groupComplete u.stage slot r.count then .refused .incomplete
  else if u.headCount ≤ r.head.val then .refused .range
  else if x.state = .disabled then (if r.hello && !x.present then .hello else .ignored)
  else match (samplesOf u.stage r.count).findIdx? (fun v => !sampleOk v) with
    | some i => .sampleRange (i + 1)
    | none => if x.lastSeq = some r.seq then .ignored else .taken

/-- The middle value of three. -/
def median (a b c : Int) : Int := max (min a b) (min (max a b) c)

/-- The weight of a report's samples and whether it is stable under the stability band (R36). The mean of two is
rounded toward minus infinity. -/
def reduceSamples (samples : List Int) (still : Bool) (band : Int) : Option (Int × Bool) :=
  match samples with
  | [a] => some (a, still)
  | [a, b] => some ((a + b).fdiv 2, max a b - min a b ≤ band)
  | [a, b, c] => some (median a b c, max a (max b c) - min a (min b c) ≤ band)
  | _ => none

/-- A report is taken whole: last report sequence, then BOARD-FAULT, GATE-CLOSED, POOL-DROP, the weight and the
SILENCE timer, each in the state that the part before it left (R34). -/
def Ev.takeReport (e : Ev) (r : ReportHeader) : Ev :=
  let h := r.head
  let weight := reduceSamples (samplesOf e.units.stage r.count) r.still (e.units.params h).stabilityBand
  let e := e.modHead h fun x => { x with lastSeq := some r.seq }
  let e := if r.boardFault then e.raiseHealth h 32 .boardFault true else e
  let e := if r.gateClosed then e.gateClosed h r.echo else e
  let e := if r.poolDrop then e.poolDrop h else e
  let e := match weight with
    | some (w, true) => e.useWeight h w r.seq r.poolDrop
    | _ => e
  (e.restartSilence h).drainTest

/-- The REPORT-REFUSED notice of a refused report, always to side A (R35). -/
def Ev.reportRefused (e : Ev) (slot : Nat) (r : ReportHeader) (cause : ReportCause) (sample : Nat) : Ev :=
  e.headNotice .a (.reportRefused cause slot r.head r.seq r.count sample)

/-- The outcome of a header write (R30 to R35). A RANGE refusal at check 5 raises its notice, then adds 8 to the
head's health (log entry 13). -/
def Ev.reportOutcome (e : Ev) (slot : Nat) (r : ReportHeader) : Ev :=
  match judgeReport e.units slot r with
  | .refused cause => e.reportRefused slot r cause 0
  | .sampleRange i => ((e.reportRefused slot r .range i).raiseHealth r.head 8 .range true).drainTest
  | .hello =>
    (e.modHead r.head fun x => { x with present := true }).headNotice (e.units.reportingHead r.head)
      (.headPresent r.head r.seq)
  | .ignored => e
  | .taken => e.takeReport r

/-- A performed header write of a slot: its outcome, and the stage is empty afterwards (R29, R30). -/
def Ev.reportHeaderWrite (e : Ev) (slot : Nat) (w : Word) : Ev :=
  (e.reportOutcome slot (reportHeader w)).mod fun u => u.setStage none

/-- A performed sample write (R28). -/
def Ev.reportSampleWrite (e : Ev) (slot off : Nat) (w : Word) : Ev :=
  e.mod fun u => u.setStage (stageWord u.stage slot off w)

end Sys2Proof.Machine
end

