-- ==== Sys2Proof/Machine/Views.lean ====
section
/-! DEFINITION. The candidate server: snapshot latching and the words it serves (R90 to R96). -/

namespace Sys2Proof.Machine

/-- The STALE mark of a head: it belongs to a zone and its age is no less than the live stale age (R85, R93). -/
def Units.staleMark (u : Units) (h : Fin 32) : Bool :=
  match u.zoneOf h.val with
  | none => false
  | some z => (u.zoneParams z).staleAge ≤ (u.head h).age

/-- The offered condition of a head for a side (R94). -/
def Units.offered (u : Units) (h : Fin 32) (s : Side) : Bool :=
  (u.head h).state = .ready && (u.zoneOf h.val).isSome && u.zoneOf h.val = u.binding s && (u.head h).health < 128 &&
    u.granted h s

/-- The deviation of a head (R95). -/
def Units.deviation (u : Units) (h : Fin 32) : Int :=
  match (u.head h).frozen, u.zoneOf h.val with
  | some f, some _ => f - u.fillTarget h
  | _, _ => 0

/-- The entry of a head for a side (R93). -/
def Units.viewEntry (u : Units) (s : Side) (h : Fin 32) : ViewEntry :=
  let x := u.head h
  { state := x.state.name, offered := u.offered h s, frozen := x.frozen.getD 0, age := x.age,
    stale := u.staleMark h, level := levelOf x.health, deviation := u.deviation h }

/-- The snapshot that a header read latches (R92). -/
def Units.latched (u : Units) (s : Side) : View :=
  { generation := (u.views.get s).generation + 1
    offered := (allHeads.filter fun h => u.offered h s).length
    entries := Vector.ofFn fun h => u.viewEntry s h }

/-- A header read latches the side's snapshot (R92). -/
def Units.latchView (u : Units) (s : Side) : Units := u.setView s (u.latched s)

/-- The word served at an offset of a candidate window, from the side's snapshot (R89, R92, R96). -/
def Units.viewWord (u : Units) (s : Side) (off : Nat) : Word :=
  let v := u.views.get s
  if off = 0 then candidateHeaderWord v.generation u.part v.offered
  else if off < 33 then candidateEntryWord v.entries[(headNumber (off - 1)).val]
  else candidateDeviationWord v.entries[(headNumber (off - 33)).val]

end Sys2Proof.Machine
end

