-- ==== Sys2Proof/Machine/Control.lean ====
section
/-! DEFINITION. The control unit: LOAD and UNLOAD, the part-state commands, the head commands and the parameter
commands, each as an event with its verdict (R11 to R13, R43, R48, R76, R116, R130, R150 to R157, R167). -/

namespace Sys2Proof.Machine

/-- A command's event and its verdict. -/
abbrev Taken := Ev × Verdict

/-- A refused command leaves everything as it was (R152). -/
def Ev.refused (e : Ev) (r : CommandReason) (detail : BitVec 14) : Taken := (e, .refused r detail)

/-! ### LOAD and UNLOAD (R150, R151, R153) -/

/-- The first failure of LOAD's validation, as the detail of its verdict (R150). -/
def loadFailure (u : Units) : Option (BitVec 14) :=
  let r := u.mirrorWord
  let c := loadedOf r
  let block (part : LoadPart) (checks : List Bool) : Option (BitVec 14) :=
    (firstFailing checks).map fun i => detailLoad part i 0
  (block .record (recordChecks r)).orElse fun _ =>
  ((firstFailingWindow (windowChecks c u.cbase)).map fun (i, w) => detailLoad .windows i w).orElse fun _ =>
  (if c.binding.a.isSome then block .sideA (sideChecks fun i => r (sideBlockOffset .a + i)) else none).orElse fun _ =>
  (if c.binding.b.isSome then block .sideB (sideChecks fun i => r (sideBlockOffset .b + i)) else none).orElse fun _ =>
  (block .zone0 (zoneChecks fun i => r (zoneBlockOffset .z0 + i))).orElse fun _ =>
  if c.zoneCount = 2 then block .zone1 (zoneChecks fun i => r (zoneBlockOffset .z1 + i)) else none

/-- A side's live block after LOAD: the mirror's block for an enabled side (R115). -/
def Units.loadSide (u : Units) (c : Loaded) (s : Side) : OrderSide :=
  { OrderSide.cleared with
    live := if (c.binding.get s).isSome then some (sideBlockOf fun i => u.mirrorWord (sideBlockOffset s + i)) else none }

/-- A zone record after LOAD (R74). -/
def Units.loadZone (u : Units) (c : Loaded) (z : Zone) : ZoneRec :=
  { ZoneRec.cleared with
    live := if z.number < c.zoneCount then some (zoneBlockOf fun i => u.mirrorWord (zoneBlockOffset z + i)) else none }

/-- The release unit's record after LOAD or UNLOAD: emptied, but a pulse runs to its end (R125, R132). -/
def ReleaseSide.unloaded (r : ReleaseSide) : ReleaseSide := { ReleaseSide.cleared with disch := r.disch }

/-- The notice unit's record after LOAD or UNLOAD: ring, holding queue and reservations reset; flags, enables and note
pending kept (R160, R162, R165, R167). -/
def NoticeSide.unloaded (n : NoticeSide) : NoticeSide :=
  { n with writeIx := 0, consumeIx := 0, number := 0, holding := [], reservations := 0 }

/-- What UNLOAD sets in every unit, the part state apart (R153). -/
def Units.unloaded (u : Units) : Units :=
  { u with
    config := none
    stage := none
    heads := Vector.replicate 32 .cleared
    zones := ⟨.cleared, .cleared⟩
    orders := ⟨.cleared, .cleared⟩
    releases := ⟨(u.releases.get .a).unloaded, (u.releases.get .b).unloaded⟩
    notices := ⟨(u.notices.get .a).unloaded, (u.notices.get .b).unloaded⟩
    views := ⟨.cleared, .cleared⟩ }

/-- A head's record after LOAD (R9): below the head count STOPPED with its zone's initial yield. -/
def loadedHead (zones : PerZone ZoneRec) (zone : Option Zone) : Head :=
  match zone with
  | none => .cleared
  | some z =>
    { Head.cleared with state := .stopped, yield := ((zones.get z).live.map ZoneBlock.initialYield).getD Config.yieldMin }

/-- What LOAD sets in every unit (R151). -/
def Units.loaded (u : Units) : Units :=
  let c := loadedOf u.mirrorWord
  let u := { u.unloaded with
    part := .stopped
    config := some c
    clock := some c.clockKHz
    zones := ⟨u.loadZone c .z0, u.loadZone c .z1⟩
    orders := ⟨u.loadSide c .a, u.loadSide c .b⟩ }
  { u with heads := Vector.ofFn fun h => loadedHead u.zones (u.zoneOf h.val) }

/-- LOAD (R150, R151). -/
def Ev.cmdLoad (e : Ev) : Taken :=
  if e.units.active then e.refused .state 0
  else match loadFailure e.units with
    | some detail => e.refused .check detail
    | none => ((e.mod Units.loaded).partChange, .done 0)

/-- UNLOAD (R153). -/
def Ev.cmdUnload (e : Ev) : Taken :=
  if e.units.part ≠ .stopped then e.refused .state 0
  else ((e.mod fun u => { u.unloaded with part := .transparent }).partChange, .done 0)

/-! ### START, STOP, HALT (R13, R154 to R157) -/

/-- The weight START finds in a bucket: the last stable weight minus zero (R13). -/
def Head.bucketWeight (x : Head) : Option Int := x.lastStable.map fun w => w - x.zero

/-- START at one head (R13). -/
def Ev.startHead (e : Ev) (h : Fin 32) : Ev :=
  let x := e.units.head h
  if x.state = .disabled ∨ x.state = .out then e
  else
    let full : Bool := match x.bucketWeight with
      | some w => (e.units.params h).emptyBand < w
      | none => false
    let e := if full then e.purge h .start x.bucketWeight else e.enterWatched h .empty
    e.feedIssue h

/-- The lowest enabled head without a feed envelope, an OUT head included (R154). -/
def Units.bareHead (u : Units) : Option (Fin 32) :=
  allHeads.find? fun h => (u.head h).state ≠ .disabled && (u.head h).envelope.isNone

/-- The lowest zone below the zone count without a top envelope (R154). -/
def Units.bareZone (u : Units) : Option Zone :=
  [Zone.z0, Zone.z1].find? fun z => z.number < u.zoneCount && (u.zones.get z).top.envelope.isNone

/-- The lowest DISCHARGING head (R154). -/
def Units.dischargingHead (u : Units) : Option (Fin 32) :=
  allHeads.find? fun h => (u.head h).state.name = .discharging

/-- START (R154). -/
def Ev.cmdStart (e : Ev) : Taken :=
  let u := e.units
  if u.part ≠ .stopped then e.refused .state 0
  else match u.dischargingHead, u.bareHead, u.bareZone with
    | some h, _, _ => e.refused .busy (detailHead h)
    | none, some h, _ => e.refused .check (detailHead h)
    | none, none, some z => e.refused .check (detailZone z)
    | none, none, none =>
      let e := e.mod fun u => u.setPart .running
      ((e.eachHead allHeads fun h e => e.startHead h).partChange, .done 0)

/-- STOP: one part-state change, to DRAINING or, with the drain condition already true, to STOPPED (R155). -/
def Ev.cmdStop (e : Ev) : Taken :=
  if e.units.part ≠ .running then e.refused .state 0
  else
    let e := e.mod fun u => u.setPart .draining
    if e.units.drained then (e.drainComplete, .done detailStopped) else (e.partChange, .done detailDraining)

/-- HALT withdraws a side's queued orders, oldest first (R114). -/
def Ev.haltSide (e : Ev) (s : Side) : Ev :=
  (e.units.orders.get s).queue.foldl (fun e o => e.withdraw s o .halt none) e

/-- HALT stops the feed of every enabled head that is not OUT (R61, R157). -/
def feedsAtHalt (n : CycleName) : Bool := n ≠ .disabled && n ≠ .out

/-- HALT takes an EMPTY, SETTLING, READY or CLAIMED head to STOPPED (R23). -/
def stopsAtHalt (n : CycleName) : Bool := n = .empty || n = .settling || n = .ready || n = .claimed

/-- HALT (R157). -/
def Ev.cmdHalt (e : Ev) : Taken :=
  if !e.units.active then e.refused .state 0
  else
    let e := (e.haltSide .a).haltSide .b
    let e := e.eachHead (allHeads.filter fun h => feedsAtHalt (e.units.head h).state.name) fun h e => e.feedStop h
    let e := e.eachHead (allHeads.filter fun h => stopsAtHalt (e.units.head h).state.name) fun h e => e.stopHead h
    let e := (e.mod fun u => u.setPart .stopped).clearLatches.allEffects
    (e.partChange, .done 0)

/-! ### Head commands (R11, R12, R20, R43, R48, R130) -/

/-- A head command: STATE in TRANSPARENT, then ARG at or above the head count, then the command's own rule
(R152). -/
def Ev.headCommand (e : Ev) (arg : BitVec 8) (rule : Fin 32 → Taken) : Taken :=
  if e.units.part = .transparent then e.refused .state 0
  else if e.units.headCount ≤ arg.toNat then e.refused .arg 0
  else rule (headNumber arg.toNat)

/-- The record of a head that HEAD-ENABLE takes (R11). -/
def Head.enabled (x : Head) (initialYield : Nat) : Head :=
  { x with health := 0, yield := initialYield, frozen := none, pool := none, bucket := none, age := 0,
           retryUsed := false, present := false }

/-- HEAD-ENABLE (R11). -/
def Ev.cmdHeadEnable (e : Ev) (arg : BitVec 8) : Taken :=
  e.headCommand arg fun h =>
    let x := e.units.head h
    if e.units.part = .draining then e.refused .state 0
    else if x.state ≠ .disabled then e.refused .state 0
    else if e.units.part = .running ∧ x.envelope.isNone then e.refused .check 0
    else
      let e := e.modHead h fun x => x.enabled (e.units.params h).initialYield
      if e.units.part = .running then ((e.purge h .start (e.units.head h).bucketWeight).feedIssue h, .done 0)
      else (e.modHead h fun x => { x with state := .stopped }, .done 0)

/-- HEAD-DISABLE (R12). -/
def Ev.cmdHeadDisable (e : Ev) (arg : BitVec 8) : Taken :=
  e.headCommand arg fun h =>
    match (e.units.head h).state with
    | .claimed _ _ | .discharging _ => e.refused .busy (detailHead h)
    | .disabled => (e.modHead h fun x => { x with present := false }, .done 0)
    | .stopped | .empty | .settling | .ready | .out =>
      ((e.feedStop h).modHead h fun x =>
        { x with state := .disabled, timer := .stopped, bucket := none, frozen := none, health := 0, present := false },
       .done 0)

/-- RECOVER (R22, R48). -/
def Ev.cmdRecover (e : Ev) (arg : BitVec 8) : Taken :=
  e.headCommand arg fun h =>
    if e.units.part = .draining ∨ (e.units.head h).state ≠ .out then e.refused .state 0
    else
      let e := e.setHealth h 128 .recover
      if e.units.part = .running then ((e.purge h .recover none).feedIssue h, .done 0)
      else (e.modHead h fun x => { x with state := .stopped }, .done 0)

/-- HEAD-PURGE (R20, R130). -/
def Ev.cmdHeadPurge (e : Ev) (arg : BitVec 8) : Taken :=
  e.headCommand arg fun h =>
    let x := e.units.head h
    if e.units.part = .stopped then e.refused .state 0
    else match x.state with
      | .claimed _ _ | .discharging _ => e.refused .busy (detailHead h)
      | .empty | .settling => (e.purge h .command none, .done 0)
      | .ready => (e.purge h .command x.frozen, .done 0)
      | .disabled | .stopped | .out => e.refused .state 0

/-- ZERO-SET (R43). -/
def Ev.cmdZeroSet (e : Ev) (arg : BitVec 8) : Taken :=
  e.headCommand arg fun h =>
    let x := e.units.head h
    match x.lastStable with
    | none => e.refused .state 0
    | some w =>
      if x.state = .stopped ∨ x.state = .empty then (e.modHead h fun x => { x with zero := w }, .done 0)
      else e.refused .state 0

/-! ### Parameter commands (R76, R116) -/

/-- The side an APPLY-SIDE argument names (R168). -/
def sideArg (arg : BitVec 8) : Option Side := if arg = 0 then some .a else if arg = 1 then some .b else none

/-- The zone an APPLY-ZONE argument names (R168). -/
def zoneArg (arg : BitVec 8) : Option Zone := if arg = 0 then some .z0 else if arg = 1 then some .z1 else none

/-- APPLY-SIDE (R116). -/
def Ev.cmdApplySide (e : Ev) (arg : BitVec 8) : Taken :=
  if e.units.part = .transparent then e.refused .state 0
  else match sideArg arg with
    | none => e.refused .arg 0
    | some s =>
      let r (i : Nat) : Word := e.units.mirrorWord (sideBlockOffset s + i)
      if !e.units.enabled s then e.refused .arg 0
      else match firstFailing (sideChecks r) with
        | some i => e.refused .check (detailCheck i)
        | none =>
          let e := e.modOrder s fun o => { o with staged := some (sideBlockOf r) }
          if e.units.part = .stopped ∨ (e.units.orders.get s).queue = [] then (e.sideEffect s, .done detailApplied)
          else (e, .done detailStaged)

/-- APPLY-ZONE (R76). -/
def Ev.cmdApplyZone (e : Ev) (arg : BitVec 8) : Taken :=
  if e.units.part = .transparent then e.refused .state 0
  else match zoneArg arg with
    | none => e.refused .arg 0
    | some z =>
      let r (i : Nat) : Word := e.units.mirrorWord (zoneBlockOffset z + i)
      if e.units.zoneCount ≤ z.number then e.refused .arg 0
      else match firstFailing (zoneChecks r) with
        | some i => e.refused .check (detailCheck i)
        | none =>
          let e := e.modZone z fun o => { o with staged := some (zoneBlockOf r) }
          if e.units.part = .stopped ∨ e.units.claimedIn z = false then (e.zoneEffect z, .done detailApplied)
          else (e, .done detailStaged)

/-- NOTE-ACK of a slot's side (R167). -/
def Ev.cmdNoteAck (e : Ev) (slot : Side) : Taken :=
  if e.units.part = .transparent then e.refused .state 0
  else (e.modNotice slot fun n => { n with notePending := false }, .done 0)

/-! ### Taking a command (R152) -/

/-- A command with its argument, taken from a side's slot: LOAD is the only one taken in TRANSPARENT (R152). -/
def Ev.take (e : Ev) (slot : Side) (c : Command) (arg : BitVec 8) : Taken :=
  match c with
  | .load => e.cmdLoad
  | .unload => e.cmdUnload
  | .start => e.cmdStart
  | .stop => e.cmdStop
  | .halt => e.cmdHalt
  | .headEnable => e.cmdHeadEnable arg
  | .headDisable => e.cmdHeadDisable arg
  | .recover => e.cmdRecover arg
  | .headPurge => e.cmdHeadPurge arg
  | .zeroSet => e.cmdZeroSet arg
  | .applySide => e.cmdApplySide arg
  | .applyZone => e.cmdApplyZone arg
  | .noteAck => e.cmdNoteAck slot

/-- The offset of a side's command slot (R174). -/
def slotOffset (s : Side) : Nat := 0x100 + s.number

/-- An ISSUE write to a command slot: the command is taken and the word goes on to memory and to the mirror with its
verdict; a code that names no command is refused with ARG (R148, R152, R168; log entry 24). -/
def Ev.command (e : Ev) (slot : Side) (w : Word) : Ev :=
  let (e, v) := match Command.ofCode (commandCode w) with
    | some c => e.take slot c (commandArg w)
    | none => e.refused .arg 0
  let w := verdictWord w v
  { e with word := some w }.mirror (slotOffset slot) w

end Sys2Proof.Machine
end

