-- ==== Sys2Proof/Machine/Path.lean ====
section
/-! DEFINITION. The memory path: the access classifier, the held list, the issue queue, the front ends and the
arbiter (R133 to R145). -/

namespace Sys2Proof.Machine

/-! ### The access classifier (R134 to R140, R147) -/

/-- What becomes of a write (R137). -/
inductive WriteClass where
  | plain
  | refused (cause : WriteCause)
  | reportHeader (slot : Nat)
  | reportSample (slot off : Nat)
  | orderWord (side : Side) (slot off : Nat)
  | commit (side : Side) (slot : Nat)
  | feedHead (head : Fin 32)
  | feedTop (zone : Zone)
  | command (slot : Side)
  | clearWord (side : Side)
  | enableWord (side : Side)
  | consumeWord (side : Side)
  | mirrored (offset : Nat)
  deriving DecidableEq, Repr

/-- An address's offset in the control block (R135). -/
def Units.controlOffset (u : Units) (a : Addr) : Option Nat :=
  if u.controlBase ≤ a.toNat ∧ a.toNat < u.controlBase + Config.controlWords then some (a.toNat - u.controlBase) else none

/-- The window an address lies in and its offset there, in the table in force (R134, R135). -/
def Units.windowAt (u : Units) (a : Addr) : Option (Window × Nat) :=
  (u.config.bind fun c => c.windows.find? fun r => r.base ≤ a.toNat && a.toNat < r.base + r.size).map
    fun r => (r.window, a.toNat - r.base)

/-- The port that owns a side's order window (R101). -/
def Units.owner (u : Units) : Side → Port
  | .a => .ca
  | .b => if u.oneck then .ca else .cb

/-- A whole write into a window, by window and port (R137). -/
def classWindow (u : Units) (p : Port) (window : Window) (off : Nat) : WriteClass :=
  match window with
  | .report =>
    if p ≠ .hl then .refused .permission
    else if off % 4 = 0 then .reportHeader (off / 4) else .reportSample (off / 4) (off % 4)
  | .order s =>
    if p ≠ u.owner s then .refused .permission
    else if off % 4 = 0 then .commit s (off / 4) else .orderWord s (off / 4) (off % 4)
  | .feed =>
    if p = .hl then .refused .permission
    else if off < 32 then .feedHead (headNumber off)
    else .feedTop (if off = 32 then .z0 else .z1)
  | .candidate _ | .gate | .notice _ => .refused .permission

/-- A whole write into the control block while a configuration is loaded, by CA or CB (R147). -/
def classControl (off : Nat) (w : Word) : WriteClass :=
  if off = 0x100 then (if isIssue w then .command .a else .mirrored off)
  else if off = 0x101 then (if isIssue w then .command .b else .mirrored off)
  else if off = 0x102 then .clearWord .a
  else if off = 0x103 then .clearWord .b
  else if off = 0x104 then .enableWord .a
  else if off = 0x105 then .enableWord .b
  else if off = 0x106 then .consumeWord .a
  else if off = 0x107 then .consumeWord .b
  else if off = 0x108 ∨ off = 0x109 ∨ off = 0x10A then .refused .permission
  else .mirrored off

/-- A write into the control block in TRANSPARENT: a whole command word is taken from any port, whole clear and
enable words from CA and CB, and everything else passes and is mirrored (R140, R166; log entry 20). -/
def classTransparent (p : Port) (off : Nat) (strobes : BitVec 4) (w : Word) : WriteClass :=
  if strobes ≠ allStrobes then .mirrored off
  else match classControl off w with
    | .command s => .command s
    | .clearWord s => if p = .hl then .mirrored off else .clearWord s
    | .enableWord s => if p = .hl then .mirrored off else .enableWord s
    | _ => .mirrored off

/-- The class of a write at its grant (R134, R137, R138). -/
def classWrite (u : Units) (p : Port) (a : Addr) (strobes : BitVec 4) (w : Word) : WriteClass :=
  match u.controlOffset a with
  | some off =>
    if u.part = .transparent then classTransparent p off strobes w
    else if strobes ≠ allStrobes then .refused .partialWrite
    else if p = .hl then .refused .permission
    else classControl off w
  | none =>
    match u.windowAt a with
    | none => .plain
    | some (window, off) => if strobes ≠ allStrobes then .refused .partialWrite else classWindow u p window off

/-- The candidate window and offset of a served read: CA or CB in a candidate window (R91, R137). -/
def Units.servedAt (u : Units) (p : Port) (a : Addr) : Option (Side × Nat) :=
  match p, u.windowAt a with
  | .hl, _ => none
  | _, some (.candidate s, off) => some (s, off)
  | _, _ => none

/-- Where the notice unit's words stand in the control block (R174). -/
def clearOffset (s : Side) : Nat := 0x102 + s.number
def enableOffset (s : Side) : Nat := 0x104 + s.number
def consumeOffset (s : Side) : Nat := 0x106 + s.number

/-- A write at its grant as an event: its class decides the unit that takes it and the word that goes on to memory
(R138, R139). -/
def Ev.write (p : Port) (a : Addr) (strobes : BitVec 4) (w : Word) (e : Ev) : Ev :=
  match classWrite e.units p a strobes w with
  | .plain => { e with word := some w }
  | .refused cause => e.refuse p a cause
  | .reportHeader slot => { e.reportHeaderWrite slot w with word := some w }
  | .reportSample slot off => { e.reportSampleWrite slot off w with word := some w }
  | .orderWord s slot off => e.orderWord s slot off w
  | .commit s slot => e.commit s slot w
  | .feedHead h => e.feedEnvelope p a h w
  | .feedTop z => e.topEnvelope p a z w
  | .command s => e.command s w
  | .clearWord s => ({ e with word := some w }.mirror (clearOffset s) w).modNotice s fun n => n.clear w
  | .enableWord s => ({ e with word := some w }.mirror (enableOffset s) w).modNotice s fun n => n.enable w
  | .consumeWord s => e.consume p a (consumeOffset s) s w
  | .mirrored off => { e with word := some w }.mirror off (mergeLanes (e.units.mirrorWord off) w strobes)

/-! ### Changing the state -/

def State.setUnits (s : State) (u : Units) : State := { s with units := u }

def State.setMem (s : State) (m : Memory) : State := { s with mem := m }

def State.setHeld (s : State) (l : List Held) : State := { s with held := l }

def State.setGranted (s : State) (src : Source) : State := { s with lastGranted := src }

def State.setFront (s : State) (p : Port) (f : FrontEnd) : State := { s with ports := s.ports.set p f }

/-- The writes that wait for memory, in order: the first 64 are in the issue queue, the rest is the START tail
(R142, R145). -/
def State.setWrites (s : State) (l : List QueueEntry) : State :=
  { s with queue := l.take Config.queueDepth, startTail := l.drop Config.queueDepth }

/-- A port's front end. -/
def State.front (s : State) (p : Port) : FrontEnd := s.ports.get p

/-! ### The held list (R143, R144) -/

/-- The DOUBLE-REQUEST flag of a side is set (R118). -/
def Ev.doubleRequest (e : Ev) (s : Side) : Ev :=
  (e.setFlag s .doubleRequest).modRelease s fun r => { r with doublePending := false }

/-- The event of a held owner other than a port, worked out from the state as it stands (R50, R111, R118, R120). -/
def Owner.body (o : Owner) (e : Ev) : Ev :=
  match o with
  | .port _ => e
  | .headTimer h =>
    match (e.units.head h).timer with
    | .stopped => e
    | .running k _ => e.expire h k
    | .expired k => e.expire h k
  | .hold s accept => e.holdExpiry s accept
  | .release s => e.pendingRelease s
  | .double s => e.doubleRequest s

/-- The owner's event is pending in the units; a port's held write is pending until it is performed (R50, R111, R118,
R120, R133). -/
def Units.isPending (u : Units) : Owner → Bool
  | .port _ => true
  | .headTimer h => match (u.head h).timer with
    | .expired _ => true
    | _ => false
  | .hold s accept => (u.orders.get s).queue.any fun o => o.accept = accept && o.hold = .expired
  | .release s => (u.releases.get s).releasePending
  | .double s => (u.releases.get s).doublePending

/-- The units with an owner's event marked pending. -/
def Units.markPending (u : Units) : Owner → Units
  | .port _ => u
  | .headTimer h =>
    match (u.head h).timer with
    | .running k _ => u.setHead h { u.head h with timer := .expired k }
    | _ => u
  | .hold s accept =>
    let q := u.orders.get s
    let mark (o : OrderRec) : OrderRec := if o.accept = accept then { o with hold := .expired } else o
    u.setOrder s { q with queue := q.queue.map mark }
  | .release s => u.setRelease s { u.releases.get s with releasePending := true }
  | .double s => u.setRelease s { u.releases.get s with doublePending := true }

/-- The free entries of the issue queue, less the START tail (R144). -/
def State.free (s : State) : Nat := Config.queueDepth - s.queue.length - s.startTail.length

/-- The entries available behind a list of held events (R144). -/
def State.available (s : State) (ahead : List Held) : Nat := s.free - (ahead.map Held.need).sum

/-- The held list after an event: entries whose event is no longer pending leave it, and a release newly pending joins
its end with the writes it requires (R144). -/
def heldAfter (u : Units) (held : List Held) : List Held :=
  let kept := held.filter fun x => u.isPending x.owner
  let joins (s : Side) : List Held :=
    if (u.releases.get s).releasePending && !kept.any (fun x => x.owner = .release s) then
      [⟨.release s, (runEvent true 0 (Owner.release s).body u).need⟩]
    else []
  kept ++ joins .a ++ joins .b

/-- The flag words of a side among the writes that wait (R167). -/
def flagWords (u : Units) (writes : List QueueEntry) (s : Side) : Nat :=
  writes.countP fun x => x.addr = u.flagAddr s

/-- Where an event has set note pending, the NOTE line waits for the side's flag words queued so far (R167; log
entry 10). -/
def noteWaits (before after : Units) (writes : List QueueEntry) (s : Side) : NoticeSide :=
  let n := after.notices.get s
  if n.notePending && !(before.notices.get s).notePending then { n with noteWait := flagWords after writes s } else n

/-- An event is taken: its units, its writes behind those that wait, and the held list (R142, R144). -/
def State.commit (s : State) (e : Ev) : State :=
  let writes := s.queue ++ s.startTail ++ e.out
  let u := (e.units.setNotice .a (noteWaits s.units e.units writes .a)).setNotice .b (noteWaits s.units e.units writes .b)
  ((s.setUnits u).setWrites writes).setHeld (heldAfter u s.held)

/-- How many leading owners two held lists share. -/
def sharedOwners : List Held → List Held → Nat
  | x :: xs, y :: ys => if x.owner = y.owner then sharedOwners xs ys + 1 else 0
  | _, _ => 0

/-- One held event other than a port's tested behind those ahead of it: taken, or its need as worked out now. -/
def State.test (s : State) (ahead : List Held) (x : Held) : Except Held Ev :=
  match x.owner with
  | .port _ => .error x
  | o =>
    match attempt (s.available ahead) o.body s.units with
    | .ok e => .ok e
    | .error n => .error { x with need := n }

/-- Test held events in order; the first that fits is taken and leaves the list (R144). -/
def State.scan (s : State) (ahead : List Held) : List Held → State × Bool
  | [] => (s.setHeld ahead, false)
  | x :: rest =>
    match s.test ahead x with
    | .ok e => ((s.setHeld (ahead ++ rest)).commit e, true)
    | .error y => s.scan (ahead ++ [y]) rest

/-- The held events behind a place are tested until none of them fits; each one taken lets those behind it be tested
again (R144). -/
def State.retest : Nat → Nat → State → State
  | 0, _, s => s
  | fuel + 1, place, s =>
    let r := s.scan (s.held.take place) (s.held.drop place)
    if r.2 then State.retest fuel (sharedOwners s.held r.1.held) r.1 else r.1

/-- More tests than events can be held: 3 ports, 32 head timers, 4 hold timers, 2 releases, 2 settings. -/
def heldFuel : Nat := 64

/-- After an event: when an entry has left the held list, the events behind it are tested again (R144). -/
def State.afterEvent (before : List Held) (s : State) : State :=
  let k := sharedOwners before s.held
  if k < before.length then State.retest heldFuel k s else s

/-- An event that is not held: taken when it fits behind every held event, and otherwise held (R143, R144). -/
def State.takeOrHold (s : State) (o : Owner) (body : Ev → Ev) : State :=
  match attempt (s.available s.held) body s.units with
  | .ok e => (s.commit e).afterEvent s.held
  | .error n => (s.setUnits (s.units.markPending o)).setHeld (s.held ++ [⟨o, n⟩])

/-- A held event tested on its own, in its place (R144). -/
def State.retestOwner (s : State) (o : Owner) : State :=
  match s.held.findIdx? fun x => x.owner = o with
  | none => s
  | some i =>
    match s.held[i]? with
    | none => s
    | some x =>
      match s.test (s.held.take i) x with
      | .ok e => ((s.setHeld (s.held.eraseIdx i)).commit e).afterEvent s.held
      | .error y => s.setHeld (s.held.set i y)

/-! ### The issue queue (R142, R145) -/

/-- The NOTE line's wait after a flag word has been written (R167). -/
def NoticeSide.flagWritten (n : NoticeSide) : NoticeSide := { n with noteWait := n.noteWait - 1 }

/-- The units after the part has written an entry: a side whose flag word it is waits for one less (R167). -/
def Units.entryWritten (u : Units) (x : QueueEntry) : Units :=
  let step (s : Side) : NoticeSide :=
    if x.addr = u.flagAddr s then (u.notices.get s).flagWritten else u.notices.get s
  (u.setNotice .a (step .a)).setNotice .b (step .b)

/-- The queue's oldest entry is written to memory with all strobes on, and the next START tail write enters (R142,
R145). -/
def State.writeEntry (s : State) : State :=
  match s.queue ++ s.startTail with
  | [] => s
  | x :: rest =>
    (((s.setMem (s.mem.write x.addr allStrobes x.data)).setWrites rest).setUnits (s.units.entryWritten x)).setGranted .queue

/-- A grant of MP to the issue queue: the entry is written, and the held events are tested (R142, R144). -/
def State.grantQueue (s : State) : State :=
  if s.queue.isEmpty then s else State.retest heldFuel 0 s.writeEntry

/-! ### Front ends (R133) -/

/-- A port receives an answer and its front end becomes free. -/
def State.answer (s : State) (p : Port) (x : Answer) : State :=
  s.setFront p { s.front p with current := none, answer := x }

/-- A read that the part serves: a header read latches the side's snapshot first (R92, R96). -/
def State.serve (s : State) (p : Port) (side : Side) (off : Nat) : State :=
  let u := if off = 0 then s.units.latchView side else s.units
  (s.setUnits u).answer p (.data (u.viewWord side off))

/-- The candidate window and offset of an access that is a served read (R134). -/
def State.served (s : State) (p : Port) : Access → Option (Side × Nat)
  | .read a _ => s.units.servedAt p a
  | .write .. => none

/-- A free front end presents the accesses a port has issued, in order: served reads are answered at once, the first
other access is held for MP (R91, R133). -/
def State.present (p : Port) : List Access → State → State
  | [], s => s.setFront p { s.front p with upstream := [] }
  | x :: rest, s =>
    match s.served p x with
    | some (side, off) => State.present p rest (s.serve p side off)
    | none => s.setFront p { s.front p with current := some x, upstream := rest }

/-- The port's next access, after the one before it has been answered. -/
def State.next (s : State) (p : Port) : State := State.present p (s.front p).upstream s

/-- A port issues an access: it waits behind a held one, and otherwise it is presented (R133). -/
def State.issue (s : State) (p : Port) (x : Access) : State :=
  let f := s.front p
  if f.current.isSome then s.setFront p { f with upstream := f.upstream ++ [x] } else State.present p (f.upstream ++ [x]) s

/-! ### Grants and the arbiter (R141) -/

/-- The held events ahead of a port's held write; all of them for a port whose write is not held (R144). -/
def aheadOf (held : List Held) (p : Port) : List Held := held.takeWhile fun x => x.owner ≠ .port p

/-- A port's held write that still does not fit: its new need replaces the old one in its place, or it joins the list
(R144). -/
def holdPort (held : List Held) (p : Port) (need : Nat) : List Held :=
  if held.any (fun x => x.owner = .port p) then held.map fun x => if x.owner = .port p then ⟨.port p, need⟩ else x
  else held ++ [⟨.port p, need⟩]

/-- The word of a write that goes on reaches memory with the write's strobes; a refused write has none (R138, R139). -/
def State.store (s : State) (a : Addr) (strobes : BitVec 4) : Option Word → State
  | some w => s.setMem (s.mem.write a strobes w)
  | none => s

/-- A port's write is performed or refused: its event is taken, a word that goes on reaches memory, and the port is
acknowledged (R133, R138, R139). -/
def State.performed (s : State) (p : Port) (a : Addr) (strobes : BitVec 4) (e : Ev) : State :=
  let t := ((s.setHeld (s.held.filter fun x => x.owner ≠ .port p)).commit e).store a strobes e.word
  ((t.answer p .acknowledged).afterEvent s.held).next p

/-- A port's write at a grant: taken when it fits, and otherwise held (R143, R144). -/
def State.grantWrite (s : State) (p : Port) (a : Addr) (strobes : BitVec 4) (w : Word) : State :=
  match attempt (s.available (aheadOf s.held p)) (Ev.write p a strobes w) s.units with
  | .ok e => s.performed p a strobes e
  | .error n => s.setHeld (holdPort s.held p n)

/-- A port's read at a grant: memory's word, or a served word where a candidate window has come to lie at its address
(R98, R134). -/
def State.grantRead (s : State) (p : Port) (a : Addr) : State :=
  match s.units.servedAt p a with
  | some (side, off) => (s.serve p side off).next p
  | none => (s.answer p (.data (s.mem.word a))).next p

/-- A grant of MP to a port (R141). -/
def State.grantPort (s : State) (p : Port) : State :=
  let s := s.setGranted (.port p)
  match (s.front p).current with
  | none => s
  | some (.read a _) => s.grantRead p a
  | some (.write a st w) => s.grantWrite p a st w

/-- A source waits for MP (R141). -/
def State.waits (s : State) : Source → Bool
  | .port p => (s.front p).current.isSome
  | .queue => !s.queue.isEmpty

/-- The sources in the cyclic order CA, CB, HL, issue queue, from the one after the last granted (R141). -/
def cyclicAfter : Source → List Source
  | .port .ca => [.port .cb, .port .hl, .queue, .port .ca]
  | .port .cb => [.port .hl, .queue, .port .ca, .port .cb]
  | .port .hl => [.queue, .port .ca, .port .cb, .port .hl]
  | .queue => [.port .ca, .port .cb, .port .hl, .queue]

/-- The arbiter's choice: the issue queue at 48 or more entries, otherwise the first waiting source after the last
granted one (R141). -/
def State.choice (s : State) : Option Source :=
  if Config.queueUrgent ≤ s.queue.length then some .queue else (cyclicAfter s.lastGranted).find? s.waits

/-- One grant. -/
def State.grant (s : State) : Source → State
  | .port p => s.grantPort p
  | .queue => s.grantQueue

/-- Grants in the arbiter's order until a source has had its turn. -/
def State.until (src : Source) : Nat → State → State
  | 0, s => s
  | fuel + 1, s =>
    match s.choice with
    | none => s
    | some x => if x = src then s.grant x else State.until src fuel (s.grant x)

/-- Grants to ports whose turn comes before the issue queue's. -/
def State.servePorts : Nat → State → State
  | 0, s => s
  | fuel + 1, s =>
    match s.choice with
    | some (.port p) => State.servePorts fuel (s.grantPort p)
    | _ => s

/-- The accesses the front ends still hold or have behind them. -/
def State.waiting (s : State) : Nat :=
  let count (f : FrontEnd) : Nat := f.upstream.length + (if f.current.isSome then 1 else 0)
  count s.ports.ca + count s.ports.cb + count s.ports.hl

/-- Enough grants for every waiting access, each port's held write once more. -/
def State.settlePorts (s : State) : State := State.servePorts (s.waiting + 3) s

/-- More grants than a source can wait for: every entry that waits, every write a held event may add, every port. -/
def State.grantFuel (s : State) : Nat := 1024 + s.startTail.length

/-- A port makes an access. A port stalled behind a held write only queues it; otherwise the arbiter serves its
sources in order until the access has had its grant (R133, R141; log entry 1). -/
def State.access (s : State) (p : Port) (x : Access) : State :=
  let t := s.issue p x
  if (s.front p).current.isSome || !(t.front p).current.isSome then t
  else (State.until (.port p) t.grantFuel t).settlePorts

/-- The issue queue has its turn, after the ports whose turn comes first (R141, R142). -/
def State.drain (s : State) : State :=
  if s.queue.isEmpty then s else (State.until .queue s.grantFuel s).settlePorts

/-! ### Lines -/

/-- NOTE-x: high while note pending is set and no flag word of the setting event or before it still waits (R167). -/
def State.noteLine (s : State) (side : Side) : Bool :=
  (s.units.notices.get side).notePending && (s.units.notices.get side).noteWait = 0

/-- DISCH-x (R125). -/
def State.dischLine (s : State) (side : Side) : Bool := (s.units.releases.get side).disch.isSome

end Sys2Proof.Machine
end

