-- ==== Sys2Proof/Machine/Events.lean ====
section
/-! DEFINITION. Events that are no port access: request edges, expiries, pulse ends, the reset input, the millisecond,
and what the part does when no command waits (R50, R111, R118, R120, R125, R146, R159). -/

namespace Sys2Proof.Machine

/-! ### Request edges and releases (R118, R120) -/

/-- The request edge that finds the latch CLEAR: it sets the latch and makes the release test (R118, R120). -/
def Ev.requestEdge (s : Side) (e : Ev) : Ev := (e.modRelease s fun r => { r with latch := true }).releaseTest s

/-- A request edge of a side (R118). -/
def State.bagRequest (s : State) (side : Side) : State :=
  let r := s.units.releases.get side
  if !s.units.active || !s.units.enabled side then s
  else if !r.latch then s.takeOrHold (.release side) (Ev.requestEdge side)
  else if (s.units.notices.get side).has .doubleRequest || r.doublePending then s
  else s.takeOrHold (.double side) fun e => e.doubleRequest side

/-- A pending DOUBLE-REQUEST setting is tested; without one nothing happens (R118). -/
def State.doubleRequestSetting (s : State) (side : Side) : State :=
  if (s.units.releases.get side).doublePending then s.retestOwner (.double side) else s

/-- A release on its own: a pending one is tested in its place, otherwise the release test is made (R120, R121). -/
def State.releaseAlone (s : State) (side : Side) : State :=
  if (s.units.releases.get side).releasePending then s.retestOwner (.release side)
  else s.takeOrHold (.release side) fun e => e.releaseTest side

/-! ### Expiries (R50, R111; log entry 4) -/

/-- The limit of a head's timer of a kind has run out: the expiry is taken or held; a pending one is tested; a head
whose timer is not of that kind has no such expiry (R50). -/
def State.headExpiry (s : State) (h : Fin 32) (k : TimerKind) : State :=
  match (s.units.head h).timer with
  | .running k' _ => if k' = k then s.takeOrHold (.headTimer h) fun e => e.expire h k else s
  | .expired k' => if k' = k then s.retestOwner (.headTimer h) else s
  | .stopped => s

/-- The hold limit of the order at a place of a side's queue has run out (R111). -/
def State.holdExpiry (s : State) (side : Side) (place : Fin 2) : State :=
  match (s.units.orders.get side).queue[place.val]? with
  | none => s
  | some o =>
    match o.hold with
    | .running _ => s.takeOrHold (.hold side o.accept) fun e => e.holdExpiry side o.accept
    | .expired => s.retestOwner (.hold side o.accept)

/-- The end of a DISCH pulse: the line goes low (R125). -/
def Units.pulseEnd (u : Units) (side : Side) : Units :=
  u.setRelease side { u.releases.get side with disch := none }

/-! ### The millisecond (R8, R111, R125, R146) -/

/-- A head timer one millisecond later. -/
def HeadTimer.tick : HeadTimer → HeadTimer
  | .running k n => .running k (n - 1)
  | t => t

/-- A hold timer one millisecond later. -/
def HoldTimer.tick : HoldTimer → HoldTimer
  | .running n => .running (n - 1)
  | .expired => .expired

/-- A DISCH pulse one millisecond later: the line falls when its time has run out (R125). -/
def pulseTick : Option Nat → Option Nat
  | some (n + 2) => some (n + 1)
  | _ => none

def OrderSide.tick (o : OrderSide) : OrderSide :=
  { o with queue := o.queue.map fun r => { r with hold := r.hold.tick } }

def ReleaseSide.tick (r : ReleaseSide) : ReleaseSide := { r with disch := pulseTick r.disch }

/-- Every running timer one millisecond later. -/
def Units.tick (u : Units) : Units :=
  { u with
    heads := Vector.ofFn fun h => { u.head h with timer := (u.head h).timer.tick }
    orders := ⟨u.orders.a.tick, u.orders.b.tick⟩
    releases := ⟨u.releases.a.tick, u.releases.b.tick⟩ }

/-- The owner's timer has reached its limit. -/
def Units.due (u : Units) : Owner → Bool
  | .headTimer h => match (u.head h).timer with
    | .running _ 0 => true
    | _ => false
  | .hold s accept => (u.orders.get s).queue.any fun o => o.accept = accept && o.hold = .running 0
  | .port _ | .release _ | .double _ => false

/-- The timers in the order in which expiries of one millisecond are taken: heads in increasing number, then the
orders of side A and of side B, oldest first (log entry 3). -/
def Units.timerOwners (u : Units) : List Owner :=
  allHeads.map Owner.headTimer ++ (u.orders.a.queue.map fun o => .hold .a o.accept) ++
    u.orders.b.queue.map fun o => .hold .b o.accept

/-- An expiry that is still due is taken or held. -/
def State.takeDue (s : State) (o : Owner) : State := if s.units.due o then s.takeOrHold o o.body else s

/-- One millisecond of the time base: the timers count, and the expiries that have come due are taken; without a time
base nothing happens (R146). -/
def State.millisecond (s : State) : State :=
  if s.units.clock.isNone then s
  else
    let t := s.setUnits s.units.tick
    t.units.timerOwners.foldl State.takeDue t

/-- The part with no command waiting: MP serves a waiting source; when none waits, a millisecond passes (log
entry 2). -/
def State.idle (s : State) : State :=
  match s.choice with
  | some src => (s.grant src).settlePorts
  | none => s.millisecond

/-! ### The reset input (R133, R159) -/

/-- A front end at reset release: the access it held is ended without an answer, and the port issues it again (R133). -/
def FrontEnd.reset (f : FrontEnd) : FrontEnd :=
  { current := none, upstream := f.current.toList ++ f.upstream, answer := .none }

/-- The reset input, from its becoming active to its release with the straps as they then stand (R159). Memory is not
touched. -/
def State.resetInput (s : State) (cbase : BitVec 4) (oneck : Bool) : State :=
  let t : State :=
    { s with
      units := .initial cbase oneck
      queue := []
      startTail := []
      held := []
      ports := ⟨s.ports.ca.reset, s.ports.cb.reset, s.ports.hl.reset⟩
      lastGranted := .queue }
  (((t.next .ca).next .cb).next .hl).settlePorts

end Sys2Proof.Machine
end

