-- ==== Sys2Proof/Machine/Accesses.lean ====
section
/-! DEFINITION. The meanings of the port accesses that are no command: each is the access at its port; what becomes of
it is the classifier's decision at its presentation or grant (R134). -/

namespace Sys2Proof.Machine

/-- A whole write to a word of the control block at an offset. -/
def controlWrite (u : Units) (offset : Nat) (strobes : BitVec 4) (w : Word) : Access :=
  .write (BitVec.ofNat 20 (u.controlBase + offset)) strobes w

/-- REPORT_HEADER_WRITE by HL (R29, R30). -/
def execReportHeaderWrite (a : Addr) (w : Word) (s : State) : Host.Outcome State Fault Refusal :=
  .next (s.access .hl (.write a allStrobes w))

/-- REPORT_SAMPLE_WRITE by HL (R28). -/
def execReportSampleWrite (a : Addr) (w : Word) (s : State) : Host.Outcome State Fault Refusal :=
  .next (s.access .hl (.write a allStrobes w))

/-- CANDIDATE_HEADER_READ (R92). -/
def execCandidateHeaderRead (p : Port) (a : Addr) (st : BitVec 4) (s : State) : Host.Outcome State Fault Refusal :=
  .next (s.access p (.read a st))

/-- CANDIDATE_ENTRY_READ (R96). -/
def execCandidateEntryRead (p : Port) (a : Addr) (st : BitVec 4) (s : State) : Host.Outcome State Fault Refusal :=
  .next (s.access p (.read a st))

/-- ORDER_WORD_WRITE (R102). -/
def execOrderWordWrite (p : Port) (a : Addr) (w : Word) (s : State) : Host.Outcome State Fault Refusal :=
  .next (s.access p (.write a allStrobes w))

/-- ORDER_SUBMIT (R103). -/
def execOrderSubmit (p : Port) (a : Addr) (w : Word) (s : State) : Host.Outcome State Fault Refusal :=
  .next (s.access p (.write a allStrobes w))

/-- COMMIT_CLEAR (R103). -/
def execCommitClear (p : Port) (a : Addr) (w : Word) (s : State) : Host.Outcome State Fault Refusal :=
  .next (s.access p (.write a allStrobes w))

/-- FEED_ENVELOPE_WRITE (R64). -/
def execFeedEnvelopeWrite (p : Port) (a : Addr) (w : Word) (s : State) : Host.Outcome State Fault Refusal :=
  .next (s.access p (.write a allStrobes w))

/-- TOP_ENVELOPE_WRITE (R68). -/
def execTopEnvelopeWrite (p : Port) (a : Addr) (w : Word) (s : State) : Host.Outcome State Fault Refusal :=
  .next (s.access p (.write a allStrobes w))

/-- CONSUME_WORD_WRITE (R164). -/
def execConsumeWordWrite (p : Port) (side : Side) (w : Word) (s : State) : Host.Outcome State Fault Refusal :=
  .next (s.access p (controlWrite s.units (consumeOffset side) allStrobes w))

/-- CLEAR_WORD_WRITE (R166). -/
def execClearWordWrite (p : Port) (side : Side) (w : Word) (s : State) : Host.Outcome State Fault Refusal :=
  .next (s.access p (controlWrite s.units (clearOffset side) allStrobes w))

/-- ENABLE_WORD_WRITE (R166). -/
def execEnableWordWrite (p : Port) (side : Side) (w : Word) (s : State) : Host.Outcome State Fault Refusal :=
  .next (s.access p (controlWrite s.units (enableOffset side) allStrobes w))

/-- CONTROL_BLOCK_WRITE (R148). -/
def execControlBlockWrite (p : Port) (o : BitVec 9) (st : BitVec 4) (w : Word) (s : State) :
    Host.Outcome State Fault Refusal :=
  .next (s.access p (controlWrite s.units o.toNat st w))

/-- REFUSED_PORT_WRITE: any write of a port, which the classifier refuses where R138 has it refused. -/
def execRefusedPortWrite (p : Port) (a : Addr) (st : BitVec 4) (w : Word) (s : State) :
    Host.Outcome State Fault Refusal :=
  .next (s.access p (.write a st w))

end Sys2Proof.Machine
end

