-- ==== Sys2Proof/Machine/Commands.lean ====
section
/-! DEFINITION. The meanings of the commands that a port writes into a command slot with status ISSUE (R152). Each is
the whole write of the command's word to the slot's word of the control block; the classifier and the control unit
(Path.lean, Control.lean) take it from there. -/

namespace Sys2Proof.Machine

/-- The write of a command word to a side's slot. -/
def issueAccess (u : Units) (c : Command) (slot : Side) (arg : BitVec 8) : Access :=
  .write (BitVec.ofNat 20 (u.controlBase + slotOffset slot)) allStrobes (issueWord c arg)

/-- A port issues a command. -/
def State.command (s : State) (c : Command) (p : Port) (slot : Side) (arg : BitVec 8) : State :=
  s.access p (issueAccess s.units c slot arg)

/-- LOAD (R151). -/
def execLoad (p : Port) (slot : Side) (arg : BitVec 8) (s : State) : Host.Outcome State Fault Refusal :=
  .next (s.command .load p slot arg)

/-- UNLOAD (R153). -/
def execUnload (p : Port) (slot : Side) (arg : BitVec 8) (s : State) : Host.Outcome State Fault Refusal :=
  .next (s.command .unload p slot arg)

/-- START (R154). -/
def execStart (p : Port) (slot : Side) (arg : BitVec 8) (s : State) : Host.Outcome State Fault Refusal :=
  .next (s.command .start p slot arg)

/-- STOP (R155). -/
def execStop (p : Port) (slot : Side) (arg : BitVec 8) (s : State) : Host.Outcome State Fault Refusal :=
  .next (s.command .stop p slot arg)

/-- HALT (R157). -/
def execHalt (p : Port) (slot : Side) (arg : BitVec 8) (s : State) : Host.Outcome State Fault Refusal :=
  .next (s.command .halt p slot arg)

/-- HEAD-ENABLE (R11). -/
def execHeadEnable (p : Port) (slot : Side) (arg : BitVec 8) (s : State) : Host.Outcome State Fault Refusal :=
  .next (s.command .headEnable p slot arg)

/-- HEAD-DISABLE (R12). -/
def execHeadDisable (p : Port) (slot : Side) (arg : BitVec 8) (s : State) : Host.Outcome State Fault Refusal :=
  .next (s.command .headDisable p slot arg)

/-- RECOVER (R22). -/
def execRecover (p : Port) (slot : Side) (arg : BitVec 8) (s : State) : Host.Outcome State Fault Refusal :=
  .next (s.command .recover p slot arg)

/-- HEAD-PURGE (R130). -/
def execHeadPurge (p : Port) (slot : Side) (arg : BitVec 8) (s : State) : Host.Outcome State Fault Refusal :=
  .next (s.command .headPurge p slot arg)

/-- ZERO-SET (R43). -/
def execZeroSet (p : Port) (slot : Side) (arg : BitVec 8) (s : State) : Host.Outcome State Fault Refusal :=
  .next (s.command .zeroSet p slot arg)

/-- APPLY-SIDE (R116). -/
def execApplySide (p : Port) (slot : Side) (arg : BitVec 8) (s : State) : Host.Outcome State Fault Refusal :=
  .next (s.command .applySide p slot arg)

/-- APPLY-ZONE (R76). -/
def execApplyZone (p : Port) (slot : Side) (arg : BitVec 8) (s : State) : Host.Outcome State Fault Refusal :=
  .next (s.command .applyZone p slot arg)

/-- NOTE-ACK (R167). -/
def execNoteAck (p : Port) (slot : Side) (arg : BitVec 8) (s : State) : Host.Outcome State Fault Refusal :=
  .next (s.command .noteAck p slot arg)

end Sys2Proof.Machine
end

