-- ==== Sys2Proof/Machine/Lines.lean ====
section
/-! DEFINITION. The meanings of the commands that are no port access: request edges, the units' own events, the issue
queue's grant and the reset input. -/

namespace Sys2Proof.Machine

/-- BAG_REQUEST (R118). -/
def execBagRequest (side : Side) (s : State) : Host.Outcome State Fault Refusal := .next (s.bagRequest side)

/-- DOUBLE_REQUEST_SETTING (R118). -/
def execDoubleRequestSetting (side : Side) (s : State) : Host.Outcome State Fault Refusal :=
  .next (s.doubleRequestSetting side)

/-- RELEASE (R120, R121). -/
def execRelease (side : Side) (s : State) : Host.Outcome State Fault Refusal := .next (s.releaseAlone side)

/-- SETTLE_EXPIRY (R51). -/
def execSettleExpiry (h : Fin 32) (s : State) : Host.Outcome State Fault Refusal := .next (s.headExpiry h .settle)

/-- SILENCE_EXPIRY (R52). -/
def execSilenceExpiry (h : Fin 32) (s : State) : Host.Outcome State Fault Refusal := .next (s.headExpiry h .silence)

/-- GATE_EXPIRY (R53). -/
def execGateExpiry (h : Fin 32) (s : State) : Host.Outcome State Fault Refusal := .next (s.headExpiry h .gate)

/-- HOLD_EXPIRY (R111). -/
def execHoldExpiry (side : Side) (place : Fin 2) (s : State) : Host.Outcome State Fault Refusal :=
  .next (s.holdExpiry side place)

/-- DISCH_PULSE_END (R125). -/
def execDischPulseEnd (side : Side) (s : State) : Host.Outcome State Fault Refusal :=
  .next (s.setUnits (s.units.pulseEnd side))

/-- ISSUE_QUEUE_WRITE (R142). -/
def execIssueQueueWrite (s : State) : Host.Outcome State Fault Refusal := .next s.drain

/-- RESET_INPUT (R159). -/
def execResetInput (cbase : BitVec 4) (oneck : Bool) (s : State) : Host.Outcome State Fault Refusal :=
  .next (s.resetInput cbase oneck)

end Sys2Proof.Machine
end

