-- ==== Sys2Proof/Machine/Dispatch.lean ====
section
/-! DEFINITION. One arm for each command. -/

namespace Sys2Proof.Machine

def exec (i : Instr) (s : State) : Host.Outcome State Fault Refusal :=
  match i with
  | .load p slot arg => Sys2Proof.Machine.execLoad p slot arg s
  | .unload p slot arg => Sys2Proof.Machine.execUnload p slot arg s
  | .start p slot arg => Sys2Proof.Machine.execStart p slot arg s
  | .stop p slot arg => Sys2Proof.Machine.execStop p slot arg s
  | .halt p slot arg => Sys2Proof.Machine.execHalt p slot arg s
  | .headEnable p slot arg => Sys2Proof.Machine.execHeadEnable p slot arg s
  | .headDisable p slot arg => Sys2Proof.Machine.execHeadDisable p slot arg s
  | .recover p slot arg => Sys2Proof.Machine.execRecover p slot arg s
  | .headPurge p slot arg => Sys2Proof.Machine.execHeadPurge p slot arg s
  | .zeroSet p slot arg => Sys2Proof.Machine.execZeroSet p slot arg s
  | .applySide p slot arg => Sys2Proof.Machine.execApplySide p slot arg s
  | .applyZone p slot arg => Sys2Proof.Machine.execApplyZone p slot arg s
  | .noteAck p slot arg => Sys2Proof.Machine.execNoteAck p slot arg s
  | .reportHeaderWrite a w => Sys2Proof.Machine.execReportHeaderWrite a w s
  | .reportSampleWrite a w => Sys2Proof.Machine.execReportSampleWrite a w s
  | .candidateHeaderRead p a st => Sys2Proof.Machine.execCandidateHeaderRead p a st s
  | .candidateEntryRead p a st => Sys2Proof.Machine.execCandidateEntryRead p a st s
  | .orderWordWrite p a w => Sys2Proof.Machine.execOrderWordWrite p a w s
  | .orderSubmit p a w => Sys2Proof.Machine.execOrderSubmit p a w s
  | .commitClear p a w => Sys2Proof.Machine.execCommitClear p a w s
  | .feedEnvelopeWrite p a w => Sys2Proof.Machine.execFeedEnvelopeWrite p a w s
  | .topEnvelopeWrite p a w => Sys2Proof.Machine.execTopEnvelopeWrite p a w s
  | .consumeWordWrite p side w => Sys2Proof.Machine.execConsumeWordWrite p side w s
  | .clearWordWrite p side w => Sys2Proof.Machine.execClearWordWrite p side w s
  | .enableWordWrite p side w => Sys2Proof.Machine.execEnableWordWrite p side w s
  | .controlBlockWrite p o st w => Sys2Proof.Machine.execControlBlockWrite p o st w s
  | .refusedPortWrite p a st w => Sys2Proof.Machine.execRefusedPortWrite p a st w s
  | .bagRequest side => Sys2Proof.Machine.execBagRequest side s
  | .doubleRequestSetting side => Sys2Proof.Machine.execDoubleRequestSetting side s
  | .release side => Sys2Proof.Machine.execRelease side s
  | .settleExpiry h => Sys2Proof.Machine.execSettleExpiry h s
  | .silenceExpiry h => Sys2Proof.Machine.execSilenceExpiry h s
  | .gateExpiry h => Sys2Proof.Machine.execGateExpiry h s
  | .holdExpiry side place => Sys2Proof.Machine.execHoldExpiry side place s
  | .dischPulseEnd side => Sys2Proof.Machine.execDischPulseEnd side s
  | .issueQueueWrite => Sys2Proof.Machine.execIssueQueueWrite s
  | .resetInput cbase oneck => Sys2Proof.Machine.execResetInput cbase oneck s

end Sys2Proof.Machine
end

