-- ==== Sys2Proof/Safety.lean ====
section
/-! DEFINITION. What the statements speak of: the states in which a port or an event has its turn, and the invariants
of the machine (its memory's canonical form, the bounds of queues and records, the ranges of the spec's values). -/

namespace Sys2Proof.Machine

/-! ### When an event is taken at once -/

/-- No access waits at any port (R133). -/
def State.Quiet (s : State) : Prop := ∀ p, (s.front p).current = none ∧ (s.front p).upstream = []

/-- The ports whose turn comes before the issue queue's (R141). -/
def portsFirst : Source → List Port
  | .port .ca => [.cb, .hl]
  | .port .cb => [.hl]
  | .port .hl => []
  | .queue => [.ca, .cb, .hl]

/-- No port waits, no event is held, no release is pending, no START write waits behind the issue queue, and memory
and control mirror are in canonical form (R133, R144, R145). -/
def State.Calm (s : State) : Prop :=
  s.Quiet ∧ s.held = [] ∧ s.startTail = [] ∧ (∀ side, (s.units.releases.get side).releasePending = false) ∧
    s.mem.wf = true ∧ Cells.wf s.units.mirror = true

/-- A port that makes an access now has its grant before anything else happens: all is calm, and the issue queue is
empty or comes later, with fewer than 48 entries (R141, R144). -/
def State.Turn (s : State) (p : Port) : Prop :=
  s.Calm ∧ (s.queue = [] ∨ (s.queue.length < Config.queueUrgent ∧ p ∈ portsFirst s.lastGranted))

/-- All is calm and the issue queue is empty, so that every event fits (R143 to R145). -/
def State.Clear (s : State) : Prop := s.Calm ∧ s.queue = []

/-- The entries that wait for memory, in order (R142, R145). -/
def State.waitingWrites (s : State) : List QueueEntry := s.queue ++ s.startTail

/-- A port's whole write has reached memory as w and was acknowledged; no other byte of memory and no other port has
changed (R133, R139). -/
def State.Wrote (s t : State) (p : Port) (a : Addr) (w : Word) : Prop :=
  t.mem.word a = w ∧ (∀ b lane, lane < 4 → b ≠ a → t.mem.byte b lane = s.mem.byte b lane) ∧
    t.ports = s.ports.set p { current := none, upstream := [], answer := .acknowledged } ∧ t.lastGranted = .port p ∧
    t.pending = s.pending

/-- Memory, front ends, arbiter and waiting commands are the same: an event of the part's own units. -/
def State.Inside (s t : State) : Prop :=
  t.mem = s.mem ∧ t.ports = s.ports ∧ t.lastGranted = s.lastGranted ∧ t.pending = s.pending

/-- Nothing was put into the issue queue, and nothing is held. -/
def State.NoWrites (s t : State) : Prop := t.waitingWrites = s.waitingWrites ∧ t.held = s.held

/-- The flag word that a change of a side's notice unit queues: none when the content has not changed or was queued
last (R165). -/
def Units.flagQueued (u : Units) (s : Side) (n : NoticeSide) : List QueueEntry :=
  if n.flagWord = (u.notices.get s).flagWord ∨ n.flagWord = (u.notices.get s).lastFlagWord then []
  else [⟨u.flagAddr s, n.flagWord⟩]

/-- Behind what waited, the event put these writes into the issue queue, and behind them the flag word of each side whose
content has changed, A before B (R165; log entry 31: a changed write index alone queues one too). Each side remembers the flag
word queued last, and where note pending has become set the NOTE line waits for the side's flag words that now stand in the
queue; where it was set already the wait is as it was (R167; log entry 10, DEDUCED). -/
def State.FlagWords (s t : State) (l : List QueueEntry) : Prop :=
  t.waitingWrites = s.waitingWrites ++ l ++ s.units.flagQueued .a (t.units.notices.get .a) ++
      s.units.flagQueued .b (t.units.notices.get .b) ∧
    ∀ side,
      let old := s.units.notices.get side
      let new := t.units.notices.get side
      new.lastFlagWord = (if s.units.flagQueued side new = [] then old.lastFlagWord else new.flagWord) ∧
        new.noteWait =
          (if new.notePending = true ∧ old.notePending = false then flagWords s.units t.waitingWrites side
           else old.noteWait)

/-- The writes of an event that changes note pending by the rise of an enabled flag only (R165, R167; log entries 10 and 31 as in
State.FlagWords). -/
def State.Sent (s t : State) (l : List QueueEntry) : Prop :=
  s.FlagWords t l ∧ ∀ side, (t.units.notices.get side).notePending =
    ((s.units.notices.get side).notePending || flagRises (s.units.notices.get side) (t.units.notices.get side))

/-- An event that is taken at once put these writes into the issue queue, with the flag words behind them, and nothing
else is held than before (R143, R165, R167; log entries 10 and 31 as in State.FlagWords). -/
def State.Queued (s t : State) (l : List QueueEntry) : Prop := s.Sent t l ∧ t.held = s.held

/-- The address of a word of the control block (R147, R174). -/
def Units.blockAddr (u : Units) (offset : Nat) : Addr := BitVec.ofNat 20 (u.controlBase + offset)

/-- A command word with its verdict, as it reaches memory (R152, R176). -/
def doneWord (c : Command) (arg : BitVec 8) (detail : BitVec 14) : Word := verdictWord (issueWord c arg) (.done detail)

def refusedWord (c : Command) (arg : BitVec 8) (r : CommandReason) (detail : BitVec 14) : Word :=
  verdictWord (issueWord c arg) (.refused r detail)

/-- The port command that writes a command word (R152). -/
def Command.instr : Command → Port → Side → BitVec 8 → Instr
  | .load => .load
  | .unload => .unload
  | .start => .start
  | .stop => .stop
  | .halt => .halt
  | .headEnable => .headEnable
  | .headDisable => .headDisable
  | .recover => .recover
  | .headPurge => .headPurge
  | .zeroSet => .zeroSet
  | .applySide => .applySide
  | .applyZone => .applyZone
  | .noteAck => .noteAck

/-- The part states in which a command is refused with STATE whatever the heads and the argument are. -/
def Command.refusedIn : Command → PartState → Bool
  | .load, x => x == .running || x == .draining
  | .unload, x | .start, x => x != .stopped
  | .stop, x => x != .running
  | .halt, x => x == .transparent || x == .stopped
  | .headEnable, x | .headDisable, x | .recover, x | .headPurge, x | .zeroSet, x => x == .transparent
  | .applySide, x | .applyZone, x | .noteAck, x => x == .transparent

/-- The head commands. -/
def Command.ofHead : Command → Bool
  | .headEnable | .headDisable | .recover | .headPurge | .zeroSet => true
  | _ => false

/-- The port's command words are taken: CA and CB always, HL in TRANSPARENT only (R147, R152). -/
def State.mayCommand (s : State) (p : Port) : Prop := s.units.part = .transparent ∨ p ≠ .hl

/-- A command has been taken: its word stands in memory and in the mirror as DONE with a detail (R148, R152). -/
def State.Commanded (s t : State) (p : Port) (slot : Side) (c : Command) (arg : BitVec 8) (detail : BitVec 14) : Prop :=
  s.Wrote t p (s.units.blockAddr (slotOffset slot)) (doneWord c arg detail) ∧
    t.units.mirrorWord (slotOffset slot) = doneWord c arg detail

/-- Two notice units agree in everything but note pending, the awaited flag words and the flag word queued last. -/
def NoticeSide.sameAs (n m : NoticeSide) : Prop :=
  n.writeIx = m.writeIx ∧ n.consumeIx = m.consumeIx ∧ n.number = m.number ∧ n.holding = m.holding ∧
    n.reservations = m.reservations ∧ n.flags = m.flags ∧ n.enables = m.enables

/-- What a side's notice unit makes of a head notice (R161, R162), as the notice unit does it. -/
def Units.heard (u : Units) (s : Side) (n : Notice) : Ev := (Ev.begin u false 0).headNotice s n

/-- What a side's notice unit makes of an order notice (R161, R162). -/
def Units.heardOrder (u : Units) (s : Side) (n : Notice) : Ev := (Ev.begin u false 0).orderNotice s n

/-! ### Head records that the rules spell out -/

/-- A head record after a purge, the GATE timer's limit given (R19, R20). -/
def Head.purged (x : Head) (r : PurgeReason) (limit : Nat) : Head :=
  { x with
    state := .discharging (.reject r), bucket := none, retryUsed := false, gateSeq := x.gateSeq + 1,
    timer := .running .gate limit }

/-- The gate command of a purge (R123, R129). -/
def Units.purgeEntry (u : Units) (h : Fin 32) (r : PurgeReason) : QueueEntry :=
  ⟨BitVec.ofNat 20 (u.base .gate + h.val), gateWord (.reject r) 0 ((u.head h).gateSeq + 1)⟩

/-- A head record after a feed issue of so many ticks (R60). -/
def Head.fed (x : Head) (ticks : Nat) : Head :=
  { x with feedSeq := x.feedSeq + 1, pool := some ⟨ticks, x.feedSeq + 1⟩ }

/-- A head record after a feed stop (R61). -/
def Head.unfed (x : Head) : Head := { x with feedSeq := x.feedSeq + 1, pool := none }

/-- A feed order for a head (R60, R61). -/
def Units.feedEntry (u : Units) (h : Fin 32) (amplitude ticks : Nat) (seq : BitVec 4) : QueueEntry :=
  ⟨BitVec.ofNat 20 (u.base .feed + h.val), feedWord amplitude ticks seq⟩

/-- The ticks of a feed issue at a head, held inside its envelope's range (R59); none where no feed is issued because
the pool feed record is present, or for want of an envelope or a zone (R58). -/
def Units.issueTicks (u : Units) (h : Fin 32) : Option Nat :=
  match (u.head h).pool, (u.head h).envelope, u.zoneOf h.val with
  | none, some env, some _ =>
    let t := ticksFor (u.fillTarget h) (u.head h).yield
    some (if env.tmax < t then env.tmax else if t < env.tmin then env.tmin else t)
  | _, _, _ => none

/-- A head record after the feed issue that an event asks for (R58, R60). -/
def Head.issued (x : Head) : Option Nat → Head
  | none => x
  | some t => x.fed t

/-- A bucket weight above the empty band (R13). -/
def Head.full (x : Head) (emptyBand : Int) : Bool :=
  match x.bucketWeight with
  | some w => emptyBand < w
  | none => false

/-- A head that goes to EMPTY, READY or CLAIMED with its SILENCE timer (R8). -/
def Head.watched (x : Head) (c : CycleState) (limit : Nat) : Head := { x with state := c, timer := .running .silence limit }

/-- A head that goes to STOPPED by HALT or drain complete (R23). -/
def Head.halted (x : Head) : Head := { x with state := .stopped, timer := .stopped, frozen := none, bucket := none }

/-- The status word that a part-state change queues (R158). -/
def Units.statusEntry (u : Units) (part : PartState) : QueueEntry :=
  ⟨u.statusAddr, statusWord part u.cbase u.oneck (u.changeCount + 1)⟩

/-! ### Frames -/

/-- The pieces of the units that an event can change. -/
inductive Piece where
  | part | loaded | mirror (offset : Nat) | stage
  | head (h : Fin 32) | zone (z : Zone) | order (s : Side) | release (s : Side) | notice (s : Side) | view (s : Side)
  deriving DecidableEq, Repr

/-- A piece of the units is the same in two states of them. -/
def Units.keeps (u v : Units) : Piece → Prop
  | .part => v.part = u.part ∧ v.changeCount = u.changeCount
  | .loaded => v.config = u.config ∧ v.clock = u.clock ∧ v.cbase = u.cbase ∧ v.oneck = u.oneck
  | .mirror o => v.mirrorWord o = u.mirrorWord o
  | .stage => v.stage = u.stage
  | .head h => v.head h = u.head h
  | .zone z => v.zones.get z = u.zones.get z
  | .order s => v.orders.get s = u.orders.get s
  | .release s => v.releases.get s = u.releases.get s
  | .notice s => v.notices.get s = u.notices.get s
  | .view s => v.views.get s = u.views.get s

/-- Nothing but the listed pieces differs between two states of the units. -/
def Units.onlyChanges (u v : Units) (l : List Piece) : Prop := ∀ p, p ∉ l → u.keeps v p

/-- A command has been refused: its word stands in memory and in the mirror as REFUSED with a reason and a detail, and
nothing else has changed (R152). -/
def State.CommandRefused (s t : State) (p : Port) (slot : Side) (c : Command) (arg : BitVec 8) (why : CommandReason)
    (detail : BitVec 14) : Prop :=
  s.Wrote t p (s.units.blockAddr (slotOffset slot)) (refusedWord c arg why detail) ∧
    t.units.mirrorWord (slotOffset slot) = refusedWord c arg why detail ∧
    s.units.onlyChanges t.units [.mirror (slotOffset slot)] ∧ s.NoWrites t

/-! ### Windows, reports and refused writes -/

/-- An address lies in a window of the table in force, at an offset, and not in the control block (R135). -/
def Units.inWindow (u : Units) (a : Addr) (w : Window) (off : Nat) : Prop :=
  u.controlOffset a = none ∧ u.windowAt a = some (w, off)

/-- The word that a stage holds at an offset of a slot (R27, R102). -/
def stagedWord (stage : Option WriteGroup) (slot off : Nat) : Option Word :=
  stage.bind fun g => if g.slot = slot then g.at off else none

/-- The write group of a report with n samples is complete (R29). -/
def Units.reportComplete (u : Units) (slot n : Nat) : Prop :=
  ∀ o, 1 ≤ o → o ≤ n → (stagedWord u.stage slot o).isSome = true

/-- Samples 1 to n lie in the range of check 5 (R30). -/
def Units.samplesInRange (u : Units) (slot n : Nat) : Prop :=
  ∀ o w, 1 ≤ o → o ≤ n → stagedWord u.stage slot o = some w → -200000 ≤ w.toInt ∧ w.toInt ≤ 2000000

/-- A report that passes all six checks (R30, R34). -/
def Units.reportPasses (u : Units) (slot : Nat) (r : ReportHeader) : Prop :=
  r.count ≤ 3 ∧ u.reportComplete slot r.count ∧ r.head.val < u.headCount ∧ (u.head r.head).state ≠ .disabled ∧
    u.samplesInRange slot r.count ∧ (u.head r.head).lastSeq ≠ some r.seq

/-- The weight of a report's samples, and whether it is stable (R36). -/
def Units.reportWeight (u : Units) (r : ReportHeader) : Option (Int × Bool) :=
  reduceSamples (samplesOf u.stage r.count) r.still (u.params r.head).stabilityBand

/-- The weight of a report, where it is stable (R36). -/
def Units.stableWeight (u : Units) (r : ReportHeader) : Option Int :=
  (u.reportWeight r).bind fun x => if x.2 then some x.1 else none

/-- The drain condition does not hold while the part is DRAINING: drain complete is taken in the event that makes it
true (R156). -/
def Units.undrained (u : Units) : Prop := u.part = .draining → u.drained = false

/-- A port may not write a word of the windows or of the control block with all strobes on, while a configuration is
loaded (R137, R147). -/
def Units.forbids (u : Units) (p : Port) (a : Addr) : Prop :=
  (u.part ≠ .transparent ∧ ∃ o, u.controlOffset a = some o ∧ (p = .hl ∨ o = 0x108 ∨ o = 0x109 ∨ o = 0x10A)) ∨
    ∃ w o, u.inWindow a w o ∧
      match w with
      | .report => p ≠ .hl
      | .order x => p ≠ u.owner x
      | .feed => p = .hl
      | .candidate _ | .gate | .notice _ => True

/-- A write whose address lies in the control block of a loaded part or in a window (R138). -/
def Units.guards (u : Units) (a : Addr) : Prop :=
  (u.part ≠ .transparent ∧ ∃ o, u.controlOffset a = some o) ∨ ∃ w o, u.inWindow a w o

/-- The tests of R138, R65, R68 and R164 that refuse a port's write, with the cause. -/
def Units.refuses (u : Units) (p : Port) (a : Addr) (strobes : BitVec 4) (w : Word) : WriteCause → Prop
  | .partialWrite => u.guards a ∧ strobes ≠ 15
  | .permission => u.forbids p a ∧ strobes = 15
  | .range => p ≠ .hl ∧ strobes = 15 ∧
      ((∃ o, u.inWindow a .feed o ∧ o < 32 ∧ u.headCount ≤ o) ∨
        (∃ z : Zone, u.inWindow a .feed (32 + z.number) ∧ u.zoneCount ≤ z.number) ∨
        ∃ x, u.part ≠ .transparent ∧ u.controlOffset a = some (consumeOffset x) ∧
          let n := u.notices.get x
          (u.ringSize x ≤ w.toNat ∨
            n.unread (u.ringSize x) < (w.toNat + u.ringSize x - n.consumeIx) % u.ringSize x))
  | .value => p ≠ .hl ∧ strobes = 15 ∧
      ((∃ o, u.inWindow a .feed o ∧ o < 32 ∧ o < u.headCount ∧
          (100 < bits w 0 7 ∨ bits w 8 8 = 0 ∨ bits w 16 8 < bits w 8 8)) ∨
        ∃ z : Zone, u.inWindow a .feed (32 + z.number) ∧ z.number < u.zoneCount ∧
          (100 < bits w 0 7 ∨ 100 < bits w 8 7 ∨ 100 < bits w 16 7 ∨ bits w 0 7 < bits w 8 7 ∨ bits w 16 7 < bits w 0 7))

/-- A port's write has been refused: it is acknowledged, and memory is as it was (R138). -/
def State.WriteRefused (s t : State) (p : Port) : Prop :=
  t.mem = s.mem ∧ t.ports = s.ports.set p { current := none, upstream := [], answer := .acknowledged } ∧
    t.lastGranted = .port p ∧ t.pending = s.pending

/-- A head record at entry to OUT, its feed stopped (R22, R61). -/
def Head.outed (x : Head) : Head :=
  { x.unfed with state := .out, timer := .stopped, frozen := none, bucket := none, health := Config.healthOut }

/-- The four words of a notice at an entry of a side's ring (R160). -/
def Units.ringEntry (u : Units) (s : Side) (entry : Nat) (words : List Word) : List QueueEntry :=
  words.zipIdx.map fun (w, i) => ⟨BitVec.ofNat 20 (u.base (.notice s) + 4 * entry + i), w⟩

/-! ### What an event puts out, in its order -/

/-- One thing that an event puts out: a head notice; an order notice, with its reservation; a notice that takes its
number and is dropped for want of issue queue entries; a flag; a reservation; a write. -/
inductive Act where
  | notice (s : Side) (n : Notice)
  | order (s : Side) (n : Notice)
  | lost (s : Side)
  | flag (s : Side) (f : Flag)
  | reserve (s : Side)
  | write (x : QueueEntry)
  deriving DecidableEq, Repr

/-- What a thing put out makes of the notice units and the writes (R122, R161, R162, R165). -/
def Act.take : Act → Ev → Ev
  | .notice s n, e => e.headNotice s n
  | .order s n, e => e.orderNotice s n
  | .lost s, e => (e.takeNumber s).setFlag s .noticeLost
  | .flag s f, e => e.setFlag s f
  | .reserve s, e => e.modNotice s fun n => { n with reservations := n.reservations + 1 }
  | .write x, e => e.push x.addr x.data

/-- What a list of them makes, in order, of the notice units and the writes. -/
def Units.puts (u : Units) (l : List Act) : Ev := l.foldl (fun e a => a.take e) (Ev.begin u false 0)

/-- The event put out these things and no others. -/
def State.Puts (s t : State) (l : List Act) : Prop :=
  (∀ side, (t.units.notices.get side).sameAs ((s.units.puts l).units.notices.get side)) ∧ s.Queued t (s.units.puts l).out

/-- The units that an event leaves, its notice units apart, and what it puts out. -/
abbrev Effect := Units × List Act

/-- One effect, then another on the units that the first leaves. -/
def Effect.then (r : Effect) (f : Units → Effect) : Effect := ((f r.1).1, r.2 ++ (f r.1).2)

/-- An event has exactly this effect: every piece of the units is as it says, and so are notices, flags and writes. -/
def State.Makes (s t : State) (r : Effect) : Prop := r.1.onlyChanges t.units [.notice .a, .notice .b] ∧ s.Puts t r.2

/-- A command has exactly this effect beside its word in the control mirror. -/
def State.CommandMakes (s t : State) (slot : Side) (r : Effect) : Prop :=
  r.1.onlyChanges t.units [.mirror (slotOffset slot), .notice .a, .notice .b] ∧ s.Puts t r.2

/-! ### The effects that the rules share -/

/-- Every head's record at once. -/
def Units.mapHeads (u : Units) (f : Fin 32 → Head → Head) : Units :=
  { u with heads := Vector.ofFn fun h => f h (u.head h) }

/-- The HEALTH-LEVEL notice of a change of a head's counter to a value: none when the level stays (R45, R47). -/
def Units.levelActs (u : Units) (h : Fin 32) (v : Nat) (cause : HealthCause) : List Act :=
  let old := levelOf (u.head h).health
  if old = levelOf v then [] else [.notice (u.reportingHead h) (.healthLevel h old (levelOf v) v cause)]

/-- The counter of a head takes a value (R45 steps 1 to 3). -/
def Units.count (u : Units) (h : Fin 32) (v : Nat) (cause : HealthCause) : Effect :=
  (u.setHead h { u.head h with health := v }, u.levelActs h v cause)

/-- A purge: the head discharges to REJECT; gate command, then PURGE notice (R20, R129). -/
def Units.purge (u : Units) (h : Fin 32) (r : PurgeReason) (weight : Option Int) : Effect :=
  (u.setHead h ((u.head h).purged r (u.params h).gateLimit),
    [.write (u.purgeEntry h r), .notice (u.reportingHead h) (.purge h r ((u.head h).gateSeq + 1) weight)])

/-- A change of a zone's top trim: the trim stays within 20 either way, and where the applied amplitude moves the top
sequence increments, and a top order and a TOP-TRIM notice follow (R69, R70). -/
def Units.trim (u : Units) (z : Zone) (delta : Int) (cause : TrimCause) (h : Fin 32) : Effect :=
  let old := u.zones.get z
  let trim := max (-20) (min 20 (old.top.trim + delta))
  let applied := old.top.envelope.map fun e => e.apply trim
  if applied = old.top.applied ∨ applied = none then
    (u.setZone z { old with top := { old.top with trim := trim } }, [])
  else
    (u.setZone z { old with top := { old.top with trim := trim, applied := applied, seq := old.top.seq + 1 } },
      [.write ⟨BitVec.ofNat 20 (u.base .feed + 32 + z.number), topWord (applied.getD 0) (old.top.seq + 1)⟩,
       .notice (u.reporting z) (.topTrim z cause h trim (applied.getD 0))])

/-- A feed issue: none unless the part is RUNNING, the head not OUT, its pool feed record absent and its envelope
present; the feed order, and behind it the change of the top trim where the ticks were clamped (R58 to R60, R69). -/
def Units.feed (u : Units) (h : Fin 32) : Effect :=
  let x := u.head h
  match u.issueTicks h, x.envelope, u.zoneOf h.val with
  | some ticks, some env, some z =>
    if u.part ≠ .running ∨ x.state = .out then (u, [])
    else
      let fed : Effect := (u.setHead h (x.fed ticks), [.write (u.feedEntry h env.amplitude ticks (x.feedSeq + 1))])
      let asked := ticksFor (u.fillTarget h) x.yield
      if env.tmax < asked then fed.then fun v => v.trim z 1 .tmax h
      else if asked < env.tmin then fed.then fun v => v.trim z (-1) .tmin h
      else fed
  | _, _, _ => (u, [])

/-- An order leaves the queue by withdrawal for one of its heads; its other heads go back to READY (R17, R113). -/
def Units.withdrawn (u : Units) (side : Side) (o : OrderRec) (h : Fin 32) : Units :=
  (u.mapHeads fun g x => if g ∈ o.heads ∧ g ≠ h then x.watched .ready (u.params g).silenceLimit else x).setOrder side
    { u.orders.get side with queue := (u.orders.get side).queue.filter fun p => p.accept != o.accept }

/-- The withdrawal of the order that claims a head: ORDER-WITHDRAWN with the head's list position, then ORDER-ENDED
(R113). -/
def Units.withdraw (u : Units) (side : Side) (accept : Nat) (why : WithdrawReason) (h : Fin 32) : Effect :=
  match (u.orders.get side).queue.find? fun o => o.accept = accept with
  | none => (u, [])
  | some o => (u.withdrawn side o h,
      [.order side (.orderWithdrawn o.tag why (some (h, o.heads.idxOf h + 1)) o.heads o.total), .flag side .orderEnded])

/-- The open dumps with a head's PENDING mark set: the first dump that waits for it, which leaves the list when that was
its last (R127, R128). -/
def dumpsAfter (h : Fin 32) (m : Mark) : List Dump → List Dump
  | [] => []
  | d :: rest =>
    if d.awaits h then (if (d.mark h m).complete then rest else d.mark h m :: rest) else d :: dumpsAfter h m rest

/-- The DUMP-COMPLETE notice of a dump (R128). -/
def Dump.notice (d : Dump) : Notice := .dumpComplete d.tag d.heads d.total d.giveaway

/-- A head's mark set in its open dump, with the DUMP-COMPLETE notice of a dump that it completes (R127, R128). -/
def Units.markDump (u : Units) (side : Side) (h : Fin 32) (m : Mark) : Effect :=
  let dumps := (u.releases.get side).dumps
  (u.setRelease side { u.releases.get side with dumps := dumpsAfter h m dumps },
    match dumps.find? fun d => d.awaits h with
    | some d => if (d.mark h m).complete then [.order side (d.mark h m).notice] else []
    | none => [])

/-- No release follows a head's mark in a side's dumps: the part neither RUNNING nor DRAINING, no request latched, no order
queued, or no dump completed (R120, R128). -/
def Units.unreleased (u : Units) (side : Side) (h : Fin 32) (m : Mark) : Prop :=
  u.active = false ∨ (u.releases.get side).latch = false ∨ (u.orders.get side).queue = [] ∨
    ∀ d, ((u.releases.get side).dumps.find? fun d => d.awaits h) = some d → (d.mark h m).complete = false

/-- The release of a side's oldest order follows a head's mark: the mark completes one of at most two dumps, with the
request latch SET (R120, R128). -/
def Units.releaseFollows (u : Units) (side : Side) (h : Fin 32) (m : Mark) (z : Zone) (o : OrderRec) : Prop :=
  u.active = true ∧ (u.releases.get side).latch = true ∧ (u.orders.get side).queue.head? = some o ∧
    u.binding side = some z ∧ o.heads.Nodup ∧ (u.releases.get side).dumps.length ≤ Config.dumpDepth ∧
    ∃ d, ((u.releases.get side).dumps.find? fun d => d.awaits h) = some d ∧ (d.mark h m).complete = true

/-- Entry to OUT: the order of a CLAIMED head is withdrawn, the dump of a discharging one marked UNCONFIRMED; HEAD-OUT is
set and the feed stopped (R22, R49, R113, R127; log entry 12). -/
def Units.goOut (u : Units) (h : Fin 32) : Effect :=
  let x := u.head h
  let first : Effect := match x.state with
    | .claimed side k => u.withdraw side k .headOut h
    | .discharging (.bag side) => u.markDump side h .unconfirmed
    | _ => (u, [])
  first.then fun v =>
    (v.setHead h x.outed, [.flag (u.reportingHead h) .headOut, .write (u.feedEntry h 0 0 (x.feedSeq + 1))])

/-- A head that has become unfit while READY or CLAIMED: its order, if any, is withdrawn, and the head purged (R16,
R18). -/
def Units.expel (u : Units) (h : Fin 32) (w : WithdrawReason) (r : PurgeReason) : Effect :=
  let x := u.head h
  match x.state with
  | .ready => u.purge h r x.frozen
  | .claimed side k => (u.withdraw side k w h).then fun v => v.purge h r x.frozen
  | _ => (u, [])

/-- A raise of a head's counter, to 256 at most: the level's notice, then entry to OUT at 256, or the BARRED action of a
READY or CLAIMED head whose level has become BARRED, which a disturbance leaves out. An OUT or DISABLED head takes none
(R16, R44, R45). -/
def Units.raise (u : Units) (h : Fin 32) (amount : Nat) (cause : HealthCause) : Effect :=
  let x := u.head h
  let v := min 256 (x.health + amount)
  if x.state = .out ∨ x.state = .disabled then (u, [])
  else if v = 256 then (u.count h v cause).then fun w => w.goOut h
  else if x.health < 128 ∧ 128 ≤ v ∧ cause ≠ .disturbed then
    (u.count h v cause).then fun w => w.expel h .barred .barred
  else u.count h v cause

/-- A disturbance: the raise, then, unless the head went OUT, the purge of a SETTLING, READY or CLAIMED head, whose order
is first withdrawn (R18). -/
def Units.disturb (u : Units) (h : Fin 32) : Effect :=
  (u.raise h 8 .disturbed).then fun v =>
    if (v.head h).state = .settling then v.purge h .disturbed none else v.expel h .disturbed .disturbed

/-- The heads of a zone that a release purges with reason STALE: READY, not released, and at the purge age once aged
(R84, R86). -/
def Units.staleAt (u : Units) (z : Zone) (released : List (Fin 32)) : List (Fin 32) :=
  let b := u.zoneParams z
  allHeads.filter fun h => decide (b.purgeAge ≠ 0 ∧ h ∉ released ∧ (u.head h).state = .ready ∧
    u.zoneOf h.val = some z ∧ b.purgeAge ≤ min 255 ((u.head h).age + 1))

/-- A release of an order, the oldest of a side's queue: staged blocks take effect, the heads go to DISCHARGING to the
side, the other READY heads of the zone age and those at the purge age are purged STALE, the rotation advances, the dump
opens, the pulse starts and the latch is CLEAR. Gate commands come first, in list order with their stagger, then the
purges' gate commands, then their notices, each kept or dropped (R83 to R86, R121 to R126). -/
def Units.release (u : Units) (side : Side) (z : Zone) (o : OrderRec) (kept : Fin 32 → Bool) : Effect :=
  let zone := (u.zones.get z).effect
  let v := u.setZone z zone
  let b := v.zoneParams z
  let stale := v.staleAt z o.heads
  let record (h : Fin 32) (x : Head) : Head :=
    if h ∈ o.heads then
      { x with
        state := .discharging (.bag side), retryUsed := false, gateSeq := x.gateSeq + 1
        timer := .running .gate (v.params h).gateLimit }
    else if x.state = .ready ∧ u.zoneOf h.val = some z then
      let y := { x with age := min 255 (x.age + 1) }
      if h ∈ stale then y.purged .stale (v.params h).gateLimit else y
    else x
  ((((u.mapHeads record).setZone z { zone with rotation := (zone.rotation + 1) % b.offer.length }).setOrder side
      { u.orders.get side with queue := (u.orders.get side).queue.tail }.effect).setRelease side
      { u.releases.get side with
        latch := false, releasePending := false, disch := some 20
        dumps := (u.releases.get side).dumps ++
          [{ tag := o.tag, heads := o.heads.map fun h => (h, .pending), total := o.total, target := o.target }] },
    (o.heads.zipIdx.map fun (h, i) => .write ⟨BitVec.ofNat 20 (u.base .gate + h.val),
        gateWord (.bag side) (i * b.stagger) ((u.head h).gateSeq + 1)⟩) ++
      (stale.map fun h => .write (u.purgeEntry h .stale)) ++
      stale.map fun h =>
        if kept h then .notice (u.reporting z) (.purge h .stale ((u.head h).gateSeq + 1) (u.head h).frozen)
        else .lost (u.reporting z))

/-- Entry to OUT of a head whose UNCONFIRMED mark completes a dump, with a request latched and an order queued: the
release stands behind the dump's notice, and before HEAD-OUT and the feed stop (R22, R120, R127, R128; log entry 12). -/
def Units.outReleasing (u : Units) (h : Fin 32) (side : Side) (z : Zone) (o : OrderRec) (kept : Fin 32 → Bool) : Effect :=
  (((u.setHead h (u.head h).outed).markDump side h .unconfirmed).then fun v => v.release side z o kept).then fun v =>
    (v, [.flag (u.reportingHead h) .headOut, .write (u.feedEntry h 0 0 ((u.head h).feedSeq + 1))])

/-- A lowering of the counter by one, never below 0 (R46). -/
def Units.lower (u : Units) (h : Fin 32) (cause : HealthCause) : Effect := u.count h ((u.head h).health - 1) cause

/-- A confirmation: the head leaves DISCHARGING for EMPTY while RUNNING and for STOPPED otherwise, the counter is lowered
unless the purge was RECOVER's, and a bag's dump is marked CONFIRMED (R21, R46, R127). -/
def Units.confirm (u : Units) (h : Fin 32) : Effect :=
  let x := u.head h
  let y := { x with frozen := none, retryUsed := false }
  let left := u.setHead h
    (if u.part = .running then y.watched .empty (u.params h).silenceLimit
     else { y with state := .stopped, timer := .stopped })
  match x.state with
  | .discharging (.bag side) => (left.lower h .confirm).then fun v => v.markDump side h .confirmed
  | .discharging (.reject .recover) => (left, [])
  | .discharging (.reject _) => left.lower h .confirm
  | _ => (u, [])

/-- The pool feed record is discarded. -/
def Units.emptyPool (u : Units) (h : Fin 32) : Effect := (u.setHead h { u.head h with pool := none }, [])

/-- POOL-DROP in a cycle state: in EMPTY the pool feed has dropped into the bucket and the head settles; in SETTLING,
READY and CLAIMED, and in STOPPED without a pool feed record, the head is disturbed; the pool feed record is absent (R14,
R18). -/
def Units.dropIn (u : Units) (h : Fin 32) : CycleState → Effect
  | .empty =>
    (u.setHead h { u.head h with
      bucket := (u.head h).pool.map Feed.ticks, pool := none, state := .settling
      timer := .running .settle (u.params h).settleLimit }, [])
  | .settling | .ready | .claimed _ _ => (u.disturb h).then fun v => v.emptyPool h
  | .stopped => if (u.head h).pool.isSome then u.emptyPool h else u.disturb h
  | .discharging _ => u.emptyPool h
  | .out | .disabled => (u, [])

/-- POOL-DROP, and the feed that follows it (R14). -/
def Units.dropPool (u : Units) (h : Fin 32) : Effect := (u.dropIn h (u.head h).state).then fun v => v.feed h

/-- The yield of a head is learned from a net weight over its bucket feed record, which is used up (R62). -/
def Units.learned (u : Units) (h : Fin 32) (net : Int) : Units :=
  let x := u.head h
  u.setHead h { x with
    yield := match x.bucket with
      | none => x.yield
      | some ticks => learnedYield x.yield net ticks
    bucket := none }

/-- The settle outcomes OVER and UNDER: the yield, the top trim, the purge (R15, R69). -/
def Units.settleOff (u : Units) (h : Fin 32) (net delta : Int) (cause : TrimCause) (r : PurgeReason) : Effect :=
  Effect.then
    (match u.zoneOf h.val with
      | some z => (u.learned h net).trim z delta cause h
      | none => (u.learned h net, []))
    fun v => v.purge h r (some net)

/-- The settle outcome READY: the yield, the counter, the frozen weight (R15, R46). -/
def Units.settleReady (u : Units) (h : Fin 32) (net : Int) : Effect :=
  ((u.learned h net).lower h .fill).then fun v =>
    (v.setHead h ({ v.head h with frozen := some net, age := 0 }.watched .ready (u.params h).silenceLimit), [])

/-- The settle outcome of a net weight: OVER above the ceiling, UNDER below the minimum fill, otherwise READY, with the
purge of a head whose level was BARRED (R15, R16). -/
def Units.settle (u : Units) (h : Fin 32) (net : Int) : Effect :=
  let b := u.params h
  if b.ceiling < net then u.settleOff h net (-1) .over .over
  else if net < b.minFill then u.settleOff h net 1 .under .under
  else if levelOf (u.head h).health = .barred then (u.settleReady h net).then fun v => v.purge h .barred (some net)
  else u.settleReady h net

/-- A part-state change (R158). -/
def Units.partChanged (u : Units) : Effect :=
  ({ u with changeCount := u.changeCount + 1 },
    [.write (u.statusEntry u.part), .flag .a .partState, .flag .b .partState])

/-- Drain complete, in the event that makes the drain condition true: STOPPED, EMPTY, SETTLING and READY heads STOPPED,
latches CLEAR, staged blocks in effect (R23, R78, R117, R119, R156). -/
def Units.drainEnd (u : Units) : Effect :=
  if u.part = .draining ∧ u.drained = true then
    let clear (r : ReleaseSide) : ReleaseSide := { r with latch := false, releasePending := false }
    Units.partChanged { u.mapHeads (fun _ x => if stopsAtDrain x.state.name then x.halted else x) with
      part := .stopped
      releases := ⟨clear u.releases.a, clear u.releases.b⟩
      orders := ⟨u.orders.a.effect, u.orders.b.effect⟩
      zones := ⟨u.zones.z0.effect, u.zones.z1.effect⟩ }
  else (u, [])

/-- The SILENCE timer of an EMPTY, READY or CLAIMED head restarts in RUNNING and DRAINING (R34). -/
def Units.heardFrom (u : Units) (h : Fin 32) : Units :=
  let x := u.head h
  if u.active = true ∧ (x.state.name = .empty ∨ x.state.name = .ready ∨ x.state.name = .claimed) then
    u.setHead h { x with timer := .running .silence (u.params h).silenceLimit }
  else u

/-- A stable weight is kept as the head's last one (R5). -/
def Units.weighed (u : Units) (h : Fin 32) (w : Int) : Units := u.setHead h { u.head h with lastStable := some w }

/-- Zero tracking of a stable weight: inside the zero band the zero moves a quarter of the way to it, truncated toward
zero; beyond it the zero stays, and behind a ZERO-DRIFT notice the counter rises by 16 (R41, R42). -/
def Units.trackZero (u : Units) (h : Fin 32) (w : Int) (seq : BitVec 8) : Effect :=
  let x := u.head h
  if w - x.zero ≤ (u.params h).zeroBand ∧ x.zero - w ≤ (u.params h).zeroBand then
    (u.setHead h { x with zero := x.zero + (w - x.zero).tdiv 4 }, [])
  else
    Effect.then (u, [.notice (u.reportingHead h) (.zeroDrift h seq w x.zero)]) fun v => v.raise h 16 .zeroDrift

/-- The use of a stable weight in the state that the flags have left: in EMPTY and STOPPED zero tracking, unless the same
report had POOL-DROP; in SETTLING the settle outcome; in READY and CLAIMED a disturbance where the net weight differs from
the frozen one by more than the disturbance band; in DISCHARGING and OUT nothing (R24, R40). -/
def Units.useWeight (u : Units) (h : Fin 32) (w : Int) (seq : BitVec 8) (dropped : Bool) : Effect :=
  let x := u.head h
  let band := (u.params h).disturbBand
  match x.state with
  | .empty | .stopped => if dropped = true then (u, []) else u.trackZero h w seq
  | .settling => u.settle h (w - x.zero)
  | .ready | .claimed _ _ =>
    match x.frozen with
    | none => (u, [])
    | some f => if band < w - x.zero - f ∨ band < f - (w - x.zero) then u.disturb h else (u, [])
  | .discharging _ | .out | .disabled => (u, [])

/-- A stable weight is kept as the head's last one, then used (R5, R24). -/
def Units.weigh (u : Units) (h : Fin 32) (w : Int) (seq : BitVec 8) (dropped : Bool) : Effect :=
  (u.weighed h w).useWeight h w seq dropped

/-- The parts of a taken report, each where its flag or a stable weight is there: BOARD-FAULT and a confirmation with the
effects given, a confirmation only with the gate sequence as the echo (R34, R38, R39). -/
def Units.faulted (u : Units) (r : ReportHeader) (fault : Units → Effect) : Effect :=
  if r.boardFault = true then fault u else (u, [])

def Units.confirmed (u : Units) (r : ReportHeader) (confirm : Units → Effect) : Effect :=
  if r.gateClosed = true ∧ (u.head r.head).gateSeq = r.echo then confirm u else (u, [])

def Units.dropped (u : Units) (r : ReportHeader) : Effect := if r.poolDrop = true then u.dropPool r.head else (u, [])

def Units.weighAny (u : Units) (r : ReportHeader) : Option Int → Effect
  | none => (u, [])
  | some w => u.weigh r.head w r.seq r.poolDrop

/-- The flags and the stable weight of a taken report, in their order: BOARD-FAULT, GATE-CLOSED, POOL-DROP, then the
weight, each on the head as the part before it left it (R34, R39). -/
def Units.reported (u : Units) (r : ReportHeader) (weight : Option Int) (fault confirm : Units → Effect) : Effect :=
  (((u.faulted r fault).then fun v => v.confirmed r confirm).then fun v => v.dropped r).then fun v => v.weighAny r weight

/-- A report is taken: the last report sequence is set, its flags and weight have their effect, the SILENCE timer
restarts, drain complete follows where the drain condition has become true, and the stage is empty (R34, R156). -/
def Units.taken (u : Units) (r : ReportHeader) (effect : Units → Effect) : Effect :=
  (((effect (u.setHead r.head { u.head r.head with lastSeq := some r.seq })).then fun v =>
    (v.heardFrom r.head, [])).then Units.drainEnd).then fun v => (v.setStage none, [])

/-- START at one head (R13). -/
def Units.startAt (u : Units) (h : Fin 32) : Effect :=
  let x := u.head h
  if x.state = .disabled ∨ x.state = .out then (u, [])
  else
    Effect.then
      (if x.full (u.params h).emptyBand then u.purge h .start x.bucketWeight
       else (u.setHead h (x.watched .empty (u.params h).silenceLimit), []))
      fun v => v.feed h

/-- An effect at each head of a list, in order. -/
def Effect.atEach (r : Effect) (hs : List (Fin 32)) (f : Units → Fin 32 → Effect) : Effect :=
  hs.foldl (fun r h => r.then fun v => f v h) r

/-- The withdrawal of a side's queued orders by HALT, oldest first (R114). -/
def Units.haltActs (u : Units) (side : Side) : List Act :=
  (u.orders.get side).queue.flatMap fun o =>
    [.order side (.orderWithdrawn o.tag .halt none o.heads o.total), .flag side .orderEnded]

/-- The reissue of a gate command at the first GATE expiry, to the same destination without delay (R53). -/
def Units.reissue (u : Units) (h : Fin 32) (d : Destination) : Effect :=
  let x := u.head h
  (u.setHead h { x with
      gateSeq := x.gateSeq + 1, retryUsed := true, timer := .running .gate (u.params h).gateLimit },
    [.write ⟨BitVec.ofNat 20 (u.base .gate + h.val), gateWord d 0 (x.gateSeq + 1)⟩])

/-- An expiry of a head's timer: SETTLE raises the counter and purges the head unless it went OUT; SILENCE restarts the
timer and raises the counter; the first GATE expiry raises the counter and reissues the gate command, the second takes
the head OUT (R51 to R53). -/
def Units.expiry (u : Units) (h : Fin 32) : TimerKind → Effect
  | .settle => (u.raise h 8 .settle).then fun v => if (v.head h).state = .out then (v, []) else v.purge h .unsettled none
  | .silence =>
    (u.setHead h { u.head h with timer := .running .silence (u.params h).silenceLimit }).raise h 8 .silence
  | .gate =>
    match (u.head h).state with
    | .discharging d =>
      if (u.head h).retryUsed then u.raise h 256 .gateFinal
      else (u.raise h 32 .gate).then fun v => if (v.head h).state = .out then (v, []) else v.reissue h d
    | _ => (u, [])

/-- A queued order's hold timer runs out: the order leaves the queue, its heads are READY again, ORDER-EXPIRED and
ORDER-ENDED follow, and drain complete where it is due (R111, R156). -/
def Units.holdEnds (u : Units) (side : Side) (o : OrderRec) : Effect :=
  Effect.then
    ((u.mapHeads fun h x => if h ∈ o.heads then x.watched .ready (u.params h).silenceLimit else x).setOrder side
        { u.orders.get side with queue := (u.orders.get side).queue.filter fun p => p.accept != o.accept },
      [.order side (.orderExpired o.tag o.heads o.total), .flag side .orderEnded])
    Units.drainEnd

/-! ### Held events (R144) -/

/-- The writes of an event with an effect, the flag words that it queues among them (R143, R165). -/
def Units.writes (u : Units) (r : Effect) : List QueueEntry :=
  let e := u.puts r.2
  e.out ++ u.flagQueued .a (e.units.notices.get .a) ++ u.flagQueued .b (e.units.notices.get .b)

/-- The effect of a pending event that is no release and no port's write: a head timer's expiry, an order's hold expiry,
the setting of DOUBLE-REQUEST (R50, R111, R118). -/
def Units.pendingEffect (u : Units) : Owner → Option Effect
  | .headTimer h =>
    match (u.head h).timer with
    | .expired k => some ((u.expiry h k).then Units.drainEnd)
    | _ => none
  | .hold side k => ((u.orders.get side).queue.find? fun o => o.accept = k).map fun o => u.holdEnds side o
  | .double side =>
    some (u.setRelease side { u.releases.get side with doublePending := false }, [.flag side .doubleRequest])
  | .port _ | .release _ => none

/-- No release follows the event of a held owner: a GATE expiry of a bag's head that neither was retried nor stands at 224
takes no head OUT, and any other completes no dump with a request latched and an order queued (R53, R120, R128). -/
def Units.pendingUnreleased (u : Units) (o : Owner) : Prop :=
  ∀ h side, o = .headTimer h → (u.head h).state = .discharging (.bag side) →
    ((u.head h).timer = .expired .gate ∧ (u.head h).retryUsed = false ∧ (u.head h).health < 224) ∨
      u.unreleased side h .unconfirmed

/-- A held event alone in the held list has been tested: it is taken, and leaves the list, when its writes fit in the free
entries, and otherwise it stays with its need as worked out now; 64 free entries are enough for any event. A pending release
needs its gate commands and one flag word where it purges a head; once its test no longer passes it is pending no more (R120,
R122, R143 to R145). -/
def State.Tested (s t : State) (o : Owner) : Prop :=
  let u := s.units
  let free := 64 - s.waitingWrites.length
  let s0 := { s with held := [] }
  (∀ r, u.pendingEffect o = some r → u.pendingUnreleased o →
    (min 64 (u.writes r).length ≤ free → s0.Makes t r) ∧
      (free < min 64 (u.writes r).length → t = { s with held := [⟨o, (u.writes r).length⟩] })) ∧
  ∀ side, o = .release side →
    let old := u.releases.get side
    let fails := u.active = false ∨ old.latch = false ∨ (u.orders.get side).queue = [] ∨ 2 ≤ old.dumps.length
    (fails → s0.Makes t (u.setRelease side { old with releasePending := false }, [])) ∧
      ∀ z first rest, ¬ fails → u.binding side = some z → (u.orders.get side).queue = first :: rest → first.heads.Nodup →
        (∀ h x, (u.purgeEntry h .stale).addr ≠ u.flagAddr x) →
        let stale := (u.setZone z (u.zones.get z).effect).staleAt z first.heads
        let need := first.heads.length + stale.length + if stale = [] then 0 else 1
        (min 64 need ≤ free → ∃ kept, (need + 4 * stale.length ≤ free → ∀ h, kept h = true) ∧
          s0.Makes t (u.release side z first kept)) ∧
        (free < min 64 need → t = { s with held := [⟨.release side, need⟩] })

/-- The oldest entry has been written to memory whole, and those behind it have moved up. A side whose flag word it was awaits
one flag word less; nothing else has changed (R142, R145, R167). -/
def State.EntryWritten (s t : State) (x : QueueEntry) (rest : List QueueEntry) : Prop :=
  t.mem.word x.addr = x.data ∧
    (∀ b lane, lane < 4 → b ≠ x.addr → t.mem.byte b lane = s.mem.byte b lane) ∧
    t.waitingWrites = rest ∧ t.queue = rest.take 64 ∧ t.held = s.held ∧ t.ports = s.ports ∧ t.lastGranted = .queue ∧
    t.pending = s.pending ∧
    (∀ side, let n := s.units.notices.get side
      t.units.notices.get side =
        { n with noteWait := if x.addr = s.units.flagAddr side then n.noteWait - 1 else n.noteWait }) ∧
    s.units.onlyChanges t.units [.notice .a, .notice .b]

/-- The first of a list of tests that fails is the k-th, counted from 1; none when all hold. -/
def FirstFails : List Prop → Option Nat → Prop
  | [], k => k = none
  | p :: rest, k => (¬ p ∧ k = some 1) ∨ (p ∧ ∃ j, FirstFails rest j ∧ k = j.map (· + 1))

/-! ### The checks of a SUBMIT (R104 to R106) -/

/-- The head numbers that a SUBMIT lists, at list positions 1 to its head count (R104). -/
def Units.submitted (u : Units) (side : Side) (slot : Nat) (w : Word) : List Nat :=
  let word (o : Nat) : Word := (stagedWord (u.orders.get side).stage slot o).getD 0
  (List.range (commitCount w)).map (headField (word 1) (word 2))

/-- Checks 5 to 9, each of the head at a place of the list, counted from 0: of the side's zone, not named before, not
CLAIMED, READY, granted and not BARRED (R104). -/
def Units.headTests (u : Units) (side : Side) (listed : List Nat) : List (Nat → Nat → Prop) :=
  [ fun _ m => m < u.headCount ∧ u.zoneOf m = u.binding side,
    fun i m => m ∉ listed.take i,
    fun _ m => (u.head (headNumber m)).state.name ≠ .claimed,
    fun _ m => (u.head (headNumber m)).state = .ready,
    fun _ m => u.granted (headNumber m) side = true ∧ (u.head (headNumber m)).health < 128 ]

/-- The thirteen checks of a SUBMIT, in their order (R104). -/
def Units.submitTests (u : Units) (side : Side) (slot : Nat) (w : Word) : List Prop :=
  let q := u.orders.get side
  let n := commitCount w
  let listed := u.submitted side slot w
  let sum : Int := (listed.map fun m => (u.head (headNumber m)).frozen.getD 0).sum
  let live (test : SideBlock → Prop) : Prop := ∀ b, q.live = some b → test b
  [ u.part = .running,
    u.enabled side = true ∧ q.live.isSome = true ∧ live fun b => b.intake = true,
    (stagedWord q.stage slot 1).isSome = true ∧ (stagedWord q.stage slot 3).isSome = true ∧
      (4 < n → (stagedWord q.stage slot 2).isSome = true),
    live fun b => b.minHeads ≤ n ∧ n ≤ b.maxHeads ] ++
  ((u.headTests side listed).map fun test => ∀ i m, listed[i]? = some m → test i m) ++
  [ ((stagedWord q.stage slot 3).getD 0).toInt = sum,
    live fun b => b.bagMin ≤ sum ∧ sum ≤ b.bagMax,
    q.queue.length < 2,
    (u.notices.get side).reservations + 1 ≤ (u.notices.get side).room (u.ringSize side) ]

/-- The reason that each of them gives (R104, R105). -/
def submitReasons : List OrderReason :=
  [.notRunning, .sideOff, .incomplete, .count, .zone, .duplicate, .claimed, .notReady, .notOffered, .total, .window,
    .queueFull, .noticeFull]

/-- A SUBMIT is refused: the first check that fails gives the reason, and of checks 5 to 9 the first list position at which
it fails is named, of the others none (R104 to R106; log entry 30). -/
def Units.submitRefuses (u : Units) (side : Side) (slot : Nat) (w : Word) (why : OrderReason) (position : Nat) : Prop :=
  let listed := u.submitted side slot w
  ∃ k, FirstFails (u.submitTests side slot w) (some k) ∧ submitReasons[k - 1]? = some why ∧
    ((∃ test, 5 ≤ k ∧ (u.headTests side listed)[k - 5]? = some test ∧ FirstFails (listed.mapIdx test) (some position)) ∨
      ((k < 5 ∨ 9 < k) ∧ position = 0))

/-! ### Invariants -/

/-- The canonical form of memory, and the issue queue's depth: at most 64 entries, and a START tail only behind a full
queue (R142, R145). -/
def State.Sound (s : State) : Prop :=
  s.mem.wf = true ∧ s.queue.length ≤ Config.queueDepth ∧ (s.startTail ≠ [] → s.queue.length = Config.queueDepth)

/-- A zone block's initial yield lies in the yield's range (R75 check 19). -/
def ZoneBlock.yieldOk (b : ZoneBlock) : Prop := Config.yieldMin ≤ b.initialYield ∧ b.initialYield ≤ Config.yieldMax

/-- A head's health, age and yield lie in their ranges (R4, R5, R6). -/
def Head.inRange (x : Head) : Prop :=
  x.health ≤ Config.healthOut ∧ x.age ≤ 255 ∧ Config.yieldMin ≤ x.yield ∧ x.yield ≤ Config.yieldMax

/-- Every head is in range, and so is the initial yield of every zone block held. -/
def Units.headsInRange (u : Units) : Prop :=
  (∀ h, (u.head h).inRange) ∧
    ∀ z b, (u.zones.get z).live = some b ∨ (u.zones.get z).staged = some b → b.yieldOk

/-- A zone's top trim lies in its range, and the applied amplitude is what envelope and trim give (R67). -/
def TopFeeder.agrees (t : TopFeeder) : Prop :=
  -Config.trimMax ≤ t.trim ∧ t.trim ≤ Config.trimMax ∧ t.applied = t.envelope.map fun e => e.apply t.trim

def Units.topsAgree (u : Units) : Prop := ∀ z, (u.zones.get z).top.agrees

/-- A side's order queue, dump list and holding queue keep their depths (R110, R126, R161). -/
def Units.queuesBounded (u : Units) : Prop :=
  ∀ s, (u.orders.get s).queue.length ≤ Config.orderDepth ∧ (u.releases.get s).dumps.length ≤ Config.dumpDepth ∧
    (u.notices.get s).holding.length ≤ Config.holdingDepth

/-- The holding queue is never non-empty while the ring has a free entry (R161). -/
def Units.holdingLast (u : Units) : Prop :=
  ∀ s, (u.notices.get s).holding ≠ [] → (u.notices.get s).ringFree (u.ringSize s) = 0

/-- The invariants of the units, together with the canonical form of the control mirror. -/
structure Units.Lawful (u : Units) : Prop where
  heads : u.headsInRange
  tops : u.topsAgree
  queues : u.queuesBounded
  holding : u.holdingLast
  mirror : Cells.wf u.mirror = true

/-- The cycle states in which a timer of a kind runs or has an expiry pending (R8). -/
def TimerKind.fits : TimerKind → CycleName → Prop
  | .settle, n => n = .settling
  | .gate, n => n = .discharging
  | .silence, n => n = .empty ∨ n = .ready ∨ n = .claimed

/-- The timer is of a kind, running or with its expiry pending (R8, R50). -/
def HeadTimer.ofKind : HeadTimer → TimerKind → Prop
  | .stopped, _ => False
  | .running k _, k' => k = k'
  | .expired k, k' => k = k'

/-- The laws between heads, queued orders, dumps and reservations: a head is CLAIMED by an order exactly when a queued
order of the side with that acceptance number lists it (R3); acceptance numbers are distinct and used up, and no order
lists a head twice (R110); nothing is queued while the part is neither RUNNING nor DRAINING (R110); a head is OUT exactly
at 256 (R44); a head timer is of its cycle state's kind (R8); each queued order and open dump of a side holds one
reservation (R162); the head count in force is at most the 32 heads that a configuration can name (R149). -/
structure Units.Kept (u : Units) : Prop where
  claims : ∀ h side k, (u.head h).state = .claimed side k ↔
    ∃ o, o ∈ (u.orders.get side).queue ∧ o.accept = k ∧ h ∈ o.heads
  accepts : ∀ side, ((u.orders.get side).queue.map OrderRec.accept).Nodup ∧
    ∀ o, o ∈ (u.orders.get side).queue → o.accept < (u.orders.get side).accepts ∧ o.heads.Nodup
  idle : u.active = false → ∀ side, (u.orders.get side).queue = []
  out : ∀ h, (u.head h).state = .out ↔ (u.head h).health = 256
  timers : ∀ h k, (u.head h).timer.ofKind k → k.fits (u.head h).state.name
  reserved : ∀ side, (u.notices.get side).reservations =
    (u.orders.get side).queue.length + (u.releases.get side).dumps.length
  counted : u.headCount ≤ 32

end Sys2Proof.Machine
end

