-- ==== Sys2Proof/Certificates/Slice0/Obligations.lean ====
section
/-! DEFINITION. The statements for the provers. Where a statement speaks of a port's write it is made in a state in which
the port has its turn (State.Turn) or in which nothing waits (State.Clear), so that what the write does is not mixed
with what else the memory path has to do; each says that the command answers a next state. -/

open Sys2Proof Sys2Proof.Machine

/-! ### Steps, reset and invariants -/

/-- A step with a command at the front of the queue runs that command with the queue's rest. -/
def Obligations.StepRunsFrontCommand : Prop :=
  ∀ (c : Instr) (rest : List Instr) (s : State),
    step { s with pending := c :: rest } = exec c { s with pending := rest }

/-- The reset input: every unit takes its initial state, CBASE and ONECK as sampled, the queue, the START tail and the
held list are empty, the source granted last is the issue queue, and memory is not touched. Stated with no access waiting at
any port; that the answers which the ports last received are then cleared (the last clause) is the model's choice (log entry
9, DEDUCED). -/
def Obligations.ResetInputInitializes : Prop :=
  ∀ (s : State) (cbase : BitVec 4) (oneck : Bool), s.Quiet →
    ∃ t, exec (.resetInput cbase oneck) s = .next t ∧
      t.units.part = .transparent ∧ (∀ o, t.units.mirrorWord o = 0) ∧ t.units.config = none ∧ t.units.clock = none ∧
      t.units.changeCount = 0 ∧ t.units.cbase = cbase ∧ t.units.oneck = oneck ∧ t.units.stage = none ∧
      (∀ h, t.units.head h = .cleared) ∧ (∀ z, t.units.zones.get z = .cleared) ∧
      (∀ x, t.units.orders.get x = .cleared) ∧ (∀ x, t.units.releases.get x = .cleared) ∧
      (∀ x, t.units.notices.get x = .cleared) ∧ (∀ x, t.units.views.get x = .cleared) ∧
      t.waitingWrites = [] ∧ t.held = [] ∧ t.lastGranted = .queue ∧ t.mem = s.mem ∧ t.pending = s.pending ∧
      ∀ p, t.front p = { current := none, upstream := [], answer := .none }

/-- The machine right after reset keeps every invariant of Safety.lean. -/
def Obligations.InvariantsAtReset : Prop :=
  State.reset.Sound ∧ State.reset.units.Lawful ∧ State.reset.units.Kept

/-- Every step keeps the canonical form of memory and the depth of the issue queue. -/
def Obligations.StepsKeepMemoryAndQueue : Prop := ∀ s t : State, s.Sound → step s = .next t → t.Sound

/-- Every step keeps the invariants of the units: the ranges of health, age and yield, the top feeders' agreement, the
depths of order queues, dump lists and holding queues, the holding queue's place behind a full ring, and the canonical
form of the control mirror. -/
def Obligations.StepsKeepUnitsLawful : Prop := ∀ s t : State, s.units.Lawful → step s = .next t → t.units.Lawful

/-! ### Refused commands (10) -/

/-- The table of commands refuses a command with STATE in the part states that it names, and a head command with ARG
at or above the head count, whatever the state of the heads: nothing but the command's own word changes. -/
def Obligations.TableRefusesCommand : Prop :=
  ∀ (s : State) (p : Port) (slot : Side) (c : Command) (arg : BitVec 8) (why : CommandReason), s.Turn p →
    s.mayCommand p →
    (why = .state ∧ c.refusedIn s.units.part = true) ∨
      (why = .arg ∧ s.units.part ≠ .transparent ∧ c.ofHead = true ∧ s.units.headCount ≤ arg.toNat) →
    ∃ t, exec (c.instr p slot arg) s = .next t ∧ s.CommandRefused t p slot c arg why 0

/-- A LOAD whose configuration fails is refused with CHECK and the detail of the first failure. A START in STOPPED is
refused with BUSY while a head is DISCHARGING, naming the lowest, and otherwise with CHECK while an enabled head lacks its
feed envelope or a zone its top envelope, naming the lowest head before the lowest zone. Everything else is left as it
was. -/
def Obligations.CheckRefusesLoadAndStart : Prop :=
  (∀ (s : State) (p : Port) (slot : Side) (arg : BitVec 8) (detail : BitVec 14), s.Turn p → s.mayCommand p →
    s.units.active = false → loadFailure s.units = some detail →
    ∃ t, exec (.load p slot arg) s = .next t ∧ s.CommandRefused t p slot .load arg .check detail) ∧
  ∀ (s : State) (p : Port) (slot : Side) (arg : BitVec 8) (why : CommandReason) (detail : BitVec 14), s.Turn p →
    p ≠ .hl → s.units.part = .stopped →
    ((∃ h, s.units.dischargingHead = some h ∧ why = .busy ∧ detail = detailHead h) ∨
      (s.units.dischargingHead = none ∧ why = .check ∧
        ((∃ h, s.units.bareHead = some h ∧ detail = detailHead h) ∨
          ∃ z, s.units.bareHead = none ∧ s.units.bareZone = some z ∧ detail = detailZone z))) →
    ∃ t, exec (.start p slot arg) s = .next t ∧ s.CommandRefused t p slot .start arg why detail

/-- What the checks of a configuration test, and which failure is named: of the record's own fields, of a side block and of
a zone block the first test that fails; of the window table of a record whose own fields pass, the first of the four
checks that some window fails, with the first window that fails it. -/
def Obligations.ConfigurationChecks : Prop :=
  ∀ (r : Nat → Word) (cbase : BitVec 4),
    let c := loadedOf r
    let n (i : Nat) : Nat := (r i).toNat
    let mg (i : Nat) : Int := (r i).toInt
    let sizes : List Nat := [4 * n 5, 65, 65, 4 * n 6, 4 * n 7, 34, 32, 4 * n 8, 4 * n 9]
    let covers (x : WindowRow) (a : Nat) : Prop := x.base ≤ a ∧ a < x.base + x.size
    let windowTests : List (Nat → WindowRow → Prop) :=
      [ fun i x => x.size = sizes.getD i 0,
        fun _ x => x.base + x.size - 1 ≤ 1048575,
        fun i x => ∀ j y a, j < i → c.windows[j]? = some y → covers x a → ¬ covers y a,
        fun _ x => ∀ a, covers x a → ¬ (cbase.toNat * 65536 ≤ a ∧ a < cbase.toNat * 65536 + 512) ]
    let found := firstFailingWindow (windowChecks c cbase)
    FirstFails
      [ 1 ≤ n 0 ∧ n 0 ≤ 32,
        n 1 = 1 ∨ n 1 = 2,
        n 1 = 2 → 1 ≤ n 2 ∧ n 2 + 1 ≤ n 0,
        ∀ side z, c.binding.get side = some z → z.number < n 1,
        ∀ z : Zone, z.number < n 1 → ∃ side, c.binding.get side = some z,
        1000 ≤ n 4 ∧ n 4 ≤ 100000,
        16 ≤ n 5 ∧ n 5 ≤ 512,
        (2 ≤ n 6 ∧ n 6 ≤ 16) ∧ 2 ≤ n 7 ∧ n 7 ≤ 16,
        (16 ≤ n 8 ∧ n 8 ≤ 256) ∧ 16 ≤ n 9 ∧ n 9 ≤ 256 ]
      (firstFailing (recordChecks r)) ∧
    FirstFails
      [ 0 ≤ mg 0 ∧ mg 0 ≤ 4000000,
        mg 0 ≤ mg 1 ∧ mg 1 ≤ 4000000,
        mg 1 ≤ mg 2 ∧ mg 2 ≤ 4000000,
        1 ≤ n 3 ∧ n 3 ≤ 8,
        n 3 ≤ n 4 ∧ n 4 ≤ 8,
        100 ≤ n 5 ∧ n 5 ≤ 10000,
        n 6 = 0 ∨ n 6 = 1 ]
      (firstFailing (sideChecks r)) ∧
    FirstFails
      [ 1000 ≤ mg 0x00 ∧ mg 0x00 ≤ 500000,
        1 ≤ n 0x01 ∧ n 0x01 ≤ 16,
        ∀ i, i < n 0x01 → -32768 ≤ mg (0x02 + i) ∧ mg (0x02 + i) ≤ 32767,
        1 ≤ n 0x12 ∧ n 0x12 ≤ 16,
        ∀ i, i < n 0x12 → n (0x13 + i) = 1 ∨ n (0x13 + i) = 2 ∨ n (0x13 + i) = 3,
        1 ≤ n 0x23 ∧ n 0x23 ≤ 63,
        n 0x24 = 0 ∨ (n 0x23 + 1 ≤ n 0x24 ∧ n 0x24 ≤ 255),
        0 ≤ mg 0x25 ∧ mg 0x25 ≤ 5000,
        0 ≤ mg 0x26 ∧ mg 0x26 ≤ 20000,
        0 ≤ mg 0x27 ∧ mg 0x27 ≤ 20000,
        0 ≤ mg 0x28 ∧ mg 0x28 ≤ 500000,
        mg 0x28 < mg 0x29 ∧ mg 0x29 ≤ 2000000,
        ∀ i, i < n 0x01 →
          mg 0x28 ≤ max 500 (mg 0x00 + mg (0x02 + i)) ∧ max 500 (mg 0x00 + mg (0x02 + i)) ≤ mg 0x29,
        0 ≤ mg 0x2A ∧ mg 0x2A ≤ 20000,
        50 ≤ n 0x2B ∧ n 0x2B ≤ 2550,
        20 ≤ n 0x2C ∧ n 0x2C ≤ 1000,
        100 ≤ n 0x2D ∧ n 0x2D ≤ 5000,
        n 0x2E ≤ 15,
        16 ≤ n 0x2F ∧ n 0x2F ≤ 1048575 ]
      (firstFailing (zoneChecks r)) ∧
    (firstFailing (recordChecks r) = none →
      FirstFails (windowTests.map fun t => ∀ i x, c.windows[i]? = some x → t i x) (found.map Prod.fst) ∧
        ∀ k w t, found = some (k, w) → windowTests[k - 1]? = some t → FirstFails (c.windows.mapIdx t) (some w))

/-! ### Commands taken (01, 05, 07, 08, 10) -/

/-- A LOAD that passes its checks takes the configuration from the mirror: the part is STOPPED, the window table and
the time base are the record's, every unit is emptied, zones below the zone count and enabled sides get their blocks,
heads below the head count are STOPPED with their zone's initial yield, the rings are reset, flags and enables are kept
but for PART-STATE, which is set; the status word is queued, with the flag words behind it (log entry 31). -/
def Obligations.LoadTakesConfiguration : Prop :=
  ∀ (s : State) (p : Port) (slot : Side) (arg : BitVec 8), s.Clear → s.mayCommand p → s.units.active = false →
    loadFailure s.units = none →
    let r := s.units.mirrorWord
    let c := loadedOf r
    ∃ t, exec (.load p slot arg) s = .next t ∧ s.Commanded t p slot .load arg 0 ∧
      t.units.part = .stopped ∧ t.units.config = some c ∧ t.units.clock = some c.clockKHz ∧
      t.units.changeCount = s.units.changeCount + 1 ∧ t.units.cbase = s.units.cbase ∧ t.units.oneck = s.units.oneck ∧
      t.units.stage = none ∧
      (∀ h, c.headCount ≤ h.val → t.units.head h = .cleared) ∧
      (∀ h, h.val < c.headCount → ∃ b,
        (t.units.zones.get (if c.zoneCount = 2 ∧ c.split ≤ h.val then .z1 else .z0)).live = some b ∧
        t.units.head h = { Head.cleared with state := .stopped, yield := b.initialYield }) ∧
      (∀ z, t.units.zones.get z = { ZoneRec.cleared with
        live := if z.number < c.zoneCount then some (zoneBlockOf fun i => r (zoneBlockOffset z + i)) else none }) ∧
      (∀ x, t.units.orders.get x = { OrderSide.cleared with
        live := if (c.binding.get x).isSome then some (sideBlockOf fun i => r (sideBlockOffset x + i)) else none }) ∧
      (∀ x, t.units.releases.get x = { ReleaseSide.cleared with disch := (s.units.releases.get x).disch }) ∧
      (∀ x, t.units.views.get x = .cleared) ∧
      (∀ x, (t.units.notices.get x).sameAs { (s.units.notices.get x) with
        writeIx := 0, consumeIx := 0, number := 0, holding := [], reservations := 0,
        flags := (s.units.notices.get x).flags ||| Flag.partState.mask }) ∧
      (∀ o, o ≠ slotOffset slot → t.units.mirrorWord o = r o) ∧ s.Queued t [s.units.statusEntry .stopped]

/-- UNLOAD takes the part from STOPPED to TRANSPARENT: the window table is removed and every unit emptied; mirror,
straps, time base and DISCH pulses are kept; the status word is queued, with the flag words behind it (log entry 31). -/
def Obligations.UnloadEmpties : Prop :=
  ∀ (s : State) (p : Port) (slot : Side) (arg : BitVec 8), s.Clear → p ≠ .hl → s.units.part = .stopped →
    ∃ t, exec (.unload p slot arg) s = .next t ∧ s.Commanded t p slot .unload arg 0 ∧
      t.units.part = .transparent ∧ t.units.config = none ∧ t.units.clock = s.units.clock ∧
      t.units.changeCount = s.units.changeCount + 1 ∧ t.units.cbase = s.units.cbase ∧ t.units.oneck = s.units.oneck ∧
      t.units.stage = none ∧ (∀ h, t.units.head h = .cleared) ∧ (∀ z, t.units.zones.get z = .cleared) ∧
      (∀ x, t.units.orders.get x = .cleared) ∧
      (∀ x, t.units.releases.get x = { ReleaseSide.cleared with disch := (s.units.releases.get x).disch }) ∧
      (∀ x, t.units.views.get x = .cleared) ∧
      (∀ x, (t.units.notices.get x).sameAs { (s.units.notices.get x) with
        writeIx := 0, consumeIx := 0, number := 0, holding := [], reservations := 0,
        flags := (s.units.notices.get x).flags ||| Flag.partState.mask }) ∧
      (∀ o, o ≠ slotOffset slot → t.units.mirrorWord o = s.units.mirrorWord o) ∧
      s.Queued t [s.units.statusEntry .transparent]

/-- A START that passes its tests takes the part to RUNNING and takes START at every head: a DISABLED or OUT head is not
changed; any other is purged with reason START when its bucket still holds product, and otherwise goes to EMPTY with its
SILENCE timer; in both cases a feed is issued when the pool feed record is absent. Order units, release units, views and
stage are not touched; PART-STATE is set on both sides; the writes, notices and
flags are those of the heads in increasing number, each gate command, PURGE notice and feed order in its place, and behind
them the status word (log entries 29 and 31). -/
def Obligations.StartRuns : Prop :=
  ∀ (s : State) (p : Port) (slot : Side) (arg : BitVec 8), s.Clear → p ≠ .hl → s.units.part = .stopped →
    s.units.dischargingHead = none → s.units.bareHead = none → s.units.bareZone = none →
    ∃ t, exec (.start p slot arg) s = .next t ∧ s.Commanded t p slot .start arg 0 ∧
      t.units.part = .running ∧ t.units.changeCount = s.units.changeCount + 1 ∧
      (∀ h, (s.units.head h).state = .disabled ∨ (s.units.head h).state = .out → t.units.head h = s.units.head h) ∧
      (∀ h, (s.units.head h).state ≠ .disabled → (s.units.head h).state ≠ .out →
        let x := s.units.head h
        let b := s.units.params h
        t.units.head h =
          (if x.full b.emptyBand then x.purged .start b.gateLimit else x.watched .empty b.silenceLimit).issued
            (s.units.issueTicks h)) ∧
      (∀ q, s.units.keeps t.units q ∨ q = .part ∨ q = .mirror (slotOffset slot) ∨ (∃ h, q = .head h) ∨
        (∃ z, q = .zone z) ∨ ∃ x, q = .notice x) ∧
      (∀ z, (t.units.zones.get z).live = (s.units.zones.get z).live ∧
        (t.units.zones.get z).staged = (s.units.zones.get z).staged ∧
        (t.units.zones.get z).rotation = (s.units.zones.get z).rotation) ∧
      (∀ x, (t.units.notices.get x).has .partState = true) ∧
      s.CommandMakes t slot
        ((Effect.atEach ({ s.units with part := .running }, []) allHeads Units.startAt).then Units.partChanged)

/-- STOP of a RUNNING part is one part-state change. With orders, dumps or discharges left the part is DRAINING, the
detail DRAINING, and nothing else changes but PART-STATE; with the drain condition true it is STOPPED at once, the
detail STOPPED: EMPTY, SETTLING and READY heads are STOPPED, both latches CLEAR, staged blocks take effect. -/
def Obligations.StopDrainsOrCompletes : Prop :=
  ∀ (s : State) (p : Port) (slot : Side) (arg : BitVec 8), s.Clear → p ≠ .hl → s.units.part = .running →
    ∃ t, exec (.stop p slot arg) s = .next t ∧ t.units.changeCount = s.units.changeCount + 1 ∧
      (∀ x, (t.units.notices.get x).sameAs { (s.units.notices.get x) with
        flags := (s.units.notices.get x).flags ||| Flag.partState.mask }) ∧
      (s.units.drained = false → s.Commanded t p slot .stop arg detailDraining ∧ t.units.part = .draining ∧
        s.units.onlyChanges t.units [.part, .mirror (slotOffset slot), .notice .a, .notice .b] ∧
        s.Queued t [s.units.statusEntry .draining]) ∧
      (s.units.drained = true → s.Commanded t p slot .stop arg detailStopped ∧ t.units.part = .stopped ∧
        (∀ h, t.units.head h =
          if stopsAtDrain (s.units.head h).state.name then (s.units.head h).halted else s.units.head h) ∧
        (∀ x, t.units.releases.get x = { s.units.releases.get x with latch := false, releasePending := false }) ∧
        (∀ x, t.units.orders.get x = (s.units.orders.get x).effect) ∧
        (∀ z, t.units.zones.get z = (s.units.zones.get z).effect) ∧
        t.units.config = s.units.config ∧ (∀ x, t.units.views.get x = s.units.views.get x) ∧
        t.units.stage = s.units.stage ∧ s.Queued t [s.units.statusEntry .stopped])

/-- HALT takes the part to STOPPED at once: both order queues are empty, the feed sequence of every enabled head that is
not OUT has moved and its pool feed record is absent, EMPTY, SETTLING, READY and CLAIMED heads are STOPPED while DISCHARGING ones keep their state and timer, both
latches are CLEAR and pending releases discarded, dumps and pulses go on, and staged blocks take effect. The event
puts out an ORDER-WITHDRAWN notice and ORDER-ENDED for each queued order, oldest first, side A before side B, then the
feed stops, the status word and PART-STATE (log entry 31). -/
def Obligations.HaltStops : Prop :=
  ∀ (s : State) (p : Port) (slot : Side) (arg : BitVec 8), s.Clear → p ≠ .hl → s.units.active = true →
    ∃ t, exec (.halt p slot arg) s = .next t ∧ s.Commanded t p slot .halt arg 0 ∧
      t.units.part = .stopped ∧ t.units.changeCount = s.units.changeCount + 1 ∧
      (∀ h, let x := s.units.head h
        let y := if feedsAtHalt x.state.name then x.unfed else x
        t.units.head h = if stopsAtHalt x.state.name then y.halted else y) ∧
      (∀ x, t.units.orders.get x = { s.units.orders.get x with queue := [] }.effect) ∧
      (∀ x, t.units.releases.get x = { s.units.releases.get x with latch := false, releasePending := false }) ∧
      (∀ z, t.units.zones.get z = (s.units.zones.get z).effect) ∧
      (∀ x, (t.units.notices.get x).number =
        (s.units.notices.get x).number + BitVec.ofNat 16 (s.units.orders.get x).queue.length ∧
        (t.units.notices.get x).has .partState = true ∧
        ((s.units.orders.get x).queue ≠ [] → (t.units.notices.get x).has .orderEnded = true)) ∧
      t.units.config = s.units.config ∧ (∀ x, t.units.views.get x = s.units.views.get x) ∧
      t.units.stage = s.units.stage ∧
      s.Puts t (s.units.haltActs .a ++ s.units.haltActs .b ++
        ((allHeads.filter fun h => feedsAtHalt (s.units.head h).state.name).map fun h =>
          .write (s.units.feedEntry h 0 0 ((s.units.head h).feedSeq + 1))) ++
        [.write (s.units.statusEntry .stopped), .flag .a .partState, .flag .b .partState])

/-- HEAD-ENABLE of a DISABLED head: health 0, the zone's initial yield, feed records and frozen weight absent, age 0, retry
no, present mark clear. While STOPPED the head is STOPPED and nothing else changes; while RUNNING, with an envelope, it is
purged with reason START, weighed as its last stable weight gives, and fed. -/
def Obligations.HeadEnableTaken : Prop :=
  (∀ (s : State) (p : Port) (slot : Side) (arg : BitVec 8) (h : Fin 32), s.Turn p → p ≠ .hl → s.units.part = .stopped →
    arg.toNat = h.val → h.val < s.units.headCount → (s.units.head h).state = .disabled →
    ∃ t, exec (.headEnable p slot arg) s = .next t ∧ s.Commanded t p slot .headEnable arg 0 ∧
      t.units.head h = { s.units.head h with
        state := .stopped, health := 0, yield := (s.units.params h).initialYield, frozen := none, pool := none,
        bucket := none, age := 0, retryUsed := false, present := false } ∧
      s.units.onlyChanges t.units [.mirror (slotOffset slot), .head h] ∧ s.NoWrites t) ∧
  ∀ (s : State) (p : Port) (slot : Side) (arg : BitVec 8) (h : Fin 32) (z : Zone), s.Clear → p ≠ .hl →
    s.units.part = .running → arg.toNat = h.val → s.units.zoneOf h.val = some z → (s.units.head h).state = .disabled →
    (s.units.head h).envelope.isSome = true →
    let x := (s.units.head h).enabled (s.units.params h).initialYield
    let u := s.units.setHead h x
    ∃ t, exec (.headEnable p slot arg) s = .next t ∧ s.Commanded t p slot .headEnable arg 0 ∧
      (∃ ticks, u.issueTicks h = some ticks ∧
        t.units.head h = (x.purged .start (s.units.params h).gateLimit).fed ticks) ∧
      s.units.onlyChanges t.units [.mirror (slotOffset slot), .head h, .zone z, .notice (s.units.reporting z)] ∧
      s.CommandMakes t slot ((u.purge h .start x.bucketWeight).then fun v => v.feed h)

/-! ### Settle outcomes out of range (01) -/

/-- A taken report whose stable weight puts a SETTLING head above the ceiling (OVER) or below the minimum fill (UNDER): the
yield is learned from the net weight and the bucket feed record, the zone's top trim moves by one, down for OVER and up
for UNDER, with the top order and the TOP-TRIM notice where the applied amplitude moves, and the head is purged with the
net weight. -/
def Obligations.ReportPurgesOutOfRange : Prop :=
  ∀ (s : State) (a : Addr) (w : Word) (slot : Nat) (weight : Int) (z : Zone) (heavy : Bool), s.Clear →
    s.units.inWindow a .report (4 * slot) →
    let r := reportHeader w
    let h := r.head
    let x := s.units.head h
    let b := s.units.params h
    let net := weight - x.zero
    let top := (s.units.zones.get z).top
    let trim := max (-20) (min 20 (top.trim + if heavy then -1 else 1))
    s.units.reportPasses slot r → r.boardFault = false → r.poolDrop = false →
    s.units.reportWeight r = some (weight, true) → x.state = .settling → s.units.zoneOf h.val = some z →
    (if heavy then b.ceiling < net else net < b.minFill ∧ net ≤ b.ceiling) →
    ∃ t, exec (.reportHeaderWrite a w) s = .next t ∧ s.Wrote t .hl a w ∧ t.units.stage = none ∧
      t.units.head h = { x with
        lastSeq := some r.seq, lastStable := some weight
        yield := match x.bucket with
          | none => x.yield
          | some ticks => learnedYield x.yield net ticks }.purged (if heavy then .over else .under) b.gateLimit ∧
      t.units.zones.get z = { s.units.zones.get z with
        top := match top.envelope with
          | none => { top with trim := trim }
          | some env =>
            if top.applied = some (env.apply trim) then { top with trim := trim }
            else { top with trim := trim, applied := some (env.apply trim), seq := top.seq + 1 } } ∧
      s.units.onlyChanges t.units [.stage, .head h, .zone z, .notice (s.units.reporting z)] ∧
      s.Makes t (s.units.taken r fun v => (v.weighed h weight).settle h net)

/-! ### Commands taken, continued -/

/-- Head commands refused by the head's state, the record unchanged: HEAD-ENABLE and RECOVER with STATE in DRAINING, of a
head that is not DISABLED and of one that is not OUT; HEAD-ENABLE with CHECK for want of an envelope while RUNNING;
HEAD-PURGE with STATE in STOPPED, with BUSY of a CLAIMED or DISCHARGING head and with STATE of a DISABLED, STOPPED or
OUT one. -/
def Obligations.HeadStateRefusesCommand : Prop :=
  ∀ (s : State) (p : Port) (slot : Side) (c : Command) (arg : BitVec 8) (h : Fin 32) (why : CommandReason)
    (detail : BitVec 14), s.Turn p → p ≠ .hl → s.units.part ≠ .transparent → arg.toNat = h.val →
    h.val < s.units.headCount →
    let x := s.units.head h
    (c = .headEnable ∧ why = .state ∧ detail = 0 ∧ (s.units.part = .draining ∨ x.state ≠ .disabled)) ∨
      (c = .headEnable ∧ why = .check ∧ detail = 0 ∧ s.units.part = .running ∧ x.state = .disabled ∧
        x.envelope = none) ∨
      (c = .recover ∧ why = .state ∧ detail = 0 ∧ (s.units.part = .draining ∨ x.state ≠ .out)) ∨
      (c = .headPurge ∧ why = .state ∧ detail = 0 ∧
        (s.units.part = .stopped ∨ x.state = .disabled ∨ x.state = .stopped ∨ x.state = .out)) ∨
      (c = .headPurge ∧ why = .busy ∧ detail = detailHead h ∧ s.units.part ≠ .stopped ∧
        (x.state.name = .claimed ∨ x.state.name = .discharging)) →
    ∃ t, exec (c.instr p slot arg) s = .next t ∧ s.CommandRefused t p slot c arg why detail

/-- HEAD-DISABLE is refused with STATE in TRANSPARENT and with BUSY of a CLAIMED or DISCHARGING head; of a DISABLED head
it clears the present mark; of a head in any other state the timer stops, the feed is stopped, bucket feed record and
frozen weight are absent, health is 0, the present mark is clear and the head DISABLED. -/
def Obligations.HeadDisableTakenOrRefused : Prop :=
  ∀ (s : State) (p : Port) (slot : Side) (arg : BitVec 8) (h : Fin 32), s.Clear → p ≠ .hl →
    arg.toNat = h.val → (s.units.part ≠ .transparent → h.val < s.units.headCount) →
    let x := s.units.head h
    let claimed := x.state.name = .claimed ∨ x.state.name = .discharging
    ∃ t, exec (.headDisable p slot arg) s = .next t ∧
      (s.units.part = .transparent → s.CommandRefused t p slot .headDisable arg .state 0) ∧
      (s.units.part ≠ .transparent → claimed → s.CommandRefused t p slot .headDisable arg .busy (detailHead h)) ∧
      (s.units.part ≠ .transparent → ¬ claimed → s.Commanded t p slot .headDisable arg 0 ∧
        t.units.head h =
          (if x.state = .disabled then { x with present := false }
           else { x.unfed with
             state := .disabled, timer := .stopped, bucket := none, frozen := none, health := 0, present := false }) ∧
        s.units.onlyChanges t.units [.mirror (slotOffset slot), .head h] ∧
        s.Queued t (if x.state = .disabled then [] else [s.units.feedEntry h 0 0 (x.feedSeq + 1)]))

/-- RECOVER of an OUT head: health 128, and a HEALTH-LEVEL notice from OUT to BARRED to the reporting side of the head's
zone. While STOPPED the head is STOPPED; while RUNNING it is purged with reason RECOVER, gate command before PURGE notice,
and a feed follows if the pool feed record is absent and there is an envelope. -/
def Obligations.RecoverTaken : Prop :=
  ∀ (s : State) (p : Port) (slot : Side) (arg : BitVec 8) (h : Fin 32) (z : Zone), s.Clear → p ≠ .hl →
    s.units.part = .stopped ∨ s.units.part = .running → arg.toNat = h.val → s.units.zoneOf h.val = some z →
    (s.units.head h).state = .out → (s.units.head h).health = 256 →
    let side := s.units.reporting z
    let x := { s.units.head h with health := 128 }
    let n : Act := .notice side (.healthLevel h .out .barred 128 .recover)
    ∃ t, exec (.recover p slot arg) s = .next t ∧ s.Commanded t p slot .recover arg 0 ∧
      (s.units.part = .stopped →
        t.units.head h = { x with state := .stopped } ∧
          s.units.onlyChanges t.units [.mirror (slotOffset slot), .head h, .notice side] ∧
          s.CommandMakes t slot (s.units.setHead h { x with state := .stopped }, [n])) ∧
      (s.units.part = .running →
        t.units.head h = (x.purged .recover (s.units.params h).gateLimit).issued (s.units.issueTicks h) ∧
          s.units.onlyChanges t.units [.mirror (slotOffset slot), .head h, .zone z, .notice side] ∧
          s.CommandMakes t slot
            ((Effect.then (s.units.setHead h x, [n]) fun v => v.purge h .recover none).then fun v => v.feed h))

/-! ### Zero tracking (03) -/

/-- A taken report whose weight is stable, of an EMPTY or STOPPED head: inside the zero band the zero moves a quarter of
the way to the weight, truncated toward zero; beyond it the zero stays, a ZERO-DRIFT notice is raised, and behind it the
counter rises by 16, with an entry to OUT in the order of log entry 12 (flag words: log entry 31). -/
def Obligations.ReportTracksZero : Prop :=
  ∀ (s : State) (a : Addr) (w : Word) (slot : Nat) (weight : Int), s.Clear → s.units.undrained →
    s.units.inWindow a .report (4 * slot) →
    let r := reportHeader w
    let h := r.head
    let x := s.units.head h
    let side := s.units.reportingHead h
    let y : Head := { x with
      lastSeq := some r.seq, lastStable := some weight
      timer := if s.units.active = true ∧ x.state = .empty then .running .silence (s.units.params h).silenceLimit
        else x.timer }
    let near := weight - x.zero ≤ (s.units.params h).zeroBand ∧ x.zero - weight ≤ (s.units.params h).zeroBand
    s.units.reportPasses slot r → r.boardFault = false → r.poolDrop = false →
    s.units.reportWeight r = some (weight, true) → x.state = .empty ∨ x.state = .stopped →
    ∃ t, exec (.reportHeaderWrite a w) s = .next t ∧ s.Wrote t .hl a w ∧ t.units.stage = none ∧
      s.units.onlyChanges t.units [.stage, .head h, .notice side] ∧
      (near → t.units.head h = { y with zero := x.zero + (weight - x.zero).tdiv 4 } ∧ s.Puts t []) ∧
      (¬ near →
        (x.health + 16 < 256 → t.units.head h = { y with health := x.health + 16 }) ∧
          (256 ≤ x.health + 16 → t.units.head h = Head.outed { y with health := 256 }) ∧
          s.Makes t (s.units.taken r fun v =>
            Effect.then (v.weighed h weight, [.notice side (.zeroDrift h r.seq weight x.zero)]) fun u =>
              u.raise h 16 .zeroDrift))

/-! ### Commands taken, continued -/

/-- HEAD-PURGE of an EMPTY, SETTLING or READY head in RUNNING or DRAINING: the head goes to DISCHARGING(REJECT) with
reason COMMAND; gate command, then PURGE notice to the reporting side, with the frozen weight of a READY head. -/
def Obligations.HeadPurgeTaken : Prop :=
  ∀ (s : State) (p : Port) (slot : Side) (arg : BitVec 8) (h : Fin 32), s.Clear → p ≠ .hl → s.units.active = true →
    arg.toNat = h.val → h.val < s.units.headCount →
    (s.units.head h).state = .empty ∨ (s.units.head h).state = .settling ∨ (s.units.head h).state = .ready →
    let side := s.units.reportingHead h
    let w := if (s.units.head h).state = .ready then (s.units.head h).frozen else none
    let n : Notice := .purge h .command ((s.units.head h).gateSeq + 1) w
    ∃ t, exec (.headPurge p slot arg) s = .next t ∧ s.Commanded t p slot .headPurge arg 0 ∧
      t.units.head h = (s.units.head h).purged .command (s.units.params h).gateLimit ∧
      s.units.onlyChanges t.units [.mirror (slotOffset slot), .head h, .notice side] ∧
      s.Puts t [.write (s.units.purgeEntry h .command), .notice side n]

/-- ZERO-SET of a STOPPED or EMPTY head with a last stable weight sets the zero to it, and changes nothing else; at or
above the head count it is refused with ARG, and of a head in another state or without a last stable weight with
STATE. -/
def Obligations.ZeroSetTakenOrRefused : Prop :=
  ∀ (s : State) (p : Port) (slot : Side) (arg : BitVec 8), s.Turn p → p ≠ .hl → s.units.part ≠ .transparent →
    ∃ t, exec (.zeroSet p slot arg) s = .next t ∧
      (s.units.headCount ≤ arg.toNat → s.CommandRefused t p slot .zeroSet arg .arg 0) ∧
      ∀ h : Fin 32, arg.toNat = h.val → h.val < s.units.headCount →
        let x := s.units.head h
        let takes := x.state = .stopped ∨ x.state = .empty
        (∀ w, takes → x.lastStable = some w →
          s.Commanded t p slot .zeroSet arg 0 ∧ t.units.head h = { x with zero := w } ∧
            s.units.onlyChanges t.units [.mirror (slotOffset slot), .head h] ∧ s.NoWrites t) ∧
        (¬ takes ∨ x.lastStable = none → s.CommandRefused t p slot .zeroSet arg .state 0)

/-- APPLY-SIDE of an enabled side, and APPLY-ZONE of a zone below the zone count, with a valid block: the block takes
effect at once, with detail APPLIED, while STOPPED or with the side's queue empty or no head of the zone CLAIMED, reducing
the rotation where a zone's offer length changes; otherwise it is staged, with detail STAGED. -/
def Obligations.ApplyTaken : Prop :=
  (∀ (s : State) (p : Port) (slot x : Side) (arg : BitVec 8), s.Turn p → p ≠ .hl → s.units.part ≠ .transparent →
    arg.toNat = x.number → s.units.enabled x = true →
    firstFailing (sideChecks fun i => s.units.mirrorWord (sideBlockOffset x + i)) = none →
    let b := sideBlockOf fun i => s.units.mirrorWord (sideBlockOffset x + i)
    let now := s.units.part = .stopped ∨ (s.units.orders.get x).queue = []
    ∃ t, exec (.applySide p slot arg) s = .next t ∧
      (now → s.Commanded t p slot .applySide arg detailApplied ∧
        t.units.orders.get x = { s.units.orders.get x with live := some b, staged := none }) ∧
      (¬ now → s.Commanded t p slot .applySide arg detailStaged ∧
        t.units.orders.get x = { s.units.orders.get x with staged := some b }) ∧
      s.units.onlyChanges t.units [.mirror (slotOffset slot), .order x] ∧ s.NoWrites t) ∧
  ∀ (s : State) (p : Port) (slot : Side) (z : Zone) (arg : BitVec 8), s.Turn p → p ≠ .hl →
    s.units.part ≠ .transparent → arg.toNat = z.number → z.number < s.units.zoneCount →
    firstFailing (zoneChecks fun i => s.units.mirrorWord (zoneBlockOffset z + i)) = none →
    let b := zoneBlockOf fun i => s.units.mirrorWord (zoneBlockOffset z + i)
    let old := s.units.zones.get z
    let now := s.units.part = .stopped ∨ s.units.claimedIn z = false
    ∃ t, exec (.applyZone p slot arg) s = .next t ∧
      (now → s.Commanded t p slot .applyZone arg detailApplied ∧
        t.units.zones.get z = { old with
          live := some b, staged := none,
          rotation := if (old.live.map fun a => a.offer.length) = some b.offer.length then old.rotation
            else old.rotation % b.offer.length }) ∧
      (¬ now → s.Commanded t p slot .applyZone arg detailStaged ∧
        t.units.zones.get z = { old with staged := some b }) ∧
      s.units.onlyChanges t.units [.mirror (slotOffset slot), .zone z] ∧ s.NoWrites t

/-! ### Board faults (02) -/

/-- A taken report with BOARD-FAULT, and no other effect of its flags and weight, raises the head's counter by 32: with the
HEALTH-LEVEL notice of a change of level, entry to OUT at 256, and the BARRED action of a READY or CLAIMED head whose level
becomes BARRED, a CLAIMED one's order withdrawn. Where the entry to OUT completes a dump with a request latched and an
order queued, the release follows between them. The order of an entry to OUT is log entry 12's, its flag words log entry
31's. -/
def Obligations.ReportBoardFault : Prop :=
  ∀ (s : State) (a : Addr) (w : Word) (slot : Nat), s.Clear → s.units.inWindow a .report (4 * slot) →
    let r := reportHeader w
    let h := r.head
    let x := s.units.head h
    let b := s.units.params h
    let y : Head := { x with lastSeq := some r.seq }
    let z : Head := { y with
      health := x.health + 32
      timer := if s.units.active = true ∧
          (x.state.name = .empty ∨ x.state.name = .ready ∨ x.state.name = .claimed) then
        .running .silence b.silenceLimit else x.timer }
    s.units.reportPasses slot r → r.boardFault = true → r.poolDrop = false → r.gateClosed = false →
    (∀ weight, s.units.reportWeight r ≠ some (weight, true)) →
    let unreleased := 256 ≤ x.health + 32 → ∀ side, x.state = .discharging (.bag side) →
      s.units.unreleased side h .unconfirmed
    ∃ t, exec (.reportHeaderWrite a w) s = .next t ∧ s.Wrote t .hl a w ∧ t.units.stage = none ∧
      (s.units.part ≠ .draining → unreleased →
        (x.state = .out → t.units.head h = y) ∧
        (x.state ≠ .out → 256 ≤ x.health + 32 → t.units.head h = y.outed) ∧
        (x.state ≠ .out → x.health + 32 < 256 →
          t.units.head h =
            if (x.state.name = .ready ∨ x.state.name = .claimed) ∧ x.health < 128 ∧ 128 ≤ x.health + 32 then
              { y with health := x.health + 32 }.purged .barred b.gateLimit
            else z)) ∧
      (unreleased → s.Makes t (s.units.taken r fun v => v.raise h 32 .boardFault)) ∧
      ∀ side zone o, x.state = .discharging (.bag side) → 256 ≤ x.health + 32 →
        s.units.releaseFollows side h .unconfirmed zone o →
        ∃ kept, s.Makes t (s.units.taken r fun v =>
          (v.count h 256 .boardFault).then fun u => u.outReleasing h side zone o kept)

/-! ### Commands taken, continued -/

/-- APPLY-SIDE is refused with ARG for an argument that names no enabled side, and APPLY-ZONE for one that names no zone
below the zone count; both with CHECK and the number of the first failing check of the block. -/
def Obligations.ApplyRefused : Prop :=
  ∀ (s : State) (p : Port) (slot : Side) (c : Command) (arg : BitVec 8) (why : CommandReason) (detail : BitVec 14),
    s.Turn p → p ≠ .hl → s.units.part ≠ .transparent →
    (c = .applySide ∧ why = .arg ∧ detail = 0 ∧ ∀ x : Side, arg.toNat = x.number → s.units.enabled x = false) ∨
      (c = .applyZone ∧ why = .arg ∧ detail = 0 ∧ ∀ z : Zone, arg.toNat = z.number → s.units.zoneCount ≤ z.number) ∨
      (c = .applySide ∧ why = .check ∧ ∃ (x : Side) (i : Nat), arg.toNat = x.number ∧ s.units.enabled x = true ∧
        firstFailing (sideChecks fun k => s.units.mirrorWord (sideBlockOffset x + k)) = some i ∧
        detail = detailCheck i) ∨
      (c = .applyZone ∧ why = .check ∧ ∃ (z : Zone) (i : Nat), arg.toNat = z.number ∧ z.number < s.units.zoneCount ∧
        firstFailing (zoneChecks fun k => s.units.mirrorWord (zoneBlockOffset z + k)) = some i ∧
        detail = detailCheck i) →
    ∃ t, exec (c.instr p slot arg) s = .next t ∧ s.CommandRefused t p slot c arg why detail

/-- NOTE-ACK clears note pending of the side of its slot, so that its NOTE line is low, and changes nothing else. -/
def Obligations.NoteAckTaken : Prop :=
  ∀ (s : State) (p : Port) (slot : Side) (arg : BitVec 8), s.Turn p → p ≠ .hl → s.units.part ≠ .transparent →
    ∃ t, exec (.noteAck p slot arg) s = .next t ∧ s.Commanded t p slot .noteAck arg 0 ∧
      t.units.notices.get slot = { s.units.notices.get slot with notePending := false } ∧ t.noteLine slot = false ∧
      s.units.onlyChanges t.units [.mirror (slotOffset slot), .notice slot] ∧ s.NoWrites t

/-! ### Reports (02) -/

/-- A sample write by HL passes to memory and is kept in the stage: an empty stage begins with its slot, the same slot
keeps it beside the words it holds, and another slot's words are discarded; nothing else changes. -/
def Obligations.SampleStaged : Prop :=
  ∀ (s : State) (a : Addr) (w : Word) (slot off : Nat), s.Turn .hl → s.units.inWindow a .report (4 * slot + off) →
    1 ≤ off → off ≤ 3 →
    ∃ t, exec (.reportSampleWrite a w) s = .next t ∧ s.Wrote t .hl a w ∧
      (∃ g, t.units.stage = some g ∧ g.slot = slot ∧ g.at off = some w ∧
        ∀ o, o ≠ off → g.at o = stagedWord s.units.stage slot o) ∧
      s.units.onlyChanges t.units [.stage] ∧ s.NoWrites t

/-- A header that fails check 1, 2 or 3 refuses its report with LENGTH, INCOMPLETE or RANGE: the word reaches memory, the
stage is empty, a REPORT-REFUSED notice goes to side A, and every head is unchanged. A report of an enabled head with a
sample out of range is refused with RANGE at check 5, naming the lowest such sample, and behind the notice (log entry 13)
the counter of the head rises by 8, with an entry to OUT in the order of log entry 12 (flag words: log entry 31). -/
def Obligations.ReportRefused : Prop :=
  (∀ (s : State) (a : Addr) (w : Word) (slot : Nat) (cause : ReportCause), s.Clear →
    s.units.inWindow a .report (4 * slot) →
    let r := reportHeader w
    let n : Notice := .reportRefused cause slot r.head r.seq r.count 0
    (cause = .length ∧ 3 < r.count) ∨
      (cause = .incomplete ∧ r.count ≤ 3 ∧ ¬ s.units.reportComplete slot r.count) ∨
      (cause = .range ∧ r.count ≤ 3 ∧ s.units.reportComplete slot r.count ∧ s.units.headCount ≤ r.head.val) →
    ∃ t, exec (.reportHeaderWrite a w) s = .next t ∧ s.Wrote t .hl a w ∧ t.units.stage = none ∧
      (t.units.notices.get .a).sameAs ((s.units.heard .a n).units.notices.get .a) ∧
      s.units.onlyChanges t.units [.stage, .notice .a] ∧ s.Queued t (s.units.heard .a n).out) ∧
  ∀ (s : State) (a : Addr) (w : Word) (slot sample : Nat) (v : Word), s.Clear →
    s.units.inWindow a .report (4 * slot) →
    let r := reportHeader w
    let h := r.head
    let x := s.units.head h
    r.count ≤ 3 → s.units.reportComplete slot r.count → h.val < s.units.headCount → x.state ≠ .disabled →
    1 ≤ sample → sample ≤ r.count → stagedWord s.units.stage slot sample = some v →
    (v.toInt < -200000 ∨ 2000000 < v.toInt) →
    (∀ o k, 1 ≤ o → o < sample → stagedWord s.units.stage slot o = some k → -200000 ≤ k.toInt ∧ k.toInt ≤ 2000000) →
    let refused (f : Units → Effect) : Effect :=
      ((Effect.then (s.units, [.notice .a (.reportRefused .range slot h r.seq r.count sample)]) f).then
        Units.drainEnd).then fun u => (u.setStage none, [])
    ∃ t, exec (.reportHeaderWrite a w) s = .next t ∧ s.Wrote t .hl a w ∧ t.units.stage = none ∧
      (s.units.part ≠ .draining → x.state ≠ .out → x.health + 8 < 128 →
        t.units.head h = { x with health := x.health + 8 } ∧
          s.units.onlyChanges t.units [.stage, .head h, .notice .a, .notice (s.units.reportingHead h)]) ∧
      ((256 ≤ x.health + 8 → ∀ side, x.state = .discharging (.bag side) → s.units.unreleased side h .unconfirmed) →
        s.Makes t (refused fun u => u.raise h 8 .range)) ∧
      ∀ side z o, x.state = .discharging (.bag side) → 256 ≤ x.health + 8 →
        s.units.releaseFollows side h .unconfirmed z o →
        ∃ kept, s.Makes t (refused fun u => (u.count h 256 .range).then fun v => v.outReleasing h side z o kept)

/-- A complete report of a DISABLED head is ignored, but for a HELLO of a head without the present mark, which sets the
mark and raises a HEAD-PRESENT notice; a duplicate of an enabled head's last report is ignored. The word reaches memory
and the stage is empty in each case. -/
def Obligations.ReportIgnored : Prop :=
  ∀ (s : State) (a : Addr) (w : Word) (slot : Nat), s.Clear → s.units.inWindow a .report (4 * slot) →
    let r := reportHeader w
    let x := s.units.head r.head
    let side := s.units.reportingHead r.head
    let n : Notice := .headPresent r.head r.seq
    let hello := x.state = .disabled ∧ r.hello = true ∧ x.present = false
    r.count ≤ 3 → s.units.reportComplete slot r.count → r.head.val < s.units.headCount →
    x.state = .disabled ∨ (s.units.samplesInRange slot r.count ∧ x.lastSeq = some r.seq) →
    ∃ t, exec (.reportHeaderWrite a w) s = .next t ∧ s.Wrote t .hl a w ∧ t.units.stage = none ∧
      (hello → t.units.head r.head = { x with present := true } ∧
        (t.units.notices.get side).sameAs ((s.units.heard side n).units.notices.get side) ∧
        s.units.onlyChanges t.units [.stage, .head r.head, .notice side] ∧
        s.Queued t (s.units.heard side n).out) ∧
      (¬ hello → s.units.onlyChanges t.units [.stage] ∧ s.NoWrites t)

/-- A taken report without BOARD-FAULT and POOL-DROP whose weight is stable decides the settle outcome of a SETTLING head:
with a net weight from the minimum fill to the ceiling the yield is learned from the bucket feed record, the counter falls
by one, with the notice of a change of level, and the head is READY with the net weight frozen, age 0 and its SILENCE
timer. A head whose level was BARRED is purged at once with reason BARRED and the net weight. -/
def Obligations.ReportSettlesReady : Prop :=
  ∀ (s : State) (a : Addr) (w : Word) (slot : Nat) (weight : Int), s.Clear →
    s.units.inWindow a .report (4 * slot) →
    let r := reportHeader w
    let h := r.head
    let x := s.units.head h
    let b := s.units.params h
    let net := weight - x.zero
    let y : Head := { x with
      lastSeq := some r.seq, lastStable := some weight, frozen := some net, age := 0, health := x.health - 1,
      yield := match x.bucket with
        | none => x.yield
        | some ticks => learnedYield x.yield net ticks
      bucket := none, state := .ready, timer := .running .silence b.silenceLimit }
    s.units.reportPasses slot r → r.boardFault = false → r.poolDrop = false →
    s.units.reportWeight r = some (weight, true) → x.state = .settling → x.health < 256 →
    s.units.undrained → b.minFill ≤ net → net ≤ b.ceiling →
    ∃ t, exec (.reportHeaderWrite a w) s = .next t ∧ s.Wrote t .hl a w ∧ t.units.stage = none ∧
      t.units.head h = (if x.health < 128 then y else y.purged .barred b.gateLimit) ∧
      s.units.onlyChanges t.units [.stage, .head h, .notice (s.units.reportingHead h)] ∧
      s.Puts t (s.units.levelActs h (x.health - 1) .fill ++
        if x.health < 128 then []
        else [.write (s.units.purgeEntry h .barred),
          .notice (s.units.reportingHead h) (.purge h .barred (x.gateSeq + 1) (some net))])

/-- A taken report whole, for all flags and weights: BOARD-FAULT, GATE-CLOSED, POOL-DROP and the stable weight act in this
order, each on the head as the part before it left it, with the last report sequence set before them and the SILENCE timer
restarted behind them; where a mark that BOARD-FAULT or GATE-CLOSED sets completes a dump with a request latched and an order
queued, the release follows in its place (an entry to OUT in the order of log entry 12; flag words: log entry 31). Spelled out: a report whose flags and
weight ask for nothing (an unstable weight or none, one inside the disturbance band, one of a DISCHARGING or OUT head) changes
last report sequence, last stable weight and SILENCE timer only; POOL-DROP of an EMPTY head, or behind the confirmation of a
DISCHARGING one, starts the settling of what the pool feed record held, and a new feed while RUNNING. -/
def Obligations.ReportTakenWhole : Prop :=
  ∀ (s : State) (a : Addr) (w : Word) (slot : Nat), s.Clear → s.units.inWindow a .report (4 * slot) →
    let r := reportHeader w
    let h := r.head
    let x := s.units.head h
    let b := s.units.params h
    let weight := s.units.stableWeight r
    let goesOut := r.boardFault = true ∧ 256 ≤ x.health + 32
    let confirms := r.gateClosed = true ∧ x.gateSeq = r.echo ∧ ¬ goesOut
    let raise (v : Units) : Effect := v.raise h 32 .boardFault
    let confirm (v : Units) : Effect := v.confirm h
    let settling : Head := { x with
      lastSeq := some r.seq, bucket := x.pool.map Feed.ticks, pool := none, state := .settling,
      timer := .running .settle b.settleLimit }
    let fills (t : State) (y : Head) : Prop := ∀ z, s.units.zoneOf h.val = some z →
      t.units.head h = y.issued ((s.units.setHead h y).issueTicks h)
    s.units.reportPasses slot r →
    ∃ t, exec (.reportHeaderWrite a w) s = .next t ∧ s.Wrote t .hl a w ∧ t.units.stage = none ∧
      ((∀ side, x.state = .discharging (.bag side) → (goesOut → s.units.unreleased side h .unconfirmed) ∧
          (confirms → s.units.unreleased side h .confirmed)) →
        s.Makes t (s.units.taken r fun v => v.reported r weight raise confirm)) ∧
      (∀ side z o, x.state = .discharging (.bag side) → h ∉ o.heads →
        (goesOut → s.units.releaseFollows side h .unconfirmed z o →
          ∃ kept, s.Makes t (s.units.taken r fun v => v.reported r weight
            (fun u => (u.count h 256 .boardFault).then fun u => u.outReleasing h side z o kept) confirm)) ∧
        (confirms → s.units.releaseFollows side h .confirmed z o →
          ∃ kept, s.Makes t (s.units.taken r fun v => v.reported r weight raise
            fun u => (u.confirm h).then fun u => u.release side z o kept))) ∧
      (s.units.undrained → r.boardFault = false → r.poolDrop = false → (confirms → x.state.name ≠ .discharging) →
        (∀ m, weight = some m → x.state.name = .discharging ∨ x.state = .out ∨
          ((x.state.name = .ready ∨ x.state.name = .claimed) ∧ ∀ f, x.frozen = some f →
            m - x.zero - f ≤ b.disturbBand ∧ f - (m - x.zero) ≤ b.disturbBand)) →
        t.units.head h = { x with
          lastSeq := some r.seq
          lastStable := weight.or x.lastStable
          timer := if s.units.active = true ∧
              (x.state.name = .empty ∨ x.state.name = .ready ∨ x.state.name = .claimed) then
            .running .silence b.silenceLimit else x.timer } ∧
        s.units.onlyChanges t.units [.stage, .head h] ∧ s.Puts t []) ∧
      (s.units.part = .running → r.boardFault = false → r.poolDrop = true → weight = none → x.state = .empty →
        fills t settling ∧ ∀ z, s.units.zoneOf h.val = some z →
          s.units.onlyChanges t.units [.stage, .head h, .zone z, .notice (s.units.reporting z)]) ∧
      ∀ d, s.units.part = .running → r.boardFault = false → r.poolDrop = true → weight = none →
        x.state = .discharging d → confirms → (∀ side, d = .bag side → s.units.unreleased side h .confirmed) →
        fills t { settling with
          frozen := none, retryUsed := false, health := if d = .reject .recover then x.health else x.health - 1 }

/-- A taken report with GATE-CLOSED whose echo is the gate sequence confirms the purge of a head: its frozen weight is
absent and its counter one lower unless the purge was RECOVER's, with the notice of a change of level; while RUNNING the
head is EMPTY with its SILENCE timer, and otherwise STOPPED. Any other echo leaves the discharge as it was. -/
def Obligations.ReportConfirmsPurge : Prop :=
  ∀ (s : State) (a : Addr) (w : Word) (slot : Nat) (why : PurgeReason), s.Clear →
    s.units.inWindow a .report (4 * slot) →
    let r := reportHeader w
    let h := r.head
    let x := s.units.head h
    let y : Head := { x with lastSeq := some r.seq }
    s.units.reportPasses slot r → r.boardFault = false → r.poolDrop = false → r.gateClosed = true →
    (∀ weight, s.units.reportWeight r ≠ some (weight, true)) → x.state = .discharging (.reject why) →
    ∃ t, exec (.reportHeaderWrite a w) s = .next t ∧ s.Wrote t .hl a w ∧ t.units.stage = none ∧
      t.units.head h =
        (if x.gateSeq = r.echo then
          { y with
            state := if s.units.part = .running then .empty else .stopped, frozen := none, retryUsed := false
            timer := if s.units.part = .running then .running .silence (s.units.params h).silenceLimit else .stopped
            health := if why = .recover then x.health else x.health - 1 }
        else y) ∧
      (s.units.part ≠ .draining →
        s.units.onlyChanges t.units [.stage, .head h, .notice (s.units.reportingHead h)] ∧
          s.Puts t (if x.gateSeq = r.echo ∧ why ≠ .recover then s.units.levelActs h (x.health - 1) .confirm else [])) ∧
      s.Makes t (s.units.taken r fun v => if x.gateSeq = r.echo then v.confirm h else (v, []))

/-- The confirmation of a head that discharges to a side: while RUNNING, with its bucket awaited by the side's oldest dump,
the head is EMPTY, and its mark CONFIRMED. A dump that this completes leaves the list: the HEALTH-LEVEL notice of a change of
level goes to the head's reporting side and behind it the DUMP-COMPLETE notice to the dump's side, which gives back its
reservation; the dump's side counts one number on, or two where the level changes and it is the reporting side too. With a
request latched and an order queued the release follows in the same event (log entry 14). -/
def Obligations.ConfirmationCompletesDump : Prop :=
  ∀ (s : State) (a : Addr) (w : Word) (slot : Nat) (side : Side), s.Clear → s.units.inWindow a .report (4 * slot) →
    let r := reportHeader w
    let h := r.head
    let x := s.units.head h
    let old := s.units.releases.get side
    let n := s.units.notices.get side
    let twice := levelOf x.health ≠ levelOf (x.health - 1) ∧ s.units.reportingHead h = side
    s.units.reportPasses slot r → r.boardFault = false → r.poolDrop = false → r.gateClosed = true →
    (∀ weight, s.units.reportWeight r ≠ some (weight, true)) → x.state = .discharging (.bag side) →
    x.gateSeq = r.echo →
    ∃ t, exec (.reportHeaderWrite a w) s = .next t ∧ s.Wrote t .hl a w ∧ t.units.stage = none ∧
      (∀ d rest, s.units.unreleased side h .confirmed → s.units.part = .running → old.dumps = d :: rest →
        d.awaits h = true →
        let m := d.mark h .confirmed
        t.units.head h = { x with
          lastSeq := some r.seq, state := .empty, frozen := none, retryUsed := false
          timer := .running .silence (s.units.params h).silenceLimit, health := x.health - 1 } ∧
        t.units.releases.get side = { old with dumps := if m.complete then rest else m :: rest } ∧
        s.units.onlyChanges t.units
          [.stage, .head h, .release side, .notice side, .notice (s.units.reportingHead h)] ∧
        s.Puts t (s.units.levelActs h (x.health - 1) .confirm ++
          if m.complete then [.order side (.dumpComplete d.tag m.heads d.total
            (max (-32768) (min 32767 (d.total - d.target))))] else []) ∧
        (m.complete = true →
          (t.units.notices.get side).number = n.number + (if twice then 2 else 1) ∧
            (t.units.notices.get side).reservations = n.reservations - 1)) ∧
      (s.units.unreleased side h .confirmed → s.Makes t (s.units.taken r fun v => v.confirm h)) ∧
      ∀ z o, s.units.releaseFollows side h .confirmed z o →
        ∃ kept, s.Makes t (s.units.taken r fun v => (v.confirm h).then fun u => u.release side z o kept)

/-- The arithmetic of weights and feeds. The weight of one, two and three samples: the sample with STILL deciding, the mean
rounded toward minus infinity, and the middle value; of two and three it is stable when the spread is within the stability
band; no samples give no weight. The fill target is the zone's share plus the head's spread entry, at least 500 mg. The ticks
of a target at a yield are the least whose yield reaches it. The yield moves an eighth of the way to the measured one, which
is held from 16 to 1,048,575, both divisions truncated toward zero. -/
def Obligations.WeightAndFeedArithmetic : Prop :=
  (∀ (x y z : Int) (still : Bool) (band : Int),
    reduceSamples [] still band = none ∧ reduceSamples [x] still band = some (x, still) ∧
      (∃ m stable, reduceSamples [x, y] still band = some (m, stable) ∧ 2 * m ≤ x + y ∧ x + y < 2 * m + 2 ∧
        (stable = true ↔ x - y ≤ band ∧ y - x ≤ band)) ∧
      ∃ m stable, reduceSamples [x, y, z] still band = some (m, stable) ∧
        ((m = x ∧ ((y ≤ x ∧ x ≤ z) ∨ (z ≤ x ∧ x ≤ y))) ∨ (m = y ∧ ((x ≤ y ∧ y ≤ z) ∨ (z ≤ y ∧ y ≤ x))) ∨
          (m = z ∧ ((x ≤ z ∧ z ≤ y) ∨ (y ≤ z ∧ z ≤ x)))) ∧
        (stable = true ↔ x - y ≤ band ∧ y - x ≤ band ∧ x - z ≤ band ∧ z - x ≤ band ∧ y - z ≤ band ∧ z - y ≤ band)) ∧
  (∀ (u : Units) (h : Fin 32) (c : Loaded) (z : Zone) (b : ZoneBlock), u.config = some c → u.zoneOf h.val = some z →
    (u.zones.get z).live = some b → b.spread ≠ [] →
    let first := if z = .z0 then 0 else c.split
    ∃ offset, b.spread[(h.val - first) % b.spread.length]? = some offset ∧
      u.fillTarget h = max 500 (b.share + offset)) ∧
  (∀ (target : Int) (yield : Nat), 500 ≤ target → 1 ≤ yield →
    let t := ticksFor target yield
    1 ≤ t ∧ target * 16 ≤ t * yield ∧ (t - 1 : Int) * yield < target * 16) ∧
  ∀ (yield : Nat) (net : Int) (ticks : Nat), 16 ≤ yield → yield ≤ 1048575 → 1 ≤ ticks →
    let measured : Int := max 16 (min 1048575 ((net * 16).tdiv ticks))
    (learnedYield yield net ticks : Int) = yield + (measured - yield).tdiv 8

/-! ### Candidate windows and plain accesses (06, 09) -/

/-- A header read by CA or CB at an idle front end is served at once: the side's generation increases, every entry is
built from its head as it stands, the offered count is the number of entries offered, and the word read holds
generation, part state and count; memory, queue and arbiter are not touched. -/
def Obligations.CandidateHeaderLatches : Prop :=
  ∀ (s : State) (p : Port) (a : Addr) (strobes : BitVec 4) (side : Side), (s.front p).current = none →
    (s.front p).upstream = [] → p ≠ .hl → s.units.windowAt a = some (.candidate side, 0) →
    ∃ t w v, exec (.candidateHeaderRead p a strobes) s = .next t ∧
      t.ports = s.ports.set p { current := none, upstream := [], answer := .data w } ∧
      t.units.views.get side = v ∧ v.generation = (s.units.views.get side).generation + 1 ∧
      v.offered = (allHeads.filter fun h => v.entries[h.val].offered).length ∧
      w.extractLsb' 16 16 = v.generation ∧ w.extractLsb' 8 2 = s.units.part.code ∧
      (w.extractLsb' 0 6).toNat = v.offered ∧
      (∀ h : Fin 32,
        let x := s.units.head h
        let e := v.entries[h.val]
        e.state = x.state.name ∧ e.frozen = x.frozen.getD 0 ∧ e.age = x.age ∧ e.level = levelOf x.health ∧
          (e.offered = true ↔ x.state = .ready ∧ x.health < 128 ∧ s.units.granted h side = true ∧
            ∃ z, s.units.zoneOf h.val = some z ∧ s.units.binding side = some z) ∧
          (e.stale = true ↔ ∃ z, s.units.zoneOf h.val = some z ∧ (s.units.zoneParams z).staleAge ≤ x.age) ∧
          (∀ f z, x.frozen = some f → s.units.zoneOf h.val = some z → e.deviation = f - s.units.fillTarget h) ∧
          (x.frozen = none ∨ s.units.zoneOf h.val = none → e.deviation = 0)) ∧
      s.units.onlyChanges t.units [.view side] ∧ t.mem = s.mem ∧ s.NoWrites t ∧ t.lastGranted = s.lastGranted ∧
      t.pending = s.pending

/-- A read by CA or CB of a head's entry or deviation word at an idle front end is served from the side's snapshot, and
nothing but the port's answer changes. -/
def Obligations.CandidateEntryServed : Prop :=
  ∀ (s : State) (p : Port) (a : Addr) (strobes : BitVec 4) (side : Side) (h : Fin 32) (off : Nat),
    (s.front p).current = none → (s.front p).upstream = [] → p ≠ .hl →
    s.units.windowAt a = some (.candidate side, off) → off = 1 + h.val ∨ off = 33 + h.val →
    ∃ w, exec (.candidateEntryRead p a strobes) s =
        .next { s with ports := s.ports.set p { current := none, upstream := [], answer := .data w } } ∧
      let e := (s.units.views.get side).entries[h.val]
      (off = 1 + h.val → w.extractLsb' 29 3 = e.state.code ∧ w.extractLsb' 28 1 = bit e.offered ∧
        w.extractLsb' 27 1 = bit e.stale ∧ w.extractLsb' 25 2 = e.level.code ∧
        w.extractLsb' 21 4 = BitVec.ofNat 4 (min 15 e.age) ∧ w.extractLsb' 0 21 = BitVec.ofInt 21 e.frozen) ∧
      (off = 33 + h.val → w.extractLsb' 24 8 = BitVec.ofNat 8 e.age ∧ w.extractLsb' 0 24 = BitVec.ofInt 24 e.deviation)

/-- A read that is not served, of any window by HL or outside the candidate windows, answers with memory's whole word when
the port has its turn (log entry 7). A write outside the windows and the control block reaches memory in the byte lanes
whose strobes are on (log entry 6). Nothing else changes. -/
def Obligations.PlainAccessesPass : Prop :=
  (∀ (s : State) (p : Port) (a : Addr) (strobes : BitVec 4), s.Turn p →
    (p = .hl ∨ ∀ side off, s.units.windowAt a ≠ some (.candidate side, off)) →
    let t : State := { s with
      ports := s.ports.set p { current := none, upstream := [], answer := .data (s.mem.word a) }
      lastGranted := .port p }
    exec (.candidateHeaderRead p a strobes) s = .next t ∧ exec (.candidateEntryRead p a strobes) s = .next t) ∧
  ∀ (s : State) (p : Port) (a : Addr) (strobes : BitVec 4) (w : Word), s.Turn p → s.units.controlOffset a = none →
    s.units.windowAt a = none →
    ∃ t, exec (.refusedPortWrite p a strobes w) s = .next t ∧
      (∀ lane, lane < 4 → t.mem.byte a lane =
        if strobes.getLsbD lane then w.extractLsb' (8 * lane) 8 else s.mem.byte a lane) ∧
      (∀ b lane, lane < 4 → b ≠ a → t.mem.byte b lane = s.mem.byte b lane) ∧
      t.ports = s.ports.set p { current := none, upstream := [], answer := .acknowledged } ∧
      s.units.onlyChanges t.units [] ∧ s.NoWrites t ∧ t.lastGranted = .port p ∧ t.pending = s.pending

/-! ### Disturbances (01) -/

/-- A taken report disturbs a READY or CLAIMED head whose stable net weight differs from the frozen one by more than the
disturbance band, and with POOL-DROP a SETTLING, READY or CLAIMED head, and a STOPPED one without a pool feed record. The
counter rises by 8; a head that did not go OUT is purged with reason DISTURBED, a CLAIMED one's order first withdrawn;
POOL-DROP also takes the pool feed record, and a feed follows. The order of an entry to OUT is log entry 12's, its flag
words log entry 31's. -/
def Obligations.ReportDisturbs : Prop :=
  ∀ (s : State) (a : Addr) (w : Word) (slot : Nat) (dropped : Bool), s.Clear → s.units.inWindow a .report (4 * slot) →
    let r := reportHeader w
    let h := r.head
    let x := s.units.head h
    let b := s.units.params h
    s.units.reportPasses slot r → r.boardFault = false → r.poolDrop = dropped →
    (if dropped then
      (∀ weight, s.units.reportWeight r ≠ some (weight, true)) ∧
        (x.state.name = .settling ∨ x.state.name = .ready ∨ x.state.name = .claimed ∨
          (x.state = .stopped ∧ x.pool = none))
    else
      (x.state.name = .ready ∨ x.state.name = .claimed) ∧ ∃ weight f, s.units.reportWeight r = some (weight, true) ∧
        x.frozen = some f ∧ (b.disturbBand < weight - x.zero - f ∨ b.disturbBand < f - (weight - x.zero))) →
    ∃ t, exec (.reportHeaderWrite a w) s = .next t ∧ s.Wrote t .hl a w ∧ t.units.stage = none ∧
      (x.health + 8 < 256 → (t.units.head h).health = x.health + 8 ∧
        (x.state ≠ .stopped → (t.units.head h).state = .discharging (.reject .disturbed)) ∧
        (x.state = .stopped → (t.units.head h).state = .stopped)) ∧
      (256 ≤ x.health + 8 → (t.units.head h).health = 256 ∧ (t.units.head h).state = .out) ∧
      (∀ side k o, s.units.part ≠ .draining → x.state = .claimed side k → o ∈ (s.units.orders.get side).queue → o.accept = k →
        ((s.units.orders.get side).queue.map OrderRec.accept).Nodup →
        (t.units.orders.get side).queue = (s.units.orders.get side).queue.filter (· ≠ o) ∧
          (∀ g, g ∈ o.heads → g ≠ h → t.units.head g =
            (s.units.head g).watched .ready (s.units.params g).silenceLimit) ∧
          (t.units.notices.get side).reservations = (s.units.notices.get side).reservations - 1 ∧
          (t.units.notices.get side).has .orderEnded = true) ∧
      (dropped = true → s.Makes t (s.units.taken r fun v => v.dropPool h)) ∧
      ∀ weight, dropped = false → s.units.reportWeight r = some (weight, true) →
        s.Makes t (s.units.taken r fun v => (v.weighed h weight).disturb h)

/-! ### Candidate windows and plain accesses, continued -/

/-- A write that the classifier or the taking unit refuses is acknowledged; memory is not written; the WRITE-REFUSED flag
is set and a WRITE-REFUSED notice raised, on side A for CA and HL and on side B for CB; nothing else changes. -/
def Obligations.WriteRefused : Prop :=
  ∀ (s : State) (p : Port) (a : Addr) (strobes : BitVec 4) (w : Word) (cause : WriteCause), s.Clear →
    s.units.refuses p a strobes w cause →
    let side := if p = .cb then Side.b else Side.a
    let u := s.units.setNotice side ((s.units.notices.get side).setFlag .writeRefused)
    let n : Notice := .writeRefused p a cause
    ∃ t, exec (.refusedPortWrite p a strobes w) s = .next t ∧ s.WriteRefused t p ∧
      (t.units.notices.get side).sameAs ((u.heard side n).units.notices.get side) ∧
      (t.units.notices.get side).has .writeRefused = true ∧ s.units.onlyChanges t.units [.notice side] ∧
      s.Queued t (u.heard side n).out

/-- A port's write whose event needs more entries than are free is held: the port stalls with it, it stands in the held
list with its need, and neither memory nor the units change. -/
def Obligations.WriteHeld : Prop :=
  ∀ (s : State) (p : Port) (a : Addr) (strobes : BitVec 4) (w : Word) (need : Nat), s.Turn p →
    attempt s.free (Ev.write p a strobes w) s.units = .error need →
    exec (.refusedPortWrite p a strobes w) s = .next { s with
      ports := s.ports.set p { (s.front p) with current := some (.write a strobes w) }
      held := [⟨.port p, need⟩]
      lastGranted := .port p }

/-! ### Orders (07) -/

/-- A head word or total word written by the window's owner passes to memory and is kept in the side's stage, as a sample
is in the report stage; nothing else changes. -/
def Obligations.OrderWordStaged : Prop :=
  ∀ (s : State) (p : Port) (a : Addr) (w : Word) (side : Side) (slot off : Nat), s.Turn p →
    s.units.inWindow a (.order side) (4 * slot + off) → p = s.units.owner side → 1 ≤ off → off ≤ 3 →
    ∃ t g, exec (.orderWordWrite p a w) s = .next t ∧ s.Wrote t p a w ∧
      t.units.orders.get side = { s.units.orders.get side with stage := some g } ∧ g.slot = slot ∧
      g.at off = some w ∧ (∀ o, o ≠ off → g.at o = stagedWord (s.units.orders.get side).stage slot o) ∧
      s.units.onlyChanges t.units [.order side] ∧ s.NoWrites t

/-- A SUBMIT is accepted exactly when none of the thirteen checks fails: the part RUNNING, the side enabled with order
intake on, the group complete in the stage, the count within the side's limits, every listed head of the side's zone,
listed once, READY, granted to the side and below BARRED, the declared total the sum of the frozen weights and within
the bag limits, fewer than two orders queued, and room for one more reservation. -/
def Obligations.AcceptedIffThirteenChecks : Prop :=
  ∀ (u : Units) (side : Side) (slot : Nat) (w : Word) (position : Nat) (heads : List (Fin 32)) (total : Int),
    let q := u.orders.get side
    let n := commitCount w
    judgeOrder u side slot w = (.accepted position, heads, total) ↔
      u.part = .running ∧ u.enabled side = true ∧ ∃ b w1 w3, q.live = some b ∧ b.intake = true ∧
        stagedWord q.stage slot 1 = some w1 ∧ stagedWord q.stage slot 3 = some w3 ∧
        (4 < n → (stagedWord q.stage slot 2).isSome = true) ∧ b.minHeads ≤ n ∧ n ≤ b.maxHeads ∧
        (let listed := (List.range n).map (headField w1 ((stagedWord q.stage slot 2).getD 0))
         heads = listed.map headNumber ∧ listed.Nodup ∧
           ∀ m, m ∈ listed → m < u.headCount ∧ u.zoneOf m = u.binding side) ∧
        (∀ h, h ∈ heads → (u.head h).state = .ready ∧ u.granted h side = true ∧ (u.head h).health < 128) ∧
        total = w3.toInt ∧ total = (heads.map fun h => (u.head h).frozen.getD 0).sum ∧ b.bagMin ≤ total ∧
        total ≤ b.bagMax ∧ q.queue.length < 2 ∧ position = q.queue.length + 1 ∧
        (u.notices.get side).reservations + 1 ≤ (u.notices.get side).room (u.ringSize side)

/-- A SUBMIT that the thirteen checks accept: the commit word reaches memory as ACCEPTED with its queue position, the listed
heads are CLAIMED with their SILENCE timers, the order is the youngest of the queue with the live block's bag target and
hold limit, one reservation is added, and the stage is empty. With the request latch SET and fewer than two open dumps the
release of the oldest order follows in the same event (log entry 18). -/
def Obligations.OrderAccepted : Prop :=
  ∀ (s : State) (p : Port) (a : Addr) (w : Word) (side : Side) (slot position : Nat) (heads : List (Fin 32))
    (total : Int) (b : SideBlock), s.units.inWindow a (.order side) (4 * slot) → p = s.units.owner side →
    isSubmit w = true → judgeOrder s.units side slot w = (.accepted position, heads, total) →
    (s.units.orders.get side).live = some b →
    let q := s.units.orders.get side
    let old := s.units.releases.get side
    let record (h : Fin 32) (x : Head) : Head :=
      if h ∈ heads then x.watched (.claimed side q.accepts) (s.units.params h).silenceLimit else x
    let order : OrderRec := { accept := q.accepts, tag := commitTag w, heads := heads, total := total,
                              target := b.bagTarget, hold := .running b.holdLimit }
    let q' : OrderSide := { q with stage := none, accepts := q.accepts + 1, queue := q.queue ++ [order] }
    (s.Turn p → old.latch = false ∨ 2 ≤ old.dumps.length →
      ∃ t, exec (.orderSubmit p a w) s = .next t ∧ s.Wrote t p a (orderVerdictWord w (.accepted position)) ∧
        position = q.queue.length + 1 ∧ (∀ h, h ∈ heads → t.units.head h = record h (s.units.head h)) ∧
        t.units.orders.get side = q' ∧
        t.units.notices.get side = { (s.units.notices.get side) with
          reservations := (s.units.notices.get side).reservations + 1 } ∧
        s.units.onlyChanges t.units (.order side :: .notice side :: heads.map .head) ∧ s.NoWrites t) ∧
    (∀ z o rest, s.Clear → old.latch = true → old.dumps.length < 2 → s.units.binding side = some z →
      q.queue ++ [order] = o :: rest → o.heads.Nodup →
      ∃ t kept, exec (.orderSubmit p a w) s = .next t ∧ s.Wrote t p a (orderVerdictWord w (.accepted position)) ∧
        position = q.queue.length + 1 ∧
        s.Makes t (Effect.then ((s.units.mapHeads record).setOrder side q', [.reserve side]) fun v =>
          v.release side z o kept))

/-- A SUBMIT that a check refuses changes nothing but the commit word, which reaches memory as REFUSED with reason and
list position, and the stage, which is empty. The first of the thirteen checks that fails gives the reason; of the checks of
listed heads, which are made at every list position before the next, the first position that fails is named (of two heads
named twice the one whose repeat comes first: log entry 30), and of the others none. Any other status passes to memory
unchanged and empties the stage. -/
def Obligations.CommitPassesOrRefused : Prop :=
  ∀ (s : State) (p : Port) (a : Addr) (w : Word) (side : Side) (slot : Nat), s.Turn p →
    s.units.inWindow a (.order side) (4 * slot) → p = s.units.owner side →
    let empties (t : State) : Prop :=
      t.units.orders.get side = { s.units.orders.get side with stage := none } ∧
        s.units.onlyChanges t.units [.order side] ∧ s.NoWrites t
    (isSubmit w = false → ∃ t, exec (.commitClear p a w) s = .next t ∧ s.Wrote t p a w ∧ empties t) ∧
      ∀ why position,
        ((judgeOrder s.units side slot w).1 = .refused why position ↔ s.units.submitRefuses side slot w why position) ∧
        (isSubmit w = true → s.units.submitRefuses side slot w why position → ∃ t, exec (.orderSubmit p a w) s = .next t ∧
          s.Wrote t p a (orderVerdictWord w (.refused why position)) ∧ empties t)

/-- The hold expiry, commanded while the timer runs (log entry 4), of a queued order: the order leaves the queue, its heads
are READY again with weight and age kept and their SILENCE timers restarted, the ORDER-EXPIRED notice takes the next number
and the reservation, ORDER-ENDED is set, and the request latch is not touched. In DRAINING drain complete follows where
the drain condition has become true. -/
def Obligations.HoldExpiryReturnsHeads : Prop :=
  ∀ (s : State) (side : Side) (place : Fin 2) (o : OrderRec) (left : Nat), s.Clear →
    (s.units.orders.get side).queue[place.val]? = some o → o.hold = .running left →
    ((s.units.orders.get side).queue.map OrderRec.accept).Nodup →
    let q : OrderSide := { s.units.orders.get side with
      queue := (s.units.orders.get side).queue.eraseIdx place.val }
    let record (h : Fin 32) (x : Head) : Head :=
      if h ∈ o.heads then x.watched .ready (s.units.params h).silenceLimit else x
    let puts : List Act := [.order side (.orderExpired o.tag o.heads o.total), .flag side .orderEnded]
    ∃ t, exec (.holdExpiry side place) s = .next t ∧ s.Inside t ∧
      (s.units.part ≠ .draining →
        t.units.orders.get side = q ∧ (∀ h, h ∈ o.heads → t.units.head h = record h (s.units.head h)) ∧
          (t.units.notices.get side).number = (s.units.notices.get side).number + 1 ∧
          (t.units.notices.get side).reservations = (s.units.notices.get side).reservations - 1 ∧
          (t.units.notices.get side).has .orderEnded = true ∧
          s.units.onlyChanges t.units (.order side :: .notice side :: o.heads.map .head) ∧ s.Puts t puts) ∧
      s.Makes t (Effect.then ((s.units.mapHeads record).setOrder side q, puts) Units.drainEnd)

/-! ### Feeds (04) -/

/-- A valid feed envelope written to a head below the head count is stored, and its word reaches memory as the order the
board holds already: the new amplitude with the pool feed record's ticks and sequence, or with no ticks and the current
sequence; nothing else changes and no feed starts. -/
def Obligations.FeedEnvelopeStored : Prop :=
  ∀ (s : State) (p : Port) (a : Addr) (w : Word) (h : Fin 32), s.Turn p → p ≠ .hl → s.units.inWindow a .feed h.val →
    h.val < s.units.headCount → bits w 0 7 ≤ 100 → 1 ≤ bits w 8 8 → bits w 8 8 ≤ bits w 16 8 →
    let x := s.units.head h
    let order := match x.pool with
      | some f => feedWord (bits w 0 7) f.ticks f.seq
      | none => feedWord (bits w 0 7) 0 x.feedSeq
    ∃ t, exec (.feedEnvelopeWrite p a w) s = .next t ∧ s.Wrote t p a order ∧
      t.units.head h = { x with
        envelope := some { amplitude := bits w 0 7, tmin := bits w 8 8, tmax := bits w 16 8 } } ∧
      s.units.onlyChanges t.units [.head h] ∧ s.NoWrites t

/-- A valid top envelope written to a zone below the zone count is stored; the applied amplitude is the nominal one plus
the trim, held from minimum to maximum; the top sequence increments; the word reaches memory as the top order of both;
nothing else changes. -/
def Obligations.TopEnvelopeStored : Prop :=
  ∀ (s : State) (p : Port) (a : Addr) (w : Word) (z : Zone), s.Turn p → p ≠ .hl →
    s.units.inWindow a .feed (32 + z.number) → z.number < s.units.zoneCount → bits w 0 7 ≤ 100 → bits w 8 7 ≤ 100 →
    bits w 16 7 ≤ 100 → bits w 8 7 ≤ bits w 0 7 → bits w 0 7 ≤ bits w 16 7 →
    let old := s.units.zones.get z
    ∃ t applied, exec (.topEnvelopeWrite p a w) s = .next t ∧ s.Wrote t p a (topWord applied (old.top.seq + 1)) ∧
      (applied : Int) = max (bits w 8 7 : Int) (min (bits w 16 7 : Int) ((bits w 0 7 : Int) + old.top.trim)) ∧
      t.units.zones.get z = { old with
        top := { envelope := some { nominal := bits w 0 7, minimum := bits w 8 7, maximum := bits w 16 7 },
                 trim := old.top.trim, applied := some applied, seq := old.top.seq + 1 } } ∧
      s.units.onlyChanges t.units [.zone z] ∧ s.NoWrites t

/-! ### Releases and request lines (08) -/

/-- A request edge: ignored while the part is TRANSPARENT or STOPPED or the side is not enabled; it sets a CLEAR latch,
and nothing more while no release can follow; with the latch SET it sets DOUBLE-REQUEST, unless the flag is set or its
setting pending. A pending setting is taken when its turn comes and entries are free: the flag is set and nothing is
pending or held any more; without one nothing happens. -/
def Obligations.RequestsLatched : Prop :=
  (∀ (s : State) (side : Side), s.Clear →
    let r := s.units.releases.get side
    let takes := s.units.active = true ∧ s.units.enabled side = true
    ∃ t, exec (.bagRequest side) s = .next t ∧ (¬ takes → t = s) ∧
      (takes → r.latch = true →
        ((s.units.notices.get side).has .doubleRequest = true ∨ r.doublePending = true → t = s) ∧
          ((s.units.notices.get side).has .doubleRequest = false → r.doublePending = false →
            s.Inside t ∧ (t.units.notices.get side).sameAs ((s.units.notices.get side).setFlag .doubleRequest) ∧
              s.units.onlyChanges t.units [.notice side] ∧ s.Queued t [])) ∧
      (takes → r.latch = false → ((s.units.orders.get side).queue = [] ∨ Config.dumpDepth ≤ r.dumps.length) →
        s.Inside t ∧ t.units.releases.get side = { r with latch := true } ∧
          s.units.onlyChanges t.units [.release side] ∧ s.NoWrites t)) ∧
  ∀ (s : State) (side : Side) (need : Nat), s.Quiet → s.queue = [] → s.startTail = [] →
    (∀ x, (s.units.releases.get x).releasePending = false) →
    ((s.units.releases.get side).doublePending = false → exec (.doubleRequestSetting side) s = .next s) ∧
      ((s.units.releases.get side).doublePending = true → s.held = [⟨.double side, need⟩] →
        ∃ t, exec (.doubleRequestSetting side) s = .next t ∧ s.Inside t ∧ t.held = [] ∧
          (t.units.notices.get side).has .doubleRequest = true ∧
          t.units.releases.get side = { s.units.releases.get side with doublePending := false } ∧
          s.units.onlyChanges t.units [.notice side, .release side] ∧ s.Sent t [])

/-! ### The laws between the units -/

/-- Every step keeps the laws between heads, queued orders, dumps and reservations: which order claims a head, acceptance
numbers, empty queues outside RUNNING and DRAINING, OUT exactly at 256, a timer of the cycle state's kind, one
reservation for each order and dump, and a head count in force of at most 32. -/
def Obligations.StepsKeepClaims : Prop :=
  ∀ s t : State, s.units.Lawful → s.units.Kept → step s = .next t → t.units.Kept

/-! ### Releases and request lines, continued -/

/-- A release, by a request edge that finds the latch CLEAR or on its own with the latch SET: the oldest order becomes
the youngest dump with every mark PENDING, staged blocks take effect, each listed head goes to DISCHARGING to the side,
the pulse starts, the latch is CLEAR, the other READY heads of the zone age and those that reach the purge age are
purged with reason STALE, and the rotation advances. The gate commands stand first among the writes, in list order with
their stagger, behind them the purges' gate commands and then their notices, each of which is kept while everything
fits. A pending release, which stands in the held list, is tested in its place: it is taken when its gate commands and one
flag word for its purges fit in the free entries, stays held when they do not, and is pending no more once its test fails.
The first part is stated with nothing waiting and nothing held (State.Clear), the second with the release alone held. -/
def Obligations.ReleaseTaken : Prop :=
  (∀ (s : State) (side : Side) (z : Zone) (o : OrderRec) (rest : List OrderRec) (i : Instr), s.Clear →
    s.units.active = true → s.units.binding side = some z → (s.units.orders.get side).queue = o :: rest →
    (s.units.releases.get side).dumps.length < Config.dumpDepth → o.heads.Nodup →
    (∀ h, h ∈ o.heads → ∃ k, (s.units.head h).state = .claimed side k) →
    (i = .release side ∧ (s.units.releases.get side).latch = true) ∨
      (i = .bagRequest side ∧ (s.units.releases.get side).latch = false) →
    let zone := (s.units.zones.get z).effect
    let u := s.units.setZone z zone
    let b := u.zoneParams z
    ∃ t, exec i s = .next t ∧ s.Inside t ∧
      t.units.orders.get side = { s.units.orders.get side with queue := rest }.effect ∧
      t.units.releases.get side = { s.units.releases.get side with
        latch := false, releasePending := false, disch := some 20
        dumps := (s.units.releases.get side).dumps ++
          [{ tag := o.tag, heads := o.heads.map fun h => (h, .pending), total := o.total, target := o.target }] } ∧
      t.units.zones.get z = { zone with rotation := (zone.rotation + 1) % b.offer.length } ∧
      (∀ h, t.units.head h =
        let x := s.units.head h
        if h ∈ o.heads then
          { x with
            state := .discharging (.bag side), retryUsed := false, gateSeq := x.gateSeq + 1
            timer := .running .gate (u.params h).gateLimit }
        else if x.state = .ready ∧ s.units.zoneOf h.val = some z then
          let y := { x with age := min 255 (x.age + 1) }
          if b.purgeAge ≠ 0 ∧ b.purgeAge ≤ y.age then y.purged .stale (u.params h).gateLimit else y
        else x) ∧
      (∀ q, s.units.keeps t.units q ∨ q = .order side ∨ q = .release side ∨ q = .zone z ∨ (∃ h, q = .head h) ∨
        q = .notice (s.units.reporting z)) ∧
      ∃ kept, (o.heads.length + 5 * (u.staleAt z o.heads).length + 2 ≤ 64 → ∀ h, kept h = true) ∧
        s.Makes t (s.units.release side z o kept)) ∧
  ∀ (s : State) (side : Side) (need : Nat), s.held = [⟨.release side, need⟩] →
    (s.units.releases.get side).releasePending = true →
    (∀ x, x ≠ side → (s.units.releases.get x).releasePending = false) →
    ∃ t, exec (.release side) s = .next t ∧ s.Inside t ∧ s.Tested t (.release side)

/-- DISCH_PULSE_END, taken at any time (log entry 4: the command stands for the end of the pulse whether or not its 20 ms
have run out or a pulse runs at all): the line is low, and nothing else changes. -/
def Obligations.PulseEnds : Prop :=
  ∀ (s : State) (side : Side), ∃ t, exec (.dischPulseEnd side) s = .next t ∧ t.dischLine side = false ∧
    t.units.releases.get side = { s.units.releases.get side with disch := none } ∧
    s.units.onlyChanges t.units [.release side] ∧ s.Inside t ∧ s.NoWrites t

/-! ### Timer expiries (03) -/

/-- A SETTLE expiry, commanded while the timer runs (log entry 4), of a SETTLING head: the counter rises by 8, with the
notice of a change of level, and unless that takes the head OUT, its bucket feed record is discarded and the head is purged
with reason UNSETTLED. The order of an entry to OUT is log entry 12's, its flag words log entry 31's. -/
def Obligations.SettleExpiryPurges : Prop :=
  ∀ (s : State) (h : Fin 32) (left : Nat), s.Clear → (s.units.head h).timer = .running .settle left →
    (s.units.head h).state = .settling →
    let x := s.units.head h
    ∃ t, exec (.settleExpiry h) s = .next t ∧ s.Inside t ∧
      (x.health + 8 < 256 →
        t.units.head h = { x with health := x.health + 8 }.purged .unsettled (s.units.params h).gateLimit ∧
          s.units.onlyChanges t.units [.head h, .notice (s.units.reportingHead h)] ∧
          s.Puts t (s.units.levelActs h (x.health + 8) .settle ++
            [.write (s.units.purgeEntry h .unsettled),
              .notice (s.units.reportingHead h) (.purge h .unsettled (x.gateSeq + 1) none)])) ∧
      s.Makes t ((s.units.expiry h .settle).then Units.drainEnd)

/-- A SILENCE expiry, commanded while the timer runs (log entry 4), of an EMPTY, READY or CLAIMED head: the counter rises
by 8, with the notice of a change of level. A head that it leaves below BARRED, or finds EMPTY or BARRED already, and not
at 256, keeps its state and its SILENCE timer restarts; a READY or CLAIMED head that it makes BARRED is purged with reason
BARRED, a CLAIMED one's order first withdrawn; at 256 the head goes OUT, in the order of log entry 12 (flag words: log entry 31). -/
def Obligations.SilenceExpiryRaises : Prop :=
  ∀ (s : State) (h : Fin 32) (left : Nat), s.Clear → (s.units.head h).timer = .running .silence left →
    (s.units.head h).state.name = .empty ∨ (s.units.head h).state.name = .ready ∨
      (s.units.head h).state.name = .claimed →
    let x := s.units.head h
    let b := s.units.params h
    let bars := x.state ≠ .empty ∧ x.health < 128 ∧ 128 ≤ x.health + 8
    ∃ t, exec (.silenceExpiry h) s = .next t ∧ s.Inside t ∧
      (s.units.undrained → x.health + 8 < 256 → t.units.head h =
        if bars then { x with health := x.health + 8 }.purged .barred b.gateLimit
        else { x with health := x.health + 8, timer := .running .silence b.silenceLimit }) ∧
      (s.units.undrained → x.health + 8 < 256 → ¬ bars →
        s.units.onlyChanges t.units [.head h, .notice (s.units.reportingHead h)] ∧
          s.Puts t (s.units.levelActs h (x.health + 8) .silence)) ∧
      (∀ side k o, s.units.part ≠ .draining → x.state = .claimed side k → bars → o ∈ (s.units.orders.get side).queue →
        o.accept = k →
        ((s.units.orders.get side).queue.map OrderRec.accept).Nodup →
        (t.units.orders.get side).queue = (s.units.orders.get side).queue.filter (· ≠ o) ∧
          ∀ g, g ∈ o.heads → g ≠ h → t.units.head g =
            (s.units.head g).watched .ready (s.units.params g).silenceLimit) ∧
      s.Makes t ((s.units.expiry h .silence).then Units.drainEnd)

/-- A first GATE expiry, commanded while the timer runs (log entry 4), that does not reach 256: the counter rises by 32,
with the notice of a change of level, the gate sequence increments, the gate command is issued again to the same
destination without delay, the retry is used, and the GATE timer restarts. -/
def Obligations.GateExpiryReissues : Prop :=
  ∀ (s : State) (h : Fin 32) (left : Nat) (d : Destination), s.Clear → (s.units.head h).timer = .running .gate left →
    (s.units.head h).state = .discharging d → (s.units.head h).retryUsed = false →
    (s.units.head h).health + 32 < 256 →
    let x := s.units.head h
    ∃ t, exec (.gateExpiry h) s = .next t ∧ s.Inside t ∧
      t.units.head h = { x with
        health := x.health + 32, gateSeq := x.gateSeq + 1, retryUsed := true
        timer := .running .gate (s.units.params h).gateLimit } ∧
      s.units.onlyChanges t.units [.head h, .notice (s.units.reportingHead h)] ∧
      s.Puts t (s.units.levelActs h (x.health + 32) .gate ++
        [.write ⟨BitVec.ofNat 20 (s.units.base .gate + h.val), gateWord d 0 (x.gateSeq + 1)⟩])

/-- An expiry, commanded while the timer runs (log entry 4), that takes the counter to 256 takes the head OUT: SETTLE and
SILENCE from 248, the first GATE expiry from 224, the second from any value. The timer stops, frozen weight and feed
records are absent, HEAD-OUT is set on the reporting side, and the feed stop is queued last (log entry 12; flag words: log entry
31). A CLAIMED
head's order is withdrawn with reason HEAD-OUT and its other heads are READY again; in the dump that awaits a head
discharging to a side its mark is UNCONFIRMED, and a dump that this completes leaves the list with its notice; with a
request latched and an order queued the release follows it, before HEAD-OUT and the feed stop. -/
def Obligations.ExpiryTakesOut : Prop :=
  ∀ (s : State) (h : Fin 32) (k : TimerKind) (i : Instr) (left : Nat), s.Clear →
    (s.units.head h).timer = .running k left →
    let x := s.units.head h
    let reporting := s.units.reportingHead h
    let outs : List Act := [.flag reporting .headOut, .write (s.units.feedEntry h 0 0 (x.feedSeq + 1))]
    (k = .settle ∧ i = .settleExpiry h ∧ x.state = .settling ∧ 248 ≤ x.health) ∨
      (k = .silence ∧ i = .silenceExpiry h ∧
        (x.state.name = .empty ∨ x.state.name = .ready ∨ x.state.name = .claimed) ∧ 248 ≤ x.health) ∨
      (k = .gate ∧ i = .gateExpiry h ∧ x.state.name = .discharging ∧ (x.retryUsed = true ∨ 224 ≤ x.health)) →
    let unreleased := ∀ side, x.state = .discharging (.bag side) → s.units.unreleased side h .unconfirmed
    ∃ t, exec i s = .next t ∧ s.Inside t ∧
      (unreleased → t.units.head h = x.outed ∧ (t.units.notices.get reporting).has .headOut = true ∧
        s.Makes t ((s.units.expiry h k).then Units.drainEnd)) ∧
      (s.units.part ≠ .draining → x.state.name ≠ .claimed → (∀ side, x.state ≠ .discharging (.bag side)) →
        s.units.onlyChanges t.units [.head h, .notice reporting] ∧ ∃ l, s.Puts t (l ++ outs)) ∧
      (∀ side n o, s.units.part ≠ .draining → x.state = .claimed side n → o ∈ (s.units.orders.get side).queue →
        o.accept = n → ((s.units.orders.get side).queue.map OrderRec.accept).Nodup →
        (t.units.orders.get side).queue = (s.units.orders.get side).queue.filter (· ≠ o) ∧
          (∀ g, g ∈ o.heads → g ≠ h → t.units.head g =
            (s.units.head g).watched .ready (s.units.params g).silenceLimit) ∧
          ∃ l, s.Puts t (l ++ [.order side (.orderWithdrawn o.tag .headOut (some (h, o.heads.idxOf h + 1)) o.heads
            o.total), .flag side .orderEnded] ++ outs)) ∧
      (∀ side d rest, s.units.part ≠ .draining → unreleased → x.state = .discharging (.bag side) →
        (s.units.releases.get side).dumps = d :: rest → d.awaits h = true →
        let m := d.mark h .unconfirmed
        t.units.releases.get side = { s.units.releases.get side with
          dumps := if m.complete then rest else m :: rest } ∧
          ∃ l, s.Puts t (l ++ (if m.complete then [.order side m.notice] else []) ++ outs)) ∧
      ∀ side z o, x.state = .discharging (.bag side) → s.units.releaseFollows side h .unconfirmed z o → h ∉ o.heads →
        t.units.head h = x.outed ∧
          ∃ kept, s.Makes t (((s.units.count h 256 (if x.retryUsed then .gateFinal else .gate)).then fun u =>
            u.outReleasing h side z o kept).then Units.drainEnd)

/-- The model's own clock (log entry 2): with no command and nothing waiting a step is a millisecond: without a time base nothing changes; otherwise every
running head timer, hold timer and pulse is one millisecond nearer its end while none of them comes due. -/
def Obligations.MillisecondPasses : Prop :=
  ∀ s : State, s.Clear → s.pending = [] →
    (s.units.clock = none → step s = .next s) ∧
      (s.units.clock.isSome = true → (∀ h k n, (s.units.head h).timer = .running k n → 2 ≤ n) →
        (∀ x o n, o ∈ (s.units.orders.get x).queue → o.hold = .running n → 2 ≤ n) →
        ∃ t, step s = .next t ∧ s.Inside t ∧ s.NoWrites t ∧
          (∀ h, t.units.head h = { s.units.head h with timer := (s.units.head h).timer.tick }) ∧
          (∀ x, t.units.orders.get x = (s.units.orders.get x).tick) ∧
          (∀ x, t.units.releases.get x = { s.units.releases.get x with
            disch := pulseTick (s.units.releases.get x).disch }) ∧
          ∀ q, s.units.keeps t.units q ∨ (∃ h, q = .head h) ∨ (∃ x, q = .order x) ∨ ∃ x, q = .release x)

/-! ### Notices, flags and the issue queue (09, 11) -/

/-- A head notice takes the side's next number. With room beyond the reservations it goes into the ring when the holding
queue is empty and an entry free, its four words to the entry at the write index, setting NOTICE-WRITTEN, and RING-HIGH
from three quarters unread; and otherwise to the holding queue's tail. Without room it is dropped with NOTICE-LOST. An
order notice takes the next number and one reservation, and is placed in the same way without a test of room. -/
def Obligations.HeadNoticePlaced : Prop :=
  ∀ (u : Units) (s : Side) (n : Notice),
    let x := u.notices.get s
    let size := u.ringSize s
    let room := x.reservations < x.ringFree size + (8 - x.holding.length)
    let inRing (e : Ev) (y : NoticeSide) : Prop :=
      e.out = u.ringEntry s x.writeIx (n.words (x.number + 1)) ∧ y.writeIx = (x.writeIx + 1) % size ∧ y.holding = [] ∧
        y.consumeIx = x.consumeIx ∧ y.enables = x.enables ∧
        ∀ f, y.has f = true ↔ x.has f = true ∨ f = .noticeWritten ∨ (f = .ringHigh ∧ 3 * size ≤ 4 * y.unread size)
    (let e := u.heard s n
      let y := e.units.notices.get s
      y.number = x.number + 1 ∧
      (¬ room → e.out = [] ∧ y = { x with number := x.number + 1, flags := x.flags ||| Flag.noticeLost.mask }) ∧
      (room → x.holding = [] → 0 < x.ringFree size → inRing e y ∧ y.reservations = x.reservations) ∧
      (room → (x.holding ≠ [] ∨ x.ringFree size = 0) → x.holding.length < 8 →
        e.out = [] ∧ y = { x with number := x.number + 1, holding := x.holding ++ [(x.number + 1, n)] }) ∧
      ∀ q, q ≠ .notice s → u.keeps e.units q) ∧
    (let e := u.heardOrder s n
      let y := e.units.notices.get s
      y.number = x.number + 1 ∧ y.reservations = x.reservations - 1 ∧
      (x.holding = [] → 0 < x.ringFree size → inRing e y) ∧
      ((x.holding ≠ [] ∨ x.ringFree size = 0) → x.holding.length < 8 →
        e.out = [] ∧ y = { x with
          number := x.number + 1, holding := x.holding ++ [(x.number + 1, n)], reservations := x.reservations - 1 }) ∧
      ∀ q, q ≠ .notice s → u.keeps e.units q)

/-- A consume word that does not pass the write index is taken: it passes to memory and the mirror, the consume index is
its value, and held notices move into the ring, oldest first, one for each entry now free, each with its own number. -/
def Obligations.ConsumeTaken : Prop :=
  ∀ (s : State) (p : Port) (side : Side) (w : Word), s.Clear → p ≠ .hl → s.units.part ≠ .transparent →
    let size := s.units.ringSize side
    let x := s.units.notices.get side
    x.writeIx < size → x.consumeIx < size → w.toNat < size →
    (w.toNat + size - x.consumeIx) % size ≤ x.unread size →
    let moved := min x.holding.length ({ x with consumeIx := w.toNat }.ringFree size)
    ∃ t y, exec (.consumeWordWrite p side w) s = .next t ∧ s.Wrote t p (s.units.blockAddr (consumeOffset side)) w ∧
      t.units.mirrorWord (consumeOffset side) = w ∧
      t.units.notices.get side = y ∧ y.consumeIx = w.toNat ∧ y.writeIx = (x.writeIx + moved) % size ∧
      y.holding = x.holding.drop moved ∧ y.number = x.number ∧ y.reservations = x.reservations ∧
      y.enables = x.enables ∧ (∀ f, y.has f = true ↔ x.has f = true ∨
        (0 < moved ∧ (f = .noticeWritten ∨ (f = .ringHigh ∧ 3 * size ≤ 4 * y.unread size)))) ∧
      s.units.onlyChanges t.units [.mirror (consumeOffset side), .notice side] ∧
      s.Queued t ((x.holding.take moved).zipIdx.flatMap fun (n, i) =>
        s.units.ringEntry side ((x.writeIx + i) % size) (n.2.words n.1))

/-- Clear and enable words written whole by CA or CB, in every part state. A clear word clears the flags whose bits are
1, and note pending when no flag is left set and enabled; an enable word replaces the enables and sets note pending when
a bit rises while its flag is set. Both pass to memory and the mirror and queue the side's flag word when its content
has changed. That note pending, where it was set already, leaves the NOTE line's awaited flag words as they are is the model's
choice (log entry 10, DEDUCED). -/
def Obligations.ClearAndEnableWords : Prop :=
  ∀ (s : State) (p : Port) (side : Side) (w : Word), s.Clear → p ≠ .hl →
    let x := s.units.notices.get side
    let bits8 := w.extractLsb' 0 8
    let leaves (t : State) (offset : Nat) (y : NoticeSide) : Prop :=
      s.Wrote t p (s.units.blockAddr offset) w ∧ t.units.mirrorWord offset = w ∧
        (t.units.notices.get side).sameAs y ∧ (t.units.notices.get side).notePending = y.notePending ∧
        s.units.onlyChanges t.units [.mirror offset, .notice side] ∧ t.held = s.held ∧ s.FlagWords t [] ∧
        t.waitingWrites = s.waitingWrites ++ s.units.flagQueued side y
    (∃ t, exec (.clearWordWrite p side w) s = .next t ∧
      leaves t (clearOffset side) { x with
        flags := x.flags &&& ~~~bits8
        notePending := x.notePending && (x.flags &&& ~~~bits8 &&& x.enables) != 0 }) ∧
      ∃ t, exec (.enableWordWrite p side w) s = .next t ∧
        leaves t (enableOffset side) { x with
          enables := bits8
          notePending := x.notePending || (bits8 &&& ~~~x.enables &&& x.flags) != 0 }

/-- Any other write that passes into the control block enters memory and the mirror in the bytes whose strobes are on (log
entry 6 says which lane a strobe names): of a loaded part a whole write by CA or CB, in TRANSPARENT a write by any port,
HL's whole write of a clear or enable word among them (log entry 20); nothing else changes. -/
def Obligations.ControlWordMirrored : Prop :=
  ∀ (s : State) (p : Port) (o : BitVec 9) (strobes : BitVec 4) (w : Word), s.Turn p →
    ¬ (strobes = 15 ∧ (o.toNat = 0x100 ∨ o.toNat = 0x101) ∧ isIssue w = true) →
    (s.units.part = .transparent ∧
        ¬ (strobes = 15 ∧ p ≠ .hl ∧ ∃ x, o.toNat = clearOffset x ∨ o.toNat = enableOffset x)) ∨
      (s.units.part ≠ .transparent ∧ p ≠ .hl ∧ strobes = 15 ∧ ¬ (0x102 ≤ o.toNat ∧ o.toNat ≤ 0x10A)) →
    let a := s.units.blockAddr o.toNat
    ∃ t, exec (.controlBlockWrite p o strobes w) s = .next t ∧
      (∀ lane, lane < 4 →
        t.mem.byte a lane = (if strobes.getLsbD lane then w.extractLsb' (8 * lane) 8 else s.mem.byte a lane) ∧
        (t.units.mirrorWord o.toNat).extractLsb' (8 * lane) 8 =
          if strobes.getLsbD lane then w.extractLsb' (8 * lane) 8
          else (s.units.mirrorWord o.toNat).extractLsb' (8 * lane) 8) ∧
      (∀ b lane, lane < 4 → b ≠ a → t.mem.byte b lane = s.mem.byte b lane) ∧
      t.ports = s.ports.set p { current := none, upstream := [], answer := .acknowledged } ∧
      s.units.onlyChanges t.units [.mirror o.toNat] ∧ s.NoWrites t ∧ t.lastGranted = .port p ∧ t.pending = s.pending

/-- A grant to the issue queue writes its oldest entry whole and the next START tail write enters behind; with an empty queue
nothing happens. Behind it what is held is tested: an expiry, a pending setting of DOUBLE-REQUEST or a pending release is
taken when its writes fit now, and otherwise stays held with its need as it is now; a port's held write has its grant again,
as if it were made anew, unless 48 entries or more still wait. The same test is made when a held event's own command comes.
Stated with no port waiting but the one whose write is held, and with at most one event held. -/
def Obligations.OldestEntryWritten : Prop :=
  (∀ s : State, s.Quiet → s.mem.wf = true →
    (s.queue = [] → exec .issueQueueWrite s = .next s) ∧
      ∀ x rest, s.queue ≠ [] → s.waitingWrites = x :: rest →
        (s.held = [] → ∃ t, exec .issueQueueWrite s = .next t ∧ s.EntryWritten t x rest) ∧
        ∀ o need, s.held = [⟨o, need⟩] → (∀ p, o ≠ .port p) →
          (∀ side, (s.units.releases.get side).releasePending = true → o = .release side) →
          ∃ m t, exec .issueQueueWrite s = .next t ∧ s.EntryWritten m x rest ∧ m.Inside t ∧ m.Tested t o) ∧
  (∀ (s : State) (p : Port) (a : Addr) (strobes : BitVec 4) (w : Word) (need : Nat) (x : QueueEntry)
    (rest : List QueueEntry), (s.front p).current = some (.write a strobes w) → (s.front p).upstream = [] →
    (∀ q, q ≠ p → (s.front q).current = none ∧ (s.front q).upstream = []) → s.held = [⟨.port p, need⟩] →
    s.mem.wf = true → s.queue ≠ [] → s.waitingWrites = x :: rest → 48 ≤ s.queue.length ∨ p ∉ portsFirst s.lastGranted →
    ∃ m, s.EntryWritten m x rest ∧ (48 ≤ rest.length → exec .issueQueueWrite s = .next m) ∧
      (rest.length < 48 →
        let anew : State := { m with held := [], ports := m.ports.set p { (m.front p) with current := none } }
        ∃ t, exec (.refusedPortWrite p a strobes w) anew = .next t ∧
          ((∀ side, (t.units.releases.get side).releasePending = false) → exec .issueQueueWrite s = .next t))) ∧
  ∀ (s : State) (o : Owner) (need : Nat) (i : Instr), s.held = [⟨o, need⟩] →
    (∀ side, (s.units.releases.get side).releasePending = false) →
    (∃ h, o = .headTimer h ∧
        ((i = .settleExpiry h ∧ (s.units.head h).timer = .expired .settle) ∨
          (i = .silenceExpiry h ∧ (s.units.head h).timer = .expired .silence) ∨
          (i = .gateExpiry h ∧ (s.units.head h).timer = .expired .gate))) ∨
      (∃ side place r, o = .hold side r.accept ∧ i = .holdExpiry side place ∧
        (s.units.orders.get side).queue[place.val]? = some r ∧ r.hold = .expired) ∨
      (∃ side, o = .double side ∧ i = .doubleRequestSetting side ∧
        (s.units.releases.get side).doublePending = true) →
    ∃ t, exec i s = .next t ∧ s.Inside t ∧ s.Tested t o
end

