-- ==== Sys2Proof/Laws/Cells.lean ====
section
/-! SUPPORT. Sparse cells and the weigher memory: what a read gives after a write, and that every write keeps the
canonical form. -/

namespace Sys2Proof.Machine

/-! ### Cells -/

/-- Below a list's first key nothing is listed. -/
theorem Cells.read_of_above {n : Nat} (l : List (Nat × BitVec n)) (b a : Nat) (h : Cells.wf l = true)
    (ha : Cells.above b l = true) (hab : a ≤ b) : Cells.read l a = 0 := by
  induction l generalizing b with
  | nil => rfl
  | cons x rest ih =>
    obtain ⟨k, v⟩ := x
    simp only [Cells.wf, Bool.and_eq_true] at h
    simp only [Cells.above, decide_eq_true_eq] at ha
    have hk : k ≠ a := by omega
    simp only [Cells.read, hk, if_false]
    exact ih k h.2 h.1.2 (by omega)

/-- A lower bound of a list's keys stays one. -/
theorem Cells.above_mono {n : Nat} (l : List (Nat × BitVec n)) (b c : Nat) (h : Cells.above c l = true) (hbc : b ≤ c) :
    Cells.above b l = true := by
  cases l with
  | nil => rfl
  | cons x rest => simp only [Cells.above, decide_eq_true_eq] at *; omega

/-- A write above a bound leaves the list above it. -/
theorem Cells.above_write {n : Nat} (l : List (Nat × BitVec n)) (b a : Nat) (v : BitVec n) (h : Cells.wf l = true)
    (ha : Cells.above b l = true) (hb : b < a) : Cells.above b (Cells.write l a v) = true := by
  cases l with
  | nil => unfold Cells.write; split <;> simp [Cells.above, hb]
  | cons x rest =>
    obtain ⟨k, w⟩ := x
    simp only [Cells.wf, Bool.and_eq_true] at h
    have hk : b < k := by simpa [Cells.above] using ha
    unfold Cells.write
    split
    · split <;> simp [Cells.above, hk, hb]
    · split
      · split
        · exact Cells.above_mono rest b k h.1.2 (by omega)
        · simp [Cells.above, hb]
      · simp [Cells.above, hk]

/-- A write keeps the canonical form. -/
theorem Cells.wf_write {n : Nat} (l : List (Nat × BitVec n)) (a : Nat) (v : BitVec n) (h : Cells.wf l = true) :
    Cells.wf (Cells.write l a v) = true := by
  induction l with
  | nil => unfold Cells.write; split <;> simp_all [Cells.wf, Cells.above]
  | cons x rest ih =>
    obtain ⟨k, w⟩ := x
    have h' := h
    simp only [Cells.wf, Bool.and_eq_true] at h
    unfold Cells.write
    split
    · split
      · exact h'
      · simp_all [Cells.wf, Cells.above]
    · split
      · split
        · exact h.2
        · subst_vars; simp_all [Cells.wf]
      · simp only [Cells.wf, Bool.and_eq_true]
        exact ⟨⟨h.1.1, Cells.above_write rest k a v h.2 h.1.2 (by omega)⟩, ih h.2⟩

/-- A write leaves every other key's value alone, in a list of any form. -/
theorem Cells.read_write_other {n : Nat} (l : List (Nat × BitVec n)) (a b : Nat) (v : BitVec n) (hb : b ≠ a) :
    Cells.read (Cells.write l a v) b = Cells.read l b := by
  have hb' : a ≠ b := fun h => hb h.symm
  induction l with
  | nil => unfold Cells.write; split <;> simp [Cells.read, hb']
  | cons x rest ih =>
    unfold Cells.write
    split
    · split <;> simp [Cells.read, hb']
    · split
      · rename_i h; subst h; split <;> simp [Cells.read, hb']
      · simp [Cells.read, ih]

/-- A read after a write: the written value at its key, the old one elsewhere. -/
theorem Cells.read_write {n : Nat} (l : List (Nat × BitVec n)) (a b : Nat) (v : BitVec n) (h : Cells.wf l = true) :
    Cells.read (Cells.write l a v) b = if b = a then v else Cells.read l b := by
  induction l with
  | nil =>
    unfold Cells.write
    split
    · split <;> simp_all [Cells.read]
    · split
      · subst_vars; simp [Cells.read]
      · rename_i hb; simp only [Cells.read, if_neg (Ne.symm hb)]
  | cons x rest ih =>
    obtain ⟨k, w⟩ := x
    have h' := h
    simp only [Cells.wf, Bool.and_eq_true] at h
    unfold Cells.write
    split
    · rename_i hak
      have h0 : Cells.read ((k, w) :: rest) a = 0 :=
        Cells.read_of_above _ a a h' (by simpa [Cells.above] using hak) (Nat.le_refl a)
      split
      · split
        · simp_all
        · rfl
      · split
        · subst_vars; simp [Cells.read]
        · rename_i hb; simp only [Cells.read, if_neg (Ne.symm hb)]
    · split
      · rename_i hak
        subst hak
        have h0 : Cells.read rest a = 0 := Cells.read_of_above rest a a h.2 h.1.2 (Nat.le_refl a)
        split
        · split
          · simp_all
          · rename_i hb; simp only [Cells.read, if_neg (Ne.symm hb)]
        · split
          · subst_vars; simp [Cells.read]
          · rename_i hb; simp only [Cells.read, if_neg (Ne.symm hb)]
      · rename_i h1 h2
        by_cases hkb : k = b
        · subst hkb
          have : k ≠ a := fun e => h2 e.symm
          simp [Cells.read, this]
        · simp only [Cells.read, hkb, if_false]
          exact ih h.2

/-! ### Memory -/

theorem Memory.wf_lane (m : Memory) (a : Addr) (st : BitVec 4) (w : Word) (i : Nat) (h : m.wf = true) :
    (m.lane a st w i).wf = true := by
  unfold Memory.lane
  split
  · exact Cells.wf_write m _ _ h
  · exact h

/-- A write to memory keeps its canonical form. -/
theorem Memory.wf_write (m : Memory) (a : Addr) (st : BitVec 4) (w : Word) (h : m.wf = true) :
    (m.write a st w).wf = true := by
  unfold Memory.write
  exact Memory.wf_lane _ _ _ _ _ (Memory.wf_lane _ _ _ _ _ (Memory.wf_lane _ _ _ _ _ (Memory.wf_lane _ _ _ _ _ h)))

/-- A byte after one lane's write: the word's byte at that lane when its strobe is on, the old byte elsewhere. -/
theorem Memory.byte_lane (m : Memory) (a b : Addr) (st : BitVec 4) (w : Word) (i j : Nat) (h : m.wf = true)
    (hi : i < 4) (hj : j < 4) :
    (m.lane a st w i).byte b j =
      if b = a ∧ j = i ∧ st.getLsbD i = true then w.extractLsb' (8 * i) 8 else m.byte b j := by
  unfold Memory.lane Memory.byte
  by_cases hs : st.getLsbD i = true
  · rw [if_pos hs, Cells.read_write m _ _ _ h]
    have key : 4 * b.toNat + j = 4 * a.toNat + i ↔ (b = a ∧ j = i) := by
      constructor
      · intro e
        have : b.toNat = a.toNat ∧ j = i := by omega
        exact ⟨BitVec.eq_of_toNat_eq this.1, this.2⟩
      · rintro ⟨rfl, rfl⟩; rfl
    by_cases hk : b = a ∧ j = i
    · rw [if_pos (key.2 hk), if_pos ⟨hk.1, hk.2, hs⟩]
    · rw [if_neg (fun e => hk (key.1 e)), if_neg (fun e => hk ⟨e.1, e.2.1⟩)]
  · rw [if_neg hs, if_neg (fun e => hs e.2.2)]

/-- A byte after a write: the word's byte where the strobe of its lane is on, the old byte everywhere else. -/
theorem Memory.byte_write (m : Memory) (a b : Addr) (st : BitVec 4) (w : Word) (j : Nat) (h : m.wf = true) (hj : j < 4) :
    (m.write a st w).byte b j =
      if b = a ∧ st.getLsbD j = true then w.extractLsb' (8 * j) 8 else m.byte b j := by
  have h0 := Memory.wf_lane m a st w 0 h
  have h1 := Memory.wf_lane _ a st w 1 h0
  have h2 := Memory.wf_lane _ a st w 2 h1
  unfold Memory.write
  rw [Memory.byte_lane _ a b st w 3 j h2 (by omega) hj, Memory.byte_lane _ a b st w 2 j h1 (by omega) hj,
    Memory.byte_lane _ a b st w 1 j h0 (by omega) hj, Memory.byte_lane _ a b st w 0 j h (by omega) hj]
  by_cases hb : b = a
  · by_cases hs : st.getLsbD j = true
    · have : j = 0 ∨ j = 1 ∨ j = 2 ∨ j = 3 := by omega
      rcases this with rfl | rfl | rfl | rfl <;> simp [hb, hs]
    · have : j = 0 ∨ j = 1 ∨ j = 2 ∨ j = 3 := by omega
      rcases this with rfl | rfl | rfl | rfl <;> simp [hb, hs]
  · rw [if_neg (fun e => hb e.1), if_neg (fun e => hb e.1), if_neg (fun e => hb e.1), if_neg (fun e => hb e.1),
      if_neg (fun e => hb e.1)]

/-- A whole write is read back. -/
theorem Memory.word_write_all (m : Memory) (a : Addr) (w : Word) (h : m.wf = true) :
    (m.write a allStrobes w).word a = w := by
  unfold Memory.word
  rw [Memory.byte_write m a a _ w 3 h (by omega), Memory.byte_write m a a _ w 2 h (by omega),
    Memory.byte_write m a a _ w 1 h (by omega), Memory.byte_write m a a _ w 0 h (by omega)]
  have hs : ∀ j < 4, allStrobes.getLsbD j = true := by decide
  rw [if_pos ⟨rfl, hs 3 (by omega)⟩, if_pos ⟨rfl, hs 2 (by omega)⟩, if_pos ⟨rfl, hs 1 (by omega)⟩,
    if_pos ⟨rfl, hs 0 (by omega)⟩]
  apply BitVec.eq_of_getLsbD_eq
  intro i hi
  simp only [BitVec.getLsbD_append, BitVec.getLsbD_extractLsb']
  by_cases h1 : i < 8
  · simp [h1]
  · by_cases h2 : i - 8 < 8
    · simp [h1, h2, show 8 + (i - 8) = i by omega]
    · by_cases h3 : i - 8 - 8 < 8
      · simp [h1, h2, h3, show 16 + (i - 8 - 8) = i by omega]
      · simp [h1, h2, h3, show 24 + (i - 8 - 8 - 8) = i by omega, show i - 8 - 8 - 8 < 8 by omega]

/-- A write leaves the word at every other address alone. -/
theorem Memory.word_write_other (m : Memory) (a b : Addr) (st : BitVec 4) (w : Word) (h : m.wf = true) (hb : b ≠ a) :
    (m.write a st w).word b = m.word b := by
  unfold Memory.word
  rw [Memory.byte_write m a b st w 3 h (by omega), Memory.byte_write m a b st w 2 h (by omega),
    Memory.byte_write m a b st w 1 h (by omega), Memory.byte_write m a b st w 0 h (by omega)]
  rw [if_neg (fun e => hb e.1), if_neg (fun e => hb e.1), if_neg (fun e => hb e.1), if_neg (fun e => hb e.1)]

end Sys2Proof.Machine
end

