-- ==== Sys2Proof/Laws/State.lean ====
section
/-! SUPPORT. One lemma for each field of each named update of State, Units and Ev, all true by rfl, and the lemmas of
the records with one thing for each side, zone and port. -/

namespace Sys2Proof

/-! ### Sides, zones and ports -/

@[simp] theorem PerSide.get_set {α : Type} (p : PerSide α) (s r : Side) (x : α) :
    (p.set s x).get r = if r = s then x else p.get r := by cases s <;> cases r <;> rfl

@[simp] theorem PerZone.get_set {α : Type} (p : PerZone α) (s r : Zone) (x : α) :
    (p.set s x).get r = if r = s then x else p.get r := by cases s <;> cases r <;> rfl

@[simp] theorem PerPort.get_set {α : Type} (p : PerPort α) (s r : Port) (x : α) :
    (p.set s x).get r = if r = s then x else p.get r := by cases s <;> cases r <;> rfl

@[simp] theorem PerSide.set_get {α : Type} (p : PerSide α) (s : Side) : p.set s (p.get s) = p := by cases s <;> rfl

@[simp] theorem PerZone.set_get {α : Type} (p : PerZone α) (s : Zone) : p.set s (p.get s) = p := by cases s <;> rfl

@[simp] theorem PerPort.set_get {α : Type} (p : PerPort α) (s : Port) : p.set s (p.get s) = p := by cases s <;> rfl

@[simp] theorem PerSide.set_set {α : Type} (p : PerSide α) (s : Side) (x y : α) : (p.set s x).set s y = p.set s y := by
  cases s <;> rfl

@[simp] theorem PerZone.set_set {α : Type} (p : PerZone α) (s : Zone) (x y : α) : (p.set s x).set s y = p.set s y := by
  cases s <;> rfl

@[simp] theorem PerPort.set_set {α : Type} (p : PerPort α) (s : Port) (x y : α) : (p.set s x).set s y = p.set s y := by
  cases s <;> rfl

theorem PerSide.eta {α : Type} (p : PerSide α) : (⟨p.get .a, p.get .b⟩ : PerSide α) = p := rfl

theorem PerSide.ext_get {α : Type} {p q : PerSide α} (h : ∀ s, p.get s = q.get s) : p = q := by
  cases p; cases q; have ha := h .a; have hb := h .b; simp_all [PerSide.get]

theorem PerPort.ext_get {α : Type} {p q : PerPort α} (h : ∀ s, p.get s = q.get s) : p = q := by
  cases p; cases q; have ha := h .ca; have hb := h .cb; have hc := h .hl; simp_all [PerPort.get]

namespace Machine

/-! ### State -/

@[simp] theorem State.setUnits_units (s : State) (u : Units) : (s.setUnits u).units = u := rfl
@[simp] theorem State.setUnits_mem (s : State) (u : Units) : (s.setUnits u).mem = s.mem := rfl
@[simp] theorem State.setUnits_queue (s : State) (u : Units) : (s.setUnits u).queue = s.queue := rfl
@[simp] theorem State.setUnits_startTail (s : State) (u : Units) : (s.setUnits u).startTail = s.startTail := rfl
@[simp] theorem State.setUnits_held (s : State) (u : Units) : (s.setUnits u).held = s.held := rfl
@[simp] theorem State.setUnits_ports (s : State) (u : Units) : (s.setUnits u).ports = s.ports := rfl
@[simp] theorem State.setUnits_lastGranted (s : State) (u : Units) : (s.setUnits u).lastGranted = s.lastGranted := rfl
@[simp] theorem State.setUnits_pending (s : State) (u : Units) : (s.setUnits u).pending = s.pending := rfl

@[simp] theorem State.setMem_units (s : State) (m : Memory) : (s.setMem m).units = s.units := rfl
@[simp] theorem State.setMem_mem (s : State) (m : Memory) : (s.setMem m).mem = m := rfl
@[simp] theorem State.setMem_queue (s : State) (m : Memory) : (s.setMem m).queue = s.queue := rfl
@[simp] theorem State.setMem_startTail (s : State) (m : Memory) : (s.setMem m).startTail = s.startTail := rfl
@[simp] theorem State.setMem_held (s : State) (m : Memory) : (s.setMem m).held = s.held := rfl
@[simp] theorem State.setMem_ports (s : State) (m : Memory) : (s.setMem m).ports = s.ports := rfl
@[simp] theorem State.setMem_lastGranted (s : State) (m : Memory) : (s.setMem m).lastGranted = s.lastGranted := rfl
@[simp] theorem State.setMem_pending (s : State) (m : Memory) : (s.setMem m).pending = s.pending := rfl

@[simp] theorem State.setHeld_units (s : State) (l : List Held) : (s.setHeld l).units = s.units := rfl
@[simp] theorem State.setHeld_mem (s : State) (l : List Held) : (s.setHeld l).mem = s.mem := rfl
@[simp] theorem State.setHeld_queue (s : State) (l : List Held) : (s.setHeld l).queue = s.queue := rfl
@[simp] theorem State.setHeld_startTail (s : State) (l : List Held) : (s.setHeld l).startTail = s.startTail := rfl
@[simp] theorem State.setHeld_held (s : State) (l : List Held) : (s.setHeld l).held = l := rfl
@[simp] theorem State.setHeld_ports (s : State) (l : List Held) : (s.setHeld l).ports = s.ports := rfl
@[simp] theorem State.setHeld_lastGranted (s : State) (l : List Held) : (s.setHeld l).lastGranted = s.lastGranted := rfl
@[simp] theorem State.setHeld_pending (s : State) (l : List Held) : (s.setHeld l).pending = s.pending := rfl

@[simp] theorem State.setGranted_units (s : State) (x : Source) : (s.setGranted x).units = s.units := rfl
@[simp] theorem State.setGranted_mem (s : State) (x : Source) : (s.setGranted x).mem = s.mem := rfl
@[simp] theorem State.setGranted_queue (s : State) (x : Source) : (s.setGranted x).queue = s.queue := rfl
@[simp] theorem State.setGranted_startTail (s : State) (x : Source) : (s.setGranted x).startTail = s.startTail := rfl
@[simp] theorem State.setGranted_held (s : State) (x : Source) : (s.setGranted x).held = s.held := rfl
@[simp] theorem State.setGranted_ports (s : State) (x : Source) : (s.setGranted x).ports = s.ports := rfl
@[simp] theorem State.setGranted_lastGranted (s : State) (x : Source) : (s.setGranted x).lastGranted = x := rfl
@[simp] theorem State.setGranted_pending (s : State) (x : Source) : (s.setGranted x).pending = s.pending := rfl

@[simp] theorem State.setFront_units (s : State) (p : Port) (f : FrontEnd) : (s.setFront p f).units = s.units := rfl
@[simp] theorem State.setFront_mem (s : State) (p : Port) (f : FrontEnd) : (s.setFront p f).mem = s.mem := rfl
@[simp] theorem State.setFront_queue (s : State) (p : Port) (f : FrontEnd) : (s.setFront p f).queue = s.queue := rfl
@[simp] theorem State.setFront_startTail (s : State) (p : Port) (f : FrontEnd) : (s.setFront p f).startTail = s.startTail := rfl
@[simp] theorem State.setFront_held (s : State) (p : Port) (f : FrontEnd) : (s.setFront p f).held = s.held := rfl
@[simp] theorem State.setFront_ports (s : State) (p : Port) (f : FrontEnd) : (s.setFront p f).ports = s.ports.set p f := rfl
@[simp] theorem State.setFront_lastGranted (s : State) (p : Port) (f : FrontEnd) : (s.setFront p f).lastGranted = s.lastGranted := rfl
@[simp] theorem State.setFront_pending (s : State) (p : Port) (f : FrontEnd) : (s.setFront p f).pending = s.pending := rfl

@[simp] theorem State.setWrites_units (s : State) (l : List QueueEntry) : (s.setWrites l).units = s.units := rfl
@[simp] theorem State.setWrites_mem (s : State) (l : List QueueEntry) : (s.setWrites l).mem = s.mem := rfl
@[simp] theorem State.setWrites_queue (s : State) (l : List QueueEntry) : (s.setWrites l).queue = l.take Config.queueDepth := rfl
@[simp] theorem State.setWrites_startTail (s : State) (l : List QueueEntry) : (s.setWrites l).startTail = l.drop Config.queueDepth := rfl
@[simp] theorem State.setWrites_held (s : State) (l : List QueueEntry) : (s.setWrites l).held = s.held := rfl
@[simp] theorem State.setWrites_ports (s : State) (l : List QueueEntry) : (s.setWrites l).ports = s.ports := rfl
@[simp] theorem State.setWrites_lastGranted (s : State) (l : List QueueEntry) : (s.setWrites l).lastGranted = s.lastGranted := rfl
@[simp] theorem State.setWrites_pending (s : State) (l : List QueueEntry) : (s.setWrites l).pending = s.pending := rfl

/-! ### Units -/

@[simp] theorem Units.setHead_part (u : Units) (h : Fin 32) (x : Head) : (u.setHead h x).part = u.part := rfl
@[simp] theorem Units.setHead_config (u : Units) (h : Fin 32) (x : Head) : (u.setHead h x).config = u.config := rfl
@[simp] theorem Units.setHead_clock (u : Units) (h : Fin 32) (x : Head) : (u.setHead h x).clock = u.clock := rfl
@[simp] theorem Units.setHead_cbase (u : Units) (h : Fin 32) (x : Head) : (u.setHead h x).cbase = u.cbase := rfl
@[simp] theorem Units.setHead_oneck (u : Units) (h : Fin 32) (x : Head) : (u.setHead h x).oneck = u.oneck := rfl
@[simp] theorem Units.setHead_changeCount (u : Units) (h : Fin 32) (x : Head) : (u.setHead h x).changeCount = u.changeCount := rfl
@[simp] theorem Units.setHead_mirror (u : Units) (h : Fin 32) (x : Head) : (u.setHead h x).mirror = u.mirror := rfl
@[simp] theorem Units.setHead_stage (u : Units) (h : Fin 32) (x : Head) : (u.setHead h x).stage = u.stage := rfl
@[simp] theorem Units.setHead_heads (u : Units) (h : Fin 32) (x : Head) : (u.setHead h x).heads = u.heads.set h.val x h.isLt := rfl
@[simp] theorem Units.setHead_zones (u : Units) (h : Fin 32) (x : Head) : (u.setHead h x).zones = u.zones := rfl
@[simp] theorem Units.setHead_orders (u : Units) (h : Fin 32) (x : Head) : (u.setHead h x).orders = u.orders := rfl
@[simp] theorem Units.setHead_releases (u : Units) (h : Fin 32) (x : Head) : (u.setHead h x).releases = u.releases := rfl
@[simp] theorem Units.setHead_notices (u : Units) (h : Fin 32) (x : Head) : (u.setHead h x).notices = u.notices := rfl
@[simp] theorem Units.setHead_views (u : Units) (h : Fin 32) (x : Head) : (u.setHead h x).views = u.views := rfl

@[simp] theorem Units.setZone_part (u : Units) (z : Zone) (x : ZoneRec) : (u.setZone z x).part = u.part := rfl
@[simp] theorem Units.setZone_config (u : Units) (z : Zone) (x : ZoneRec) : (u.setZone z x).config = u.config := rfl
@[simp] theorem Units.setZone_clock (u : Units) (z : Zone) (x : ZoneRec) : (u.setZone z x).clock = u.clock := rfl
@[simp] theorem Units.setZone_cbase (u : Units) (z : Zone) (x : ZoneRec) : (u.setZone z x).cbase = u.cbase := rfl
@[simp] theorem Units.setZone_oneck (u : Units) (z : Zone) (x : ZoneRec) : (u.setZone z x).oneck = u.oneck := rfl
@[simp] theorem Units.setZone_changeCount (u : Units) (z : Zone) (x : ZoneRec) : (u.setZone z x).changeCount = u.changeCount := rfl
@[simp] theorem Units.setZone_mirror (u : Units) (z : Zone) (x : ZoneRec) : (u.setZone z x).mirror = u.mirror := rfl
@[simp] theorem Units.setZone_stage (u : Units) (z : Zone) (x : ZoneRec) : (u.setZone z x).stage = u.stage := rfl
@[simp] theorem Units.setZone_heads (u : Units) (z : Zone) (x : ZoneRec) : (u.setZone z x).heads = u.heads := rfl
@[simp] theorem Units.setZone_zones (u : Units) (z : Zone) (x : ZoneRec) : (u.setZone z x).zones = u.zones.set z x := rfl
@[simp] theorem Units.setZone_orders (u : Units) (z : Zone) (x : ZoneRec) : (u.setZone z x).orders = u.orders := rfl
@[simp] theorem Units.setZone_releases (u : Units) (z : Zone) (x : ZoneRec) : (u.setZone z x).releases = u.releases := rfl
@[simp] theorem Units.setZone_notices (u : Units) (z : Zone) (x : ZoneRec) : (u.setZone z x).notices = u.notices := rfl
@[simp] theorem Units.setZone_views (u : Units) (z : Zone) (x : ZoneRec) : (u.setZone z x).views = u.views := rfl
@[simp] theorem Units.setZone_head (u : Units) (z : Zone) (x : ZoneRec) (k : Fin 32) : (u.setZone z x).head k = u.head k := rfl

@[simp] theorem Units.setOrder_part (u : Units) (s : Side) (x : OrderSide) : (u.setOrder s x).part = u.part := rfl
@[simp] theorem Units.setOrder_config (u : Units) (s : Side) (x : OrderSide) : (u.setOrder s x).config = u.config := rfl
@[simp] theorem Units.setOrder_clock (u : Units) (s : Side) (x : OrderSide) : (u.setOrder s x).clock = u.clock := rfl
@[simp] theorem Units.setOrder_cbase (u : Units) (s : Side) (x : OrderSide) : (u.setOrder s x).cbase = u.cbase := rfl
@[simp] theorem Units.setOrder_oneck (u : Units) (s : Side) (x : OrderSide) : (u.setOrder s x).oneck = u.oneck := rfl
@[simp] theorem Units.setOrder_changeCount (u : Units) (s : Side) (x : OrderSide) : (u.setOrder s x).changeCount = u.changeCount := rfl
@[simp] theorem Units.setOrder_mirror (u : Units) (s : Side) (x : OrderSide) : (u.setOrder s x).mirror = u.mirror := rfl
@[simp] theorem Units.setOrder_stage (u : Units) (s : Side) (x : OrderSide) : (u.setOrder s x).stage = u.stage := rfl
@[simp] theorem Units.setOrder_heads (u : Units) (s : Side) (x : OrderSide) : (u.setOrder s x).heads = u.heads := rfl
@[simp] theorem Units.setOrder_zones (u : Units) (s : Side) (x : OrderSide) : (u.setOrder s x).zones = u.zones := rfl
@[simp] theorem Units.setOrder_orders (u : Units) (s : Side) (x : OrderSide) : (u.setOrder s x).orders = u.orders.set s x := rfl
@[simp] theorem Units.setOrder_releases (u : Units) (s : Side) (x : OrderSide) : (u.setOrder s x).releases = u.releases := rfl
@[simp] theorem Units.setOrder_notices (u : Units) (s : Side) (x : OrderSide) : (u.setOrder s x).notices = u.notices := rfl
@[simp] theorem Units.setOrder_views (u : Units) (s : Side) (x : OrderSide) : (u.setOrder s x).views = u.views := rfl
@[simp] theorem Units.setOrder_head (u : Units) (s : Side) (x : OrderSide) (k : Fin 32) : (u.setOrder s x).head k = u.head k := rfl

@[simp] theorem Units.setRelease_part (u : Units) (s : Side) (x : ReleaseSide) : (u.setRelease s x).part = u.part := rfl
@[simp] theorem Units.setRelease_config (u : Units) (s : Side) (x : ReleaseSide) : (u.setRelease s x).config = u.config := rfl
@[simp] theorem Units.setRelease_clock (u : Units) (s : Side) (x : ReleaseSide) : (u.setRelease s x).clock = u.clock := rfl
@[simp] theorem Units.setRelease_cbase (u : Units) (s : Side) (x : ReleaseSide) : (u.setRelease s x).cbase = u.cbase := rfl
@[simp] theorem Units.setRelease_oneck (u : Units) (s : Side) (x : ReleaseSide) : (u.setRelease s x).oneck = u.oneck := rfl
@[simp] theorem Units.setRelease_changeCount (u : Units) (s : Side) (x : ReleaseSide) : (u.setRelease s x).changeCount = u.changeCount := rfl
@[simp] theorem Units.setRelease_mirror (u : Units) (s : Side) (x : ReleaseSide) : (u.setRelease s x).mirror = u.mirror := rfl
@[simp] theorem Units.setRelease_stage (u : Units) (s : Side) (x : ReleaseSide) : (u.setRelease s x).stage = u.stage := rfl
@[simp] theorem Units.setRelease_heads (u : Units) (s : Side) (x : ReleaseSide) : (u.setRelease s x).heads = u.heads := rfl
@[simp] theorem Units.setRelease_zones (u : Units) (s : Side) (x : ReleaseSide) : (u.setRelease s x).zones = u.zones := rfl
@[simp] theorem Units.setRelease_orders (u : Units) (s : Side) (x : ReleaseSide) : (u.setRelease s x).orders = u.orders := rfl
@[simp] theorem Units.setRelease_releases (u : Units) (s : Side) (x : ReleaseSide) : (u.setRelease s x).releases = u.releases.set s x := rfl
@[simp] theorem Units.setRelease_notices (u : Units) (s : Side) (x : ReleaseSide) : (u.setRelease s x).notices = u.notices := rfl
@[simp] theorem Units.setRelease_views (u : Units) (s : Side) (x : ReleaseSide) : (u.setRelease s x).views = u.views := rfl
@[simp] theorem Units.setRelease_head (u : Units) (s : Side) (x : ReleaseSide) (k : Fin 32) : (u.setRelease s x).head k = u.head k := rfl

@[simp] theorem Units.setNotice_part (u : Units) (s : Side) (x : NoticeSide) : (u.setNotice s x).part = u.part := rfl
@[simp] theorem Units.setNotice_config (u : Units) (s : Side) (x : NoticeSide) : (u.setNotice s x).config = u.config := rfl
@[simp] theorem Units.setNotice_clock (u : Units) (s : Side) (x : NoticeSide) : (u.setNotice s x).clock = u.clock := rfl
@[simp] theorem Units.setNotice_cbase (u : Units) (s : Side) (x : NoticeSide) : (u.setNotice s x).cbase = u.cbase := rfl
@[simp] theorem Units.setNotice_oneck (u : Units) (s : Side) (x : NoticeSide) : (u.setNotice s x).oneck = u.oneck := rfl
@[simp] theorem Units.setNotice_changeCount (u : Units) (s : Side) (x : NoticeSide) : (u.setNotice s x).changeCount = u.changeCount := rfl
@[simp] theorem Units.setNotice_mirror (u : Units) (s : Side) (x : NoticeSide) : (u.setNotice s x).mirror = u.mirror := rfl
@[simp] theorem Units.setNotice_stage (u : Units) (s : Side) (x : NoticeSide) : (u.setNotice s x).stage = u.stage := rfl
@[simp] theorem Units.setNotice_heads (u : Units) (s : Side) (x : NoticeSide) : (u.setNotice s x).heads = u.heads := rfl
@[simp] theorem Units.setNotice_zones (u : Units) (s : Side) (x : NoticeSide) : (u.setNotice s x).zones = u.zones := rfl
@[simp] theorem Units.setNotice_orders (u : Units) (s : Side) (x : NoticeSide) : (u.setNotice s x).orders = u.orders := rfl
@[simp] theorem Units.setNotice_releases (u : Units) (s : Side) (x : NoticeSide) : (u.setNotice s x).releases = u.releases := rfl
@[simp] theorem Units.setNotice_notices (u : Units) (s : Side) (x : NoticeSide) : (u.setNotice s x).notices = u.notices.set s x := rfl
@[simp] theorem Units.setNotice_views (u : Units) (s : Side) (x : NoticeSide) : (u.setNotice s x).views = u.views := rfl
@[simp] theorem Units.setNotice_head (u : Units) (s : Side) (x : NoticeSide) (k : Fin 32) : (u.setNotice s x).head k = u.head k := rfl

@[simp] theorem Units.setView_part (u : Units) (s : Side) (x : View) : (u.setView s x).part = u.part := rfl
@[simp] theorem Units.setView_config (u : Units) (s : Side) (x : View) : (u.setView s x).config = u.config := rfl
@[simp] theorem Units.setView_clock (u : Units) (s : Side) (x : View) : (u.setView s x).clock = u.clock := rfl
@[simp] theorem Units.setView_cbase (u : Units) (s : Side) (x : View) : (u.setView s x).cbase = u.cbase := rfl
@[simp] theorem Units.setView_oneck (u : Units) (s : Side) (x : View) : (u.setView s x).oneck = u.oneck := rfl
@[simp] theorem Units.setView_changeCount (u : Units) (s : Side) (x : View) : (u.setView s x).changeCount = u.changeCount := rfl
@[simp] theorem Units.setView_mirror (u : Units) (s : Side) (x : View) : (u.setView s x).mirror = u.mirror := rfl
@[simp] theorem Units.setView_stage (u : Units) (s : Side) (x : View) : (u.setView s x).stage = u.stage := rfl
@[simp] theorem Units.setView_heads (u : Units) (s : Side) (x : View) : (u.setView s x).heads = u.heads := rfl
@[simp] theorem Units.setView_zones (u : Units) (s : Side) (x : View) : (u.setView s x).zones = u.zones := rfl
@[simp] theorem Units.setView_orders (u : Units) (s : Side) (x : View) : (u.setView s x).orders = u.orders := rfl
@[simp] theorem Units.setView_releases (u : Units) (s : Side) (x : View) : (u.setView s x).releases = u.releases := rfl
@[simp] theorem Units.setView_notices (u : Units) (s : Side) (x : View) : (u.setView s x).notices = u.notices := rfl
@[simp] theorem Units.setView_views (u : Units) (s : Side) (x : View) : (u.setView s x).views = u.views.set s x := rfl
@[simp] theorem Units.setView_head (u : Units) (s : Side) (x : View) (k : Fin 32) : (u.setView s x).head k = u.head k := rfl

@[simp] theorem Units.setMirror_part (u : Units) (i : Nat) (w : Word) : (u.setMirror i w).part = u.part := rfl
@[simp] theorem Units.setMirror_config (u : Units) (i : Nat) (w : Word) : (u.setMirror i w).config = u.config := rfl
@[simp] theorem Units.setMirror_clock (u : Units) (i : Nat) (w : Word) : (u.setMirror i w).clock = u.clock := rfl
@[simp] theorem Units.setMirror_cbase (u : Units) (i : Nat) (w : Word) : (u.setMirror i w).cbase = u.cbase := rfl
@[simp] theorem Units.setMirror_oneck (u : Units) (i : Nat) (w : Word) : (u.setMirror i w).oneck = u.oneck := rfl
@[simp] theorem Units.setMirror_changeCount (u : Units) (i : Nat) (w : Word) : (u.setMirror i w).changeCount = u.changeCount := rfl
@[simp] theorem Units.setMirror_mirror (u : Units) (i : Nat) (w : Word) : (u.setMirror i w).mirror = Cells.write u.mirror i w := rfl
@[simp] theorem Units.setMirror_stage (u : Units) (i : Nat) (w : Word) : (u.setMirror i w).stage = u.stage := rfl
@[simp] theorem Units.setMirror_heads (u : Units) (i : Nat) (w : Word) : (u.setMirror i w).heads = u.heads := rfl
@[simp] theorem Units.setMirror_zones (u : Units) (i : Nat) (w : Word) : (u.setMirror i w).zones = u.zones := rfl
@[simp] theorem Units.setMirror_orders (u : Units) (i : Nat) (w : Word) : (u.setMirror i w).orders = u.orders := rfl
@[simp] theorem Units.setMirror_releases (u : Units) (i : Nat) (w : Word) : (u.setMirror i w).releases = u.releases := rfl
@[simp] theorem Units.setMirror_notices (u : Units) (i : Nat) (w : Word) : (u.setMirror i w).notices = u.notices := rfl
@[simp] theorem Units.setMirror_views (u : Units) (i : Nat) (w : Word) : (u.setMirror i w).views = u.views := rfl
@[simp] theorem Units.setMirror_head (u : Units) (i : Nat) (w : Word) (k : Fin 32) : (u.setMirror i w).head k = u.head k := rfl

@[simp] theorem Units.setStage_part (u : Units) (g : Option WriteGroup) : (u.setStage g).part = u.part := rfl
@[simp] theorem Units.setStage_config (u : Units) (g : Option WriteGroup) : (u.setStage g).config = u.config := rfl
@[simp] theorem Units.setStage_clock (u : Units) (g : Option WriteGroup) : (u.setStage g).clock = u.clock := rfl
@[simp] theorem Units.setStage_cbase (u : Units) (g : Option WriteGroup) : (u.setStage g).cbase = u.cbase := rfl
@[simp] theorem Units.setStage_oneck (u : Units) (g : Option WriteGroup) : (u.setStage g).oneck = u.oneck := rfl
@[simp] theorem Units.setStage_changeCount (u : Units) (g : Option WriteGroup) : (u.setStage g).changeCount = u.changeCount := rfl
@[simp] theorem Units.setStage_mirror (u : Units) (g : Option WriteGroup) : (u.setStage g).mirror = u.mirror := rfl
@[simp] theorem Units.setStage_stage (u : Units) (g : Option WriteGroup) : (u.setStage g).stage = g := rfl
@[simp] theorem Units.setStage_heads (u : Units) (g : Option WriteGroup) : (u.setStage g).heads = u.heads := rfl
@[simp] theorem Units.setStage_zones (u : Units) (g : Option WriteGroup) : (u.setStage g).zones = u.zones := rfl
@[simp] theorem Units.setStage_orders (u : Units) (g : Option WriteGroup) : (u.setStage g).orders = u.orders := rfl
@[simp] theorem Units.setStage_releases (u : Units) (g : Option WriteGroup) : (u.setStage g).releases = u.releases := rfl
@[simp] theorem Units.setStage_notices (u : Units) (g : Option WriteGroup) : (u.setStage g).notices = u.notices := rfl
@[simp] theorem Units.setStage_views (u : Units) (g : Option WriteGroup) : (u.setStage g).views = u.views := rfl
@[simp] theorem Units.setStage_head (u : Units) (g : Option WriteGroup) (k : Fin 32) : (u.setStage g).head k = u.head k := rfl

@[simp] theorem Units.setPart_part (u : Units) (p : PartState) : (u.setPart p).part = p := rfl
@[simp] theorem Units.setPart_config (u : Units) (p : PartState) : (u.setPart p).config = u.config := rfl
@[simp] theorem Units.setPart_clock (u : Units) (p : PartState) : (u.setPart p).clock = u.clock := rfl
@[simp] theorem Units.setPart_cbase (u : Units) (p : PartState) : (u.setPart p).cbase = u.cbase := rfl
@[simp] theorem Units.setPart_oneck (u : Units) (p : PartState) : (u.setPart p).oneck = u.oneck := rfl
@[simp] theorem Units.setPart_changeCount (u : Units) (p : PartState) : (u.setPart p).changeCount = u.changeCount := rfl
@[simp] theorem Units.setPart_mirror (u : Units) (p : PartState) : (u.setPart p).mirror = u.mirror := rfl
@[simp] theorem Units.setPart_stage (u : Units) (p : PartState) : (u.setPart p).stage = u.stage := rfl
@[simp] theorem Units.setPart_heads (u : Units) (p : PartState) : (u.setPart p).heads = u.heads := rfl
@[simp] theorem Units.setPart_zones (u : Units) (p : PartState) : (u.setPart p).zones = u.zones := rfl
@[simp] theorem Units.setPart_orders (u : Units) (p : PartState) : (u.setPart p).orders = u.orders := rfl
@[simp] theorem Units.setPart_releases (u : Units) (p : PartState) : (u.setPart p).releases = u.releases := rfl
@[simp] theorem Units.setPart_notices (u : Units) (p : PartState) : (u.setPart p).notices = u.notices := rfl
@[simp] theorem Units.setPart_views (u : Units) (p : PartState) : (u.setPart p).views = u.views := rfl
@[simp] theorem Units.setPart_head (u : Units) (p : PartState) (k : Fin 32) : (u.setPart p).head k = u.head k := rfl


/-- A head's record after a replacement: the new one at its number, the old one elsewhere. -/
@[simp] theorem Units.head_setHead (u : Units) (h g : Fin 32) (x : Head) :
    (u.setHead h x).head g = if g = h then x else u.head g := by
  unfold Units.head Units.setHead
  by_cases hgh : g = h
  · subst hgh; simp
  · have : h.val ≠ g.val := fun e => hgh (Fin.ext e.symm)
    simp [hgh, this]

/-- Two units' head tables agree when every record does. -/
theorem Units.heads_ext {u v : Units} (hh : ∀ h, u.head h = v.head h) : u.heads = v.heads := by
  apply Vector.ext
  intro i hi
  exact hh ⟨i, hi⟩

@[simp] theorem Units.setHead_head (u : Units) (h : Fin 32) : u.setHead h (u.head h) = u := by
  have : (u.setHead h (u.head h)).heads = u.heads := Units.heads_ext fun g => by
    rw [Units.head_setHead]; split <;> simp_all
  unfold Units.setHead at *
  cases u; simp_all

@[simp] theorem Units.setHead_setHead (u : Units) (h : Fin 32) (x y : Head) :
    (u.setHead h x).setHead h y = u.setHead h y := by
  have : ((u.setHead h x).setHead h y).heads = (u.setHead h y).heads := Units.heads_ext fun g => by
    simp only [Units.head_setHead]; split <;> rfl
  unfold Units.setHead at *
  cases u; simp_all

/-! ### Events in the making -/

@[simp] theorem Ev.push_units (e : Ev) (a : Addr) (w : Word) : (e.push a w).units = e.units := rfl
@[simp] theorem Ev.push_out (e : Ev) (a : Addr) (w : Word) : (e.push a w).out = e.out ++ [⟨a, w⟩] := rfl
@[simp] theorem Ev.push_spare (e : Ev) (a : Addr) (w : Word) : (e.push a w).spare = e.spare := rfl
@[simp] theorem Ev.push_release (e : Ev) (a : Addr) (w : Word) : (e.push a w).release = e.release := rfl
@[simp] theorem Ev.push_required (e : Ev) (a : Addr) (w : Word) : (e.push a w).required = e.required := rfl
@[simp] theorem Ev.push_word (e : Ev) (a : Addr) (w : Word) : (e.push a w).word = e.word := rfl

@[simp] theorem Ev.mod_units (e : Ev) (f : Units → Units) : (e.mod f).units = f e.units := rfl
@[simp] theorem Ev.mod_out (e : Ev) (f : Units → Units) : (e.mod f).out = e.out := rfl
@[simp] theorem Ev.mod_spare (e : Ev) (f : Units → Units) : (e.mod f).spare = e.spare := rfl
@[simp] theorem Ev.mod_release (e : Ev) (f : Units → Units) : (e.mod f).release = e.release := rfl
@[simp] theorem Ev.mod_required (e : Ev) (f : Units → Units) : (e.mod f).required = e.required := rfl
@[simp] theorem Ev.mod_word (e : Ev) (f : Units → Units) : (e.mod f).word = e.word := rfl

@[simp] theorem Ev.modHead_units (e : Ev) (h : Fin 32) (f : Head → Head) :
    (e.modHead h f).units =
      e.units.setHead h (f (e.units.head h)) := rfl
@[simp] theorem Ev.modHead_out (e : Ev) (h : Fin 32) (f : Head → Head) : (e.modHead h f).out = e.out := rfl
@[simp] theorem Ev.modHead_spare (e : Ev) (h : Fin 32) (f : Head → Head) : (e.modHead h f).spare = e.spare := rfl
@[simp] theorem Ev.modHead_release (e : Ev) (h : Fin 32) (f : Head → Head) :
    (e.modHead h f).release =
      e.release := rfl
@[simp] theorem Ev.modHead_required (e : Ev) (h : Fin 32) (f : Head → Head) :
    (e.modHead h f).required =
      e.required := rfl
@[simp] theorem Ev.modHead_word (e : Ev) (h : Fin 32) (f : Head → Head) : (e.modHead h f).word = e.word := rfl

@[simp] theorem Ev.modZone_units (e : Ev) (z : Zone) (f : ZoneRec → ZoneRec) :
    (e.modZone z f).units =
      e.units.setZone z (f (e.units.zones.get z)) := rfl
@[simp] theorem Ev.modZone_out (e : Ev) (z : Zone) (f : ZoneRec → ZoneRec) : (e.modZone z f).out = e.out := rfl
@[simp] theorem Ev.modZone_spare (e : Ev) (z : Zone) (f : ZoneRec → ZoneRec) : (e.modZone z f).spare = e.spare := rfl
@[simp] theorem Ev.modZone_release (e : Ev) (z : Zone) (f : ZoneRec → ZoneRec) :
    (e.modZone z f).release =
      e.release := rfl
@[simp] theorem Ev.modZone_required (e : Ev) (z : Zone) (f : ZoneRec → ZoneRec) :
    (e.modZone z f).required =
      e.required := rfl
@[simp] theorem Ev.modZone_word (e : Ev) (z : Zone) (f : ZoneRec → ZoneRec) : (e.modZone z f).word = e.word := rfl

@[simp] theorem Ev.modOrder_units (e : Ev) (s : Side) (f : OrderSide → OrderSide) :
    (e.modOrder s f).units =
      e.units.setOrder s (f (e.units.orders.get s)) := rfl
@[simp] theorem Ev.modOrder_out (e : Ev) (s : Side) (f : OrderSide → OrderSide) : (e.modOrder s f).out = e.out := rfl
@[simp] theorem Ev.modOrder_spare (e : Ev) (s : Side) (f : OrderSide → OrderSide) :
    (e.modOrder s f).spare =
      e.spare := rfl
@[simp] theorem Ev.modOrder_release (e : Ev) (s : Side) (f : OrderSide → OrderSide) :
    (e.modOrder s f).release =
      e.release := rfl
@[simp] theorem Ev.modOrder_required (e : Ev) (s : Side) (f : OrderSide → OrderSide) :
    (e.modOrder s f).required =
      e.required := rfl
@[simp] theorem Ev.modOrder_word (e : Ev) (s : Side) (f : OrderSide → OrderSide) :
    (e.modOrder s f).word =
      e.word := rfl

@[simp] theorem Ev.modRelease_units (e : Ev) (s : Side) (f : ReleaseSide → ReleaseSide) :
    (e.modRelease s f).units =
      e.units.setRelease s (f (e.units.releases.get s)) := rfl
@[simp] theorem Ev.modRelease_out (e : Ev) (s : Side) (f : ReleaseSide → ReleaseSide) :
    (e.modRelease s f).out =
      e.out := rfl
@[simp] theorem Ev.modRelease_spare (e : Ev) (s : Side) (f : ReleaseSide → ReleaseSide) :
    (e.modRelease s f).spare =
      e.spare := rfl
@[simp] theorem Ev.modRelease_release (e : Ev) (s : Side) (f : ReleaseSide → ReleaseSide) :
    (e.modRelease s f).release =
      e.release := rfl
@[simp] theorem Ev.modRelease_required (e : Ev) (s : Side) (f : ReleaseSide → ReleaseSide) :
    (e.modRelease s f).required =
      e.required := rfl
@[simp] theorem Ev.modRelease_word (e : Ev) (s : Side) (f : ReleaseSide → ReleaseSide) :
    (e.modRelease s f).word =
      e.word := rfl

@[simp] theorem Ev.modNotice_units (e : Ev) (s : Side) (f : NoticeSide → NoticeSide) :
    (e.modNotice s f).units =
      e.units.setNotice s (f (e.units.notices.get s)) := rfl
@[simp] theorem Ev.modNotice_out (e : Ev) (s : Side) (f : NoticeSide → NoticeSide) :
    (e.modNotice s f).out =
      e.out := rfl
@[simp] theorem Ev.modNotice_spare (e : Ev) (s : Side) (f : NoticeSide → NoticeSide) :
    (e.modNotice s f).spare =
      e.spare := rfl
@[simp] theorem Ev.modNotice_release (e : Ev) (s : Side) (f : NoticeSide → NoticeSide) :
    (e.modNotice s f).release =
      e.release := rfl
@[simp] theorem Ev.modNotice_required (e : Ev) (s : Side) (f : NoticeSide → NoticeSide) :
    (e.modNotice s f).required =
      e.required := rfl
@[simp] theorem Ev.modNotice_word (e : Ev) (s : Side) (f : NoticeSide → NoticeSide) :
    (e.modNotice s f).word =
      e.word := rfl

@[simp] theorem Ev.begin_units (u : Units) (r : Bool) (n : Nat) : (Ev.begin u r n).units = u := rfl
@[simp] theorem Ev.begin_out (u : Units) (r : Bool) (n : Nat) : (Ev.begin u r n).out = [] := rfl
@[simp] theorem Ev.begin_release (u : Units) (r : Bool) (n : Nat) : (Ev.begin u r n).release = r := rfl
@[simp] theorem Ev.begin_required (u : Units) (r : Bool) (n : Nat) : (Ev.begin u r n).required = ⟨false, false⟩ := rfl
@[simp] theorem Ev.begin_word (u : Units) (r : Bool) (n : Nat) : (Ev.begin u r n).word = none := rfl

end Machine

end Sys2Proof
end

