-- ==== Sys2Proof/Laws/Moves.lean ====
section
/-! SUPPORT. What each operation of an event may change, said once: Ev.Moves names the pieces it may touch, says that
its writes go behind those there are, and that it keeps the invariants of Safety.lean. -/

namespace Sys2Proof.Machine

/-- An operation of an event that touches no piece outside T. -/
structure Ev.Moves (T : Piece → Prop) (e e' : Ev) : Prop where
  frame : ∀ p, ¬ T p → e.units.keeps e'.units p
  loaded : e.units.keeps e'.units .loaded
  out : ∃ l, e'.out = e.out ++ l
  release : e'.release = e.release
  good : e.units.Lawful → e'.units.Lawful
  mirrorWf : Cells.wf e.units.mirror = true → Cells.wf e'.units.mirror = true

namespace Ev.Moves

theorem keeps_refl (u : Units) (p : Piece) : u.keeps u p := by cases p <;> simp [Units.keeps]

theorem keeps_trans {u v w : Units} {p : Piece} (h : u.keeps v p) (g : v.keeps w p) : u.keeps w p := by
  cases p <;> simp_all [Units.keeps]

variable {T : Piece → Prop} {e e' e'' : Ev}

theorem rfl' : e.Moves T e := ⟨fun p _ => keeps_refl _ p, keeps_refl _ _, ⟨[], by simp⟩, rfl, id, id⟩

theorem trans (h : e.Moves T e') (g : e'.Moves T e'') : e.Moves T e'' := by
  refine ⟨fun p hp => keeps_trans (h.frame p hp) (g.frame p hp), keeps_trans h.loaded g.loaded, ?_, ?_, ?_, fun x => g.mirrorWf (h.mirrorWf x)⟩
  · obtain ⟨l, hl⟩ := h.out; obtain ⟨m, hm⟩ := g.out; exact ⟨l ++ m, by rw [hm, hl, List.append_assoc]⟩
  · rw [g.release, h.release]
  · exact fun x => g.good (h.good x)

theorem mono {T' : Piece → Prop} (h : e.Moves T e') (hT : ∀ p, T p → T' p) : e.Moves T' e' :=
  ⟨fun p hp => h.frame p fun x => hp (hT p x), h.loaded, h.out, h.release, h.good, h.mirrorWf⟩

/-! ### What the loaded configuration fixes -/

theorem config (m : e.Moves T e') : e'.units.config = e.units.config := m.loaded.1
theorem cbase (m : e.Moves T e') : e'.units.cbase = e.units.cbase := m.loaded.2.2.1
theorem zoneOf (m : e.Moves T e') (n : Nat) : e'.units.zoneOf n = e.units.zoneOf n := by
  simp only [Units.zoneOf, m.config]
theorem binding (m : e.Moves T e') (s : Side) : e'.units.binding s = e.units.binding s := by
  simp only [Units.binding, m.config]
theorem reporting (m : e.Moves T e') (z : Zone) : e'.units.reporting z = e.units.reporting z := by
  simp only [Units.reporting, m.binding]
theorem reportingHead (m : e.Moves T e') (h : Fin 32) : e'.units.reportingHead h = e.units.reportingHead h := by
  simp only [Units.reportingHead, m.zoneOf, show e'.units.reporting = e.units.reporting from funext m.reporting]
theorem ringSize (m : e.Moves T e') (s : Side) : e'.units.ringSize s = e.units.ringSize s := by
  simp only [Units.ringSize, m.config]

/-! ### The named updates -/

/-- A change of the units with nothing else changed, by its frame and its invariants. -/
theorem of_units {u : Units} (hf : ∀ p, ¬ T p → e.units.keeps u p) (hl : e.units.keeps u .loaded)
    (hg : e.units.Lawful → u.Lawful) (hm : Cells.wf e.units.mirror = true → Cells.wf u.mirror = true) :
    e.Moves T { e with units := u } :=
  ⟨hf, hl, ⟨[], by simp⟩, rfl, hg, hm⟩

theorem push (a : Addr) (w : Word) : e.Moves T (e.push a w) :=
  ⟨fun p _ => keeps_refl _ p, keeps_refl _ _, ⟨_, rfl⟩, rfl, id, id⟩

theorem append (l : List QueueEntry) : e.Moves T { e with out := e.out ++ l } :=
  ⟨fun p _ => keeps_refl _ p, keeps_refl _ _, ⟨_, rfl⟩, rfl, id, id⟩

theorem modHead {h : Fin 32} (f : Head → Head) (hT : T (.head h))
    (hf : e.units.headsInRange → (f (e.units.head h)).inRange) : e.Moves T (e.modHead h f) := by
  refine of_units ?_ ?_ ?_ id
  · intro p hp
    cases p <;> simp [Units.keeps, Units.mirrorWord]
    rename_i g
    intro hg
    exact absurd hT (hg ▸ hp)
  · simp [Units.keeps]
  · rintro ⟨h1, h2, h3, h4, h5⟩
    refine ⟨⟨?_, h1.2⟩, h2, h3, h4, h5⟩
    intro g
    rw [Units.head_setHead]
    split
    · exact hf h1
    · exact h1.1 g

theorem modZone {z : Zone} (f : ZoneRec → ZoneRec) (hT : T (.zone z))
    (hb : ∀ b, (f (e.units.zones.get z)).live = some b ∨ (f (e.units.zones.get z)).staged = some b →
      (e.units.zones.get z).live = some b ∨ (e.units.zones.get z).staged = some b ∨ b.yieldOk)
    (ha : (e.units.zones.get z).top.agrees → (f (e.units.zones.get z)).top.agrees) : e.Moves T (e.modZone z f) := by
  refine of_units ?_ ?_ ?_ id
  · intro p hp
    cases p <;> simp [Units.keeps, Units.mirrorWord]
    rename_i g
    intro hg
    exact absurd hT (hg ▸ hp)
  · simp [Units.keeps]
  · rintro ⟨h1, h2, h3, h4, h5⟩
    refine ⟨⟨h1.1, ?_⟩, ?_, h3, h4, h5⟩
    · intro y b hy
      simp only [Units.setZone_zones, PerZone.get_set] at hy
      split at hy
      · rcases hb b hy with h | h | h
        · exact h1.2 z b (.inl h)
        · exact h1.2 z b (.inr h)
        · exact h
      · exact h1.2 y b hy
    · intro y
      simp only [Units.setZone_zones, PerZone.get_set]
      split
      · exact ha (h2 z)
      · exact h2 y

theorem modOrder {s : Side} (f : OrderSide → OrderSide) (hT : T (.order s))
    (hq : (f (e.units.orders.get s)).queue.length ≤ (e.units.orders.get s).queue.length ∨
      (f (e.units.orders.get s)).queue.length ≤ Config.orderDepth) : e.Moves T (e.modOrder s f) := by
  refine of_units ?_ ?_ ?_ id
  · intro p hp
    cases p <;> simp [Units.keeps, Units.mirrorWord]
    rename_i g
    intro hg
    exact absurd hT (hg ▸ hp)
  · simp [Units.keeps]
  · rintro ⟨h1, h2, h3, h4, h5⟩
    refine ⟨h1, h2, ?_, h4, h5⟩
    intro y
    refine ⟨?_, (h3 y).2⟩
    simp only [Units.setOrder_orders, PerSide.get_set]
    have := (h3 s).1
    split
    · omega
    · exact (h3 y).1

theorem modRelease {s : Side} (f : ReleaseSide → ReleaseSide) (hT : T (.release s))
    (hq : (f (e.units.releases.get s)).dumps.length ≤ (e.units.releases.get s).dumps.length ∨
      (f (e.units.releases.get s)).dumps.length ≤ Config.dumpDepth) : e.Moves T (e.modRelease s f) := by
  refine of_units ?_ ?_ ?_ id
  · intro p hp
    cases p <;> simp [Units.keeps, Units.mirrorWord]
    rename_i g
    intro hg
    exact absurd hT (hg ▸ hp)
  · simp [Units.keeps]
  · rintro ⟨h1, h2, h3, h4, h5⟩
    refine ⟨h1, h2, ?_, h4, h5⟩
    intro y
    refine ⟨(h3 y).1, ?_, (h3 y).2.2⟩
    simp only [Units.setRelease_releases, PerSide.get_set]
    have := (h3 s).2.1
    split
    · omega
    · exact (h3 y).2.1

/-- The invariants of one side's notice unit for a ring size. -/
def noticeOk (size : Nat) (n : NoticeSide) : Prop :=
  n.holding.length ≤ Config.holdingDepth ∧ (n.holding ≠ [] → n.ringFree size = 0)

theorem modNotice {s : Side} (f : NoticeSide → NoticeSide) (hT : T (.notice s))
    (hq : noticeOk (e.units.ringSize s) (e.units.notices.get s) →
      noticeOk (e.units.ringSize s) (f (e.units.notices.get s))) : e.Moves T (e.modNotice s f) := by
  refine of_units ?_ ?_ ?_ id
  · intro p hp
    cases p <;> simp [Units.keeps, Units.mirrorWord]
    rename_i g
    intro hg
    exact absurd hT (hg ▸ hp)
  · simp [Units.keeps]
  · rintro ⟨h1, h2, h3, h4, h5⟩
    have hs := hq ⟨(h3 s).2.2, h4 s⟩
    refine ⟨h1, h2, ?_, ?_, h5⟩
    · intro y
      refine ⟨(h3 y).1, (h3 y).2.1, ?_⟩
      simp only [Units.setNotice_notices, PerSide.get_set]
      split
      · exact hs.1
      · exact (h3 y).2.2
    · intro y
      simp only [Units.setNotice_notices, PerSide.get_set]
      split
      · rename_i hy; subst hy; exact hs.2
      · exact h4 y

theorem setPart {x : PartState} (hT : T .part) : e.Moves T (e.mod fun u => u.setPart x) := by
  refine of_units ?_ ?_ ?_ id
  · intro p hp
    cases p <;> simp [Units.keeps, Units.mirrorWord]
    exact absurd hT hp
  · simp [Units.keeps]
  · rintro ⟨h1, h2, h3, h4, h5⟩; exact ⟨h1, h2, h3, h4, h5⟩

theorem setCount {x : BitVec 8} (hT : T .part) : e.Moves T (e.mod fun u => { u with changeCount := x }) := by
  refine of_units ?_ ?_ ?_ id
  · intro p hp
    cases p <;> simp [Units.keeps, Units.mirrorWord, Units.head]
    exact absurd hT hp
  · simp [Units.keeps]
  · rintro ⟨h1, h2, h3, h4, h5⟩; exact ⟨h1, h2, h3, h4, h5⟩

theorem setStage {x : Option WriteGroup} (hT : T .stage) : e.Moves T (e.mod fun u => u.setStage x) := by
  refine of_units ?_ ?_ ?_ id
  · intro p hp
    cases p <;> simp [Units.keeps, Units.mirrorWord]
    exact absurd hT hp
  · simp [Units.keeps]
  · rintro ⟨h1, h2, h3, h4, h5⟩; exact ⟨h1, h2, h3, h4, h5⟩

theorem eachHead (hs : List (Fin 32)) (f : Fin 32 → Ev → Ev) (hf : ∀ h ∈ hs, ∀ e : Ev, e.Moves T (f h e)) (e : Ev) :
    e.Moves T (e.eachHead hs f) := by
  induction hs generalizing e with
  | nil => exact rfl'
  | cons h rest ih =>
    exact (hf h (by simp) e).trans (ih (fun g hg => hf g (by simp [hg])) (f h e))

end Ev.Moves

end Sys2Proof.Machine
end

