-- ==== Sys2Proof/Laws/Events.lean ====
section
/-! SUPPORT. The operations of an event one by one: what each may change, and that it keeps the invariants. -/

namespace Sys2Proof.Machine.Ev.Moves

variable {T : Piece → Prop} {e : Ev}

/-! ### Notices (R160 to R164) -/

theorem setFlag {s : Side} (f : Flag) (hT : T (.notice s)) : e.Moves T (e.setFlag s f) :=
  modNotice _ hT id

theorem takeNumber {s : Side} (hT : T (.notice s)) : e.Moves T (e.takeNumber s) := modNotice _ hT id

/-- A ring write keeps the invariants when nothing is left in the holding queue. -/
theorem ringWrite {s : Side} (k : BitVec 16) (n : Notice) (hT : T (.notice s))
    (hh : (e.units.notices.get s).holding = []) : e.Moves T (e.ringWrite s k n) := by
  unfold Ev.ringWrite
  simp only
  refine (append _).trans (modNotice _ hT ?_)
  intro _
  simp only
  split <;> simp [noticeOk, NoticeSide.setFlag, hh]

theorem holdNotice {s : Side} (n : Notice) (hT : T (.notice s)) (ho : e.ringOpen s = false) :
    e.Moves T (e.holdNotice s n) := by
  refine modNotice _ hT ?_
  rintro ⟨h1, h2⟩
  split
  · rename_i hl
    refine ⟨by simp; omega, fun _ => ?_⟩
    by_cases hn : (e.units.notices.get s).holding = []
    · simp [Ev.ringOpen, hn] at ho
      exact ho
    · exact h2 hn
  · exact ⟨h1, h2⟩

theorem place {s : Side} (n : Notice) (hT : T (.notice s)) : e.Moves T (e.place s n) := by
  unfold Ev.place
  split
  · rename_i h
    refine ringWrite _ _ hT ?_
    simp [Ev.ringOpen] at h
    exact h.1
  · rename_i h
    exact holdNotice _ hT (by simpa using h)

theorem headNotice {s : Side} (n : Notice) (hT : T (.notice s)) : e.Moves T (e.headNotice s n) := by
  unfold Ev.headNotice
  simp only
  refine (takeNumber hT).trans ?_
  split
  · exact place _ hT
  · exact setFlag _ hT

theorem orderNotice {s : Side} (n : Notice) (hT : T (.notice s)) : e.Moves T (e.orderNotice s n) :=
  ((takeNumber hT).trans (place _ hT)).trans (modNotice _ hT id)

/-- The count of entries left for a release's notices is no part of the units. -/
theorem spare (k : Nat) : e.Moves T { e with spare := k } :=
  ⟨fun p _ => keeps_refl _ p, keeps_refl _ _, ⟨[], by simp⟩, rfl, id, id⟩

theorem required (r : PerSide Bool) : e.Moves T { e with required := r } :=
  ⟨fun p _ => keeps_refl _ p, keeps_refl _ _, ⟨[], by simp⟩, rfl, id, id⟩

theorem word (w : Option Word) : e.Moves T { e with word := w } :=
  ⟨fun p _ => keeps_refl _ p, keeps_refl _ _, ⟨[], by simp⟩, rfl, id, id⟩

theorem releaseNotice {s : Side} (n : Notice) (hT : T (.notice s)) : e.Moves T (e.releaseNotice s n) := by
  unfold Ev.releaseNotice
  simp only
  refine (takeNumber hT).trans ?_
  split
  · exact setFlag _ hT
  · split
    · rename_i h
      exact holdNotice _ hT (by simpa using h)
    · split
      · exact (place n hT).trans (spare _)
      · exact setFlag _ hT

/-! ### Head timers, gate commands, purges -/

theorem startTimer {h : Fin 32} (k : TimerKind) (hT : T (.head h)) : e.Moves T (e.startTimer h k) :=
  modHead _ hT fun g => g.1 h

theorem enterWatched {h : Fin 32} (c : CycleState) (hT : T (.head h)) : e.Moves T (e.enterWatched h c) :=
  (modHead _ hT fun g => g.1 h).trans (startTimer _ hT)

theorem stopHead {h : Fin 32} (hT : T (.head h)) : e.Moves T (e.stopHead h) := modHead _ hT fun g => g.1 h

theorem enterDischarge {h : Fin 32} (d : Destination) (hT : T (.head h)) : e.Moves T (e.enterDischarge h d) :=
  (modHead _ hT fun g => g.1 h).trans (startTimer _ hT)

theorem gateCommand {h : Fin 32} (d : Destination) (k : Nat) : e.Moves T (e.gateCommand h d k) := push _ _

theorem purgeGate {h : Fin 32} (r : PurgeReason) (hT : T (.head h)) : e.Moves T (e.purgeGate h r) :=
  ((modHead _ hT fun g => g.1 h).trans (enterDischarge _ hT)).trans (gateCommand _ _)

theorem purge {h : Fin 32} (r : PurgeReason) (w : Option Int) (hT : T (.head h))
    (hN : T (.notice (e.units.reportingHead h))) : e.Moves T (e.purge h r w) := by
  have m : e.Moves T (e.purgeGate h r) := purgeGate r hT
  unfold Ev.purge
  simp only
  exact m.trans (headNotice _ (by rw [m.reportingHead]; exact hN))

/-! ### Feeds and the top trim -/

theorem feedOrder {h : Fin 32} (a t : Nat) (q : BitVec 4) : e.Moves T (e.feedOrder h a t q) := push _ _

theorem topOrder {z : Zone} (a : Nat) (q : BitVec 4) : e.Moves T (e.topOrder z a q) := push _ _

theorem feed {h : Fin 32} (a t : Nat) (hT : T (.head h)) : e.Moves T (e.feed h a t) :=
  (modHead _ hT fun g => g.1 h).trans (feedOrder _ _ _)

theorem feedStop {h : Fin 32} (hT : T (.head h)) : e.Moves T (e.feedStop h) :=
  (modHead _ hT fun g => g.1 h).trans (feedOrder _ _ _)

theorem trimAfter_range (t d : Int) : -Config.trimMax ≤ trimAfter t d ∧ trimAfter t d ≤ Config.trimMax := by
  unfold trimAfter Config.trimMax
  omega

theorem changeTrim {z : Zone} (d : Int) (c : TrimCause) (h : Fin 32) (hZ : T (.zone z))
    (hN : T (.notice (e.units.reporting z))) : e.Moves T (e.changeTrim z d c h) := by
  unfold Ev.changeTrim
  simp only
  split
  · rename_i he
    refine modZone _ hZ (fun b hb => ?_) fun ha => ?_
    · simp only at hb; tauto
    · obtain ⟨h1, h2⟩ := trimAfter_range (e.units.zones.get z).top.trim d
      refine ⟨h1, h2, ?_⟩
      have := ha.2.2
      simp only [he, Option.map_none] at this ⊢
      exact this
  · rename_i env he
    split
    · rename_i hs
      refine modZone _ hZ (fun b hb => ?_) fun ha => ?_
      · simp only at hb; tauto
      · obtain ⟨h1, h2⟩ := trimAfter_range (e.units.zones.get z).top.trim d
        refine ⟨h1, h2, ?_⟩
        simp only [he, Option.map_some]
        exact hs
    · have m : e.Moves T (e.modZone z fun r =>
          { r with top := { (e.units.zones.get z).top with
              trim := trimAfter (e.units.zones.get z).top.trim d,
              applied := some (env.apply (trimAfter (e.units.zones.get z).top.trim d)),
              seq := (e.units.zones.get z).top.seq + 1 } }) := by
        refine modZone _ hZ (fun b hb => ?_) fun ha => ?_
        · simp only at hb; tauto
        · obtain ⟨h1, h2⟩ := trimAfter_range (e.units.zones.get z).top.trim d
          refine ⟨h1, h2, ?_⟩
          simp only [he, Option.map_some]
      have m' := m.trans (topOrder (z := z) (env.apply (trimAfter (e.units.zones.get z).top.trim d))
        ((e.units.zones.get z).top.seq + 1))
      exact m'.trans (headNotice _ (by rw [m'.reporting]; exact hN))

theorem feedIssue {h : Fin 32} (hT : T (.head h)) (hZ : ∀ z, T (.zone z)) (hN : ∀ s, T (.notice s)) :
    e.Moves T (e.feedIssue h) := by
  unfold Ev.feedIssue
  simp only
  split
  · exact rfl'
  · split
    · split
      · exact (feed _ _ hT).trans (changeTrim _ _ _ (hZ _) (hN _))
      · split
        · exact (feed _ _ hT).trans (changeTrim _ _ _ (hZ _) (hN _))
        · exact feed _ _ hT
    · exact rfl'

theorem partChange (hP : T .part) (hN : ∀ s, T (.notice s)) : e.Moves T e.partChange := by
  unfold Ev.partChange
  simp only
  exact (((setCount hP).trans (push _ _)).trans (setFlag _ (hN _))).trans (setFlag _ (hN _))

/-! ### The end of an event -/

theorem closeSide {before : Units} {s : Side} (hN : T (.notice s)) : e.Moves T (e.closeSide before s) := by
  unfold Ev.closeSide
  simp only
  have m : e.Moves T (e.modNotice s fun n =>
      { n with notePending := n.notePending || flagRises (before.notices.get s) n }) := modNotice _ hN id
  refine m.trans ?_
  split
  · exact rfl'
  · exact (modNotice (e := e.modNotice s _) (fun n => { n with lastFlagWord := n.flagWord }) hN id).trans (push _ _)

theorem close {before : Units} (hN : ∀ s, T (.notice s)) : e.Moves T (e.close before) :=
  (closeSide (hN _)).trans (closeSide (hN _))

/-! ### Zones (05) -/

theorem zoneEffect {z : Zone} (hZ : T (.zone z)) : e.Moves T (e.zoneEffect z) := by
  refine modZone _ hZ ?_ ?_ <;> unfold ZoneRec.effect
  · intro b
    split
    · tauto
    · rename_i c hc
      simp only [ZoneRec.take, reduceCtorEq, or_false, Option.some.injEq]
      rintro rfl
      exact .inr (.inl hc)
  · split <;> exact id

/-- Every piece that heads, orders and releases touch. -/
def Busy (T : Piece → Prop) : Prop :=
  (∀ h, T (.head h)) ∧ (∀ z, T (.zone z)) ∧ (∀ s, T (.order s)) ∧ (∀ s, T (.release s)) ∧ ∀ s, T (.notice s)

theorem ageZone {z : Zone} (hH : ∀ h, T (.head h)) : e.Moves T (e.ageZone z) := by
  refine eachHead _ _ (fun h _ e => ?_) e
  refine modHead _ (hH h) fun g => ?_
  have := g.1 h
  exact ⟨this.1, by simp only; omega, this.2.2⟩

theorem stalePurges {z : Zone} (hH : ∀ h, T (.head h)) (hN : ∀ s, T (.notice s)) : e.Moves T (e.stalePurges z) := by
  unfold Ev.stalePurges
  simp only
  have m1 := eachHead (e.units.dueStale z) (fun h e => e.purgeGate h .stale)
    (fun h _ e => purgeGate (T := T) (e := e) .stale (hH h)) e
  split
  · exact m1.trans (eachHead _ _ (fun h _ e => releaseNotice _ (hN _)) _)
  · exact (m1.trans (eachHead _ _ (fun h _ e => releaseNotice _ (hN _)) _)).trans (required _)

theorem rotate {z : Zone} (hZ : T (.zone z)) : e.Moves T (e.rotate z) := by
  unfold Ev.rotate
  exact modZone _ hZ (fun b hb => by simp only at hb; tauto) id

/-! ### Releases and orders (07, 08) -/

theorem sideEffect {s : Side} (hO : T (.order s)) : e.Moves T (e.sideEffect s) := by
  refine modOrder _ hO (.inl ?_)
  unfold OrderSide.effect
  split <;> simp

theorem allEffects (hO : ∀ s, T (.order s)) (hZ : ∀ z, T (.zone z)) : e.Moves T e.allEffects :=
  (((sideEffect (hO _)).trans (sideEffect (hO _))).trans (zoneEffect (hZ _))).trans (zoneEffect (hZ _))

theorem openGates {s : Side} {k : Nat} (hH : ∀ h, T (.head h)) (l : List (Fin 32)) (n : Nat) (e : Ev) :
    e.Moves T (e.openGates s k l n) := by
  induction l generalizing n e with
  | nil => exact rfl'
  | cons h rest ih =>
    unfold Ev.openGates
    exact ((enterDischarge _ (hH h)).trans (gateCommand _ _)).trans (ih _ _)

theorem doRelease {s : Side} (hB : Busy T) (hd : (e.units.releases.get s).dumps.length < Config.dumpDepth) :
    e.Moves T (e.doRelease s) := by
  obtain ⟨hH, hZ, hO, hR, hN⟩ := hB
  unfold Ev.doRelease
  split
  · rename_i o rest z hq hz
    simp only
    have m1 : e.Moves T (e.modOrder s fun q => { q with queue := rest }) := by
      refine modOrder _ (hO s) (.inl ?_)
      rw [hq]
      simp
    have m2 := m1.trans (sideEffect (s := s) (hO s))
    have m3 := m2.trans (zoneEffect (z := z) (hZ z))
    have m4 := m3.trans (openGates (s := s) (k := ((((e.modOrder s fun q => { q with queue := rest }).sideEffect s).zoneEffect
      z).units.zoneParams z).stagger) hH o.heads 0 _)
    have m5 := ((m4.trans (ageZone (z := z) hH)).trans (stalePurges (z := z) hH hN)).trans (rotate (z := z) (hZ z))
    refine m5.trans (modRelease _ (hR s) (.inr ?_))
    have hr : ∀ {T' : Piece → Prop} {e' : Ev}, e.Moves T' e' → ¬ T' (.release s) →
        e'.units.releases.get s = e.units.releases.get s := fun m h => m.frame _ h
    have n5 := (((((sideEffect (T := fun p => p ≠ .release s) (s := s) (e := e.modOrder s fun q => { q with queue := rest })
      (by simp)).trans (zoneEffect (z := z) (by simp))).trans (openGates (s := s) (k := ((((e.modOrder s fun q =>
      { q with queue := rest }).sideEffect s).zoneEffect z).units.zoneParams z).stagger) (by simp) o.heads 0 _)).trans
      (ageZone (z := z) (by simp))).trans (stalePurges (z := z) (by simp) (by simp))).trans (rotate (z := z) (by simp))
    have := n5.frame (.release s) (by simp)
    simp only [Units.keeps] at this
    rw [this]
    simp only [ReleaseSide.released, List.length_append, List.length_cons, List.length_nil, modOrder_units,
      Units.setOrder_releases]
    omega
  · exact rfl'

theorem releaseTest {s : Side} (hB : Busy T) : e.Moves T (e.releaseTest s) := by
  unfold Ev.releaseTest
  split
  · rename_i h
    split
    · refine doRelease hB ?_
      simp only [Units.releasable, Bool.and_eq_true, decide_eq_true_eq] at h
      exact h.1.2
    · exact modRelease _ (hB.2.2.2.1 s) (.inl (Nat.le_refl _))
  · exact rfl'

theorem pendingRelease {s : Side} (hB : Busy T) : e.Moves T (e.pendingRelease s) := by
  unfold Ev.pendingRelease
  split
  · rename_i h
    refine doRelease hB ?_
    simp only [Units.releasable, Bool.and_eq_true, decide_eq_true_eq] at h
    exact h.2
  · exact modRelease _ (hB.2.2.2.1 s) (.inl (Nat.le_refl _))

theorem markDump {s : Side} {h : Fin 32} {k : Mark} (hB : Busy T) : e.Moves T (e.markDump s h k) := by
  unfold Ev.markDump
  simp only
  split
  · exact rfl'
  · split
    · exact rfl'
    · rename_i i _ d _
      split
      · have m1 : e.Moves T _ := orderNotice (s := s)
          (.dumpComplete (d.mark h k).tag (d.mark h k).heads (d.mark h k).total (d.mark h k).giveaway) (hB.2.2.2.2 s)
        have n1 : e.Moves (fun p => p = .notice s) _ := orderNotice (s := s)
          (.dumpComplete (d.mark h k).tag (d.mark h k).heads (d.mark h k).total (d.mark h k).giveaway) rfl
        refine (m1.trans (modRelease _ (hB.2.2.2.1 s) (.inl ?_))).trans (releaseTest hB)
        have := n1.frame (.release s) (by simp)
        simp only [Units.keeps] at this
        rw [this]
        simp only
        exact List.length_eraseIdx_le ..
      · exact modRelease _ (hB.2.2.2.1 s) (.inl (by simp))

theorem returnHead {h : Fin 32} (hT : T (.head h)) : e.Moves T (e.returnHead h) := enterWatched _ hT

theorem withdraw {s : Side} {o : OrderRec} {r : WithdrawReason} {x : Option (Fin 32)} (hO : T (.order s))
    (hN : T (.notice s)) (hH : ∀ h ∈ o.heads, T (.head h)) : e.Moves T (e.withdraw s o r x) := by
  unfold Ev.withdraw
  simp only
  have m1 : e.Moves T (e.modOrder s fun q => { q with queue := q.queue.filter fun p => p.accept != o.accept }) :=
    modOrder _ hO (.inl (by simp only; exact List.length_filter_le ..))
  cases x with
  | none => exact (m1.trans (orderNotice _ hN)).trans (setFlag _ hN)
  | some h =>
    refine ((m1.trans (eachHead _ _ (fun g hg e => returnHead (hH g ?_)) _)).trans (orderNotice _ hN)).trans
      (setFlag _ hN)
    exact List.mem_of_mem_filter hg

theorem withdrawClaim {s : Side} {k : Nat} {r : WithdrawReason} {h : Fin 32} (hB : Busy T) :
    e.Moves T (e.withdrawClaim s k r h) := by
  unfold Ev.withdrawClaim
  split
  · exact rfl'
  · exact withdraw (hB.2.2.1 s) (hB.2.2.2.2 s) fun g _ => hB.1 g

theorem clearLatches (hR : ∀ s, T (.release s)) : e.Moves T e.clearLatches :=
  (modRelease _ (hR _) (.inl (Nat.le_refl _))).trans (modRelease _ (hR _) (.inl (Nat.le_refl _)))

theorem drainComplete (hP : T .part) (hB : Busy T) : e.Moves T e.drainComplete := by
  unfold Ev.drainComplete
  simp only
  exact ((((setPart hP).trans (eachHead _ _ (fun h _ e => stopHead (hB.1 h)) _)).trans
    (clearLatches hB.2.2.2.1)).trans (allEffects hB.2.2.1 hB.2.1)).trans (partChange hP hB.2.2.2.2)

theorem drainTest (hP : T .part) (hB : Busy T) : e.Moves T e.drainTest := by
  unfold Ev.drainTest
  split
  · exact drainComplete hP hB
  · exact rfl'

/-! ### The head table (01 to 03) -/

theorem setHealth {h : Fin 32} {v : Nat} {c : HealthCause} (hT : T (.head h))
    (hN : T (.notice (e.units.reportingHead h))) (hv : (e.units.head h).inRange → v ≤ Config.healthOut) :
    e.Moves T (e.setHealth h v c) := by
  unfold Ev.setHealth
  simp only
  have m : e.Moves T (e.modHead h fun x => { x with health := v }) :=
    modHead _ hT fun g => ⟨hv (g.1 h), (g.1 h).2⟩
  split
  · exact m
  · exact m.trans (headNotice _ (by rw [m.reportingHead]; exact hN))

theorem lowerHealth {h : Fin 32} {c : HealthCause} (hT : T (.head h)) (hN : T (.notice (e.units.reportingHead h))) :
    e.Moves T (e.lowerHealth h c) := by
  unfold Ev.lowerHealth
  simp only
  split
  · exact rfl'
  · exact setHealth hT hN fun g => by have := g.1; omega

theorem enterOut {h : Fin 32} (hB : Busy T) : e.Moves T (e.enterOut h) := by
  unfold Ev.enterOut
  simp only
  have m : e.Moves T (e.modHead h fun x => { x with state := .out, timer := .stopped, frozen := none, bucket := none }) :=
    modHead _ (hB.1 h) fun g => g.1 h
  refine (Ev.Moves.trans ?_ (setFlag _ (hB.2.2.2.2 _))).trans (feedStop (hB.1 h))
  split
  · exact m.trans (withdrawClaim hB)
  · exact m.trans (markDump hB)
  · exact m

theorem barredAction {h : Fin 32} (hB : Busy T) : e.Moves T (e.barredAction h) := by
  unfold Ev.barredAction
  simp only
  split
  · exact purge _ _ (hB.1 h) (hB.2.2.2.2 _)
  · exact (withdrawClaim hB).trans (purge _ _ (hB.1 h) (hB.2.2.2.2 _))
  · exact rfl'

theorem raiseHealth {h : Fin 32} {k : Nat} {c : HealthCause} {b : Bool} (hB : Busy T) :
    e.Moves T (e.raiseHealth h k c b) := by
  unfold Ev.raiseHealth
  simp only
  split
  · exact rfl'
  · have m : e.Moves T (e.setHealth h (min Config.healthOut ((e.units.head h).health + k)) c) :=
      setHealth (hB.1 h) (hB.2.2.2.2 _) fun _ => Nat.min_le_left ..
    split
    · exact m.trans (enterOut hB)
    · split
      · exact m.trans (barredAction hB)
      · exact m

theorem disturb {h : Fin 32} (hB : Busy T) : e.Moves T (e.disturb h) := by
  unfold Ev.disturb
  simp only
  have m : e.Moves T (e.raiseHealth h 8 .disturbed false) := raiseHealth hB
  refine m.trans ?_
  split
  · exact rfl'
  · split
    · exact purge _ _ (hB.1 h) (hB.2.2.2.2 _)
    · exact purge _ _ (hB.1 h) (hB.2.2.2.2 _)
    · exact (withdrawClaim hB).trans (purge _ _ (hB.1 h) (hB.2.2.2.2 _))
    · exact rfl'

theorem learnedYield_range {y : Nat} (net : Int) (t : Nat) (h1 : Config.yieldMin ≤ y) (h2 : y ≤ Config.yieldMax) :
    Config.yieldMin ≤ learnedYield y net t ∧ learnedYield y net t ≤ Config.yieldMax := by
  have hm : (Config.yieldMin : Int) ≤ measuredYield net t ∧ measuredYield net t ≤ (Config.yieldMax : Int) := by
    unfold measuredYield Config.yieldMin Config.yieldMax
    omega
  unfold learnedYield
  unfold Config.yieldMin Config.yieldMax at *
  generalize measuredYield net t = m at *
  have : (m - y).tdiv 8 = if 0 ≤ m - y then (m - y) / 8 else -((-(m - y)) / 8) := by
    split
    · rename_i h; exact Int.tdiv_eq_ediv_of_nonneg h
    · rename_i h
      rw [← Int.neg_neg ((m - y).tdiv 8), ← Int.neg_tdiv, Int.tdiv_eq_ediv_of_nonneg (by omega)]
  rw [this]
  split <;> omega

theorem learn_inRange {x : Head} (net : Int) (h : x.inRange) : (x.learn net).inRange := by
  unfold Head.learn
  split
  · exact h
  · exact ⟨h.1, h.2.1, learnedYield_range _ _ h.2.2.1 h.2.2.2⟩

theorem settleReady {h : Fin 32} {n : Int} (hT : T (.head h)) (hN : T (.notice (e.units.reportingHead h))) :
    e.Moves T (e.settleReady h n) := by
  unfold Ev.settleReady
  simp only
  have m1 : e.Moves T (e.modHead h fun x => x.learn n) := modHead _ hT fun g => learn_inRange _ (g.1 h)
  have m2 := m1.trans (lowerHealth (c := .fill) hT (by rw [m1.reportingHead]; exact hN))
  have m3 := m2.trans (modHead (fun x => { x with frozen := some n, age := 0 }) hT fun g => ⟨(g.1 h).1, by simp, (g.1 h).2.2⟩)
  have m4 := m3.trans (enterWatched .ready hT)
  split
  · exact m4.trans (purge _ _ hT (by rw [m4.reportingHead]; exact hN))
  · exact m4

theorem settlePurge {h : Fin 32} {n d : Int} {c : TrimCause} {r : PurgeReason} (hT : T (.head h))
    (hZ : ∀ z, T (.zone z)) (hN : ∀ s, T (.notice s)) : e.Moves T (e.settlePurge h n d c r) := by
  unfold Ev.settlePurge
  simp only
  have m1 : e.Moves T (e.modHead h fun x => x.learn n) := modHead _ hT fun g => learn_inRange _ (g.1 h)
  split
  · exact (m1.trans (changeTrim _ _ _ (hZ _) (hN _))).trans (purge _ _ hT (hN _))
  · exact m1.trans (purge _ _ hT (hN _))

theorem settle {h : Fin 32} {n : Int} (hT : T (.head h)) (hZ : ∀ z, T (.zone z)) (hN : ∀ s, T (.notice s)) :
    e.Moves T (e.settle h n) := by
  unfold Ev.settle
  simp only
  split
  · exact settlePurge hT hZ hN
  · split
    · exact settlePurge hT hZ hN
    · exact settleReady hT (hN _)

theorem trackZero {h : Fin 32} {w : Int} {q : BitVec 8} (hB : Busy T) : e.Moves T (e.trackZero h w q) := by
  unfold Ev.trackZero
  simp only
  split
  · exact modHead _ (hB.1 h) fun g => g.1 h
  · exact (headNotice _ (hB.2.2.2.2 _)).trans (raiseHealth hB)

theorem leaveDischarge {h : Fin 32} (hT : T (.head h)) : e.Moves T (e.leaveDischarge h) := by
  unfold Ev.leaveDischarge
  simp only
  have m : e.Moves T (e.modHead h fun x => { x with frozen := none, retryUsed := false, timer := .stopped }) :=
    modHead _ hT fun g => g.1 h
  split
  · exact m.trans (enterWatched _ hT)
  · exact m.trans (modHead _ hT fun g => g.1 h)

theorem gateClosed {h : Fin 32} {q : BitVec 4} (hB : Busy T) : e.Moves T (e.gateClosed h q) := by
  unfold Ev.gateClosed
  simp only
  split
  · split
    · exact rfl'
    · rename_i d _ _
      have m : e.Moves T (e.leaveDischarge h) := leaveDischarge (hB.1 h)
      have m' : e.Moves T (if d = .reject .recover then e.leaveDischarge h
          else (e.leaveDischarge h).lowerHealth h .confirm) := by
        split
        · exact m
        · exact m.trans (lowerHealth (hB.1 h) (hB.2.2.2.2 _))
      split
      · exact m'.trans (markDump hB)
      · exact m'
  · exact rfl'

theorem poolDrop {h : Fin 32} (hB : Busy T) : e.Moves T (e.poolDrop h) := by
  unfold Ev.poolDrop
  simp only
  refine Ev.Moves.trans ?_ (feedIssue (hB.1 h) hB.2.1 hB.2.2.2.2)
  have md : ∀ e : Ev, e.Moves T (e.modHead h fun x => { x with pool := none }) := fun e => modHead _ (hB.1 h) fun g => g.1 h
  split
  · exact (modHead _ (hB.1 h) fun g => g.1 h).trans (startTimer _ (hB.1 h))
  · exact (disturb hB).trans (md _)
  · exact (disturb hB).trans (md _)
  · exact (disturb hB).trans (md _)
  · split
    · exact md _
    · exact disturb hB
  · exact md _
  · exact rfl'
  · exact rfl'

theorem useWeight {h : Fin 32} {w : Int} {q : BitVec 8} {p : Bool} (hB : Busy T) : e.Moves T (e.useWeight h w q p) := by
  unfold Ev.useWeight
  simp only
  refine Ev.Moves.trans (modHead (fun x => { x with lastStable := some w }) (hB.1 h) fun g => g.1 h) ?_
  split
  · split
    · exact rfl'
    · exact trackZero hB
  · split
    · exact rfl'
    · exact trackZero hB
  · exact settle (hB.1 h) hB.2.1 hB.2.2.2.2
  · split
    · exact rfl'
    · split
      · exact disturb hB
      · exact rfl'
  · split
    · exact rfl'
    · split
      · exact disturb hB
      · exact rfl'
  · exact rfl'
  · exact rfl'
  · exact rfl'

theorem restartSilence {h : Fin 32} (hT : T (.head h)) : e.Moves T (e.restartSilence h) := by
  unfold Ev.restartSilence
  simp only
  split
  · exact startTimer _ hT
  · exact rfl'

theorem expire {h : Fin 32} {k : TimerKind} (hP : T .part) (hB : Busy T) : e.Moves T (e.expire h k) := by
  unfold Ev.expire
  refine Ev.Moves.trans ?_ (drainTest hP hB)
  cases k with
  | settle =>
    show e.Moves T (e.settleExpiry h)
    unfold Ev.settleExpiry
    simp only
    have m : e.Moves T (e.raiseHealth h 8 .settle true) := raiseHealth hB
    split
    · exact m
    · exact m.trans (purge _ _ (hB.1 h) (hB.2.2.2.2 _))
  | silence => exact (startTimer _ (hB.1 h)).trans (raiseHealth hB)
  | gate =>
    show e.Moves T (e.gateExpiry h)
    unfold Ev.gateExpiry
    simp only
    split
    · split
      · exact raiseHealth hB
      · have m : e.Moves T (e.raiseHealth h 32 .gate true) := raiseHealth hB
        split
        · exact m
        · exact ((m.trans (modHead (fun x => { x with gateSeq := x.gateSeq + 1, retryUsed := true }) (hB.1 h)
            fun g => g.1 h)).trans (gateCommand _ _)).trans (startTimer _ (hB.1 h))
    · exact rfl'

/-! ### Reports (02) -/

theorem takeReport {r : ReportHeader} (hP : T .part) (hB : Busy T) : e.Moves T (e.takeReport r) := by
  unfold Ev.takeReport
  simp only
  refine Ev.Moves.trans ?_ (drainTest hP hB)
  refine Ev.Moves.trans ?_ (restartSilence (hB.1 _))
  have m0 : e.Moves T (e.modHead r.head fun x => { x with lastSeq := some r.seq }) := modHead _ (hB.1 _) fun g => g.1 _
  have m1 : ∀ e : Ev, e.Moves T (if r.boardFault = true then e.raiseHealth r.head 32 .boardFault true else e) := by
    intro e; split
    · exact raiseHealth hB
    · exact rfl'
  have m2 : ∀ e : Ev, e.Moves T (if r.gateClosed = true then e.gateClosed r.head r.echo else e) := by
    intro e; split
    · exact gateClosed hB
    · exact rfl'
  have m3 : ∀ e : Ev, e.Moves T (if r.poolDrop = true then e.poolDrop r.head else e) := by
    intro e; split
    · exact poolDrop hB
    · exact rfl'
  have m := ((m0.trans (m1 _)).trans (m2 _)).trans (m3 _)
  split
  · exact m.trans (useWeight hB)
  · exact m

theorem reportRefused {n : Nat} {r : ReportHeader} {c : ReportCause} {i : Nat} (hN : ∀ s, T (.notice s)) :
    e.Moves T (e.reportRefused n r c i) := headNotice _ (hN _)

theorem reportOutcome {n : Nat} {r : ReportHeader} (hP : T .part) (hB : Busy T) : e.Moves T (e.reportOutcome n r) := by
  unfold Ev.reportOutcome
  split
  · exact reportRefused hB.2.2.2.2
  · exact ((reportRefused hB.2.2.2.2).trans (raiseHealth hB)).trans (drainTest hP hB)
  · exact (modHead (fun x => { x with present := true }) (hB.1 _) fun g => g.1 _).trans (headNotice _ (hB.2.2.2.2 _))
  · exact rfl'
  · exact takeReport hP hB

theorem reportHeaderWrite {n : Nat} {w : Word} (hP : T .part) (hS : T .stage) (hB : Busy T) :
    e.Moves T (e.reportHeaderWrite n w) := (reportOutcome hP hB).trans (setStage hS)

theorem reportSampleWrite {n i : Nat} {w : Word} (hS : T .stage) : e.Moves T (e.reportSampleWrite n i w) := setStage hS

/-! ### Orders (07) -/

theorem accept {s : Side} {t : BitVec 16} {l : List (Fin 32)} {k : Int} (hB : Busy T)
    (hq : (e.units.orders.get s).queue.length < Config.orderDepth) : e.Moves T (e.accept s t l k) := by
  unfold Ev.accept
  simp only
  have m1 := eachHead (T := T) l (fun h e' => e'.enterWatched h (.claimed s (e.units.orders.get s).accepts))
    (fun h _ e => enterWatched _ (hB.1 h)) e
  have n1 := eachHead (T := fun p => ∃ h, p = .head h) l
    (fun h e' => e'.enterWatched h (.claimed s (e.units.orders.get s).accepts)) (fun h _ e => enterWatched _ ⟨h, rfl⟩) e
  have ho := n1.frame (.order s) (by simp)
  simp only [Units.keeps] at ho
  have m2 := m1.trans (modOrder (s := s) (fun q => { q with
      accepts := q.accepts + 1
      queue := q.queue ++
        [{ accept := q.accepts, tag := t, heads := l, total := k,
           target := ((e.units.orders.get s).live.map SideBlock.bagTarget |>.getD 0),
           hold := .running ((e.units.orders.get s).live.map SideBlock.holdLimit |>.getD 0) }] }) (hB.2.2.1 s)
      (.inr (by rw [ho]; simp only [List.length_append, List.length_cons, List.length_nil]; omega)))
  have m3 := m2.trans (modNotice (s := s) (fun n => { n with reservations := n.reservations + 1 }) (hB.2.2.2.2 s) id)
  split
  · rename_i hc
    refine m3.trans (doRelease hB ?_)
    simp only [Bool.and_eq_true, decide_eq_true_eq] at hc
    exact hc.2
  · exact m3

theorem judgeOrder_accepted {u : Units} {s : Side} {n : Nat} {w : Word} {k : Nat}
    (h : (judgeOrder u s n w).1 = .accepted k) : (u.orders.get s).queue.length < Config.orderDepth := by
  unfold judgeOrder at h
  simp only at h
  split at h
  · cases h
  · split at h
    · cases h
    · split at h
      · cases h
      · split at h
        · cases h
        · split at h
          · cases h
          · split at h
            · rename_i v hv
              simp only at h
              subst h
              exfalso
              unfold judgeHeads at hv
              simp only [firstListed, firstDuplicate, Option.map_map] at hv
              simp [Option.orElse_eq_or, Option.or_eq_some_iff] at hv
            · simp only at h
              unfold judgeBag at h
              simp only at h
              split at h
              · cases h
              · split at h
                · cases h
                · split at h
                  · cases h
                  · rename_i hx; omega

theorem commit {s : Side} {n : Nat} {w : Word} (hB : Busy T) : e.Moves T (e.commit s n w) := by
  unfold Ev.commit
  simp only
  refine Ev.Moves.trans ?_ (modOrder _ (hB.2.2.1 s) (.inl (by simp)))
  split
  · refine Ev.Moves.trans ?_ (word _)
    split
    · rename_i k hk
      exact accept hB (judgeOrder_accepted hk)
    · exact rfl'
  · exact word _

theorem orderWord {s : Side} {n i : Nat} {w : Word} (hO : T (.order s)) : e.Moves T (e.orderWord s n i w) :=
  (word _).trans (modOrder _ hO (.inl (Nat.le_refl _)))

theorem holdExpiry {s : Side} {k : Nat} (hP : T .part) (hB : Busy T) : e.Moves T (e.holdExpiry s k) := by
  unfold Ev.holdExpiry
  split
  · exact rfl'
  · rename_i o _
    simp only
    have m1 : e.Moves T (e.modOrder s fun q => { q with queue := q.queue.filter fun p => p.accept != k }) :=
      modOrder _ (hB.2.2.1 s) (.inl (by simp only; exact List.length_filter_le ..))
    exact (((m1.trans (eachHead _ _ (fun h _ e => returnHead (hB.1 h)) _)).trans (orderNotice _ (hB.2.2.2.2 s))).trans
      (setFlag _ (hB.2.2.2.2 s))).trans (drainTest hP hB)

/-! ### Feeds and the notice unit's words (04, 09, 11) -/

theorem refuse {p : Port} {a : Addr} {c : WriteCause} (hN : T (.notice (refusalSide p))) : e.Moves T (e.refuse p a c) :=
  ((word none).trans (setFlag _ hN)).trans (headNotice _ hN)

theorem feedEnvelope {p : Port} {a : Addr} {h : Fin 32} {w : Word} (hT : T (.head h))
    (hN : T (.notice (refusalSide p))) : e.Moves T (e.feedEnvelope p a h w) := by
  unfold Ev.feedEnvelope
  simp only
  split
  · exact refuse hN
  · split
    · exact refuse hN
    · exact (modHead (fun x => { x with envelope := some (envelopeOf w) }) hT fun g => g.1 h).trans (word _)

theorem topEnvelope {p : Port} {a : Addr} {z : Zone} {w : Word} (hT : T (.zone z))
    (hN : T (.notice (refusalSide p))) : e.Moves T (e.topEnvelope p a z w) := by
  unfold Ev.topEnvelope
  simp only
  split
  · exact refuse hN
  · split
    · exact refuse hN
    · refine (modZone (fun r => { r with top := (e.units.zones.get z).top.write (topEnvelopeOf w) }) hT
        (fun b hb => by simp only at hb; tauto) fun ha => ?_).trans (word _)
      exact ⟨ha.1, ha.2.1, rfl⟩

end Sys2Proof.Machine.Ev.Moves
end

