-- ==== Sys2Proof/Laws/Step.lean ====
section
/-! SUPPORT. Everything a step can do, said once: a step is a chain of the named updates (StateMove), and the units
change by events and a few fixed changes only (UnitsMove). An invariant of every step is proved from these. -/

namespace Sys2Proof.Machine

/-- The bodies of the part's events as the units stand; a head timer expires as the kind that it runs as. -/
inductive Body (u : Units) : (Ev → Ev) → Prop
  | write (p : Port) (a : Addr) (st : BitVec 4) (w : Word) : Body u (Ev.write p a st w)
  | owner (o : Owner) : Body u o.body
  | edge (s : Side) : Body u (Ev.requestEdge s)
  | test (s : Side) : Body u fun e => e.releaseTest s
  | expire (h : Fin 32) (k : TimerKind) (n : Nat) (hr : (u.head h).timer = .running k n) : Body u fun e => e.expire h k
  | hold (s : Side) (accept : Nat) : Body u fun e => e.holdExpiry s accept
  | double (s : Side) : Body u fun e => e.doubleRequest s

/-- How the units change: an event, a new count of awaited flag words, an event marked pending, the millisecond, a
latched view, the end of a pulse, or the reset input. -/
inductive UnitsMove : Units → Units → Prop
  | event (u : Units) {body : Ev → Ev} (hb : Body u body) (r : Bool) (n : Nat) : UnitsMove u (runEvent r n body u).units
  | wait (u : Units) (s : Side) (k : Nat) :
      UnitsMove u (u.setNotice s { u.notices.get s with noteWait := k })
  | mark (u : Units) (o : Owner) : UnitsMove u (u.markPending o)
  | tick (u : Units) : UnitsMove u u.tick
  | latch (u : Units) (s : Side) : UnitsMove u (u.latchView s)
  | pulse (u : Units) (s : Side) : UnitsMove u (u.pulseEnd s)
  | initial (u : Units) (c : BitVec 4) (o : Bool) : UnitsMove u (.initial c o)

/-- How the state changes: a chain of the named updates. -/
inductive StateMove : State → State → Prop
  | refl (s : State) : StateMove s s
  | trans {s t r : State} (h : StateMove s t) (g : StateMove t r) : StateMove s r
  | units {s : State} {u : Units} (h : UnitsMove s.units u) : StateMove s (s.setUnits u)
  | mem (s : State) (a : Addr) (st : BitVec 4) (w : Word) : StateMove s (s.setMem (s.mem.write a st w))
  | held (s : State) (l : List Held) : StateMove s (s.setHeld l)
  | granted (s : State) (x : Source) : StateMove s (s.setGranted x)
  | front (s : State) (p : Port) (f : FrontEnd) : StateMove s (s.setFront p f)
  | writes (s : State) (l : List QueueEntry) : StateMove s (s.setWrites l)

/-! ### The functions of the memory path, one by one -/

/-- A notice unit with another count of awaited flag words. -/
def NoticeSide.waiting (n : NoticeSide) (k : Nat) : NoticeSide := { n with noteWait := k }

theorem noteWaits_cases (before after : Units) (l : List QueueEntry) (s : Side) :
    ∃ k, noteWaits before after l s = (after.notices.get s).waiting k := by
  unfold noteWaits
  simp only
  split
  · exact ⟨_, rfl⟩
  · exact ⟨(after.notices.get s).noteWait, rfl⟩

/-- Two waits, one on each side. -/
theorem StateMove.waits (s : State) (k m : Nat) :
    StateMove s (s.setUnits ((s.units.setNotice .a ((s.units.notices.get .a).waiting k)).setNotice .b
      ((s.units.notices.get .b).waiting m))) := by
  have h1 := StateMove.units (.wait s.units .a k)
  have h2 := StateMove.units (s := s.setUnits (s.units.setNotice .a ((s.units.notices.get .a).waiting k)))
    (.wait _ .b m)
  exact .trans h1 h2

theorem StateMove.commit {s : State} {e : Ev} (h : UnitsMove s.units e.units) : StateMove s (s.commit e) := by
  unfold State.commit
  simp only
  obtain ⟨k, hk⟩ := noteWaits_cases s.units e.units (s.queue ++ s.startTail ++ e.out) .a
  obtain ⟨m, hm⟩ := noteWaits_cases s.units e.units (s.queue ++ s.startTail ++ e.out) .b
  rw [hk, hm]
  have h1 := StateMove.trans (.units h) (StateMove.waits (s.setUnits e.units) k m)
  exact .trans h1 (.trans (.writes _ _) (.held _ _))

theorem attempt_move {n : Nat} {body : Ev → Ev} {u : Units} (hb : Body u body) {e : Ev} (h : attempt n body u = .ok e) :
    UnitsMove u e.units := by
  unfold attempt at h
  simp only at h
  split at h
  · cases h; exact .event _ hb ..
  · split at h
    · cases h; exact .event _ hb ..
    · cases h

theorem StateMove.scan (s : State) (ahead rest : List Held) : StateMove s (s.scan ahead rest).1 := by
  induction rest generalizing ahead with
  | nil => exact .held _ _
  | cons x rest ih =>
    unfold State.scan
    split
    · rename_i e he
      refine .trans (.held s _) (.commit ?_)
      unfold State.test at he
      split at he
      · cases he
      · split at he
        · rename_i ho; cases he; exact attempt_move (.owner _) ho
        · cases he
    · exact ih _

theorem StateMove.retest (fuel place : Nat) (s : State) : StateMove s (State.retest fuel place s) := by
  induction fuel generalizing place s with
  | zero => exact .refl s
  | succ fuel ih =>
    unfold State.retest
    simp only
    split
    · exact .trans (.scan ..) (ih ..)
    · exact .scan ..

theorem StateMove.afterEvent (before : List Held) (s : State) : StateMove s (s.afterEvent before) := by
  unfold State.afterEvent
  simp only
  split
  · exact .retest ..
  · exact .refl s

theorem StateMove.takeOrHold (s : State) (o : Owner) {body : Ev → Ev} (hb : Body s.units body) :
    StateMove s (s.takeOrHold o body) := by
  unfold State.takeOrHold
  split
  · rename_i h; exact .trans (.commit (attempt_move hb h)) (.afterEvent ..)
  · exact .trans (.units (.mark ..)) (.held ..)

theorem StateMove.retestOwner (s : State) (o : Owner) : StateMove s (s.retestOwner o) := by
  unfold State.retestOwner
  split
  · exact .refl s
  · split
    · exact .refl s
    · split
      · rename_i e he
        refine .trans (.trans (.held s _) (.commit ?_)) (.afterEvent ..)
        unfold State.test at he
        split at he
        · cases he
        · split at he
          · rename_i ho; cases he; exact attempt_move (.owner _) ho
          · cases he
      · exact .held ..

theorem entryWritten_waits (u : Units) (x : QueueEntry) :
    ∃ k m, u.entryWritten x =
      (u.setNotice .a ((u.notices.get .a).waiting k)).setNotice .b ((u.notices.get .b).waiting m) := by
  unfold Units.entryWritten NoticeSide.flagWritten
  refine ⟨if x.addr = u.flagAddr .a then (u.notices.get .a).noteWait - 1 else (u.notices.get .a).noteWait,
    if x.addr = u.flagAddr .b then (u.notices.get .b).noteWait - 1 else (u.notices.get .b).noteWait, ?_⟩
  simp only [NoticeSide.waiting]
  split <;> split <;> rfl

theorem StateMove.writeEntry (s : State) : StateMove s s.writeEntry := by
  unfold State.writeEntry
  split
  · exact .refl s
  · rename_i x rest _
    obtain ⟨k, m, h⟩ := entryWritten_waits s.units x
    rw [h]
    have h1 := StateMove.trans (.mem s x.addr allStrobes x.data) (.writes _ rest)
    exact .trans h1 (.trans (StateMove.waits _ k m) (.granted _ _))

theorem StateMove.grantQueue (s : State) : StateMove s s.grantQueue := by
  unfold State.grantQueue
  split
  · exact .refl s
  · exact .trans (.writeEntry s) (.retest ..)

theorem StateMove.serve (s : State) (p : Port) (side : Side) (off : Nat) : StateMove s (s.serve p side off) := by
  unfold State.serve State.answer
  simp only
  split
  · exact .trans (.units (.latch ..)) (.front ..)
  · exact .front s p _

theorem StateMove.present (p : Port) (l : List Access) (s : State) : StateMove s (State.present p l s) := by
  induction l generalizing s with
  | nil => exact .front ..
  | cons x rest ih =>
    unfold State.present
    split
    · exact .trans (.serve ..) (ih _)
    · exact .front ..

theorem StateMove.next (s : State) (p : Port) : StateMove s (s.next p) := .present ..

theorem StateMove.issue (s : State) (p : Port) (x : Access) : StateMove s (s.issue p x) := by
  unfold State.issue
  simp only
  split
  · exact .front ..
  · exact .present ..

theorem StateMove.performed (s : State) (p : Port) (a : Addr) (st : BitVec 4) {e : Ev}
    (h : UnitsMove s.units e.units) : StateMove s (s.performed p a st e) := by
  unfold State.performed State.answer
  have h1 := StateMove.trans (.held s (s.held.filter fun x => x.owner ≠ .port p)) (.commit h)
  refine .trans (.trans ?_ (.afterEvent ..)) (.next ..)
  refine .trans ?_ (.front ..)
  refine .trans h1 ?_
  cases e.word with
  | none => exact .refl _
  | some w => exact .mem ..

theorem StateMove.grantPort (s : State) (p : Port) : StateMove s (s.grantPort p) := by
  refine .trans (.granted s (.port p)) ?_
  unfold State.grantPort
  simp only
  split
  · exact .refl _
  · unfold State.grantRead
    split
    · exact .trans (.serve ..) (.next ..)
    · exact .trans (.front ..) (.next ..)
  · unfold State.grantWrite
    split
    · rename_i h; exact .performed _ _ _ _ (attempt_move (.write ..) h)
    · exact .held ..

theorem StateMove.grant (s : State) (x : Source) : StateMove s (s.grant x) := by
  cases x
  · exact .grantPort ..
  · exact .grantQueue ..

theorem StateMove.until (src : Source) (fuel : Nat) (s : State) : StateMove s (State.until src fuel s) := by
  induction fuel generalizing s with
  | zero => exact .refl s
  | succ fuel ih =>
    unfold State.until
    split
    · exact .refl s
    · split
      · exact .grant ..
      · exact .trans (.grant ..) (ih _)

theorem StateMove.servePorts (fuel : Nat) (s : State) : StateMove s (State.servePorts fuel s) := by
  induction fuel generalizing s with
  | zero => exact .refl s
  | succ fuel ih =>
    unfold State.servePorts
    split
    · exact .trans (.grantPort ..) (ih _)
    · exact .refl s

theorem StateMove.access (s : State) (p : Port) (x : Access) : StateMove s (s.access p x) := by
  unfold State.access State.settlePorts
  simp only
  split
  · exact .issue ..
  · exact .trans (.trans (.issue ..) (.until ..)) (.servePorts ..)

theorem StateMove.drain (s : State) : StateMove s s.drain := by
  unfold State.drain State.settlePorts
  split
  · exact .refl s
  · exact .trans (.until ..) (.servePorts ..)

theorem StateMove.takeDue (s : State) (o : Owner) : StateMove s (s.takeDue o) := by
  unfold State.takeDue
  split
  · exact .takeOrHold _ _ (.owner o)
  · exact .refl s

theorem StateMove.dueList (l : List Owner) (s : State) : StateMove s (l.foldl State.takeDue s) := by
  induction l generalizing s with
  | nil => exact .refl s
  | cons o rest ih => exact .trans (.takeDue s o) (ih _)

theorem StateMove.idle (s : State) : StateMove s s.idle := by
  unfold State.idle State.settlePorts
  split
  · exact .trans (.grant ..) (.servePorts ..)
  · unfold State.millisecond
    split
    · exact .refl s
    · exact .trans (.units (.tick ..)) (.dueList ..)

theorem StateMove.resetInput (s : State) (c : BitVec 4) (o : Bool) : StateMove s (s.resetInput c o) := by
  unfold State.resetInput State.settlePorts
  refine .trans ?_ (.servePorts ..)
  refine .trans ?_ (.next ..)
  refine .trans ?_ (.next ..)
  refine .trans ?_ (.next ..)
  have h := StateMove.trans (.units (.initial s.units c o)) (.writes _ [])
  have h := h.trans (.held _ [])
  have h := h.trans (.front _ .ca s.ports.ca.reset)
  have h := h.trans (.front _ .cb s.ports.cb.reset)
  have h := h.trans (.front _ .hl s.ports.hl.reset)
  exact h.trans (.granted _ .queue)

theorem StateMove.headExpiry (s : State) (h : Fin 32) (k : TimerKind) : StateMove s (s.headExpiry h k) := by
  unfold State.headExpiry
  split
  · split
    · rename_i k' n ht hk
      exact .takeOrHold _ _ (.expire h k n (hk ▸ ht))
    · exact .refl s
  · split
    · exact .retestOwner ..
    · exact .refl s
  · exact .refl s

theorem StateMove.holdExpiry (s : State) (side : Side) (i : Fin 2) : StateMove s (s.holdExpiry side i) := by
  unfold State.holdExpiry
  split
  · exact .refl s
  · split
    · exact .takeOrHold _ _ (.hold ..)
    · exact .retestOwner ..

theorem StateMove.bagRequest (s : State) (side : Side) : StateMove s (s.bagRequest side) := by
  unfold State.bagRequest
  simp only
  split
  · exact .refl s
  · split
    · exact .takeOrHold _ _ (.edge side)
    · split
      · exact .refl s
      · exact .takeOrHold _ _ (.double side)

theorem StateMove.doubleRequestSetting (s : State) (side : Side) : StateMove s (s.doubleRequestSetting side) := by
  unfold State.doubleRequestSetting
  split
  · exact .retestOwner ..
  · exact .refl s

theorem StateMove.releaseAlone (s : State) (side : Side) : StateMove s (s.releaseAlone side) := by
  unfold State.releaseAlone
  split
  · exact .retestOwner ..
  · exact .takeOrHold _ _ (.test side)

/-! ### Commands and steps -/

/-- A command answers a next state, got by the named updates. -/
theorem exec_moves (i : Instr) (s : State) : ∃ t, exec i s = .next t ∧ StateMove s t := by
  cases i <;> refine ⟨_, rfl, ?_⟩
  case bagRequest => exact .bagRequest ..
  case doubleRequestSetting => exact .doubleRequestSetting ..
  case release => exact .releaseAlone ..
  case settleExpiry => exact .headExpiry ..
  case silenceExpiry => exact .headExpiry ..
  case gateExpiry => exact .headExpiry ..
  case holdExpiry => exact .holdExpiry ..
  case dischPulseEnd => exact .units (.pulse ..)
  case issueQueueWrite => exact .drain ..
  case resetInput => exact .resetInput ..
  all_goals exact .access ..

/-- A step answers a next state, got by the named updates from the state without its front command. -/
theorem step_moves (s : State) : ∃ t, step s = .next t ∧ StateMove { s with pending := s.pending.tail } t := by
  cases s with
  | mk units mem queue startTail held ports lastGranted pending =>
    cases pending with
    | nil => exact ⟨_, rfl, StateMove.idle _⟩
    | cons c rest => exact exec_moves c _

/-- What the named updates keep: a property of memory, issue queue and START tail. -/
theorem StateMove.keeps_writes {P : Memory → List QueueEntry → List QueueEntry → Prop}
    (hm : ∀ m q t a st w, P m q t → P (Memory.write m a st w) q t)
    (hw : ∀ m q t (l : List QueueEntry), P m q t → P m (l.take Config.queueDepth) (l.drop Config.queueDepth))
    {s t : State} (h : StateMove s t) (hs : P s.mem s.queue s.startTail) : P t.mem t.queue t.startTail := by
  induction h with
  | refl => exact hs
  | trans _ _ ih1 ih2 => exact ih2 (ih1 hs)
  | mem s a st w => exact hm _ _ _ a st w hs
  | writes s l => exact hw _ _ _ l hs
  | units | held | granted | front => exact hs

/-- What the changes of the units keep, the named updates keep. -/
theorem StateMove.keeps_units {P : Units → Prop} (hu : ∀ u v, UnitsMove u v → P u → P v) {s t : State}
    (h : StateMove s t) (hs : P s.units) : P t.units := by
  induction h with
  | refl => exact hs
  | trans _ _ ih1 ih2 => exact ih2 (ih1 hs)
  | units h => exact hu _ _ h hs
  | mem | writes | held | granted | front => exact hs

end Sys2Proof.Machine
end

