-- ==== Sys2Proof/Laws/Commands.lean ====
section
/-! SUPPORT. The commands of the control unit and the writes of a port: what each may change, and that every change of
the units, and so every step, keeps the invariants of Safety.lean. -/

namespace Sys2Proof.Machine

namespace Ev.Moves

variable {T : Piece → Prop} {e : Ev}

/-! ### The control unit's commands (10) -/

theorem mirror {o : Nat} {w : Word} (hM : T (.mirror o)) : e.Moves T (e.mirror o w) := by
  refine of_units ?_ ?_ ?_ fun g => Cells.wf_write _ _ _ g
  · intro p hp
    cases p <;> simp [Units.keeps]
    rename_i k
    have hk : k ≠ o := fun h => hp (h ▸ hM)
    rw [Units.mirrorWord, Units.mirrorWord, Units.setMirror_mirror, Cells.read_write_other _ _ _ _ hk]
  · simp [Units.keeps]
  · rintro ⟨h1, h2, h3, h4, h5⟩; exact ⟨h1, h2, h3, h4, Cells.wf_write _ _ _ h5⟩

/-- Every piece that a command other than LOAD and UNLOAD touches before its verdict. -/
def Commanded (T : Piece → Prop) : Prop := T .part ∧ Busy T

theorem startHead {h : Fin 32} (hB : Busy T) : e.Moves T (e.startHead h) := by
  unfold Ev.startHead
  simp only
  split
  · exact rfl'
  · refine Ev.Moves.trans ?_ (feedIssue (hB.1 h) hB.2.1 hB.2.2.2.2)
    have m : ∀ b : Bool, e.Moves T (if b = true then e.purge h .start (e.units.head h).bucketWeight
        else e.enterWatched h .empty) := by
      intro b; split
      · exact purge _ _ (hB.1 h) (hB.2.2.2.2 _)
      · exact enterWatched _ (hB.1 h)
    exact m _

theorem cmdStart (hC : Commanded T) : e.Moves T e.cmdStart.1 := by
  unfold Ev.cmdStart Ev.refused
  simp only
  split
  · exact rfl'
  · split
    · exact rfl'
    · exact rfl'
    · exact rfl'
    · exact ((setPart hC.1).trans (eachHead allHeads (fun h e => e.startHead h) (fun h _ e => startHead hC.2) _)).trans
        (partChange hC.1 hC.2.2.2.2.2)

theorem cmdStop (hC : Commanded T) : e.Moves T e.cmdStop.1 := by
  unfold Ev.cmdStop Ev.refused
  simp only
  split
  · exact rfl'
  · split
    · exact (setPart hC.1).trans (drainComplete hC.1 hC.2)
    · exact (setPart hC.1).trans (partChange hC.1 hC.2.2.2.2.2)

theorem haltSide {s : Side} (hB : Busy T) : e.Moves T (e.haltSide s) := by
  unfold Ev.haltSide
  generalize (e.units.orders.get s).queue = l
  induction l generalizing e with
  | nil => exact rfl'
  | cons o rest ih => exact (withdraw (hB.2.2.1 s) (hB.2.2.2.2 s) fun h _ => hB.1 h).trans ih

theorem cmdHalt (hC : Commanded T) : e.Moves T e.cmdHalt.1 := by
  unfold Ev.cmdHalt Ev.refused
  split
  · exact rfl'
  · simp only
    refine Ev.Moves.trans ?_ (partChange hC.1 hC.2.2.2.2.2)
    refine Ev.Moves.trans ?_ (allEffects hC.2.2.2.1 hC.2.2.1)
    refine Ev.Moves.trans ?_ (clearLatches hC.2.2.2.2.1)
    refine Ev.Moves.trans ?_ (setPart hC.1)
    exact (((haltSide hC.2).trans (haltSide hC.2)).trans (eachHead _ _ (fun h _ e => feedStop (hC.2.1 h)) _)).trans
      (eachHead _ _ (fun h _ e => stopHead (hC.2.1 h)) _)

theorem headCommand {arg : BitVec 8} {rule : Fin 32 → Taken} (hr : ∀ h, e.Moves T (rule h).1) :
    e.Moves T (e.headCommand arg rule).1 := by
  unfold Ev.headCommand Ev.refused
  split
  · exact rfl'
  · split
    · exact rfl'
    · exact hr _

/-- The initial yield of a head's zone lies in the yield's range. -/
theorem params_yield {u : Units} (g : u.headsInRange) (h : Fin 32) : (u.params h).yieldOk := by
  have hz : ∀ z, (u.zoneParams z).yieldOk := by
    intro z
    unfold Units.zoneParams
    cases hl : (u.zones.get z).live with
    | none => exact ⟨by decide, by decide⟩
    | some b => exact g.2 z b (.inl hl)
  unfold Units.params
  cases u.zoneOf h.val with
  | none => exact ⟨by simp [ZoneBlock.unread], by simp [ZoneBlock.unread, Config.yieldMin, Config.yieldMax]⟩
  | some z => exact hz z

theorem cmdHeadEnable {arg : BitVec 8} (hB : Busy T) : e.Moves T (e.cmdHeadEnable arg).1 := by
  unfold Ev.cmdHeadEnable
  refine headCommand fun h => ?_
  unfold Ev.refused
  simp only
  split
  · exact rfl'
  · split
    · exact rfl'
    · split
      · exact rfl'
      · have m : e.Moves T (e.modHead h fun x => x.enabled (e.units.params h).initialYield) :=
          modHead _ (hB.1 h) fun g => ⟨by simp [Head.enabled], by simp [Head.enabled], params_yield g h⟩
        split
        · exact (m.trans (purge _ _ (hB.1 h) (hB.2.2.2.2 _))).trans (feedIssue (hB.1 h) hB.2.1 hB.2.2.2.2)
        · exact m.trans (modHead (fun x => { x with state := .stopped }) (hB.1 h) fun g => g.1 h)

theorem cmdHeadDisable {arg : BitVec 8} (hH : ∀ h, T (.head h)) : e.Moves T (e.cmdHeadDisable arg).1 := by
  unfold Ev.cmdHeadDisable
  refine headCommand fun h => ?_
  unfold Ev.refused
  have m : e.Moves T ((e.feedStop h).modHead h fun x =>
      { x with state := .disabled, timer := .stopped, bucket := none, frozen := none, health := 0, present := false }) :=
    (feedStop (hH h)).trans (modHead _ (hH h) fun g => ⟨by simp, (g.1 h).2⟩)
  split <;> first
    | exact rfl'
    | exact m
    | exact modHead (fun x => { x with present := false }) (hH h) fun g => g.1 h

theorem cmdRecover {arg : BitVec 8} (hB : Busy T) : e.Moves T (e.cmdRecover arg).1 := by
  unfold Ev.cmdRecover
  refine headCommand fun h => ?_
  unfold Ev.refused
  simp only
  split
  · exact rfl'
  · have m : e.Moves T (e.setHealth h 128 .recover) := setHealth (hB.1 h) (hB.2.2.2.2 _) fun _ => by decide
    split
    · exact (m.trans (purge _ _ (hB.1 h) (hB.2.2.2.2 _))).trans (feedIssue (hB.1 h) hB.2.1 hB.2.2.2.2)
    · exact m.trans (modHead (fun x => { x with state := .stopped }) (hB.1 h) fun g => g.1 h)

theorem cmdHeadPurge {arg : BitVec 8} (hH : ∀ h, T (.head h)) (hN : ∀ s, T (.notice s)) :
    e.Moves T (e.cmdHeadPurge arg).1 := by
  unfold Ev.cmdHeadPurge
  refine headCommand fun h => ?_
  unfold Ev.refused
  simp only
  split
  · exact rfl'
  · split <;> first
      | exact rfl'
      | exact purge _ _ (hH h) (hN _)

theorem cmdZeroSet {arg : BitVec 8} (hH : ∀ h, T (.head h)) : e.Moves T (e.cmdZeroSet arg).1 := by
  unfold Ev.cmdZeroSet
  refine headCommand fun h => ?_
  unfold Ev.refused
  simp only
  split
  · exact rfl'
  · rename_i w _
    split
    · exact modHead (fun x => { x with zero := w }) (hH h) fun g => g.1 h
    · exact rfl'

theorem cmdApplySide {arg : BitVec 8} (hO : ∀ s, T (.order s)) : e.Moves T (e.cmdApplySide arg).1 := by
  unfold Ev.cmdApplySide Ev.refused
  simp only
  split
  · exact rfl'
  · split
    · exact rfl'
    · rename_i s _
      split
      · exact rfl'
      · split
        · exact rfl'
        · have m : e.Moves T (e.modOrder s fun o =>
              { o with staged := some (sideBlockOf fun i => e.units.mirrorWord (sideBlockOffset s + i)) }) :=
            modOrder _ (hO s) (.inl (Nat.le_refl _))
          split
          · exact m.trans (sideEffect (hO s))
          · exact m

theorem firstFailing_none {l : List Bool} (h : firstFailing l = none) : ∀ b ∈ l, b = true := by
  unfold firstFailing at h
  simp at h
  intro b hb
  cases b with
  | true => rfl
  | false => exact absurd hb h

/-- A zone block that passes the checks of R75 has its initial yield in range. -/
theorem zoneChecks_yield {r : Nat → Word} (h : firstFailing (zoneChecks r) = none) : (zoneBlockOf r).yieldOk := by
  have := firstFailing_none h (0x10 ≤ (r 0x2F).toNat && (r 0x2F).toNat ≤ 1048575) (by simp [zoneChecks])
  simp only [Bool.and_eq_true, decide_eq_true_eq] at this
  exact this

theorem cmdApplyZone {arg : BitVec 8} (hZ : ∀ z, T (.zone z)) : e.Moves T (e.cmdApplyZone arg).1 := by
  unfold Ev.cmdApplyZone Ev.refused
  simp only
  split
  · exact rfl'
  · split
    · exact rfl'
    · rename_i z _
      split
      · exact rfl'
      · split
        · exact rfl'
        · rename_i hc
          have m : e.Moves T (e.modZone z fun o =>
              { o with staged := some (zoneBlockOf fun i => e.units.mirrorWord (zoneBlockOffset z + i)) }) := by
            refine modZone _ (hZ z) (fun b hb => ?_) id
            simp only [Option.some.injEq] at hb
            rcases hb with hb | rfl
            · exact .inl hb
            · exact .inr (.inr (zoneChecks_yield hc))
          split
          · exact m.trans (zoneEffect (hZ z))
          · exact m

theorem cmdNoteAck {s : Side} (hN : T (.notice s)) : e.Moves T (e.cmdNoteAck s).1 := by
  unfold Ev.cmdNoteAck Ev.refused
  split
  · exact rfl'
  · exact modNotice (fun n => { n with notePending := false }) hN id

/-! ### Consume words (R164) -/

/-- Any record of a side's notice unit that keeps the invariants, with more writes. -/
theorem setNotice {s : Side} {x : NoticeSide} (l : List QueueEntry) (hN : T (.notice s))
    (hx : noticeOk (e.units.ringSize s) x) :
    e.Moves T { e with units := e.units.setNotice s x, out := e.out ++ l } :=
  (modNotice (fun _ => x) hN fun _ => hx).trans (append l)

theorem ringWrite_only (e : Ev) (s : Side) (k : BitVec 16) (n : Notice) :
    ∃ x l, e.ringWrite s k n = { e with units := e.units.setNotice s x, out := e.out ++ l } ∧
      x.holding = (e.units.notices.get s).holding := by
  unfold Ev.ringWrite
  simp only
  refine ⟨_, _, rfl, ?_⟩
  simp only
  split <;> rfl

/-- The moves that a consume word makes room for end with an empty holding queue or a full ring (R161, R164). -/
theorem moveHeld_only (s : Side) (l : List (BitVec 16 × Notice)) (e : Ev) (hl : l.length ≤ Config.holdingDepth)
    (hh : (e.units.notices.get s).holding = l) :
    ∃ x out, e.moveHeld s l = { e with units := e.units.setNotice s x, out := e.out ++ out } ∧
      noticeOk (e.units.ringSize s) x := by
  induction l generalizing e with
  | nil =>
    refine ⟨e.units.notices.get s, [], ?_, ?_⟩
    · simp [Ev.moveHeld, Units.setNotice]
    · simp [noticeOk, hh]
  | cons a rest ih =>
    unfold Ev.moveHeld
    split
    · obtain ⟨x, o, hx, hk⟩ := ringWrite_only (e.modNotice s fun r => { r with holding := rest }) s a.1 a.2
      have hr : (((e.modNotice s fun r => { r with holding := rest }).ringWrite s a.1 a.2).units.notices.get s).holding =
          rest := by rw [hx]; simpa using hk
      obtain ⟨y, m, hy, hok⟩ := ih _ (by simp at hl; omega) hr
      refine ⟨y, o ++ m, ?_, ?_⟩
      · rw [hy, hx]
        simp [Units.setNotice]
      · rw [hx] at hok
        exact hok
    · rename_i hf
      refine ⟨e.units.notices.get s, [], ?_, ?_⟩
      · simp [Units.setNotice]
      · refine ⟨by rw [hh]; exact hl, fun _ => by omega⟩

theorem consume {p : Port} {a : Addr} {o : Nat} {s : Side} {w : Word} (hM : T (.mirror o)) (hN : T (.notice s))
    (hR : T (.notice (refusalSide p))) (g : (e.units.notices.get s).holding.length ≤ Config.holdingDepth) :
    e.Moves T (e.consume p a o s w) := by
  unfold Ev.consume
  simp only
  split
  · exact refuse hR
  · have m : e.Moves T ({ e with word := some w }.mirror o w) := (word _).trans (mirror hM)
    refine m.trans ?_
    obtain ⟨x, l, hx, hok⟩ := moveHeld_only s (e.units.notices.get s).holding
      (({ e with word := some w }.mirror o w).modNotice s fun r => { r with consumeIx := w.toNat }) g (by simp [Ev.mirror])
    rw [hx]
    have := setNotice (T := T) (e := { e with word := some w }.mirror o w) (x := x) l hN hok
    simpa [Units.setNotice] using this

/-! ### Requests (08) -/

theorem doubleRequest {s : Side} (hN : T (.notice s)) (hR : T (.release s)) : e.Moves T (e.doubleRequest s) :=
  (setFlag _ hN).trans (modRelease _ hR (.inl (Nat.le_refl _)))

theorem requestEdge {s : Side} (hB : Busy T) : e.Moves T (Ev.requestEdge s e) :=
  (modRelease (fun r => { r with latch := true }) (hB.2.2.2.1 s) (.inl (Nat.le_refl _))).trans (releaseTest hB)

end Ev.Moves

/-! ### What LOAD and the millisecond leave in each field -/

theorem Units.setPart_keeps (u : Units) (x : PartState) (q : Piece) (hq : q ≠ .part) : u.keeps (u.setPart x) q :=
  (Ev.Moves.setPart (T := fun p => p = .part) (e := .begin u false 0) rfl).frame q hq

@[simp] theorem Units.loaded_part (u : Units) : u.loaded.part = .stopped := by unfold Units.loaded; rfl
@[simp] theorem Units.loaded_config (u : Units) : u.loaded.config = some (loadedOf u.mirrorWord) := by unfold Units.loaded; rfl
@[simp] theorem Units.loaded_clock (u : Units) : u.loaded.clock = some (loadedOf u.mirrorWord).clockKHz := by unfold Units.loaded; rfl
@[simp] theorem Units.loaded_cbase (u : Units) : u.loaded.cbase = u.cbase := by unfold Units.loaded; rfl
@[simp] theorem Units.loaded_oneck (u : Units) : u.loaded.oneck = u.oneck := by unfold Units.loaded; rfl
@[simp] theorem Units.loaded_changeCount (u : Units) : u.loaded.changeCount = u.changeCount := by unfold Units.loaded; rfl
@[simp] theorem Units.loaded_mirror (u : Units) : u.loaded.mirror = u.mirror := by unfold Units.loaded; rfl
@[simp] theorem Units.loaded_stage (u : Units) : u.loaded.stage = none := by unfold Units.loaded; rfl
@[simp] theorem Units.loaded_zones (u : Units) : u.loaded.zones = ⟨u.loadZone (loadedOf u.mirrorWord) .z0, u.loadZone (loadedOf u.mirrorWord) .z1⟩ := by unfold Units.loaded; rfl
@[simp] theorem Units.loaded_orders (u : Units) : u.loaded.orders = ⟨u.loadSide (loadedOf u.mirrorWord) .a, u.loadSide (loadedOf u.mirrorWord) .b⟩ := by unfold Units.loaded; rfl
@[simp] theorem Units.loaded_releases (u : Units) : u.loaded.releases = ⟨(u.releases.get .a).unloaded, (u.releases.get .b).unloaded⟩ := by unfold Units.loaded; rfl
@[simp] theorem Units.loaded_notices (u : Units) : u.loaded.notices = ⟨(u.notices.get .a).unloaded, (u.notices.get .b).unloaded⟩ := by unfold Units.loaded; rfl
@[simp] theorem Units.loaded_views (u : Units) : u.loaded.views = ⟨.cleared, .cleared⟩ := by unfold Units.loaded; rfl

theorem Units.loaded_head (u : Units) (h : Fin 32) :
    u.loaded.head h = loadedHead u.loaded.zones (u.loaded.zoneOf h.val) := by
  unfold Units.head Units.loaded
  simp only [Vector.getElem_ofFn, Units.zoneOf]

@[simp] theorem Units.tick_part (u : Units) : u.tick.part = u.part := by unfold Units.tick; rfl
@[simp] theorem Units.tick_config (u : Units) : u.tick.config = u.config := by unfold Units.tick; rfl
@[simp] theorem Units.tick_clock (u : Units) : u.tick.clock = u.clock := by unfold Units.tick; rfl
@[simp] theorem Units.tick_cbase (u : Units) : u.tick.cbase = u.cbase := by unfold Units.tick; rfl
@[simp] theorem Units.tick_oneck (u : Units) : u.tick.oneck = u.oneck := by unfold Units.tick; rfl
@[simp] theorem Units.tick_changeCount (u : Units) : u.tick.changeCount = u.changeCount := by unfold Units.tick; rfl
@[simp] theorem Units.tick_mirror (u : Units) : u.tick.mirror = u.mirror := by unfold Units.tick; rfl
@[simp] theorem Units.tick_stage (u : Units) : u.tick.stage = u.stage := by unfold Units.tick; rfl
@[simp] theorem Units.tick_zones (u : Units) : u.tick.zones = u.zones := by unfold Units.tick; rfl
@[simp] theorem Units.tick_notices (u : Units) : u.tick.notices = u.notices := by unfold Units.tick; rfl
@[simp] theorem Units.tick_views (u : Units) : u.tick.views = u.views := by unfold Units.tick; rfl

theorem Units.tick_head (u : Units) (h : Fin 32) :
    u.tick.head h = { u.head h with timer := (u.head h).timer.tick } := by simp [Units.head, Units.tick]

/-! ### LOAD and UNLOAD keep the invariants -/

theorem cleared_inRange : Head.cleared.inRange := by
  refine ⟨by decide, by decide, by decide, by decide⟩

theorem cleared_agrees : TopFeeder.cleared.agrees := ⟨by decide, by decide, rfl⟩

/-- The units with nothing loaded and their notice units emptied. -/
theorem Units.unloaded_good {u : Units} (g : Cells.wf u.mirror = true) : u.unloaded.Lawful := by
  refine ⟨⟨fun h => ?_, fun z b hb => ?_⟩, fun z => ?_, fun s => ?_, fun s => ?_, g⟩
  · have : u.unloaded.head h = .cleared := by simp [Units.head, Units.unloaded]
    rw [this]
    exact cleared_inRange
  · cases z <;> simp [Units.unloaded, PerZone.get, ZoneRec.cleared] at hb
  · cases z <;> exact cleared_agrees
  · cases s <;> simp [Units.unloaded, PerSide.get, OrderSide.cleared, ReleaseSide.unloaded, ReleaseSide.cleared,
      NoticeSide.unloaded]
  · cases s <;> simp [Units.unloaded, PerSide.get, NoticeSide.unloaded]

/-- A configuration that LOAD accepts has every live zone block's initial yield in range. -/
theorem loadFailure_yield {u : Units} (h : loadFailure u = none) (z : Zone)
    (hz : z.number < (loadedOf u.mirrorWord).zoneCount) :
    (zoneBlockOf fun i => u.mirrorWord (zoneBlockOffset z + i)).yieldOk := by
  apply Ev.Moves.zoneChecks_yield
  unfold loadFailure at h
  simp only [Option.orElse_eq_or, Option.or_eq_none_iff] at h
  obtain ⟨hr, _, _, _, h0, h1⟩ := h
  cases z with
  | z0 => simpa using h0
  | z1 =>
    have hc := Ev.Moves.firstFailing_none (by simpa using hr)
      ((u.mirrorWord 1).toNat == 1 || (u.mirrorWord 1).toNat == 2) (by simp [recordChecks])
    have h2 : (loadedOf u.mirrorWord).zoneCount = 2 := by
      simp only [loadedOf, Zone.number, Bool.or_eq_true, beq_iff_eq] at *
      omega
    rw [if_pos h2] at h1
    simpa using h1

theorem Units.loaded_good {u : Units} (g : Cells.wf u.mirror = true) (h : loadFailure u = none) : u.loaded.Lawful := by
  have hz : ∀ z b, (u.loaded.zones.get z).live = some b → b.yieldOk := by
    intro z b hb
    have : (u.loaded.zones.get z).live = (u.loadZone (loadedOf u.mirrorWord) z).live := by cases z <;> rfl
    rw [this] at hb
    unfold Units.loadZone at hb
    simp only at hb
    split at hb
    · rename_i hn
      cases hb
      exact loadFailure_yield h z hn
    · cases hb
  have g0 := Units.unloaded_good g
  refine ⟨⟨fun k => ?_, fun z b hb => ?_⟩, fun z => ?_, fun s => ?_, fun s => ?_, g⟩
  · rw [u.loaded_head]
    unfold loadedHead
    split
    · exact cleared_inRange
    · rename_i z _
      refine ⟨cleared_inRange.1, cleared_inRange.2.1, ?_⟩
      simp only
      cases hl : (u.loaded.zones.get z).live with
      | none => exact ⟨by decide, by decide⟩
      | some b => exact hz z b hl
  · rcases hb with hb | hb
    · exact hz z b hb
    · cases z <;> simp [Units.loaded, PerZone.get, Units.loadZone, ZoneRec.cleared] at hb
  · cases z <;> exact cleared_agrees
  · have := g0.queues s
    cases s <;> exact ⟨by simp [Units.loaded, PerSide.get, Units.loadSide, OrderSide.cleared], this.2⟩
  · have : (u.loaded.notices.get s).holding = [] := by cases s <;> rfl
    intro hn
    exact absurd this hn

/-! ### Every event keeps the invariants -/

/-- A touch of everything. -/
def anyPiece : Piece → Prop := fun _ => True

theorem anyPiece_commanded : Ev.Moves.Commanded anyPiece :=
  ⟨trivial, fun _ => trivial, fun _ => trivial, fun _ => trivial, fun _ => trivial, fun _ => trivial⟩

theorem Ev.take_good (e : Ev) (slot : Side) (c : Command) (arg : BitVec 8) (g : e.units.Lawful) :
    (e.take slot c arg).1.units.Lawful := by
  have hC := anyPiece_commanded
  cases c
  case load =>
    show e.cmdLoad.1.units.Lawful
    unfold Ev.cmdLoad Ev.refused
    split
    · exact g
    · split
      · exact g
      · rename_i hl
        exact (Ev.Moves.partChange (T := anyPiece) (e := e.mod Units.loaded) trivial fun _ => trivial).good
          (Units.loaded_good g.mirror hl)
  case unload =>
    show e.cmdUnload.1.units.Lawful
    unfold Ev.cmdUnload Ev.refused
    split
    · exact g
    · refine (Ev.Moves.partChange (T := anyPiece) (e := e.mod fun u => { u.unloaded with part := .transparent }) trivial
        fun _ => trivial).good ?_
      obtain ⟨h1, h2, h3, h4, h5⟩ := Units.unloaded_good g.mirror
      exact ⟨h1, h2, h3, h4, h5⟩
  case start => exact (Ev.Moves.cmdStart hC).good g
  case stop => exact (Ev.Moves.cmdStop hC).good g
  case halt => exact (Ev.Moves.cmdHalt hC).good g
  case headEnable => exact (Ev.Moves.cmdHeadEnable hC.2).good g
  case headDisable => exact (Ev.Moves.cmdHeadDisable (T := anyPiece) fun _ => trivial).good g
  case recover => exact (Ev.Moves.cmdRecover hC.2).good g
  case headPurge => exact (Ev.Moves.cmdHeadPurge (T := anyPiece) (fun _ => trivial) fun _ => trivial).good g
  case zeroSet => exact (Ev.Moves.cmdZeroSet (T := anyPiece) fun _ => trivial).good g
  case applySide => exact (Ev.Moves.cmdApplySide (T := anyPiece) fun _ => trivial).good g
  case applyZone => exact (Ev.Moves.cmdApplyZone (T := anyPiece) fun _ => trivial).good g
  case noteAck => exact (Ev.Moves.cmdNoteAck (T := anyPiece) trivial).good g

theorem Ev.command_good (e : Ev) (slot : Side) (w : Word) (g : e.units.Lawful) : (e.command slot w).units.Lawful := by
  unfold Ev.command
  simp only
  refine (Ev.Moves.mirror (T := anyPiece) trivial).good ?_
  simp only
  split
  · exact Ev.take_good _ _ _ _ g
  · exact g

theorem Ev.write_good (p : Port) (a : Addr) (st : BitVec 4) (w : Word) (e : Ev) (g : e.units.Lawful) :
    (Ev.write p a st w e).units.Lawful := by
  have hC := anyPiece_commanded
  unfold Ev.write
  split
  · exact g
  · exact (Ev.Moves.refuse (T := anyPiece) trivial).good g
  · exact (Ev.Moves.reportHeaderWrite hC.1 trivial hC.2).good g
  · exact (Ev.Moves.reportSampleWrite (T := anyPiece) trivial).good g
  · exact (Ev.Moves.orderWord (T := anyPiece) trivial).good g
  · exact (Ev.Moves.commit hC.2).good g
  · exact (Ev.Moves.feedEnvelope (T := anyPiece) trivial trivial).good g
  · exact (Ev.Moves.topEnvelope (T := anyPiece) trivial trivial).good g
  · exact Ev.command_good _ _ _ g
  · exact ((Ev.Moves.mirror (T := anyPiece) trivial).trans (Ev.Moves.modNotice _ trivial id)).good g
  · exact ((Ev.Moves.mirror (T := anyPiece) trivial).trans (Ev.Moves.modNotice _ trivial id)).good g
  · exact (Ev.Moves.consume (T := anyPiece) trivial trivial trivial (g.queues _).2.2).good g
  · exact (Ev.Moves.mirror (T := anyPiece) trivial).good g

theorem Owner.body_good (o : Owner) (e : Ev) (g : e.units.Lawful) : (o.body e).units.Lawful := by
  have hC := anyPiece_commanded
  cases o
  case port => exact g
  case headTimer =>
    unfold Owner.body
    simp only
    split
    · exact g
    · exact (Ev.Moves.expire hC.1 hC.2).good g
    · exact (Ev.Moves.expire hC.1 hC.2).good g
  case hold => exact (Ev.Moves.holdExpiry hC.1 hC.2).good g
  case release => exact (Ev.Moves.pendingRelease hC.2).good g
  case double => exact (Ev.Moves.doubleRequest (T := anyPiece) trivial trivial).good g

theorem Body.good {u : Units} {body : Ev → Ev} (hb : Body u body) (e : Ev) (g : e.units.Lawful) : (body e).units.Lawful := by
  have hC := anyPiece_commanded
  cases hb
  case write => exact Ev.write_good _ _ _ _ e g
  case owner => exact Owner.body_good _ e g
  case edge => exact (Ev.Moves.requestEdge hC.2).good g
  case test => exact (Ev.Moves.releaseTest hC.2).good g
  case expire => exact (Ev.Moves.expire hC.1 hC.2).good g
  case hold => exact (Ev.Moves.holdExpiry hC.1 hC.2).good g
  case double => exact (Ev.Moves.doubleRequest (T := anyPiece) trivial trivial).good g

theorem Units.initial_good (c : BitVec 4) (o : Bool) : (Units.initial c o).Lawful := by
  refine ⟨⟨fun h => ?_, fun z b hb => ?_⟩, fun z => ?_, fun s => ?_, fun s => ?_, rfl⟩
  · have : (Units.initial c o).head h = .cleared := by simp [Units.head, Units.initial]
    rw [this]
    exact cleared_inRange
  · cases z <;> simp [Units.initial, PerZone.get, ZoneRec.cleared] at hb
  · cases z <;> exact cleared_agrees
  · cases s <;> simp [Units.initial, PerSide.get, OrderSide.cleared, ReleaseSide.cleared, NoticeSide.cleared]
  · cases s <;> simp [Units.initial, PerSide.get, NoticeSide.cleared]

/-- Every change of the units keeps the invariants. -/
theorem UnitsMove.good {u v : Units} (m : UnitsMove u v) (g : u.Lawful) : v.Lawful := by
  cases m with
  | event hb r n =>
    refine (Ev.Moves.close (T := anyPiece) (e := _) fun _ => trivial).good ?_
    exact hb.good _ g
  | wait s k =>
    exact (Ev.Moves.modNotice (T := anyPiece) (e := .begin u false 0) (fun n => { n with noteWait := k }) trivial id).good g
  | mark o =>
    unfold Units.markPending
    split
    · exact g
    · split
      · rename_i h _ k _ _
        exact (Ev.Moves.modHead (T := anyPiece) (e := .begin u false 0) (fun x => { x with timer := .expired k }) trivial
          fun g => g.1 h).good g
      · exact g
    · refine (Ev.Moves.modOrder (T := anyPiece) (e := .begin u false 0) (fun q => { q with queue := q.queue.map _ })
        trivial (.inl ?_)).good g
      simp
    · exact (Ev.Moves.modRelease (T := anyPiece) (e := .begin u false 0) (fun r => { r with releasePending := true })
        trivial (.inl (Nat.le_refl _))).good g
    · exact (Ev.Moves.modRelease (T := anyPiece) (e := .begin u false 0) (fun r => { r with doublePending := true })
        trivial (.inl (Nat.le_refl _))).good g
  | tick =>
    obtain ⟨h1, h2, h3, h4, h5⟩ := g
    have hc := u.tick_config
    have hz := u.tick_zones
    have hn := u.tick_notices
    have hm := u.tick_mirror
    refine ⟨⟨fun h => ?_, fun z b => ?_⟩, fun z => ?_, fun s => ?_, fun s => ?_, ?_⟩
    · rw [u.tick_head]
      exact h1.1 h
    · rw [hz]; exact h1.2 z b
    · rw [hz]; exact h2 z
    · have := h3 s
      rw [hn]
      cases s <;> simpa [Units.tick, PerSide.get, OrderSide.tick, ReleaseSide.tick] using this
    · unfold Units.ringSize
      rw [hn, hc]
      exact h4 s
    · rw [hm]; exact h5
  | latch s =>
    obtain ⟨h1, h2, h3, h4, h5⟩ := g
    have hn : (u.latchView s).notices = u.notices := by unfold Units.latchView; rfl
    have hc : (u.latchView s).config = u.config := by unfold Units.latchView; rfl
    refine ⟨h1, h2, h3, fun s => ?_, h5⟩
    unfold Units.ringSize
    rw [hn, hc]
    exact h4 s
  | pulse s =>
    exact (Ev.Moves.modRelease (T := anyPiece) (e := .begin u false 0) (fun r => { r with disch := none }) trivial
      (.inl (Nat.le_refl _))).good g
  | initial c o => exact Units.initial_good c o

end Sys2Proof.Machine
end

