-- ==== Sys2Proof/Laws/Path.lean ====
section
/-! SUPPORT. The memory path: what an access, an event of a unit, a grant to the issue queue and the reset input do
when nothing else waits or is held. -/

namespace Sys2Proof.Machine

/-! ### The arbiter's choice -/

/-- With no port waiting the arbiter grants no port. -/
theorem State.Quiet.choice {s : State} (h : s.Quiet) (p : Port) : s.choice ≠ some (.port p) := by
  unfold State.choice
  split
  · simp
  · intro e
    have := List.find?_some e
    simp [State.waits, (h p).1] at this

/-- With no port waiting there is no grant to make for a port. -/
theorem State.Quiet.servePorts {s : State} (h : s.Quiet) (n : Nat) : State.servePorts n s = s := by
  cases n with
  | zero => rfl
  | succ n =>
    unfold State.servePorts
    split
    · rename_i p hp; exact absurd hp (h.choice p)
    · rfl

theorem State.Quiet.settlePorts {s : State} (h : s.Quiet) : s.settlePorts = s := h.servePorts _

/-- With nothing held the entries available are the free ones. -/
theorem State.available_nil (s : State) : s.available [] = s.free := by simp [State.available]

/-- Nothing waits, so 64 entries are free. -/
theorem State.Clear.free {s : State} (h : s.Clear) : s.free = Config.queueDepth := by
  simp [State.free, h.2, h.1.2.2.1]

/-- Everything fits in 64 entries (R145). -/
theorem fits_queueDepth (n : Nat) : fits n Config.queueDepth = true := by simp [fits]

theorem State.Clear.turn {s : State} (h : s.Clear) (p : Port) : s.Turn p := ⟨h.1, .inl h.2⟩

/-- A port that alone waits has the grant when its turn comes. -/
theorem State.Turn.choice {s t : State} {p : Port} (h : s.Turn p) (hq : t.queue = s.queue)
    (hg : t.lastGranted = s.lastGranted) (hp : (t.front p).current.isSome = true)
    (ho : ∀ q, q ≠ p → (t.front q).current = none) : t.choice = some (.port p) := by
  obtain ⟨_, h⟩ := h
  have hlen : ¬ Config.queueUrgent ≤ t.queue.length := by
    rw [hq]
    rcases h with h | h
    · simp [h, Config.queueUrgent]
    · omega
  have hw : ∀ q, t.waits (.port q) = decide (q = p) := by
    intro q
    by_cases hqp : q = p
    · subst hqp; simpa [State.waits] using hp
    · simp [State.waits, ho q hqp, hqp]
  unfold State.choice
  rw [if_neg hlen, hg]
  rcases h with h | h
  · have hqw : t.waits .queue = false := by simp [State.waits, hq, h]
    cases s.lastGranted with
    | port x => cases x <;> cases p <;> simp [cyclicAfter, hw, hqw]
    | queue => cases p <;> simp [cyclicAfter, hw]
  · have hm := h.2
    cases hx : s.lastGranted with
    | port x => cases x <;> cases p <;> simp_all [cyclicAfter, portsFirst]
    | queue => cases p <;> simp_all [cyclicAfter, portsFirst]

/-! ### An event taken with nothing held -/

theorem State.afterEvent_nil (s : State) : s.afterEvent [] = s := by simp [State.afterEvent, sharedOwners]

@[simp] theorem State.commit_mem (s : State) (e : Ev) : (s.commit e).mem = s.mem := rfl
@[simp] theorem State.commit_ports (s : State) (e : Ev) : (s.commit e).ports = s.ports := rfl
@[simp] theorem State.commit_lastGranted (s : State) (e : Ev) : (s.commit e).lastGranted = s.lastGranted := rfl
@[simp] theorem State.commit_pending (s : State) (e : Ev) : (s.commit e).pending = s.pending := rfl
@[simp] theorem State.commit_front (s : State) (e : Ev) (p : Port) : (s.commit e).front p = s.front p := rfl

@[simp] theorem State.commit_waitingWrites (s : State) (e : Ev) :
    (s.commit e).waitingWrites = s.waitingWrites ++ e.out := by
  simp [State.commit, State.waitingWrites]

@[simp] theorem State.commit_part (s : State) (e : Ev) : (s.commit e).units.part = e.units.part := rfl
@[simp] theorem State.commit_config (s : State) (e : Ev) : (s.commit e).units.config = e.units.config := rfl
@[simp] theorem State.commit_clock (s : State) (e : Ev) : (s.commit e).units.clock = e.units.clock := rfl
@[simp] theorem State.commit_cbase (s : State) (e : Ev) : (s.commit e).units.cbase = e.units.cbase := rfl
@[simp] theorem State.commit_oneck (s : State) (e : Ev) : (s.commit e).units.oneck = e.units.oneck := rfl
@[simp] theorem State.commit_changeCount (s : State) (e : Ev) : (s.commit e).units.changeCount = e.units.changeCount := rfl
@[simp] theorem State.commit_mirror (s : State) (e : Ev) : (s.commit e).units.mirror = e.units.mirror := rfl
@[simp] theorem State.commit_stage (s : State) (e : Ev) : (s.commit e).units.stage = e.units.stage := rfl
@[simp] theorem State.commit_heads (s : State) (e : Ev) : (s.commit e).units.heads = e.units.heads := rfl
@[simp] theorem State.commit_head (s : State) (e : Ev) (h : Fin 32) : (s.commit e).units.head h = e.units.head h := rfl
@[simp] theorem State.commit_zones (s : State) (e : Ev) : (s.commit e).units.zones = e.units.zones := rfl
@[simp] theorem State.commit_orders (s : State) (e : Ev) : (s.commit e).units.orders = e.units.orders := rfl
@[simp] theorem State.commit_releases (s : State) (e : Ev) : (s.commit e).units.releases = e.units.releases := rfl
@[simp] theorem State.commit_views (s : State) (e : Ev) : (s.commit e).units.views = e.units.views := rfl

/-- A notice unit after an event, but for the flag words it awaits. -/
theorem State.commit_notice (s : State) (e : Ev) (side : Side) :
    (s.commit e).units.notices.get side = noteWaits s.units e.units (s.queue ++ s.startTail ++ e.out) side := by
  cases side <;> rfl

/-- An event that leaves note pending as it was leaves the awaited flag words as the event has them. -/
theorem noteWaits_same (before after : Units) (l : List QueueEntry) (side : Side)
    (h : (after.notices.get side).notePending = true → (before.notices.get side).notePending = true) :
    noteWaits before after l side = after.notices.get side := by
  unfold noteWaits
  simp only
  split
  · rename_i hc
    simp only [Bool.and_eq_true, Bool.not_eq_true'] at hc
    rw [h hc.1] at hc
    simp at hc
  · rfl

/-- With nothing held before, a release newly pending is all that an event can put into the held list. -/
theorem heldAfter_nil (u : Units) (h : ∀ s, (u.releases.get s).releasePending = false) : heldAfter u [] = [] := by
  simp [heldAfter, h]

/-- An event with no writes that leaves note pending and the releases alone: only the units change. -/
theorem State.commit_silent (s : State) (e : Ev) (hh : s.held = []) (hs : s.startTail = [] ∨ s.queue.length = 64)
    (hq : s.queue.length ≤ 64) (ho : e.out = [])
    (hn : ∀ side, (e.units.notices.get side).notePending = true → (s.units.notices.get side).notePending = true)
    (hr : ∀ side, (e.units.releases.get side).releasePending = false) : s.commit e = s.setUnits e.units := by
  have hu : (e.units.setNotice .a (noteWaits s.units e.units (s.queue ++ s.startTail ++ e.out) .a)).setNotice .b
      (noteWaits s.units e.units (s.queue ++ s.startTail ++ e.out) .b) = e.units := by
    rw [noteWaits_same _ _ _ _ (hn .a), noteWaits_same _ _ _ _ (hn .b)]
    rfl
  have hw : s.setWrites (s.queue ++ s.startTail ++ e.out) = s := by
    rw [ho, List.append_nil]
    unfold State.setWrites
    rcases hs with hs | hs
    · have h1 : (s.queue ++ s.startTail).take Config.queueDepth = s.queue := by
        rw [hs, List.append_nil]; exact List.take_of_length_le hq
      have h2 : (s.queue ++ s.startTail).drop Config.queueDepth = s.startTail := by
        rw [hs, List.append_nil]; exact List.drop_of_length_le hq
      rw [h1, h2]
    · have h1 : (s.queue ++ s.startTail).take Config.queueDepth = s.queue := by
        rw [show Config.queueDepth = s.queue.length from hs.symm]; simp
      have h2 : (s.queue ++ s.startTail).drop Config.queueDepth = s.startTail := by
        rw [show Config.queueDepth = s.queue.length from hs.symm]; simp
      rw [h1, h2]
  unfold State.commit
  simp only
  rw [hu, hh, heldAfter_nil _ hr]
  have : (s.setUnits e.units).setWrites (s.queue ++ s.startTail ++ e.out) = s.setUnits e.units := by
    have := congrArg (fun t : State => t.setUnits e.units) hw
    exact this
  rw [this]
  unfold State.setHeld State.setUnits
  rw [← hh]

/-- An event that is not held, with nothing held before it. -/
theorem State.takeOrHold_nil (s : State) (o : Owner) (body : Ev → Ev) (hh : s.held = []) :
    s.takeOrHold o body =
      match attempt s.free body s.units with
      | .ok e => s.commit e
      | .error n => (s.setUnits (s.units.markPending o)).setHeld [⟨o, n⟩] := by
  unfold State.takeOrHold
  rw [hh, State.available_nil]
  cases attempt s.free body s.units with
  | ok e => exact State.afterEvent_nil _
  | error n => rfl

/-- With everything clear an event is taken at once. -/
theorem attempt_clear (body : Ev → Ev) (u : Units) :
    attempt Config.queueDepth body u =
      .ok (runEvent true (Config.queueDepth - (runEvent true 0 body u).need) body u) := by
  simp [attempt, fits_queueDepth]

theorem State.Clear.takeOrHold {s : State} (h : s.Clear) (o : Owner) (body : Ev → Ev) :
    s.takeOrHold o body = s.commit (runEvent true (Config.queueDepth - (runEvent true 0 body s.units).need) body s.units) := by
  rw [State.takeOrHold_nil s o body h.1.2.1, h.free, attempt_clear]

/-! ### Accesses -/

/-- The state after a port's write has been performed or refused with nothing held: its event is taken, the word that
goes on is in memory, and the port is acknowledged. -/
def State.taken (s : State) (p : Port) (a : Addr) (st : BitVec 4) (e : Ev) : State :=
  (((s.setGranted (.port p)).commit e).store a st e.word).setFront p
    { current := none, upstream := [], answer := .acknowledged }

/-- The state after a port's write that does not fit: held at its front end. -/
def State.stalled (s : State) (p : Port) (x : Access) (need : Nat) : State :=
  ((s.setGranted (.port p)).setFront p { (s.front p) with current := some x, upstream := [] }).setHeld [⟨.port p, need⟩]

@[simp] theorem State.store_units (s : State) (a : Addr) (st : BitVec 4) (w : Option Word) :
    (s.store a st w).units = s.units := by cases w <;> rfl
@[simp] theorem State.store_queue (s : State) (a : Addr) (st : BitVec 4) (w : Option Word) :
    (s.store a st w).queue = s.queue := by cases w <;> rfl
@[simp] theorem State.store_startTail (s : State) (a : Addr) (st : BitVec 4) (w : Option Word) :
    (s.store a st w).startTail = s.startTail := by cases w <;> rfl
@[simp] theorem State.store_held (s : State) (a : Addr) (st : BitVec 4) (w : Option Word) :
    (s.store a st w).held = s.held := by cases w <;> rfl
@[simp] theorem State.store_ports (s : State) (a : Addr) (st : BitVec 4) (w : Option Word) :
    (s.store a st w).ports = s.ports := by cases w <;> rfl
@[simp] theorem State.store_front (s : State) (a : Addr) (st : BitVec 4) (w : Option Word) (p : Port) :
    (s.store a st w).front p = s.front p := by cases w <;> rfl
@[simp] theorem State.store_lastGranted (s : State) (a : Addr) (st : BitVec 4) (w : Option Word) :
    (s.store a st w).lastGranted = s.lastGranted := by cases w <;> rfl
@[simp] theorem State.store_pending (s : State) (a : Addr) (st : BitVec 4) (w : Option Word) :
    (s.store a st w).pending = s.pending := by cases w <;> rfl
@[simp] theorem State.store_some (s : State) (a : Addr) (st : BitVec 4) (w : Word) :
    s.store a st (some w) = s.setMem (s.mem.write a st w) := rfl
@[simp] theorem State.store_none (s : State) (a : Addr) (st : BitVec 4) : s.store a st none = s := rfl

@[simp] theorem State.front_setFront (s : State) (p q : Port) (f : FrontEnd) :
    (s.setFront p f).front q = if q = p then f else s.front q := by simp [State.front]

theorem State.setFront_setFront (s : State) (p : Port) (f g : FrontEnd) :
    (s.setFront p f).setFront p g = s.setFront p g := by simp [State.setFront]

/-- A port with an idle front end issues an access that is not served: its front end holds it. -/
theorem State.issue_idle (s : State) (p : Port) (x : Access) (hc : (s.front p).current = none)
    (hu : (s.front p).upstream = []) (hx : s.served p x = none) :
    s.issue p x = s.setFront p { (s.front p) with current := some x, upstream := [] } := by
  simp [State.issue, hc, hu, State.present, hx]

/-- A port with nothing issued behind has no next access. -/
theorem State.next_nil (s : State) (p : Port) (hu : (s.front p).upstream = []) : s.next p = s := by
  have hf : ({ (s.front p) with upstream := [] } : FrontEnd) = s.front p := by
    cases hx : s.front p with
    | mk c u x => rw [hx] at hu; simp at hu; simp [hu]
  unfold State.next
  rw [hu]
  unfold State.present
  rw [hf]
  simp [State.setFront, State.front]

/-- A performed write with nothing held before it. -/
theorem State.performed_nil (s : State) (p : Port) (a : Addr) (st : BitVec 4) (e : Ev) (hh : s.held = [])
    (hu : (s.front p).upstream = []) :
    s.performed p a st e =
      ((s.commit e).store a st e.word).setFront p { current := none, upstream := [], answer := .acknowledged } := by
  have h0 : s.setHeld [] = s := by unfold State.setHeld; rw [← hh]
  unfold State.performed
  simp only [hh, List.filter_nil, h0, State.afterEvent_nil]
  rw [State.next_nil _ p (by simp [State.answer, hu])]
  simp [State.answer, hu]

/-- A port alone at the arbiter behind a queue that has entries is not granted again. -/
theorem State.settlePorts_behind (s : State) (p : Port) (hg : s.lastGranted = .port p) (hq : s.queue ≠ [])
    (ho : ∀ q, q ≠ p → (s.front q).current = none) : s.settlePorts = s := by
  have hne : s.queue.isEmpty = false := by cases h : s.queue <;> simp_all
  have hc : s.choice = some .queue := by
    unfold State.choice
    split
    · rfl
    · have hw : ∀ q, q ≠ p → s.waits (.port q) = false := fun q hqp => by simp [State.waits, ho q hqp]
      have hqw : s.waits .queue = true := by simp [State.waits, hne]
      rw [hg]
      cases p <;> simp [cyclicAfter, hw, hqw]
  unfold State.settlePorts
  cases s.waiting + 3 with
  | zero => rfl
  | succ n => unfold State.servePorts; rw [hc]

/-- The grants that follow an access of an idle port whose turn it is: one. -/
theorem State.Turn.access_one {s : State} {p : Port} (h : s.Turn p) (x : Access) (hx : s.served p x = none) :
    s.access p x =
      ((s.setFront p { (s.front p) with current := some x, upstream := [] }).grantPort p).settlePorts := by
  have hp := h.1.1 p
  have hi := State.issue_idle s p x hp.1 hp.2 hx
  have hch : (s.setFront p { (s.front p) with current := some x, upstream := [] }).choice = some (.port p) := by
    apply h.choice
    · rfl
    · rfl
    · simp
    · intro q hq
      simp [hq, (h.1.1 q).1]
  unfold State.access
  simp only [hp.1, hi, Option.isSome_none, Bool.false_or]
  rw [if_neg (by simp)]
  have hf : ∃ n, (s.setFront p { (s.front p) with current := some x, upstream := [] }).grantFuel = n + 1 :=
    ⟨1023 + s.startTail.length, by simp [State.grantFuel]; omega⟩
  obtain ⟨n, hn⟩ := hf
  rw [hn]
  unfold State.until
  rw [hch]
  simp only [if_true]
  rfl

/-- A port whose access is ended, with every other port idle, leaves no grant to make for a port. -/
theorem State.Quiet.ended {s t : State} {p : Port} (h : s.Quiet) (ho : ∀ q, q ≠ p → t.front q = s.front q)
    (hc : (t.front p).current = none) (hu : (t.front p).upstream = []) : t.settlePorts = t := by
  refine State.Quiet.settlePorts fun q => ?_
  by_cases hq : q = p
  · subst hq; exact ⟨hc, hu⟩
  · rw [ho q hq]; exact h q

/-- A write at a grant with nothing held. -/
theorem State.grantWrite_nil (s : State) (p : Port) (a : Addr) (st : BitVec 4) (w : Word) (hh : s.held = []) :
    s.grantWrite p a st w =
      match attempt s.free (Ev.write p a st w) s.units with
      | .ok e => s.performed p a st e
      | .error n => s.setHeld [⟨.port p, n⟩] := by
  unfold State.grantWrite
  rw [hh, aheadOf, List.takeWhile_nil, State.available_nil]
  rfl

/-- What a port's write does when its turn comes: it is taken if its writes fit, and otherwise held (R143). -/
theorem State.Turn.access_write {s : State} {p : Port} (h : s.Turn p) (a : Addr) (st : BitVec 4) (w : Word) :
    s.access p (.write a st w) =
      match attempt s.free (Ev.write p a st w) s.units with
      | .ok e => s.taken p a st e
      | .error n => s.stalled p (.write a st w) n := by
  rw [h.access_one _ rfl]
  generalize ht : (s.setFront p { (s.front p) with current := some (.write a st w), upstream := [] }).setGranted
    (.port p) = t
  have hg : (s.setFront p { (s.front p) with current := some (.write a st w), upstream := [] }).grantPort p =
      t.grantWrite p a st w := by
    rw [← ht]
    unfold State.grantPort
    simp only
    rw [show ((s.setFront p { (s.front p) with current := some (.write a st w), upstream := [] }).setGranted
      (.port p)).front p = { (s.front p) with current := some (.write a st w), upstream := [] } by simp [State.front]]
  have hh : t.held = [] := by rw [← ht]; exact h.1.2.1
  have hf : t.free = s.free := by rw [← ht]; rfl
  have hu : t.units = s.units := by rw [← ht]; rfl
  have hfr : ∀ q, q ≠ p → t.front q = s.front q := by intro q hq; rw [← ht]; simp [State.front, hq]
  rw [hg, State.grantWrite_nil _ _ _ _ _ hh, hf, hu]
  split
  · rename_i e he
    rw [State.performed_nil _ _ _ _ _ hh (by rw [← ht]; simp [State.front])]
    rw [h.1.1.ended (p := p)]
    · rw [← ht]
      unfold State.taken
      cases e.word <;>
        simp [State.commit, State.setMem, State.setFront, State.setHeld, State.setWrites, State.setUnits,
          State.setGranted]
    · intro q hq; simp [hq, hfr q hq]
    · simp
    · simp
  · rename_i n he
    have hqne : s.queue ≠ [] := by
      intro hq
      rcases h.2 with h2 | h2
      · have : s.free = Config.queueDepth := by simp [State.free, h2, h.1.2.2.1]
        rw [this, attempt_clear] at he
        cases he
      · have : s.free = Config.queueDepth := by simp [State.free, hq, h.1.2.2.1]
        rw [this, attempt_clear] at he
        cases he
    rw [State.settlePorts_behind _ p]
    · rw [← ht]; rfl
    · rw [← ht]; rfl
    · rw [← ht]; exact hqne
    · intro q hq
      show (t.front q).current = none
      rw [hfr q hq]
      exact (h.1.1 q).1

/-- A write whose event has been worked out and fits. -/
theorem State.Turn.access_ok {s : State} {p : Port} (h : s.Turn p) {a : Addr} {st : BitVec 4} {w : Word} {e : Ev}
    (he : attempt s.free (Ev.write p a st w) s.units = .ok e) : s.access p (.write a st w) = s.taken p a st e := by
  rw [h.access_write, he]

/-- With everything clear a port's write is taken at once. -/
theorem State.Clear.access_write {s : State} (h : s.Clear) (p : Port) (a : Addr) (st : BitVec 4) (w : Word) :
    s.access p (.write a st w) =
      s.taken p a st (runEvent true (Config.queueDepth - (runEvent true 0 (Ev.write p a st w) s.units).need)
        (Ev.write p a st w) s.units) :=
  (h.turn p).access_ok (by rw [h.free, attempt_clear])

/-- A read that passes to memory when its turn comes: memory's word, and nothing else but the answer (R98, R137). -/
theorem State.Turn.access_read {s : State} {p : Port} (h : s.Turn p) (a : Addr) (st : BitVec 4)
    (hs : s.units.servedAt p a = none) :
    s.access p (.read a st) =
      (s.setGranted (.port p)).setFront p { current := none, upstream := [], answer := .data (s.mem.word a) } := by
  rw [h.access_one (.read a st) hs]
  generalize ht : (s.setFront p { (s.front p) with current := some (.read a st), upstream := [] }).setGranted
    (.port p) = t
  have hg : (s.setFront p { (s.front p) with current := some (.read a st), upstream := [] }).grantPort p =
      t.grantRead p a := by
    rw [← ht]
    unfold State.grantPort
    simp only
    rw [show ((s.setFront p { (s.front p) with current := some (.read a st), upstream := [] }).setGranted
      (.port p)).front p = { (s.front p) with current := some (.read a st), upstream := [] } by simp [State.front]]
  have hu : t.units = s.units := by rw [← ht]; rfl
  have hm : t.mem = s.mem := by rw [← ht]; rfl
  have hfr : ∀ q, q ≠ p → t.front q = s.front q := by intro q hq; rw [← ht]; simp [State.front, hq]
  have hfp : (t.front p).upstream = [] := by rw [← ht]; simp [State.front]
  have hr : t.grantRead p a = t.answer p (.data (s.mem.word a)) := by
    unfold State.grantRead
    rw [hu, hs, hm]
    simp only
    rw [State.next_nil _ p (by simp [State.answer, hfp])]
  rw [hg, hr, h.1.1.ended (p := p)]
  · rw [← ht]; simp [State.answer, State.setFront, State.setGranted, State.front]
  · intro q hq; simp [State.answer, hq, hfr q hq]
  · simp [State.answer]
  · simp [State.answer, hfp]

/-- A read that the part serves, at an idle port with nothing behind: answered at once (R91). -/
theorem State.access_served {s : State} {p : Port} (hc : (s.front p).current = none) (hu : (s.front p).upstream = [])
    (a : Addr) (st : BitVec 4) {side : Side} {off : Nat} (hs : s.units.servedAt p a = some (side, off)) :
    s.access p (.read a st) =
      (s.setUnits (if off = 0 then s.units.latchView side else s.units)).setFront p
        { current := none, upstream := [],
          answer := .data ((if off = 0 then s.units.latchView side else s.units).viewWord side off) } := by
  have hsv : s.served p (.read a st) = some (side, off) := hs
  have hi : s.issue p (.read a st) = State.present p [] (s.serve p side off) := by
    unfold State.issue
    simp only [hc, Option.isSome_none, hu, List.nil_append, Bool.false_eq_true, if_false]
    have hcons : State.present p [.read a st] s = match s.served p (.read a st) with
        | some (x, o) => State.present p [] (s.serve p x o)
        | none => s.setFront p { s.front p with current := some (.read a st), upstream := [] } := rfl
    rw [hcons, hsv]
  have hpr : State.present p [] (s.serve p side off) = s.serve p side off := by
    have := State.next_nil (s.serve p side off) p (by simp [State.serve, State.answer, State.front] at *; exact hu)
    unfold State.next at this
    rw [show ((s.serve p side off).front p).upstream = [] by
      simp [State.serve, State.answer, State.front] at *; exact hu] at this
    exact this
  unfold State.access
  simp only
  rw [hi, hpr, if_pos (by simp [State.serve, State.answer])]
  simp [State.serve, State.answer, State.front] at *
  rw [hu]

/-! ### The issue queue -/

/-- Nothing is held: no test takes or changes anything. -/
theorem State.retest_nil (s : State) (n place : Nat) (hh : s.held = []) : State.retest n place s = s := by
  cases n with
  | zero => rfl
  | succ n =>
    have h0 : s.setHeld [] = s := by unfold State.setHeld; rw [← hh]
    unfold State.retest
    simp [hh, State.scan, h0]

theorem State.writeEntry_held (s : State) : s.writeEntry.held = s.held := by
  unfold State.writeEntry
  split <;> rfl

theorem State.writeEntry_ports (s : State) : s.writeEntry.ports = s.ports := by
  unfold State.writeEntry
  split <;> rfl

/-- A grant to the issue queue with nothing held: the oldest entry is written (R142). -/
theorem State.grantQueue_nil (s : State) (hh : s.held = []) (hq : s.queue ≠ []) : s.grantQueue = s.writeEntry := by
  unfold State.grantQueue
  rw [if_neg (by simpa using hq), State.retest_nil _ _ _ (by rw [State.writeEntry_held, hh])]

/-- The issue queue's turn with no port waiting and nothing held (R141, R142). -/
theorem State.Quiet.drain {s : State} (h : s.Quiet) (hh : s.held = []) (hq : s.queue ≠ []) : s.drain = s.writeEntry := by
  have hne : s.queue.isEmpty = false := by cases h : s.queue <;> simp_all
  have hc : s.choice = some .queue := by
    unfold State.choice
    split
    · rfl
    · have hw : ∀ q, s.waits (.port q) = false := fun q => by simp [State.waits, (h q).1]
      have hqw : s.waits .queue = true := by simp [State.waits, hne]
      cases s.lastGranted with
      | port x => cases x <;> simp [cyclicAfter, hw, hqw]
      | queue => simp [cyclicAfter, hw, hqw]
  have hf : s.grantFuel = (1023 + s.startTail.length) + 1 := by simp [State.grantFuel]; omega
  unfold State.drain
  rw [hne, hf]
  unfold State.until
  rw [hc]
  simp only [Bool.false_eq_true, if_false, if_true]
  rw [show s.grant .queue = s.writeEntry from State.grantQueue_nil s hh hq]
  refine State.Quiet.settlePorts fun q => ?_
  have := h q
  simp only [State.front, State.writeEntry_ports] at *
  exact this

end Sys2Proof.Machine
end

