-- ==== Sys2Proof/Laws/Exact.lean ====
section
/-! SUPPORT. The end of an event, exactly: what the flag words and note pending become, and what an event that is taken
leaves in the state; then the same for a port's write and for a command word. -/

namespace Sys2Proof.Machine

/-! ### The end of an event (R165, R167) -/

/-- A notice unit at the end of an event that it began as old. -/
def NoticeSide.closed (old n : NoticeSide) : NoticeSide :=
  { n with
    notePending := n.notePending || flagRises old n
    lastFlagWord := if n.flagWord = old.flagWord ∨ n.flagWord = n.lastFlagWord then n.lastFlagWord else n.flagWord }

/-- The flag word that the end of an event queues for a side. -/
def flagEntry (u : Units) (s : Side) (old n : NoticeSide) : List QueueEntry :=
  if n.flagWord = old.flagWord ∨ n.flagWord = n.lastFlagWord then [] else [⟨u.flagAddr s, n.flagWord⟩]

theorem Ev.closeSide_eq (u : Units) (s : Side) (e : Ev) :
    e.closeSide u s =
      { e with
        units := e.units.setNotice s ((u.notices.get s).closed (e.units.notices.get s))
        out := e.out ++ flagEntry e.units s (u.notices.get s) (e.units.notices.get s) } := by
  unfold Ev.closeSide NoticeSide.closed flagEntry
  simp only [Ev.modNotice_units, Units.setNotice_notices, PerSide.get_set, if_true]
  have hw : ∀ n : NoticeSide, NoticeSide.flagWord { n with notePending := n.notePending || flagRises (u.notices.get s) n } =
      n.flagWord := fun n => rfl
  split
  · rename_i h
    rw [hw] at h
    simp only [h, if_true, List.append_nil]
    rfl
  · rename_i h
    rw [hw] at h
    simp only [h, if_false]
    unfold Ev.push Ev.modNotice
    simp only [Units.setNotice_notices, PerSide.get_set, if_true, hw]
    congr 1
    unfold Units.setNotice
    simp

theorem Ev.close_eq (u : Units) (e : Ev) :
    e.close u =
      { e with
        units := (e.units.setNotice .a ((u.notices.get .a).closed (e.units.notices.get .a))).setNotice .b
          ((u.notices.get .b).closed (e.units.notices.get .b))
        out := e.out ++ flagEntry e.units .a (u.notices.get .a) (e.units.notices.get .a) ++
          flagEntry e.units .b (u.notices.get .b) (e.units.notices.get .b) } := by
  unfold Ev.close
  rw [Ev.closeSide_eq, Ev.closeSide_eq]
  simp [flagEntry, Units.flagAddr, Units.controlBase]

theorem NoticeSide.closed_sameAs (old n : NoticeSide) : (old.closed n).sameAs n := ⟨rfl, rfl, rfl, rfl, rfl, rfl, rfl⟩

theorem NoticeSide.closed_flagWord (old n : NoticeSide) : (old.closed n).flagWord = n.flagWord := rfl

theorem NoticeSide.closed_self (n : NoticeSide) : n.closed n = n := by
  have : flagRises n n = false := by
    unfold flagRises
    simp
  simp [NoticeSide.closed, this]

/-! ### An event that is taken -/

/-- A piece that is no notice unit is after the commit what the event made of it. -/
theorem State.commit_piece (s : State) (e : Ev) (p : Piece) (hp : ∀ side, p ≠ .notice side) :
    e.units.keeps (s.commit e).units p := by
  cases p <;> first
    | exact absurd rfl (hp _)
    | exact ⟨rfl, rfl⟩
    | exact ⟨rfl, rfl, rfl, rfl⟩
    | rfl

theorem noteWaits_sameAs (before after : Units) (l : List QueueEntry) (side : Side) :
    (noteWaits before after l side).sameAs (after.notices.get side) := by
  unfold noteWaits
  simp only
  split <;> exact ⟨rfl, rfl, rfl, rfl, rfl, rfl, rfl⟩

theorem NoticeSide.sameAs.trans {n m k : NoticeSide} (h : n.sameAs m) (g : m.sameAs k) : n.sameAs k := by
  obtain ⟨h1, h2, h3, h4, h5, h6, h7⟩ := h
  obtain ⟨g1, g2, g3, g4, g5, g6, g7⟩ := g
  exact ⟨h1.trans g1, h2.trans g2, h3.trans g3, h4.trans g4, h5.trans g5, h6.trans g6, h7.trans g7⟩

theorem NoticeSide.sameAs.flagWord {n m : NoticeSide} (h : n.sameAs m) : n.flagWord = m.flagWord := by
  obtain ⟨h1, _, _, _, _, h6, h7⟩ := h
  unfold NoticeSide.flagWord
  rw [h1, h6, h7]

theorem Ev.close_notice (u : Units) (e : Ev) (side : Side) :
    (e.close u).units.notices.get side = (u.notices.get side).closed (e.units.notices.get side) := by
  rw [Ev.close_eq]
  cases side <;> simp

/-- The notice units after an event that is taken, but for the NOTE line's bookkeeping. -/
theorem State.commit_sameAs (s : State) (e : Ev) (side : Side) :
    ((s.commit (e.close s.units)).units.notices.get side).sameAs (e.units.notices.get side) := by
  rw [State.commit_notice]
  refine (noteWaits_sameAs ..).trans ?_
  rw [Ev.close_notice]
  exact NoticeSide.closed_sameAs _ _

/-- An event leaves a notice unit alone that none of its effects touches. -/
theorem State.commit_notice_same (s : State) (e : Ev) (side : Side)
    (h : e.units.notices.get side = s.units.notices.get side) :
    (s.commit (e.close s.units)).units.notices.get side = s.units.notices.get side := by
  have hc : (e.close s.units).units.notices.get side = s.units.notices.get side := by
    rw [Ev.close_notice, h, NoticeSide.closed_self]
  rw [State.commit_notice, noteWaits_same _ _ _ _ (by rw [hc]; exact id), hc]

theorem Ev.close_piece (u : Units) (e : Ev) (p : Piece) (hp : ∀ side, p ≠ .notice side) :
    e.units.keeps (e.close u).units p := by
  rw [Ev.close_eq]
  cases p <;> first
    | exact absurd rfl (hp _)
    | exact ⟨rfl, rfl⟩
    | exact ⟨rfl, rfl, rfl, rfl⟩
    | rfl

/-- Every piece that an event's effects leave alone is left alone when the event is taken. -/
theorem State.commit_keeps (s : State) (e : Ev) (p : Piece) (h : s.units.keeps e.units p) :
    s.units.keeps (s.commit (e.close s.units)).units p := by
  by_cases hp : ∀ side, p ≠ .notice side
  · exact Ev.Moves.keeps_trans (Ev.Moves.keeps_trans h (Ev.close_piece _ _ _ hp)) (State.commit_piece _ _ _ hp)
  · have : ∃ side, p = .notice side := by
      by_contra hc
      exact hp fun side hs => hc ⟨side, hs⟩
    obtain ⟨side, rfl⟩ := this
    exact State.commit_notice_same s e side h

/-- A piece that is no notice unit, after an event that is taken. -/
theorem State.commit_close_piece (s : State) (e : Ev) (p : Piece) (hp : ∀ side, p ≠ .notice side) :
    e.units.keeps (s.commit (e.close s.units)).units p :=
  Ev.Moves.keeps_trans (Ev.close_piece _ _ _ hp) (State.commit_piece _ _ _ hp)

/-- What the NOTE line and the flag words remember of a side is the same. -/
def NoticeSide.noteKept (n m : NoticeSide) : Prop :=
  m.lastFlagWord = n.lastFlagWord ∧ m.noteWait = n.noteWait ∧ m.notePending = n.notePending

/-- The flag word that an event's end queues for a side is the one its change asks for (R165). -/
theorem flagEntry_eq (u v : Units) (side : Side) (n : NoticeSide) (hc : v.cbase = u.cbase)
    (hl : n.lastFlagWord = (u.notices.get side).lastFlagWord) (m : NoticeSide) (hm : m.flagWord = n.flagWord) :
    flagEntry v side (u.notices.get side) n = u.flagQueued side m := by
  unfold flagEntry Units.flagQueued Units.flagAddr Units.controlBase
  rw [hc, hl, hm]

theorem Ev.close_cbase (u : Units) (e : Ev) : (e.close u).units.cbase = e.units.cbase := by rw [Ev.close_eq]; rfl

/-- The flag words of an event that is taken, and what the NOTE line then waits for (R165, R167). -/
theorem State.commit_flagWords (s : State) (e : Ev) (hc : e.units.cbase = s.units.cbase)
    (hl : ∀ side, (e.units.notices.get side).lastFlagWord = (s.units.notices.get side).lastFlagWord)
    (hw : ∀ side, (e.units.notices.get side).noteWait = (s.units.notices.get side).noteWait) :
    s.FlagWords (s.commit (e.close s.units)) e.out := by
  have hf : ∀ side, flagEntry e.units side (s.units.notices.get side) (e.units.notices.get side) =
      s.units.flagQueued side ((s.commit (e.close s.units)).units.notices.get side) := fun side =>
    flagEntry_eq _ _ _ _ hc (hl side) _ (State.commit_sameAs s e side).flagWord
  have hwr : (s.commit (e.close s.units)).waitingWrites = s.waitingWrites ++ e.out ++
      s.units.flagQueued .a ((s.commit (e.close s.units)).units.notices.get .a) ++
      s.units.flagQueued .b ((s.commit (e.close s.units)).units.notices.get .b) := by
    rw [← hf .a, ← hf .b, State.commit_waitingWrites, Ev.close_eq]
    simp
  refine ⟨hwr, fun side => ?_⟩
  have hn : (s.commit (e.close s.units)).units.notices.get side = noteWaits s.units (e.close s.units).units
      (s.commit (e.close s.units)).waitingWrites side := by
    rw [State.commit_notice, State.commit_waitingWrites]
    rfl
  have hclosed := Ev.close_notice s.units e side
  have hlast : ((s.commit (e.close s.units)).units.notices.get side).lastFlagWord =
      ((e.close s.units).units.notices.get side).lastFlagWord := by
    rw [hn]; unfold noteWaits; simp only; split <;> rfl
  have hpend : ((s.commit (e.close s.units)).units.notices.get side).notePending =
      ((e.close s.units).units.notices.get side).notePending := by
    rw [hn]; unfold noteWaits; simp only; split <;> rfl
  simp only
  constructor
  · rw [hlast, hclosed, ← hf side]
    unfold NoticeSide.closed flagEntry
    have := (State.commit_sameAs s e side).flagWord
    simp only [this, hl side]
    split <;> simp
  · rw [hpend]
    rw [hn]
    unfold noteWaits
    simp only [Bool.and_eq_true, Bool.not_eq_true']
    have ha : (e.close s.units).units.flagAddr side = s.units.flagAddr side := by
      unfold Units.flagAddr Units.controlBase; rw [Ev.close_cbase, hc]
    split
    · unfold flagWords; rw [ha]
    · rw [hclosed]; exact hw side

/-- The writes of an event that is taken stand behind those that waited, its flag words last (R165). -/
theorem State.commit_sent (s : State) (e : Ev) (hc : e.units.cbase = s.units.cbase)
    (hn : ∀ side, (s.units.notices.get side).noteKept (e.units.notices.get side)) :
    s.Sent (s.commit (e.close s.units)) e.out := by
  refine ⟨State.commit_flagWords s e hc (fun side => (hn side).1) fun side => (hn side).2.1, fun side => ?_⟩
  have h : ((s.commit (e.close s.units)).units.notices.get side).notePending =
      ((e.close s.units).units.notices.get side).notePending := by
    rw [State.commit_notice]; unfold noteWaits; simp only; split <;> rfl
  have hr : flagRises (s.units.notices.get side) ((s.commit (e.close s.units)).units.notices.get side) =
      flagRises (s.units.notices.get side) (e.units.notices.get side) := by
    have := State.commit_sameAs s e side
    unfold flagRises
    rw [this.2.2.2.2.2.1, this.2.2.2.2.2.2]
  rw [h, hr, Ev.close_notice]
  unfold NoticeSide.closed
  simp only [(hn side).2.2]

/-- An event that leaves both notice units alone queues no flag word. -/
theorem flagEntry_same (u : Units) (side : Side) (n : NoticeSide) : flagEntry u side n n = [] := by simp [flagEntry]

/-- An event that queues nothing and changes no flag word adds nothing to the writes that wait. -/
theorem State.commit_silent_writes (s : State) (e : Ev) (ho : e.out = [])
    (hf : ∀ side, (e.units.notices.get side).flagWord = (s.units.notices.get side).flagWord) :
    (s.commit (e.close s.units)).waitingWrites = s.waitingWrites := by
  rw [State.commit_waitingWrites, Ev.close_eq]
  simp [flagEntry, hf, ho]

/-- An event with no effect on releases pending, with nothing held before it, holds nothing. -/
theorem State.commit_held (s : State) (e : Ev) (hh : s.held = [])
    (hr : ∀ side, (e.units.releases.get side).releasePending = false) : (s.commit (e.close s.units)).held = [] := by
  have : (s.commit (e.close s.units)).held = heldAfter (s.commit (e.close s.units)).units s.held := rfl
  rw [this, hh, heldAfter_nil]
  intro side
  have := State.commit_close_piece s e (.release side) (by simp)
  simp only [Units.keeps] at this
  rw [this]
  exact hr side

/-! ### A port's write (R133, R139) -/

theorem Memory.wrote (m : Memory) (a : Addr) (w : Word) (h : m.wf = true) :
    (m.write a allStrobes w).word a = w ∧
      ∀ b lane, lane < 4 → b ≠ a → (m.write a allStrobes w).byte b lane = m.byte b lane := by
  refine ⟨Memory.word_write_all m a w h, fun b lane hl hb => ?_⟩
  rw [Memory.byte_write m a b _ w lane h hl, if_neg (fun c => hb c.1)]

/-- A port's write with nothing held, whose word goes on as w. -/
theorem State.taken_wrote {s : State} (hc : s.Calm) (p : Port) (a : Addr) (e : Ev) (w : Word) (hw : e.word = some w) :
    s.Wrote (s.taken p a allStrobes e) p a w := by
  unfold State.taken State.Wrote
  rw [hw]
  obtain ⟨h1, h2⟩ := Memory.wrote s.mem a w hc.2.2.2.2.1
  exact ⟨h1, h2, rfl, rfl, rfl⟩

theorem State.taken_units (s : State) (p : Port) (a : Addr) (st : BitVec 4) (e : Ev) :
    (s.taken p a st e).units = (s.commit e).units := by
  simp [State.taken, State.commit]

theorem State.taken_waitingWrites (s : State) (p : Port) (a : Addr) (st : BitVec 4) (e : Ev) :
    (s.taken p a st e).waitingWrites = (s.commit e).waitingWrites := by
  simp [State.taken, State.waitingWrites, State.commit]

theorem State.taken_held (s : State) (p : Port) (a : Addr) (st : BitVec 4) (e : Ev) :
    (s.taken p a st e).held = (s.commit e).held := by
  simp [State.taken, State.commit]

/-- A write whose word is refused leaves memory as it was, and is acknowledged (R138). -/
theorem State.taken_none (s : State) (p : Port) (a : Addr) (st : BitVec 4) (e : Ev) (hw : e.word = none) :
    (s.taken p a st e).mem = s.mem ∧
      (s.taken p a st e).ports = s.ports.set p { current := none, upstream := [], answer := .acknowledged } ∧
      (s.taken p a st e).lastGranted = .port p ∧ (s.taken p a st e).pending = s.pending := by
  unfold State.taken
  rw [hw]
  exact ⟨rfl, rfl, rfl, rfl⟩

/-- A port's write puts out what its event puts out. -/
theorem State.taken_flagWords {s : State} {p : Port} {a : Addr} {st : BitVec 4} {e : Ev} {l : List QueueEntry}
    (h : s.FlagWords (s.commit e) l) : s.FlagWords (s.taken p a st e) l := by
  unfold State.FlagWords at *
  rw [State.taken_waitingWrites, State.taken_units]
  exact h

/-- The write events that need no entry are taken whatever is free. -/
theorem attempt_silent {n : Nat} {body : Ev → Ev} {u : Units} (h : (runEvent true 0 body u).need = 0) :
    attempt n body u = .ok (runEvent true n body u) := by
  simp [attempt, h, fits]

/-! ### Head notices, exactly (R161, R162) -/

/-- What a head notice does depends on the event's units only, and changes a notice unit and the writes only. -/
theorem Ev.headNotice_eq (e : Ev) (s : Side) (n : Notice) :
    e.headNotice s n =
      { e with
        units := e.units.setNotice s ((e.units.heard s n).units.notices.get s)
        out := e.out ++ (e.units.heard s n).out } := by
  unfold Units.heard Ev.headNotice
  have hr : (Ev.takeNumber (.begin e.units false 0) s).hasRoom s = (e.takeNumber s).hasRoom s := rfl
  have hg : (Ev.takeNumber (.begin e.units false 0) s).ringOpen s = (e.takeNumber s).ringOpen s := rfl
  simp only [hr]
  split
  · unfold Ev.place
    simp only [hg]
    split
    · unfold Ev.ringWrite Ev.takeNumber Ev.modNotice Ev.begin
      simp [Units.setNotice, Units.base, Units.ringSize]
    · unfold Ev.holdNotice Ev.takeNumber Ev.modNotice Ev.begin
      simp [Units.setNotice]
  · unfold Ev.setFlag Ev.takeNumber Ev.modNotice Ev.begin
    simp [Units.setNotice]

/-- What a side hears depends on its notice unit and on the loaded configuration only. -/
theorem Units.heard_congr {u v : Units} (s : Side) (n : Notice) (hc : v.config = u.config)
    (hn : v.notices.get s = u.notices.get s) :
    (v.heard s n).units.notices.get s = (u.heard s n).units.notices.get s ∧ (v.heard s n).out = (u.heard s n).out := by
  have hb : ∀ w, v.base w = u.base w := fun w => by unfold Units.base; rw [hc]
  have hz : ∀ w, v.ringSize w = u.ringSize w := fun w => by unfold Units.ringSize; rw [hc]
  have hr : (Ev.takeNumber (.begin v false 0) s).hasRoom s = (Ev.takeNumber (.begin u false 0) s).hasRoom s := by
    unfold Ev.hasRoom Ev.takeNumber
    have h1 : (Ev.modNotice (.begin v false 0) s fun r => { r with number := r.number + 1 }).units.ringSize s =
      (Ev.modNotice (.begin u false 0) s fun r => { r with number := r.number + 1 }).units.ringSize s := hz s
    simp only [h1]
    simp [hn]
  have hg : (Ev.takeNumber (.begin v false 0) s).ringOpen s = (Ev.takeNumber (.begin u false 0) s).ringOpen s := by
    unfold Ev.ringOpen Ev.takeNumber
    have h1 : (Ev.modNotice (.begin v false 0) s fun r => { r with number := r.number + 1 }).units.ringSize s =
      (Ev.modNotice (.begin u false 0) s fun r => { r with number := r.number + 1 }).units.ringSize s := hz s
    simp only [h1]
    simp [hn]
  unfold Units.heard Ev.headNotice
  simp only [hr]
  split
  · unfold Ev.place
    simp only [hg]
    split
    · unfold Ev.ringWrite
      have h1 : (Ev.takeNumber (.begin v false 0) s).units.ringSize s = (Ev.takeNumber (.begin u false 0) s).units.ringSize s :=
        hz s
      have h2 : (Ev.takeNumber (.begin v false 0) s).units.base (.notice s) =
        (Ev.takeNumber (.begin u false 0) s).units.base (.notice s) := hb _
      simp only [h1, h2]
      unfold Ev.takeNumber
      simp [hn]
    · unfold Ev.holdNotice Ev.takeNumber
      simp [hn]
  · unfold Ev.setFlag Ev.takeNumber
    simp [hn]

/-! ### Purges and feeds, exactly (R19, R20, R59 to R61, R129) -/

theorem Units.setHead_params (u : Units) (h g : Fin 32) (x : Head) : (u.setHead h x).params g = u.params g := rfl

theorem Ev.purgeGate_eq (e : Ev) (h : Fin 32) (r : PurgeReason) :
    e.purgeGate h r =
      { e with
        units := e.units.setHead h ((e.units.head h).purged r (e.units.params h).gateLimit)
        out := e.out ++ [e.units.purgeEntry h r] } := by
  unfold Ev.purgeGate Ev.enterDischarge Ev.startTimer Ev.gateCommand Ev.modHead Ev.push Head.purged Units.purgeEntry
  simp [Units.setHead_params, ZoneBlock.limit, Units.base]

theorem Ev.purge_eq (e : Ev) (h : Fin 32) (r : PurgeReason) (w : Option Int) :
    e.purge h r w =
      { e with
        units := (e.units.setHead h ((e.units.head h).purged r (e.units.params h).gateLimit)).setNotice
          (e.units.reportingHead h) ((e.units.heard (e.units.reportingHead h)
            (.purge h r ((e.units.head h).gateSeq + 1) w)).units.notices.get (e.units.reportingHead h))
        out := e.out ++ (e.units.purgeEntry h r ::
          (e.units.heard (e.units.reportingHead h) (.purge h r ((e.units.head h).gateSeq + 1) w)).out) } := by
  unfold Ev.purge
  simp only
  rw [Ev.headNotice_eq, Ev.purgeGate_eq]
  have hr : (e.units.setHead h ((e.units.head h).purged r (e.units.params h).gateLimit)).reportingHead h =
    e.units.reportingHead h := rfl
  have hg : ((e.units.setHead h ((e.units.head h).purged r (e.units.params h).gateLimit)).head h).gateSeq =
    (e.units.head h).gateSeq + 1 := by simp [Head.purged]
  simp only [hr, hg]
  obtain ⟨h1, h2⟩ := Units.heard_congr (u := e.units)
    (v := e.units.setHead h ((e.units.head h).purged r (e.units.params h).gateLimit)) (e.units.reportingHead h)
    (.purge h r ((e.units.head h).gateSeq + 1) w) rfl rfl
  rw [h1, h2]
  simp

theorem Ev.feed_eq (e : Ev) (h : Fin 32) (a t : Nat) :
    e.feed h a t =
      { e with
        units := e.units.setHead h ((e.units.head h).fed t)
        out := e.out ++ [e.units.feedEntry h a t ((e.units.head h).feedSeq + 1)] } := by
  unfold Ev.feed Ev.feedOrder Ev.modHead Ev.push Head.fed Units.feedEntry
  simp [Units.base]

theorem Ev.feedStop_eq (e : Ev) (h : Fin 32) :
    e.feedStop h =
      { e with
        units := e.units.setHead h (e.units.head h).unfed
        out := e.out ++ [e.units.feedEntry h 0 0 ((e.units.head h).feedSeq + 1)] } := by
  unfold Ev.feedStop Ev.feedOrder Ev.modHead Ev.push Head.unfed Units.feedEntry
  simp [Units.base]

/-- A notice unit with a flag set. -/
theorem NoticeSide.setFlag_sameAs (n : NoticeSide) (f : Flag) : (n.setFlag f).sameAs { n with flags := n.flags ||| f.mask } :=
  ⟨rfl, rfl, rfl, rfl, rfl, rfl, rfl⟩

/-- A part-state change, exactly: the change count, the status word, and PART-STATE on both sides (R158). -/
theorem Ev.partChange_eq (e : Ev) :
    e.partChange =
      { e with
        units := (({ e.units with changeCount := e.units.changeCount + 1 } : Units).setNotice .a
          ((e.units.notices.get .a).setFlag .partState)).setNotice .b ((e.units.notices.get .b).setFlag .partState)
        out := e.out ++ [e.units.statusEntry e.units.part] } := by
  unfold Ev.partChange Ev.setFlag Ev.modNotice Ev.push Ev.mod Units.statusEntry
  simp [Units.statusAddr, Units.controlBase]

theorem Ev.partChange_part (e : Ev) : e.partChange.units.part = e.units.part := by rw [Ev.partChange_eq]; rfl

theorem Ev.partChange_count (e : Ev) : e.partChange.units.changeCount = e.units.changeCount + 1 := by
  rw [Ev.partChange_eq]; rfl

/-- The latches cleared and the staged blocks taking effect leave every other piece and the writes alone. -/
theorem Ev.effects_keeps (e : Ev) (p : Piece) (hr : ∀ s, p ≠ .release s) (ho : ∀ s, p ≠ .order s) (hz : ∀ z, p ≠ .zone z) :
    e.units.keeps e.clearLatches.allEffects.units p :=
  ((Ev.Moves.clearLatches (T := fun q => (∃ s, q = .release s) ∨ (∃ s, q = .order s) ∨ ∃ z, q = .zone z) (e := e)
    fun s => .inl ⟨s, rfl⟩).trans (Ev.Moves.allEffects (fun s => .inr (.inl ⟨s, rfl⟩)) fun z => .inr (.inr ⟨z, rfl⟩))).frame p
    (by rintro (⟨s, h⟩ | ⟨s, h⟩ | ⟨z, h⟩); exacts [hr s h, ho s h, hz z h])

theorem Ev.effects_out (e : Ev) : e.clearLatches.allEffects.out = e.out := by
  simp only [Ev.clearLatches, Ev.allEffects, Ev.sideEffect, Ev.zoneEffect, Ev.modRelease_out, Ev.modOrder_out,
    Ev.modZone_out]

theorem Ev.effects_release (e : Ev) (s : Side) : e.clearLatches.allEffects.units.releases.get s =
    { e.units.releases.get s with latch := false, releasePending := false } := by
  simp only [Ev.clearLatches, Ev.allEffects, Ev.sideEffect, Ev.zoneEffect, Ev.modRelease_units, Ev.modOrder_units,
    Ev.modZone_units, Units.setZone_releases, Units.setOrder_releases, Units.setRelease_releases]
  cases s <;> simp

theorem Ev.effects_order (e : Ev) (s : Side) : e.clearLatches.allEffects.units.orders.get s =
    (e.units.orders.get s).effect := by
  simp only [Ev.clearLatches, Ev.allEffects, Ev.sideEffect, Ev.zoneEffect, Ev.modRelease_units, Ev.modOrder_units,
    Ev.modZone_units, Units.setZone_orders, Units.setOrder_orders, Units.setRelease_orders]
  cases s <;> simp

theorem Ev.effects_zone (e : Ev) (z : Zone) : e.clearLatches.allEffects.units.zones.get z = (e.units.zones.get z).effect := by
  simp only [Ev.clearLatches, Ev.allEffects, Ev.sideEffect, Ev.zoneEffect, Ev.modRelease_units, Ev.modOrder_units,
    Ev.modZone_units, Units.setZone_zones, Units.setOrder_zones, Units.setRelease_zones]
  cases z <;> simp

theorem Ev.partChange_notice (e : Ev) (s : Side) :
    e.partChange.units.notices.get s = (e.units.notices.get s).setFlag .partState := by
  rw [Ev.partChange_eq]
  cases s <;> rfl

/-- A part-state change leaves every piece but the change count and the notice units. -/
theorem Ev.partChange_keeps (e : Ev) (p : Piece) (hp : p ≠ .part) (hn : ∀ s, p ≠ .notice s) :
    e.units.keeps e.partChange.units p :=
  (Ev.Moves.partChange (T := fun q => q = .part ∨ ∃ s, q = .notice s) (e := e) (.inl rfl) fun s => .inr ⟨s, rfl⟩).frame p
    (by rintro (h | ⟨s, h⟩); exacts [hp h, hn s h])

/-! ### Feed issues, exactly (R58 to R60) -/

/-- A change of the top trim leaves every head alone. -/
theorem Ev.changeTrim_head (e : Ev) (z : Zone) (d : Int) (c : TrimCause) (h g : Fin 32) :
    (e.changeTrim z d c h).units.head g = e.units.head g :=
  (Ev.Moves.changeTrim (T := fun q => q = .zone z ∨ ∃ s, q = .notice s) (e := e) d c h (.inl rfl) (.inr ⟨_, rfl⟩)).frame
    (.head g) (by simp)

/-- What a feed issue makes of its head while the part is RUNNING and the head not OUT. -/
theorem Ev.feedIssue_head (e : Ev) (h : Fin 32) (hp : e.units.part = .running) (ho : (e.units.head h).state ≠ .out) :
    (e.feedIssue h).units.head h = (e.units.head h).issued (e.units.issueTicks h) := by
  unfold Ev.feedIssue Units.issueTicks
  simp only
  cases hpl : (e.units.head h).pool with
  | some f => simp [Head.issued]
  | none =>
    have hc : ¬ ((none : Option Feed).isSome = true ∨ e.units.part ≠ .running ∨ (e.units.head h).state = .out) := by
      simp [hp, ho]
    rw [if_neg hc]
    cases henv : (e.units.head h).envelope with
    | none => simp [Head.issued]
    | some env =>
      cases hz : e.units.zoneOf h.val with
      | none => simp [Head.issued]
      | some z =>
        simp only
        split
        · rw [Ev.changeTrim_head, Ev.feed_eq]; simp [Head.issued]
        · split
          · rw [Ev.changeTrim_head, Ev.feed_eq]; simp [Head.issued]
          · rw [Ev.feed_eq]; simp [Head.issued]

/-- The fill target depends on the configuration and the zones' live blocks. -/
theorem Units.fillTarget_congr {u v : Units} (h : Fin 32) (hc : v.config = u.config)
    (hz : ∀ z, (v.zones.get z).live = (u.zones.get z).live) : v.fillTarget h = u.fillTarget h := by
  unfold Units.fillTarget Units.zoneOf Units.zoneParams Units.firstHead
  simp only [hc, hz]

/-- The parameters of a head's zone depend on the configuration and the zones' live blocks. -/
theorem Units.params_congr {u v : Units} (h : Fin 32) (hc : v.config = u.config)
    (hz : ∀ z, (v.zones.get z).live = (u.zones.get z).live) : v.params h = u.params h := by
  have : v.zoneParams = u.zoneParams := by funext z; unfold Units.zoneParams; rw [hz]
  unfold Units.params Units.zoneOf
  rw [hc, this]

/-- A feed issue's ticks depend on the head's pool record, envelope and yield, the configuration and the zones. -/
theorem Units.issueTicks_congr {u v : Units} (h : Fin 32) (hc : v.config = u.config)
    (hz : ∀ z, (v.zones.get z).live = (u.zones.get z).live) (hp : (v.head h).pool = (u.head h).pool)
    (he : (v.head h).envelope = (u.head h).envelope) (hy : (v.head h).yield = (u.head h).yield) :
    v.issueTicks h = u.issueTicks h := by
  unfold Units.issueTicks
  rw [hp, he, hy, Units.fillTarget_congr h hc hz]
  unfold Units.zoneOf
  rw [hc]

/-- A change of the top trim leaves every zone's blocks and rotation alone. -/
theorem Ev.changeTrim_zone (e : Ev) (z y : Zone) (d : Int) (c : TrimCause) (h : Fin 32) :
    ((e.changeTrim z d c h).units.zones.get y).live = (e.units.zones.get y).live ∧
      ((e.changeTrim z d c h).units.zones.get y).staged = (e.units.zones.get y).staged ∧
      ((e.changeTrim z d c h).units.zones.get y).rotation = (e.units.zones.get y).rotation := by
  unfold Ev.changeTrim
  simp only
  split
  · simp; split <;> simp_all
  · split
    · simp; split <;> simp_all
    · rw [Ev.headNotice_eq]; simp [Ev.topOrder]; split <;> simp_all

theorem Ev.feedIssue_zone (e : Ev) (h : Fin 32) (y : Zone) :
    ((e.feedIssue h).units.zones.get y).live = (e.units.zones.get y).live ∧
      ((e.feedIssue h).units.zones.get y).staged = (e.units.zones.get y).staged ∧
      ((e.feedIssue h).units.zones.get y).rotation = (e.units.zones.get y).rotation := by
  have hf : ∀ a t, (e.feed h a t).units.zones = e.units.zones := fun a t => by rw [Ev.feed_eq]; rfl
  unfold Ev.feedIssue
  simp only
  split
  · exact ⟨rfl, rfl, rfl⟩
  · split
    · have hc : ∀ a t z d c, _ := fun a t z d c => hf a t ▸ Ev.changeTrim_zone (e.feed h a t) z y d c h
      split
      · exact hc ..
      · split
        · exact hc ..
        · rw [hf]; exact ⟨rfl, rfl, rfl⟩
    · exact ⟨rfl, rfl, rfl⟩

theorem Ev.purge_zones (e : Ev) (h : Fin 32) (r : PurgeReason) (w : Option Int) :
    (e.purge h r w).units.zones = e.units.zones := by rw [Ev.purge_eq]; rfl

theorem Ev.purge_head (e : Ev) (h : Fin 32) (r : PurgeReason) (w : Option Int) :
    (e.purge h r w).units.head h = (e.units.head h).purged r (e.units.params h).gateLimit := by
  rw [Ev.purge_eq]; simp

theorem Ev.setHealth_zones (e : Ev) (h : Fin 32) (v : Nat) (c : HealthCause) :
    (e.setHealth h v c).units.zones = e.units.zones := by
  unfold Ev.setHealth
  simp only
  split
  · rfl
  · rw [Ev.headNotice_eq]; rfl

theorem Ev.setHealth_head (e : Ev) (h : Fin 32) (v : Nat) (c : HealthCause) :
    (e.setHealth h v c).units.head h = { e.units.head h with health := v } := by
  unfold Ev.setHealth
  simp only
  split
  · simp
  · rw [Ev.headNotice_eq]; simp

/-- A feed issue touches its head, its zone's top feeder and the notice unit of the zone's reporting side. -/
theorem Ev.Moves.feedIssue_of {T : Piece → Prop} {e : Ev} {h : Fin 32} {z : Zone} (hz : e.units.zoneOf h.val = some z)
    (hT : T (.head h)) (hZ : T (.zone z)) (hN : T (.notice (e.units.reporting z))) : e.Moves T (e.feedIssue h) := by
  unfold Ev.feedIssue
  simp only
  split
  · exact rfl'
  · split
    · rename_i env y _ hy
      rw [hz] at hy
      cases hy
      have m : ∀ a t, e.Moves T (e.feed h a t) := fun a t => feed a t hT
      split
      · exact (m _ _).trans (changeTrim _ _ _ hZ (by rw [(m _ _).reporting]; exact hN))
      · split
        · exact (m _ _).trans (changeTrim _ _ _ hZ (by rw [(m _ _).reporting]; exact hN))
        · exact m _ _
    · exact rfl'

/-- A feed issue's writes stand behind those there are, the feed order first. -/
theorem Ev.feedIssue_out (e : Ev) (h : Fin 32) : ∃ l, (e.feedIssue h).out = e.out ++ l :=
  (Ev.Moves.feedIssue (T := fun _ => True) (e := e) trivial (fun _ => trivial) fun _ => trivial).out

/-! ### Head commands (R152) -/

theorem headNumber_toNat (arg : BitVec 8) (h : Fin 32) (ha : arg.toNat = h.val) : headNumber arg.toNat = h := by
  unfold headNumber
  apply Fin.ext
  simp only [ha]
  omega

/-- A head command at a head below the head count comes to its own rule. -/
theorem Ev.headCommand_eq (e : Ev) (arg : BitVec 8) (rule : Fin 32 → Taken) (h : Fin 32)
    (ht : e.units.part ≠ .transparent) (ha : arg.toNat = h.val) (hh : h.val < e.units.headCount) :
    e.headCommand arg rule = rule h := by
  unfold Ev.headCommand
  rw [if_neg ht, if_neg (by omega), headNumber_toNat arg h ha]

/-! ### One thing at each head of a list -/

/-- Something done at each head of a list without repetition, which at a head changes that head alone. -/
theorem Ev.eachHead_head (I : Ev → Prop) (F : Fin 32 → Head → Head) (f : Fin 32 → Ev → Ev) (hs : List (Fin 32))
    (hn : hs.Nodup) (hI : ∀ h e, I e → I (f h e)) (hf : ∀ h e, I e → (f h e).units.head h = F h (e.units.head h))
    (ho : ∀ h g e, I e → g ≠ h → (f h e).units.head g = e.units.head g) (e : Ev) (he : I e) (g : Fin 32) :
    (e.eachHead hs f).units.head g = if g ∈ hs then F g (e.units.head g) else e.units.head g := by
  induction hs generalizing e with
  | nil => simp [Ev.eachHead]
  | cons h rest ih =>
    have hr := List.nodup_cons.mp hn
    have hstep : e.eachHead (h :: rest) f = (f h e).eachHead rest f := rfl
    rw [hstep, ih hr.2 (f h e) (hI h e he)]
    by_cases hg : g = h
    · subst hg
      rw [if_neg hr.1, hf g e he]
      simp
    · rw [ho h g e he hg]
      simp [hg]

theorem allHeads_nodup : allHeads.Nodup := by decide

theorem mem_allHeads (h : Fin 32) : h ∈ allHeads := by revert h; decide

/-- Heads that go to STOPPED, each alone. -/
theorem Ev.stopHeads_head (e : Ev) (hs : List (Fin 32)) (hn : hs.Nodup) (g : Fin 32) :
    (e.eachHead hs fun h e => e.stopHead h).units.head g =
      if g ∈ hs then (e.units.head g).halted else e.units.head g :=
  Ev.eachHead_head (fun _ => True) (fun _ x => x.halted) _ hs hn (fun _ _ _ => trivial)
    (fun h e _ => by simp [Ev.stopHead, Head.halted]) (fun h g e _ hg => by simp [Ev.stopHead, hg]) e trivial g

/-- Feed stops at a list of heads. -/
theorem Ev.feedStops_head (e : Ev) (hs : List (Fin 32)) (hn : hs.Nodup) (g : Fin 32) :
    (e.eachHead hs fun h e => e.feedStop h).units.head g =
      if g ∈ hs then (e.units.head g).unfed else e.units.head g :=
  Ev.eachHead_head (fun _ => True) (fun _ x => x.unfed) _ hs hn (fun _ _ _ => trivial)
    (fun h e _ => by rw [Ev.feedStop_eq]; simp) (fun h g e _ hg => by rw [Ev.feedStop_eq]; simp [hg]) e trivial g

/-! ### Order notices and withdrawals (R113, R114, R161, R162) -/

/-- A flag set stays set, and setting one leaves the others as they were (R165). -/
theorem NoticeSide.setFlag_has (n : NoticeSide) (f g : Flag) : (n.setFlag f).has g = (n.has g || decide (f = g)) := by
  unfold NoticeSide.setFlag NoticeSide.has Flag.mask
  rw [BitVec.getLsbD_or]
  congr 1
  cases f <;> cases g <;> rfl

/-- Placing a notice changes its side's notice unit and the writes only, keeps the number and clears no flag. -/
theorem Ev.place_only (e : Ev) (s : Side) (n : Notice) :
    ∃ x l, e.place s n = { e with units := e.units.setNotice s x, out := e.out ++ l } ∧
      x.number = (e.units.notices.get s).number ∧ x.reservations = (e.units.notices.get s).reservations ∧
      ∀ f, (e.units.notices.get s).has f = true → x.has f = true := by
  unfold Ev.place
  split
  · unfold Ev.ringWrite
    simp only
    refine ⟨_, _, rfl, ?_, ?_, ?_⟩
    · simp only; split <;> rfl
    · simp only; split <;> rfl
    · intro f hf
      have hf' : ∀ k, NoticeSide.has { (e.units.notices.get s) with writeIx := k } f = true := fun k => hf
      simp only
      split
      · rw [NoticeSide.setFlag_has, NoticeSide.setFlag_has]; simp only [hf', Bool.true_or]
      · rw [NoticeSide.setFlag_has]; simp only [hf', Bool.true_or]
  · unfold Ev.holdNotice
    refine ⟨if (e.units.notices.get s).holding.length < Config.holdingDepth then
      { (e.units.notices.get s) with
        holding := (e.units.notices.get s).holding ++ [((e.units.notices.get s).number, n)] }
      else e.units.notices.get s, [], ?_, ?_, ?_, ?_⟩
    · simp only [List.append_nil]; rfl
    · split <;> rfl
    · split <;> rfl
    · intro f hf
      split
      · exact hf
      · exact hf

theorem Ev.orderNotice_only (e : Ev) (s : Side) (n : Notice) :
    ∃ x l, e.orderNotice s n = { e with units := e.units.setNotice s x, out := e.out ++ l } ∧
      x.number = (e.units.notices.get s).number + 1 ∧ x.reservations = (e.units.notices.get s).reservations - 1 ∧
      ∀ f, (e.units.notices.get s).has f = true → x.has f = true := by
  obtain ⟨x, l, h, hn, hr, hf⟩ := Ev.place_only (e.takeNumber s) s n
  refine ⟨{ x with reservations := x.reservations - 1 }, l, ?_, ?_, ?_, ?_⟩
  · unfold Ev.orderNotice
    rw [h]
    simp [Ev.modNotice, Ev.takeNumber, Units.setNotice]
  · simp only [hn, Ev.takeNumber, Ev.modNotice_units, Units.setNotice_notices, PerSide.get_set, if_true]
  · simp only [hr, Ev.takeNumber, Ev.modNotice_units, Units.setNotice_notices, PerSide.get_set, if_true]
  · intro f hx
    refine hf f ?_
    simp only [Ev.takeNumber, Ev.modNotice_units, Units.setNotice_notices, PerSide.get_set, if_true]
    exact hx

/-- A withdrawal by HALT, exactly, but for the notice unit's record and the writes (R114). -/
theorem Ev.withdraw_halt (e : Ev) (s : Side) (o : OrderRec) :
    ∃ x l, e.withdraw s o .halt none =
        { e with
          units := (e.units.setOrder s { e.units.orders.get s with
            queue := (e.units.orders.get s).queue.filter fun p => p.accept != o.accept }).setNotice s x
          out := e.out ++ l } ∧
      x.number = (e.units.notices.get s).number + 1 ∧ x.has .orderEnded = true ∧
      ∀ f, (e.units.notices.get s).has f = true → x.has f = true := by
  unfold Ev.withdraw
  simp only [Option.map_none]
  obtain ⟨x, l, h, hn, _, hf⟩ := Ev.orderNotice_only
    (e.modOrder s fun q => { q with queue := q.queue.filter fun p => p.accept != o.accept }) s
    (.orderWithdrawn o.tag .halt none o.heads o.total)
  refine ⟨x.setFlag .orderEnded, l, ?_, ?_, ?_, ?_⟩
  · rw [h]
    simp [Ev.setFlag, Ev.modNotice, Units.setNotice, Ev.modOrder]
  · exact hn
  · rw [NoticeSide.setFlag_has]; simp
  · intro f hx
    rw [NoticeSide.setFlag_has, hf f hx]
    rfl

/-- HALT at one side: the queue is empty, one number is taken for each order, ORDER-ENDED is set if one was withdrawn,
and nothing but the side's order and notice units and the writes changes (R114). -/
theorem Ev.haltSide_only (e : Ev) (s : Side) :
    ∃ x l, e.haltSide s =
        { e with
          units := (e.units.setOrder s { e.units.orders.get s with queue := [] }).setNotice s x
          out := e.out ++ l } ∧
      x.number = (e.units.notices.get s).number + BitVec.ofNat 16 (e.units.orders.get s).queue.length ∧
      ((e.units.orders.get s).queue ≠ [] → x.has .orderEnded = true) ∧
      ∀ f, (e.units.notices.get s).has f = true → x.has f = true := by
  have key : ∀ (l : List OrderRec) (e : Ev), ∃ x k, l.foldl (fun e o => e.withdraw s o .halt none) e =
        { e with
          units := (e.units.setOrder s { e.units.orders.get s with
            queue := (e.units.orders.get s).queue.filter fun p => l.all fun o => p.accept != o.accept }).setNotice s x
          out := e.out ++ k } ∧
      x.number = (e.units.notices.get s).number + BitVec.ofNat 16 l.length ∧
      (l ≠ [] → x.has .orderEnded = true) ∧ ∀ f, (e.units.notices.get s).has f = true → x.has f = true := by
    intro l
    induction l with
    | nil =>
      intro e
      refine ⟨e.units.notices.get s, [], ?_, by simp, by simp, fun f h => h⟩
      cases s <;> simp [Units.setNotice, Units.setOrder] <;> rfl
    | cons o rest ih =>
      intro e
      obtain ⟨x, k, h, hn, hE, hf⟩ := Ev.withdraw_halt e s o
      obtain ⟨y, m, hy, hyn, _, hyf⟩ := ih (e.withdraw s o .halt none)
      rw [h] at hy hyn hyf
      simp only [Units.setNotice_notices, PerSide.get_set, if_true, Units.setNotice_orders,
        Units.setOrder_orders] at hy hyn hyf
      refine ⟨y, k ++ m, ?_, ?_, fun _ => hyf _ hE, fun f hx => hyf f (hf f hx)⟩
      · rw [List.foldl_cons, h, hy]
        simp [Units.setNotice, Units.setOrder, List.filter_filter, Bool.and_comm]
      · rw [hyn, hn, List.length_cons]
        apply BitVec.eq_of_toNat_eq
        have h1 : (1 : BitVec 16).toNat = 1 := rfl
        simp only [BitVec.toNat_add, BitVec.toNat_ofNat, h1]
        omega
  obtain ⟨x, l, h, hn, hE, hf⟩ := key (e.units.orders.get s).queue e
  refine ⟨x, l, ?_, hn, hE, hf⟩
  unfold Ev.haltSide
  rw [h]
  have : (e.units.orders.get s).queue.filter (fun p => (e.units.orders.get s).queue.all fun o => p.accept != o.accept) =
      [] := by
    rw [List.filter_eq_nil_iff]
    intro p hp hc
    have := List.all_eq_true.mp hc p hp
    simp at this
  rw [this]

end Sys2Proof.Machine
end

