-- ==== Sys2Proof/Laws/Words.lean ====
section
/-! SUPPORT. The control block's words at the classifier, and what a command word leaves behind when it is taken. -/

namespace Sys2Proof.Machine

/-! ### The control block's addresses (R135, R147) -/

theorem Units.blockAddr_toNat (u : Units) (o : Nat) (h : o < 512) : (u.blockAddr o).toNat = u.controlBase + o := by
  unfold Units.blockAddr Units.controlBase
  have := u.cbase.isLt
  rw [BitVec.toNat_ofNat, Nat.mod_eq_of_lt (by omega)]

theorem Units.controlOffset_blockAddr (u : Units) (o : Nat) (h : o < 512) :
    u.controlOffset (u.blockAddr o) = some o := by
  unfold Units.controlOffset
  rw [Units.blockAddr_toNat u o h]
  rw [if_pos ⟨by omega, by simp [Config.controlWords]; omega⟩]
  simp

theorem slotOffset_lt (s : Side) : slotOffset s < 512 := by cases s <;> decide
theorem clearOffset_lt (s : Side) : clearOffset s < 512 := by cases s <;> decide
theorem enableOffset_lt (s : Side) : enableOffset s < 512 := by cases s <;> decide
theorem consumeOffset_lt (s : Side) : consumeOffset s < 512 := by cases s <;> decide

/-! ### Command words (R152, R176) -/

theorem isIssue_issueWord (c : Command) (arg : BitVec 8) : isIssue (issueWord c arg) = true := by
  revert arg
  cases c <;> decide +kernel

theorem commandArg_issueWord (c : Command) (arg : BitVec 8) : commandArg (issueWord c arg) = arg := by
  revert arg
  cases c <;> decide +kernel

theorem commandCode_issueWord (c : Command) (arg : BitVec 8) : commandCode (issueWord c arg) = c.code := by
  revert arg
  cases c <;> decide +kernel

theorem Command.ofCode_code (c : Command) : Command.ofCode c.code = some c := by cases c <;> rfl

/-! ### The class of the control block's words -/

theorem classControl_slot (slot : Side) (w : Word) (h : isIssue w = true) :
    classControl (slotOffset slot) w = .command slot := by
  cases slot <;> simp [classControl, slotOffset, Side.number, h]

/-- A whole write of a command word to a slot is a command (R147, R152). -/
theorem classWrite_slot {u : Units} {p : Port} (hp : u.part = .transparent ∨ p ≠ .hl) (slot : Side) (w : Word)
    (h : isIssue w = true) : classWrite u p (u.blockAddr (slotOffset slot)) allStrobes w = .command slot := by
  unfold classWrite
  rw [Units.controlOffset_blockAddr u _ (slotOffset_lt slot)]
  simp only
  split
  · simp [classTransparent, classControl_slot slot w h]
  · rename_i ht
    have hp' : p ≠ .hl := by tauto
    simp [hp', classControl_slot slot w h]

/-- What a command word's write does as an event. -/
theorem Ev.write_slot {e : Ev} {p : Port} (hp : e.units.part = .transparent ∨ p ≠ .hl) (slot : Side) (c : Command)
    (arg : BitVec 8) :
    Ev.write p (e.units.blockAddr (slotOffset slot)) allStrobes (issueWord c arg) e =
      ({ (e.take slot c arg).1 with word := some (verdictWord (issueWord c arg) (e.take slot c arg).2) } : Ev).mirror
        (slotOffset slot) (verdictWord (issueWord c arg) (e.take slot c arg).2) := by
  unfold Ev.write
  rw [classWrite_slot hp slot _ (isIssue_issueWord c arg)]
  simp only
  unfold Ev.command
  simp only [commandCode_issueWord, commandArg_issueWord, Command.ofCode_code]

theorem mirror_read (u : Units) (o : Nat) (w : Word) (h : Cells.wf u.mirror = true) : (u.setMirror o w).mirrorWord o = w := by
  unfold Units.mirrorWord
  rw [Units.setMirror_mirror, Cells.read_write _ _ _ _ h, if_pos rfl]

theorem mirror_keeps (u : Units) (o : Nat) (w : Word) (p : Piece) (h : p ≠ .mirror o) : u.keeps (u.setMirror o w) p :=
  (Ev.Moves.mirror (T := fun q => q = .mirror o) (e := .begin u false 0) (w := w) rfl).frame p h

/-- What a command leaves behind, from what taking it makes of the units: its word in memory and in the mirror, every
piece as taking it left it, and the writes it queued. -/
structure CommandLeaves (s t : State) (p : Port) (slot : Side) (c : Command) (arg : BitVec 8) (r : Taken) : Prop where
  wrote : s.Wrote t p (s.units.blockAddr (slotOffset slot)) (verdictWord (issueWord c arg) r.2)
  mirror : t.units.mirrorWord (slotOffset slot) = verdictWord (issueWord c arg) r.2
  piece : ∀ q, (∀ side, q ≠ .notice side) → q ≠ .mirror (slotOffset slot) → r.1.units.keeps t.units q
  notices : ∀ side, (t.units.notices.get side).sameAs (r.1.units.notices.get side)
  pending : ∀ side, (t.units.notices.get side).notePending =
    ((r.1.units.notices.get side).notePending || flagRises (s.units.notices.get side) (r.1.units.notices.get side))
  frame : ∀ q, q ≠ .mirror (slotOffset slot) → s.units.keeps r.1.units q → s.units.keeps t.units q
  words : r.1.units.cbase = s.units.cbase →
    (∀ side, (r.1.units.notices.get side).lastFlagWord = (s.units.notices.get side).lastFlagWord) →
    (∀ side, (r.1.units.notices.get side).noteWait = (s.units.notices.get side).noteWait) → s.FlagWords t r.1.out
  held : (∀ side, (r.1.units.releases.get side).releasePending = false) → t.held = s.held
  silent : r.1.out = [] → (∀ side, (r.1.units.notices.get side).flagWord = (s.units.notices.get side).flagWord) →
    t.waitingWrites = s.waitingWrites

namespace CommandLeaves

variable {s t : State} {p : Port} {slot : Side} {c : Command} {arg : BitVec 8} {r : Taken}

/-- The command's writes, its flag words and note pending, where taking it leaves the NOTE line's bookkeeping alone. -/
theorem sent (h : CommandLeaves s t p slot c arg r) (hc : r.1.units.cbase = s.units.cbase)
    (hn : ∀ side, (s.units.notices.get side).noteKept (r.1.units.notices.get side)) : s.Sent t r.1.out := by
  refine ⟨h.words hc (fun side => (hn side).1) fun side => (hn side).2.1, fun side => ?_⟩
  have hs := h.notices side
  rw [h.pending side, (hn side).2.2]
  unfold flagRises
  rw [hs.2.2.2.2.2.1, hs.2.2.2.2.2.2]

theorem queued (h : CommandLeaves s t p slot c arg r) (hc : r.1.units.cbase = s.units.cbase)
    (hn : ∀ side, (s.units.notices.get side).noteKept (r.1.units.notices.get side))
    (hr : ∀ side, (r.1.units.releases.get side).releasePending = false) : s.Queued t r.1.out :=
  ⟨h.sent hc hn, h.held hr⟩

end CommandLeaves

theorem noteWaits_pending (before after : Units) (l : List QueueEntry) (side : Side) :
    (noteWaits before after l side).notePending = (after.notices.get side).notePending := by
  unfold noteWaits
  simp only
  split <;> rfl

theorem State.commit_notePending (s : State) (e : Ev) (side : Side) :
    ((s.commit (e.close s.units)).units.notices.get side).notePending =
      ((e.units.notices.get side).notePending || flagRises (s.units.notices.get side) (e.units.notices.get side)) := by
  rw [State.commit_notice, noteWaits_pending, Ev.close_notice]
  rfl

/-- The event of a command word, taken. -/
theorem State.taken_command {s : State} (hc : s.Calm) (p : Port) (slot : Side) (c : Command) (arg : BitVec 8) (r : Taken)
    (hw : Cells.wf r.1.units.mirror = true) :
    CommandLeaves s (s.taken p (s.units.blockAddr (slotOffset slot)) allStrobes
      ((({ r.1 with word := some (verdictWord (issueWord c arg) r.2) } : Ev).mirror (slotOffset slot)
        (verdictWord (issueWord c arg) r.2)).close s.units)) p slot c arg r := by
  have hu : ∀ e : Ev, ∀ a, (s.taken p a allStrobes e).units = (s.commit e).units := fun e a => State.taken_units ..
  have hm : ∀ q, q ≠ Piece.mirror (slotOffset slot) → r.1.units.keeps
      (({ r.1 with word := some (verdictWord (issueWord c arg) r.2) } : Ev).mirror (slotOffset slot)
        (verdictWord (issueWord c arg) r.2)).units q := fun q hq => mirror_keeps r.1.units _ _ q hq
  refine ⟨?_, ?_, ?_, ?_, ?_, ?_, ?_, ?_, ?_⟩
  · refine State.taken_wrote hc _ _ _ _ ?_
    rw [Ev.close_eq]
    rfl
  · rw [hu]
    have := State.commit_close_piece s (({ r.1 with word := some (verdictWord (issueWord c arg) r.2) } : Ev).mirror
      (slotOffset slot) (verdictWord (issueWord c arg) r.2)) (.mirror (slotOffset slot)) (by simp)
    simp only [Units.keeps] at this
    rw [this]
    exact mirror_read _ _ _ hw
  · intro q hq hq'
    rw [hu]
    exact Ev.Moves.keeps_trans (hm q hq') (State.commit_close_piece s _ q hq)
  · intro side
    rw [hu]
    exact State.commit_sameAs s (({ r.1 with word := some (verdictWord (issueWord c arg) r.2) } : Ev).mirror
      (slotOffset slot) (verdictWord (issueWord c arg) r.2)) side
  · intro side
    rw [hu]
    exact State.commit_notePending s (({ r.1 with word := some (verdictWord (issueWord c arg) r.2) } : Ev).mirror
      (slotOffset slot) (verdictWord (issueWord c arg) r.2)) side
  · intro q hq h
    rw [hu]
    exact State.commit_keeps s _ q (Ev.Moves.keeps_trans h (hm q hq))
  · intro hc hl hn
    exact State.taken_flagWords (State.commit_flagWords s (({ r.1 with word := some (verdictWord (issueWord c arg) r.2) } :
      Ev).mirror (slotOffset slot) (verdictWord (issueWord c arg) r.2)) hc hl hn)
  · intro hr
    rw [State.taken_held, hc.2.1]
    exact State.commit_held s _ hc.2.1 hr
  · intro ho hf
    rw [State.taken_waitingWrites]
    refine State.commit_silent_writes s _ ho fun side => ?_
    exact hf side

/-- A command word's write with everything clear: the command is taken at once (R152). -/
theorem State.Clear.command {s : State} (h : s.Clear) {p : Port} (hp : s.mayCommand p) (slot : Side) (c : Command)
    (arg : BitVec 8) :
    ∃ k, Cells.wf ((Ev.begin s.units true k).take slot c arg).1.units.mirror = true →
      CommandLeaves s (s.command c p slot arg) p slot c arg ((Ev.begin s.units true k).take slot c arg) := by
  refine ⟨Config.queueDepth - (runEvent true 0 (Ev.write p (s.units.blockAddr (slotOffset slot)) allStrobes
    (issueWord c arg)) s.units).need, fun hw => ?_⟩
  have ha : s.command c p slot arg = s.access p (.write (s.units.blockAddr (slotOffset slot)) allStrobes
    (issueWord c arg)) := rfl
  rw [ha, h.access_write]
  generalize Config.queueDepth - (runEvent true 0 (Ev.write p (s.units.blockAddr (slotOffset slot)) allStrobes
    (issueWord c arg)) s.units).need = k at hw ⊢
  have hb := Ev.write_slot (e := Ev.begin s.units true k) hp slot c arg
  have hb' : Ev.write p (s.units.blockAddr (slotOffset slot)) allStrobes (issueWord c arg) (Ev.begin s.units true k) = _ := hb
  unfold runEvent
  rw [hb']
  exact State.taken_command h.1 p slot c arg _ hw

/-- A command word's write that needs no entry, taken when the port's turn comes. -/
theorem State.Turn.command_silent {s : State} {p : Port} (h : s.Turn p) (hp : s.mayCommand p) (slot : Side) (c : Command)
    (arg : BitVec 8) (r : Nat → Taken) (hr : ∀ k, (Ev.begin s.units true k).take slot c arg = r k)
    (ho : ∀ k, (r k).1.out = [] ∧ (r k).1.required = ⟨false, false⟩)
    (hn : ∀ k side, ((r k).1.units.notices.get side).flagWord = (s.units.notices.get side).flagWord)
    (hw : ∀ k, Cells.wf (r k).1.units.mirror = true) :
    ∃ k, CommandLeaves s (s.command c p slot arg) p slot c arg (r k) := by
  have ha : s.command c p slot arg = s.access p (.write (s.units.blockAddr (slotOffset slot)) allStrobes
    (issueWord c arg)) := rfl
  have hb : ∀ k, Ev.write p (s.units.blockAddr (slotOffset slot)) allStrobes (issueWord c arg) (Ev.begin s.units true k) =
      ({ (r k).1 with word := some (verdictWord (issueWord c arg) (r k).2) } : Ev).mirror
        (slotOffset slot) (verdictWord (issueWord c arg) (r k).2) := by
    intro k
    have := Ev.write_slot (e := Ev.begin s.units true k) hp slot c arg
    rw [hr k] at this
    exact this
  have hneed : (runEvent true 0 (Ev.write p (s.units.blockAddr (slotOffset slot)) allStrobes (issueWord c arg))
      s.units).need = 0 := by
    unfold runEvent
    rw [hb 0, Ev.close_eq]
    have hf : ∀ side, flagEntry (({ (r 0).1 with word := some (verdictWord (issueWord c arg) (r 0).2) } : Ev).mirror
        (slotOffset slot) (verdictWord (issueWord c arg) (r 0).2)).units side (s.units.notices.get side)
        ((({ (r 0).1 with word := some (verdictWord (issueWord c arg) (r 0).2) } : Ev).mirror
        (slotOffset slot) (verdictWord (issueWord c arg) (r 0).2)).units.notices.get side) = [] := by
      intro side
      have := hn 0 side
      unfold flagEntry
      rw [if_pos (.inl this)]
    rw [hf .a, hf .b]
    simp only [Ev.need, Ev.unsent, Ev.mirror, Ev.mod_out, Ev.mod_required, (ho 0).1, (ho 0).2]
    simp [PerSide.get]
  rw [ha, h.access_ok (attempt_silent hneed)]
  refine ⟨s.free, ?_⟩
  unfold runEvent
  rw [hb s.free]
  exact State.taken_command h.1 p slot c arg _ (hw _)

/-- A refused command leaves everything but its word as it was (R152). -/
theorem State.Turn.command_refused {s : State} {p : Port} (h : s.Turn p) (hp : s.mayCommand p) (slot : Side) (c : Command)
    (arg : BitVec 8) (why : CommandReason) (detail : BitVec 14)
    (hr : ∀ k, (Ev.begin s.units true k).take slot c arg = (Ev.begin s.units true k, .refused why detail)) :
    s.Wrote (s.command c p slot arg) p (s.units.blockAddr (slotOffset slot)) (refusedWord c arg why detail) ∧
      (s.command c p slot arg).units.mirrorWord (slotOffset slot) = refusedWord c arg why detail ∧
      s.units.onlyChanges (s.command c p slot arg).units [.mirror (slotOffset slot)] ∧
      s.NoWrites (s.command c p slot arg) := by
  obtain ⟨k, hl⟩ := h.command_silent hp slot c arg (fun k => (Ev.begin s.units true k, .refused why detail)) hr
    (fun k => ⟨rfl, rfl⟩) (fun k side => rfl) (fun k => h.1.2.2.2.2.2)
  refine ⟨hl.wrote, hl.mirror, fun q hq => hl.frame q (by simpa using hq) (Ev.Moves.keeps_refl _ _), ?_, hl.held h.1.2.2.2.1⟩
  exact hl.silent rfl fun side => rfl

end Sys2Proof.Machine
end

