-- ==== Sys2Proof/Laws/Leaves.lean ====
section
/-! SUPPORT. What an event that is taken leaves behind, from what its body makes of the units, said once: for the part's
own events and for a port's writes. -/

namespace Sys2Proof.Machine

/-- What an event leaves behind: every piece as its body left it, the notice units but for note pending's bookkeeping,
and its writes with the flag words behind them. -/
structure EventLeaves (s t : State) (e : Ev) : Prop where
  piece : ∀ q, (∀ side, q ≠ .notice side) → e.units.keeps t.units q
  notices : ∀ side, (t.units.notices.get side).sameAs (e.units.notices.get side)
  pending : ∀ side, (t.units.notices.get side).notePending =
    ((e.units.notices.get side).notePending || flagRises (s.units.notices.get side) (e.units.notices.get side))
  frame : ∀ q, s.units.keeps e.units q → s.units.keeps t.units q
  words : e.units.cbase = s.units.cbase →
    (∀ side, (e.units.notices.get side).lastFlagWord = (s.units.notices.get side).lastFlagWord) →
    (∀ side, (e.units.notices.get side).noteWait = (s.units.notices.get side).noteWait) → s.FlagWords t e.out
  writes : t.waitingWrites = s.waitingWrites ++ e.out ++
    flagEntry e.units .a (s.units.notices.get .a) (e.units.notices.get .a) ++
    flagEntry e.units .b (s.units.notices.get .b) (e.units.notices.get .b)
  held : (∀ side, (e.units.releases.get side).releasePending = false) → t.held = s.held

theorem State.commit_leaves {s : State} (hh : s.held = []) (e : Ev) : EventLeaves s (s.commit (e.close s.units)) e where
  piece q hq := State.commit_close_piece s e q hq
  notices side := State.commit_sameAs s e side
  pending side := State.commit_notePending s e side
  frame q h := State.commit_keeps s e q h
  words := State.commit_flagWords s e
  writes := by
    rw [State.commit_waitingWrites, Ev.close_eq]
    simp
  held hr := by rw [hh, State.commit_held s e hh hr]

namespace EventLeaves

variable {s t : State} {e : Ev}

/-- The event's writes, its flag words and note pending, where its body leaves the NOTE line's bookkeeping alone. -/
theorem sent (h : EventLeaves s t e) (hc : e.units.cbase = s.units.cbase)
    (hn : ∀ side, (s.units.notices.get side).noteKept (e.units.notices.get side)) : s.Sent t e.out := by
  refine ⟨h.words hc (fun side => (hn side).1) fun side => (hn side).2.1, fun side => ?_⟩
  have hs := h.notices side
  rw [h.pending side, (hn side).2.2]
  unfold flagRises
  rw [hs.2.2.2.2.2.1, hs.2.2.2.2.2.2]

theorem queued (h : EventLeaves s t e) (hc : e.units.cbase = s.units.cbase)
    (hn : ∀ side, (s.units.notices.get side).noteKept (e.units.notices.get side))
    (hr : ∀ side, (e.units.releases.get side).releasePending = false) : s.Queued t e.out :=
  ⟨h.sent hc hn, h.held hr⟩

/-- A notice unit whose flags, enables and write index the body leaves alone is as the body leaves it. -/
theorem notice_exact (h : EventLeaves s t e) (hc : e.units.cbase = s.units.cbase)
    (hn : ∀ side, (s.units.notices.get side).noteKept (e.units.notices.get side)) (side : Side)
    (hf : (e.units.notices.get side).flags = (s.units.notices.get side).flags ∧
      (e.units.notices.get side).enables = (s.units.notices.get side).enables ∧
      (e.units.notices.get side).writeIx = (s.units.notices.get side).writeIx) :
    t.units.notices.get side = e.units.notices.get side := by
  have hs := h.notices side
  obtain ⟨hw, hp⟩ := h.sent hc hn
  have hp := hp side
  have hw := hw.2 side
  obtain ⟨k1, k2, k3⟩ := hn side
  obtain ⟨f1, f2, f3⟩ := hf
  obtain ⟨h1, h2, h3, h4, h5, h6, h7⟩ := hs
  have hr : flagRises (s.units.notices.get side) (t.units.notices.get side) = false := by
    unfold flagRises
    rw [h6, h7, f1, f2]
    simp only [bne_eq_false_iff_eq]
    rw [BitVec.and_not_self]
    simp
  have hq : (t.units.notices.get side).flagWord = (s.units.notices.get side).flagWord := by
    unfold NoticeSide.flagWord; rw [h1, h6, h7, f1, f2, f3]
  rw [hr, Bool.or_false] at hp
  simp only [Units.flagQueued, hq, true_or, if_true] at hw
  obtain ⟨w1, w2⟩ := hw
  rw [if_neg (by rw [hp]; rintro ⟨a, b⟩; rw [a] at b; cases b)] at w2
  generalize t.units.notices.get side = x at *
  generalize e.units.notices.get side = y at *
  generalize s.units.notices.get side = z at *
  obtain ⟨⟩ := x
  obtain ⟨⟩ := y
  simp_all

/-- Only the named pieces change when the body touches no others. -/
theorem only (h : EventLeaves s t e) {T : Piece → Prop} {e0 : Ev} (h0 : e0.units = s.units) (m : e0.Moves T e)
    (l : List Piece) (hl : ∀ q, T q → q ∈ l) : s.units.onlyChanges t.units l := fun q hq =>
  h.frame q (h0 ▸ m.frame q fun c => hq (hl q c))

/-- An event that queues nothing and leaves the flag words alone adds nothing to the writes that wait. -/
theorem silent (h : EventLeaves s t e) (ho : e.out = [])
    (hf : ∀ side, (e.units.notices.get side).flagWord = (s.units.notices.get side).flagWord) :
    t.waitingWrites = s.waitingWrites := by
  rw [h.writes, ho]
  simp [flagEntry, hf]

theorem head (h : EventLeaves s t e) (g : Fin 32) : t.units.head g = e.units.head g := h.piece (.head g) (by simp)
theorem zone (h : EventLeaves s t e) (z : Zone) : t.units.zones.get z = e.units.zones.get z := h.piece (.zone z) (by simp)
theorem order (h : EventLeaves s t e) (x : Side) : t.units.orders.get x = e.units.orders.get x :=
  h.piece (.order x) (by simp)
theorem release (h : EventLeaves s t e) (x : Side) : t.units.releases.get x = e.units.releases.get x :=
  h.piece (.release x) (by simp)
theorem stage (h : EventLeaves s t e) : t.units.stage = e.units.stage := h.piece .stage (by simp)
theorem mirror (h : EventLeaves s t e) (o : Nat) : t.units.mirrorWord o = e.units.mirrorWord o :=
  h.piece (.mirror o) (by simp)

end EventLeaves

/-- An event of the part's own units with everything clear is taken at once, with the entries that it does not need to
spare (R143). -/
theorem State.Clear.event_at {s : State} (h : s.Clear) (o : Owner) (body : Ev → Ev) :
    EventLeaves s (s.takeOrHold o body)
        (body (.begin s.units true (Config.queueDepth - (runEvent true 0 body s.units).need))) ∧
      s.Inside (s.takeOrHold o body) := by
  refine ⟨?_, ?_⟩
  · rw [h.takeOrHold]
    exact State.commit_leaves h.1.2.1 _
  · rw [h.takeOrHold]
    exact ⟨rfl, rfl, rfl, rfl⟩

theorem State.Clear.event {s : State} (h : s.Clear) (o : Owner) (body : Ev → Ev) :
    ∃ k, EventLeaves s (s.takeOrHold o body) (body (.begin s.units true k)) ∧ s.Inside (s.takeOrHold o body) :=
  ⟨_, h.event_at o body⟩

/-- An event needs its own writes and at most one flag word on each side (R122, R143). -/
theorem runEvent_need (r : Bool) (k : Nat) (body : Ev → Ev) (u : Units) :
    (runEvent r k body u).need ≤ (body (.begin u r k)).out.length + 2 := by
  unfold runEvent
  rw [Ev.close_eq]
  generalize body (.begin u r k) = e
  have side : ∀ (f : Ev) (s : Side) (l : List QueueEntry), f.units.flagAddr s = e.units.flagAddr s →
      l = flagEntry e.units s (u.notices.get s) (e.units.notices.get s) → (∀ x, x ∈ l → x ∈ f.out) →
      l.length + f.unsent s ≤ 1 := by
    intro f s l hf hl hm
    unfold flagEntry at hl
    split at hl
    · rw [hl]
      unfold Ev.unsent
      split <;> simp
    · have : f.unsent s = 0 := by
        unfold Ev.unsent
        rw [if_neg]
        rintro ⟨-, c⟩
        refine c (List.any_eq_true.2 ⟨_, hm ⟨e.units.flagAddr s, _⟩ (by rw [hl]; exact List.mem_singleton.2 rfl), ?_⟩)
        simp [hf]
      rw [hl, this]
      simp
  obtain ⟨la, ha⟩ : ∃ l, l = flagEntry e.units .a (u.notices.get .a) (e.units.notices.get .a) := ⟨_, rfl⟩
  obtain ⟨lb, hb⟩ : ∃ l, l = flagEntry e.units .b (u.notices.get .b) (e.units.notices.get .b) := ⟨_, rfl⟩
  rw [← ha, ← hb]
  obtain ⟨f, hf⟩ : ∃ f : Ev, f = { e with
      units := (e.units.setNotice .a ((u.notices.get .a).closed (e.units.notices.get .a))).setNotice .b
        ((u.notices.get .b).closed (e.units.notices.get .b))
      out := e.out ++ la ++ lb } := ⟨_, rfl⟩
  rw [← hf]
  have hfo : f.out = e.out ++ la ++ lb := by rw [hf]
  have hfa : ∀ s, f.units.flagAddr s = e.units.flagAddr s := fun s => by rw [hf]; rfl
  have h1 := side f .a la (hfa .a) ha fun x hx => by rw [hfo]; simp [hx]
  have h2 := side f .b lb (hfa .b) hb fun x hx => by rw [hfo]; simp [hx]
  unfold Ev.need
  rw [hfo]
  simp only [List.length_append]
  omega

theorem State.taken_leaves {s : State} (hh : s.held = []) (p : Port) (a : Addr) (st : BitVec 4) (e : Ev) :
    EventLeaves s (s.taken p a st (e.close s.units)) e := by
  have hu := State.taken_units s p a st (e.close s.units)
  have hw := State.taken_waitingWrites s p a st (e.close s.units)
  have hd := State.taken_held s p a st (e.close s.units)
  have g := State.commit_leaves hh e
  exact ⟨fun q hq => hu ▸ g.piece q hq, fun x => hu ▸ g.notices x, fun x => hu ▸ g.pending x, fun q hq => hu ▸ g.frame q hq,
    fun hc hl hn => State.taken_flagWords (g.words hc hl hn), hw ▸ g.writes, fun hr => hd ▸ g.held hr⟩

/-- What a port's write leaves behind: its event's effects, the word that goes on in memory, and the port's answer. -/
structure WriteLeaves (s t : State) (p : Port) (a : Addr) (st : BitVec 4) (e : Ev) : Prop extends EventLeaves s t e where
  mem : t.mem = match e.word with
    | some w => s.mem.write a st w
    | none => s.mem
  ports : t.ports = s.ports.set p { current := none, upstream := [], answer := .acknowledged }
  granted : t.lastGranted = .port p
  rest : t.pending = s.pending

theorem State.taken_write {s : State} (hh : s.held = []) (p : Port) (a : Addr) (st : BitVec 4) (e : Ev) :
    WriteLeaves s (s.taken p a st (e.close s.units)) p a st e where
  toEventLeaves := State.taken_leaves hh p a st e
  mem := by
    unfold State.taken
    rw [Ev.close_eq]
    simp only
    cases e.word <;> rfl
  ports := by
    unfold State.taken
    cases (e.close s.units).word <;> rfl
  granted := by
    unfold State.taken
    cases (e.close s.units).word <;> rfl
  rest := by
    unfold State.taken
    cases (e.close s.units).word <;> rfl

theorem WriteLeaves.wrote {s t : State} {p : Port} {a : Addr} {e : Ev} (h : WriteLeaves s t p a allStrobes e) {w : Word}
    (hw : e.word = some w) (hm : s.mem.wf = true) : s.Wrote t p a w := by
  have := h.mem
  rw [hw] at this
  simp only at this
  obtain ⟨h1, h2⟩ := Memory.wrote s.mem a w hm
  refine ⟨?_, ?_, h.ports, h.granted, h.rest⟩ <;> rw [this]
  · exact h1
  · exact h2

theorem WriteLeaves.refused {s t : State} {p : Port} {a : Addr} {st : BitVec 4} {e : Ev} (h : WriteLeaves s t p a st e)
    (hw : e.word = none) : s.WriteRefused t p := by
  have := h.mem
  rw [hw] at this
  exact ⟨this, h.ports, h.granted, h.rest⟩

/-- With everything clear a port's write is taken at once (R133, R143). -/
theorem State.Clear.write {s : State} (h : s.Clear) (p : Port) (a : Addr) (st : BitVec 4) (w : Word) :
    ∃ k, WriteLeaves s (s.access p (.write a st w)) p a st (Ev.write p a st w (.begin s.units true k)) := by
  refine ⟨Config.queueDepth - (runEvent true 0 (Ev.write p a st w) s.units).need, ?_⟩
  rw [h.access_write]
  exact State.taken_write h.1.2.1 p a st _

/-- A port's write that needs no entry is taken when the port's turn comes (R141, R144). -/
theorem State.Turn.write {s : State} {p : Port} (h : s.Turn p) (a : Addr) (st : BitVec 4) (w : Word)
    (e : Nat → Ev) (hr : ∀ k, Ev.write p a st w (.begin s.units true k) = e k)
    (ho : (e 0).out = [] ∧ (e 0).required = ⟨false, false⟩)
    (hn : ∀ side, ((e 0).units.notices.get side).flagWord = (s.units.notices.get side).flagWord) :
    ∃ k, WriteLeaves s (s.access p (.write a st w)) p a st (e k) := by
  have hneed : (runEvent true 0 (Ev.write p a st w) s.units).need = 0 := by
    unfold runEvent
    rw [hr 0, Ev.close_eq]
    have hf : ∀ side, flagEntry (e 0).units side (s.units.notices.get side) ((e 0).units.notices.get side) = [] := by
      intro side
      unfold flagEntry
      rw [if_pos (.inl (hn side))]
    rw [hf .a, hf .b]
    simp only [Ev.need, Ev.unsent, ho.1, ho.2]
    simp [PerSide.get]
  rw [h.access_ok (attempt_silent hneed)]
  refine ⟨s.free, ?_⟩
  unfold runEvent
  rw [hr s.free]
  exact State.taken_write h.1.2.1 p a st _

/-! ### Classes of the windows' words (R134, R137) -/

theorem classWrite_window {u : Units} {p : Port} {a : Addr} {w : Word} {x : Window} {off : Nat} (h : u.inWindow a x off) :
    classWrite u p a allStrobes w = classWindow u p x off := by
  unfold classWrite
  rw [h.1, h.2]
  simp

end Sys2Proof.Machine
end

