-- ==== Sys2Proof/Laws/Acts.lean ====
section
/-! SUPPORT. What an event puts out, and effects (Safety.lean): what a list of notices, flags and writes depends on and
leaves alone, and when an operation of an event has an effect exactly (Ev.Does), with what follows for the state. -/

namespace Sys2Proof.Machine

/-- The units with other notice units. -/
def Units.withNotices (u : Units) (n : PerSide NoticeSide) : Units := { u with notices := n }

@[simp] theorem Units.withNotices_self (u : Units) : u.withNotices u.notices = u := rfl
@[simp] theorem Units.withNotices_notices (u : Units) (n : PerSide NoticeSide) : (u.withNotices n).notices = n := rfl
@[simp] theorem Units.withNotices_twice (u : Units) (n m : PerSide NoticeSide) :
    (u.withNotices n).withNotices m = u.withNotices m := rfl
@[simp] theorem Units.withNotices_head (u : Units) (n : PerSide NoticeSide) (h : Fin 32) :
    (u.withNotices n).head h = u.head h := rfl

/-- Units with the same pieces, the notice units apart. -/
theorem Units.keeps_withNotices (u : Units) (n : PerSide NoticeSide) (q : Piece) (hq : ∀ side, q ≠ .notice side) :
    u.keeps (u.withNotices n) q := by
  cases q <;> first
    | exact absurd rfl (hq _)
    | exact ⟨rfl, rfl⟩
    | exact ⟨rfl, rfl, rfl, rfl⟩
    | rfl

/-! ### Lists of things put out -/

/-- What a list of things put out makes of an event so far. -/
def Ev.acts (e : Ev) (l : List Act) : Ev := l.foldl (fun e a => a.take e) e

@[simp] theorem Ev.acts_nil (e : Ev) : e.acts [] = e := rfl
theorem Ev.acts_cons (e : Ev) (a : Act) (l : List Act) : e.acts (a :: l) = (a.take e).acts l := rfl
theorem Ev.acts_append (e : Ev) (l m : List Act) : e.acts (l ++ m) = (e.acts l).acts m := List.foldl_append ..
theorem Units.puts_eq (u : Units) (l : List Act) : u.puts l = (Ev.begin u false 0).acts l := rfl

/-- Two events in the making that agree in configuration, notice units and writes. -/
structure Ev.Alike (e f : Ev) : Prop where
  config : f.units.config = e.units.config
  notices : f.units.notices = e.units.notices

/-- A change of a notice unit, from two events alike. -/
theorem Ev.modNotice_alike {e f : Ev} (h : e.Alike f) (s : Side) (g : NoticeSide → NoticeSide) :
    ∃ n l, e.modNotice s g = { e with units := e.units.withNotices n, out := e.out ++ l } ∧
      f.modNotice s g = { f with units := f.units.withNotices n, out := f.out ++ l } := by
  refine ⟨e.units.notices.set s (g (e.units.notices.get s)), [], ?_, ?_⟩
  · simp only [List.append_nil]; rfl
  · simp only [List.append_nil]
    unfold Ev.modNotice Units.setNotice Units.withNotices
    rw [h.notices]

/-- One thing put out, from two events alike. -/
theorem Act.take_alike {e f : Ev} (h : e.Alike f) (a : Act) :
    ∃ n l, a.take e = { e with units := e.units.withNotices n, out := e.out ++ l } ∧
      a.take f = { f with units := f.units.withNotices n, out := f.out ++ l } := by
  have hn := h.notices
  have hc := h.config
  have head : ∀ (s : Side) (x : Notice), ∃ n l,
      e.headNotice s x = { e with units := e.units.withNotices n, out := e.out ++ l } ∧
        f.headNotice s x = { f with units := f.units.withNotices n, out := f.out ++ l } := by
    intro s x
    obtain ⟨c1, c2⟩ := Units.heard_congr (u := e.units) (v := f.units) s x hc (by rw [hn])
    refine ⟨e.units.notices.set s ((e.units.heard s x).units.notices.get s), (e.units.heard s x).out, ?_, ?_⟩
    · rw [Ev.headNotice_eq]; rfl
    · rw [Ev.headNotice_eq, c1, c2]
      unfold Units.setNotice Units.withNotices
      rw [hn]
  have place : ∀ (e f : Ev) (s : Side) (x : Notice), e.Alike f → ∃ n l,
      e.place s x = { e with units := e.units.withNotices n, out := e.out ++ l } ∧
        f.place s x = { f with units := f.units.withNotices n, out := f.out ++ l } := by
    intro e f s x hef
    have hn := hef.notices
    have hc := hef.config
    have hz : ∀ s, f.units.ringSize s = e.units.ringSize s := fun s => by unfold Units.ringSize; rw [hc]
    have hb : ∀ w, f.units.base w = e.units.base w := fun w => by unfold Units.base; rw [hc]
    have ho : f.ringOpen s = e.ringOpen s := by unfold Ev.ringOpen; simp only [hn, hz]
    unfold Ev.place
    rw [ho, hn]
    by_cases hop : e.ringOpen s = true
    · simp only [hop, if_true]
      unfold Ev.ringWrite
      simp only [hn, hz, hb]
      refine ⟨_, _, rfl, ?_⟩
      unfold Ev.modNotice Units.setNotice Units.withNotices
      simp only [hn]
    · simp only [hop, if_false, Bool.false_eq_true]
      exact Ev.modNotice_alike hef s _
  cases a with
  | notice s x => exact head s x
  | order s x =>
    have ha : (e.takeNumber s).Alike (f.takeNumber s) := ⟨hc, by
      unfold Ev.takeNumber Ev.modNotice Units.setNotice
      simp only [hn]⟩
    obtain ⟨n, l, h1, h2⟩ := place _ _ s x ha
    show ∃ n l, e.orderNotice s x = _ ∧ f.orderNotice s x = _
    unfold Ev.orderNotice
    rw [h1, h2]
    exact ⟨_, l, rfl, rfl⟩
  | lost s =>
    obtain ⟨n, l, h1, h2⟩ := Ev.modNotice_alike h s fun n => ({ n with number := n.number + 1 } : NoticeSide).setFlag .noticeLost
    refine ⟨n, l, ?_, ?_⟩
    · rw [← h1]
      show (e.takeNumber s).setFlag s .noticeLost = _
      unfold Ev.takeNumber Ev.setFlag Ev.modNotice Units.setNotice
      simp
    · rw [← h2]
      show (f.takeNumber s).setFlag s .noticeLost = _
      unfold Ev.takeNumber Ev.setFlag Ev.modNotice Units.setNotice
      simp
  | flag s x => exact Ev.modNotice_alike h s fun n => n.setFlag x
  | reserve s => exact Ev.modNotice_alike h s fun n => { n with reservations := n.reservations + 1 }
  | write x => exact ⟨e.units.notices, [x], rfl, by rw [← hn]; rfl⟩

/-- A list of things put out, from two events alike. -/
theorem Ev.acts_alike (l : List Act) : ∀ {e f : Ev}, e.Alike f →
    ∃ n k, e.acts l = { e with units := e.units.withNotices n, out := e.out ++ k } ∧
      f.acts l = { f with units := f.units.withNotices n, out := f.out ++ k } := by
  induction l with
  | nil => intro e f h; exact ⟨e.units.notices, [], by simp, by simp [← h.notices]⟩
  | cons a rest ih =>
    intro e f h
    obtain ⟨n, l, h1, h2⟩ := Act.take_alike h a
    have ha : (a.take e).Alike (a.take f) := by rw [h1, h2]; exact ⟨h.config, rfl⟩
    obtain ⟨m, k, g1, g2⟩ := ih ha
    rw [Ev.acts_cons, Ev.acts_cons, g1, g2, h1, h2]
    exact ⟨m, l ++ k, by simp, by simp⟩

/-- Things put out change the notice units and the writes only. -/
theorem Ev.acts_only (e : Ev) (l : List Act) :
    e.acts l = { e with units := e.units.withNotices (e.acts l).units.notices, out := (e.acts l).out } := by
  obtain ⟨n, k, h, _⟩ := Ev.acts_alike l (e := e) (f := e) ⟨rfl, rfl⟩
  rw [h]
  rfl

theorem Ev.acts_config (e : Ev) (l : List Act) : (e.acts l).units.config = e.units.config := by
  rw [Ev.acts_only]; rfl

/-- An event alike has the same notice units and the same writes after the same list. -/
theorem Ev.acts_congr {e f : Ev} (h : e.Alike f) (ho : f.out = e.out) (l : List Act) :
    (f.acts l).units.notices = (e.acts l).units.notices ∧ (f.acts l).out = (e.acts l).out := by
  obtain ⟨n, k, h1, h2⟩ := Ev.acts_alike l h
  rw [h1, h2, ho]
  exact ⟨rfl, rfl⟩

/-- What a list puts out does not depend on what the event may still do. -/
theorem Units.puts_congr {u : Units} {e : Ev} (hu : e.units = u) (ho : e.out = []) (l : List Act) :
    (e.acts l).units.notices = (u.puts l).units.notices ∧ (e.acts l).out = (u.puts l).out :=
  Ev.acts_congr (e := Ev.begin u false 0) ⟨by rw [hu]; rfl, by rw [hu]; rfl⟩ (by rw [ho]; rfl) l

/-- Things put out leave alone what the NOTE line and the flag words remember (R165, R167). -/
theorem Act.take_noteKept (a : Act) (e : Ev) (side : Side) :
    (e.units.notices.get side).noteKept ((a.take e).units.notices.get side) := by
  have mod : ∀ (e : Ev) (s : Side) (g : NoticeSide → NoticeSide), (∀ n : NoticeSide, n.noteKept (g n)) →
      (e.units.notices.get side).noteKept ((e.modNotice s g).units.notices.get side) := by
    intro e s g hg
    simp only [Ev.modNotice_units, Units.setNotice_notices, PerSide.get_set]
    split
    · rename_i h; subst h; exact hg _
    · exact ⟨rfl, rfl, rfl⟩
  have trans : ∀ {n m k : NoticeSide}, n.noteKept m → m.noteKept k → n.noteKept k := fun h g =>
    ⟨g.1.trans h.1, g.2.1.trans h.2.1, g.2.2.trans h.2.2⟩
  have number : ∀ (e : Ev) (s : Side), (e.units.notices.get side).noteKept ((e.takeNumber s).units.notices.get side) :=
    fun e s => mod e s _ fun _ => ⟨rfl, rfl, rfl⟩
  have flag : ∀ (e : Ev) (s : Side) (f : Flag), (e.units.notices.get side).noteKept ((e.setFlag s f).units.notices.get side) :=
    fun e s f => mod e s _ fun _ => ⟨rfl, rfl, rfl⟩
  have place : ∀ (e : Ev) (s : Side) (x : Notice), (e.units.notices.get side).noteKept ((e.place s x).units.notices.get side) := by
    intro e s x
    unfold Ev.place
    split
    · unfold Ev.ringWrite
      simp only
      refine mod { e with out := _ } s _ fun n => ?_
      split <;> exact ⟨rfl, rfl, rfl⟩
    · refine mod e s _ fun n => ?_
      split <;> exact ⟨rfl, rfl, rfl⟩
  cases a with
  | notice s x =>
    show NoticeSide.noteKept _ ((e.headNotice s x).units.notices.get side)
    unfold Ev.headNotice
    simp only
    split
    · exact trans (number e s) (place _ s x)
    · exact trans (number e s) (flag _ s _)
  | order s x => exact trans (trans (number e s) (place _ s x)) (mod _ s _ fun _ => ⟨rfl, rfl, rfl⟩)
  | lost s => exact trans (number e s) (flag _ s _)
  | flag s x => exact flag e s x
  | reserve s => exact mod e s _ fun _ => ⟨rfl, rfl, rfl⟩
  | write x => exact ⟨rfl, rfl, rfl⟩

theorem Ev.acts_noteKept (l : List Act) (side : Side) : ∀ e : Ev,
    (e.units.notices.get side).noteKept ((e.acts l).units.notices.get side) := by
  induction l with
  | nil => intro e; exact ⟨rfl, rfl, rfl⟩
  | cons a rest ih =>
    intro e
    have h := Act.take_noteKept a e side
    have g := ih (a.take e)
    exact ⟨g.1.trans h.1, g.2.1.trans h.2.1, g.2.2.trans h.2.2⟩

/-! ### Operations that have an effect -/

/-- What no effect changes: the configuration, the control mirror, and no release becomes pending. -/
structure Units.Steady (u v : Units) : Prop where
  loaded : u.keeps v .loaded
  mirror : v.mirror = u.mirror
  pending : ∀ side, (v.releases.get side).releasePending = true → (u.releases.get side).releasePending = true

theorem Units.Steady.refl (u : Units) : u.Steady u := ⟨⟨rfl, rfl, rfl, rfl⟩, rfl, fun _ h => h⟩

theorem Units.Steady.trans {u v w : Units} (h : u.Steady v) (g : v.Steady w) : u.Steady w :=
  ⟨Ev.Moves.keeps_trans h.loaded g.loaded, g.mirror.trans h.mirror, fun side c => h.pending side (g.pending side c)⟩

/-- An operation of an event leaves exactly the units of an effect, with the notice units and the writes that the effect
puts out. -/
structure Ev.Does (e e' : Ev) (r : Effect) : Prop where
  units : e'.units = r.1.withNotices (e.acts r.2).units.notices
  out : e'.out = (e.acts r.2).out
  release : e'.release = e.release
  steady : e.units.Steady r.1

/-- An effect that does not look at the notice units. -/
def Blind (f : Units → Effect) : Prop :=
  ∀ u n, f (u.withNotices n) = ((f u).1.withNotices n, (f u).2)

namespace Ev.Does

variable {e e' e'' : Ev} {r : Effect}

theorem config (d : e.Does e' r) : e'.units.config = e.units.config := by
  rw [d.units]; exact d.steady.loaded.1

theorem trans {f : Units → Effect} (d : e.Does e' r) (hb : Blind f) (g : e'.Does e'' (f e'.units)) :
    e.Does e'' (r.then f) := by
  have hf : f e'.units = ((f r.1).1.withNotices (e.acts r.2).units.notices, (f r.1).2) := by rw [d.units]; exact hb _ _
  rw [hf] at g
  have ha : (e.acts r.2).Alike e' := ⟨by rw [Ev.acts_config]; exact d.config, by rw [d.units]; rfl⟩
  obtain ⟨c1, c2⟩ := Ev.acts_congr ha d.out (f r.1).2
  refine ⟨?_, ?_, g.release.trans d.release, ?_⟩
  · rw [g.units]
    show Units.withNotices _ _ = _
    rw [c1]
    show _ = Units.withNotices _ (e.acts (r.2 ++ (f r.1).2)).units.notices
    rw [Ev.acts_append]
    rfl
  · rw [g.out]
    show (e'.acts (f r.1).2).out = (e.acts (r.2 ++ (f r.1).2)).out
    rw [c2, Ev.acts_append]
  · have h1 := g.steady
    have h3 : (Units.withNotices (f r.1).1 (e.acts r.2).units.notices).Steady (f r.1).1 := ⟨⟨rfl, rfl, rfl, rfl⟩, rfl, fun _ h => h⟩
    have h4 : r.1.Steady e'.units := by rw [d.units]; exact ⟨⟨rfl, rfl, rfl, rfl⟩, rfl, fun _ h => h⟩
    exact d.steady.trans (h4.trans (h1.trans h3))

/-- A change of the units that is no change of the notice units. -/
theorem of_units {u : Units} (hn : u.notices = e.units.notices) (hl : e.units.Steady u) :
    e.Does { e with units := u } (u, []) :=
  ⟨by show u = u.withNotices e.units.notices; rw [← hn]; rfl, rfl, rfl, hl⟩

theorem refl : e.Does e (e.units, []) := ⟨rfl, rfl, rfl, .refl _⟩

/-- Things put out and nothing else. -/
theorem acts (l : List Act) : e.Does (e.acts l) (e.units, l) := by
  refine ⟨?_, rfl, ?_, .refl _⟩
  · rw [Ev.acts_only]; rfl
  · rw [Ev.acts_only]

theorem act (a : Act) : e.Does (a.take e) (e.units, [a]) := acts [a]

theorem congr {r' : Effect} (d : e.Does e' r) (h : r = r') : e.Does e' r' := h ▸ d

/-- The rest of an event does not look at what the event carries to memory, nor at what its release requires. -/
theorem aside (d : e.Does e' r) {w : Option Word} {k : Nat} {q : PerSide Bool} :
    e.Does { e' with word := w, spare := k, required := q } r := ⟨d.units, d.out, d.release, d.steady⟩

/-- What the event leaves of the pieces that are no notice units. -/
theorem piece (d : e.Does e' r) (q : Piece) (hq : ∀ side, q ≠ .notice side) : r.1.keeps e'.units q := by
  rw [d.units]; exact Units.keeps_withNotices _ _ q hq

theorem noteKept (d : e.Does e' r) (side : Side) : (e.units.notices.get side).noteKept (e'.units.notices.get side) := by
  rw [d.units]; exact Ev.acts_noteKept r.2 side e

theorem modHead {h : Fin 32} (f : Head → Head) : e.Does (e.modHead h f) (e.units.setHead h (f (e.units.head h)), []) :=
  of_units rfl ⟨⟨rfl, rfl, rfl, rfl⟩, rfl, fun _ h => h⟩

theorem modZone {z : Zone} (f : ZoneRec → ZoneRec) :
    e.Does (e.modZone z f) (e.units.setZone z (f (e.units.zones.get z)), []) := of_units rfl ⟨⟨rfl, rfl, rfl, rfl⟩, rfl, fun _ h => h⟩

theorem modOrder {s : Side} (f : OrderSide → OrderSide) :
    e.Does (e.modOrder s f) (e.units.setOrder s (f (e.units.orders.get s)), []) := of_units rfl ⟨⟨rfl, rfl, rfl, rfl⟩, rfl, fun _ h => h⟩

theorem modRelease {s : Side} (f : ReleaseSide → ReleaseSide)
    (hf : (f (e.units.releases.get s)).releasePending = true → (e.units.releases.get s).releasePending = true) :
    e.Does (e.modRelease s f) (e.units.setRelease s (f (e.units.releases.get s)), []) :=
  of_units rfl ⟨⟨rfl, rfl, rfl, rfl⟩, rfl, fun side => by
    rw [Units.setRelease_releases, PerSide.get_set]
    split
    · rename_i h; rw [h]; exact hf
    · exact id⟩

end Ev.Does

/-! ### What an effect leaves in the state -/

/-- An event of the part's own units, or a port's write, whose body has an effect that leaves no release pending (R143). -/
theorem EventLeaves.makes_of {s t : State} {e e0 : Ev} (h : EventLeaves s t e) {r : Effect} (d : e0.Does e r)
    (hu : e0.units = s.units) (ho : e0.out = []) (hr : ∀ side, (r.1.releases.get side).releasePending = false) :
    s.Makes t r := by
  obtain ⟨c1, c2⟩ := Units.puts_congr hu ho r.2
  refine ⟨fun q hq => ?_, fun side => ?_, ?_⟩
  · have hq' : ∀ side, q ≠ .notice side := by
      rintro side rfl
      cases side <;> simp at hq
    exact Ev.Moves.keeps_trans (d.piece q hq') (h.piece q hq')
  · refine (h.notices side).trans ?_
    rw [d.units, ← c1]
    exact ⟨rfl, rfl, rfl, rfl, rfl, rfl, rfl⟩
  · rw [← c2, ← d.out]
    refine h.queued ?_ ?_ ?_
    · rw [d.units]; exact d.steady.loaded.2.2.1.trans (by rw [hu])
    · intro side; have := d.noteKept side; rw [hu] at this; exact this
    · intro side; rw [d.units]; exact hr side

/-- The same where no release was pending before it. -/
theorem EventLeaves.makes {s t : State} {e e0 : Ev} (h : EventLeaves s t e) {r : Effect} (d : e0.Does e r)
    (hu : e0.units = s.units) (ho : e0.out = []) (hr : ∀ side, (s.units.releases.get side).releasePending = false) :
    s.Makes t r :=
  h.makes_of d hu ho fun side => by
    have := d.steady.pending side
    rw [hu, hr side] at this
    cases hb : (r.1.releases.get side).releasePending
    · rfl
    · exact absurd (this hb) (by simp)

/-- A command word whose taking has an effect (R152). -/
theorem CommandLeaves.makes {s t : State} {p : Port} {slot : Side} {c : Command} {arg : BitVec 8} {q : Taken} {e0 : Ev}
    (h : CommandLeaves s t p slot c arg q) {r : Effect} (d : e0.Does q.1 r) (hu : e0.units = s.units) (ho : e0.out = [])
    (hr : ∀ side, (s.units.releases.get side).releasePending = false) : s.CommandMakes t slot r := by
  obtain ⟨c1, c2⟩ := Units.puts_congr hu ho r.2
  refine ⟨fun x hx => ?_, fun side => ?_, ?_⟩
  · simp only [List.mem_cons, List.not_mem_nil, or_false, not_or] at hx
    have hq' : ∀ side, x ≠ .notice side := by
      rintro side rfl
      cases side
      · exact hx.2.1 rfl
      · exact hx.2.2 rfl
    exact Ev.Moves.keeps_trans (d.piece x hq') (h.piece x hq' hx.1)
  · refine (h.notices side).trans ?_
    rw [d.units, ← c1]
    exact ⟨rfl, rfl, rfl, rfl, rfl, rfl, rfl⟩
  · rw [← c2, ← d.out]
    refine h.queued ?_ ?_ ?_
    · rw [d.units]; exact d.steady.loaded.2.2.1.trans (by rw [hu])
    · intro side; have := d.noteKept side; rw [hu] at this; exact this
    · intro side
      rw [d.units]
      have := d.steady.pending side
      rw [hu, hr side] at this
      show (r.1.releases.get side).releasePending = false
      cases hb : (r.1.releases.get side).releasePending
      · rfl
      · exact absurd (this hb) (by simp)

/-- An event of the part's own units with everything clear leaves its body's effect (R143). -/
theorem State.Clear.event_makes {s : State} (h : s.Clear) (o : Owner) (body : Ev → Ev) {r : Effect}
    (d : ∀ k, (Ev.begin s.units true k).Does (body (.begin s.units true k)) r) :
    s.Inside (s.takeOrHold o body) ∧ s.Makes (s.takeOrHold o body) r := by
  obtain ⟨k, g, hi⟩ := h.event o body
  exact ⟨hi, g.makes (d k) rfl rfl h.1.2.2.2.1⟩

/-- A port's whole write with everything clear leaves its event's effect, and its word in memory (R133, R143). -/
theorem State.Clear.write_makes {s : State} (h : s.Clear) (p : Port) (a : Addr) (w v : Word) {r : Effect}
    (d : ∀ k, (Ev.begin s.units true k).Does (Ev.write p a allStrobes w (.begin s.units true k)) r)
    (hv : ∀ k, (Ev.write p a allStrobes w (.begin s.units true k)).word = some v) :
    s.Wrote (s.access p (.write a allStrobes w)) p a v ∧ s.Makes (s.access p (.write a allStrobes w)) r := by
  obtain ⟨k, g⟩ := h.write p a allStrobes w
  exact ⟨g.wrote (hv k) h.1.2.2.2.2.1, g.makes (d k) rfl rfl h.1.2.2.2.1⟩

/-- A command taken with everything clear leaves its effect, and its word with the verdict (R152). -/
theorem State.Clear.command_makes {s : State} (h : s.Clear) {p : Port} (hp : s.mayCommand p) (slot : Side) (c : Command)
    (arg : BitVec 8) {v : BitVec 14} {r : Effect}
    (d : ∀ k, ∃ e, (Ev.begin s.units true k).take slot c arg = (e, .done v) ∧ (Ev.begin s.units true k).Does e r) :
    s.Commanded (s.command c p slot arg) p slot c arg v ∧ s.CommandMakes (s.command c p slot arg) slot r := by
  obtain ⟨k, g⟩ := h.command hp slot c arg
  obtain ⟨e, he, d⟩ := d k
  rw [he] at g
  have g := g (by rw [d.units]; exact Eq.trans (congrArg Cells.wf d.steady.mirror) h.1.2.2.2.2.2)
  exact ⟨⟨g.wrote, g.mirror⟩, g.makes d rfl rfl h.1.2.2.2.1⟩

/-! ### What a list does to one side's notice unit -/

/-- A thing put out concerns a side's notice unit. -/
def Act.on (side : Side) : Act → Bool
  | .notice s _ | .order s _ | .lost s | .flag s _ | .reserve s => s = side
  | .write _ => false

/-- What a thing put out makes of a side's reservations (R162). -/
def Act.reserves (side : Side) (n : Nat) : Act → Nat
  | .order s _ => if s = side then n - 1 else n
  | .reserve s => if s = side then n + 1 else n
  | _ => n

/-- How many of a side's numbers a thing put out takes (R161). -/
def Act.numbers (side : Side) : Act → Nat
  | .notice s _ | .order s _ | .lost s => if s = side then 1 else 0
  | _ => 0

/-- A side's notice unit after a thing put out: another side's unit stays, reservations and number as counted, and no
flag is lost. -/
structure Act.Gives (a : Act) (side : Side) (x y : NoticeSide) : Prop where
  other : a.on side = false → y = x
  reserved : y.reservations = a.reserves side x.reservations
  number : y.number = x.number + BitVec.ofNat 16 (a.numbers side)
  flags : ∀ f, x.has f = true → y.has f = true
  flag : ∀ f, a = .flag side f → y.has f = true

theorem NoticeSide.has_of_flags {x y : NoticeSide} {f : Flag} (h : x.has f = true) (hf : y.flags = x.flags) : y.has f = true := by
  unfold NoticeSide.has at h ⊢; rw [hf]; exact h

theorem NoticeSide.has_setFlag {x : NoticeSide} {f : Flag} (g : Flag) (h : x.has f = true) : (x.setFlag g).has f = true := by
  rw [NoticeSide.setFlag_has, h]; rfl

theorem Act.gives (a : Act) (e : Ev) (side : Side) :
    a.Gives side (e.units.notices.get side) ((a.take e).units.notices.get side) := by
  -- a change of one side's unit
  have mod : ∀ (e : Ev) (s : Side) (g : NoticeSide → NoticeSide), (e.modNotice s g).units.notices.get side =
      if side = s then g (e.units.notices.get side) else e.units.notices.get side := by
    intro e s g
    simp only [Ev.modNotice_units, Units.setNotice_notices, PerSide.get_set]
    split
    · rename_i h; rw [h]
    · rfl
  have place : ∀ (e : Ev) (s : Side) (x : Notice), (side ≠ s → (e.place s x).units.notices.get side = e.units.notices.get side) ∧
      ((e.place s x).units.notices.get side).reservations = (e.units.notices.get side).reservations ∧
      ((e.place s x).units.notices.get side).number = (e.units.notices.get side).number ∧
      ∀ f, (e.units.notices.get side).has f = true → ((e.place s x).units.notices.get side).has f = true := by
    intro e s x
    unfold Ev.place
    split
    · unfold Ev.ringWrite
      simp only
      refine ⟨fun h => ?_, ?_, ?_, fun f hf => ?_⟩
      · rw [mod, if_neg h]
      · rw [mod]; split
        · simp only; split <;> rfl
        · rfl
      · rw [mod]; split
        · simp only; split <;> rfl
        · rfl
      · rw [mod]; split
        · have h1 : ∀ w : Nat, ({ e.units.notices.get side with writeIx := w } : NoticeSide).has f = true := fun w =>
            NoticeSide.has_of_flags hf rfl
          simp only; split
          · exact NoticeSide.has_setFlag _ (NoticeSide.has_setFlag _ (h1 _))
          · exact NoticeSide.has_setFlag _ (h1 _)
        · exact hf
    · unfold Ev.holdNotice
      refine ⟨fun h => ?_, ?_, ?_, fun f hf => ?_⟩
      · rw [mod, if_neg h]
      · rw [mod]; split
        · split <;> rfl
        · rfl
      · rw [mod]; split
        · split <;> rfl
        · rfl
      · rw [mod]; split
        · split
          · exact NoticeSide.has_of_flags hf rfl
          · exact hf
        · exact hf
  have number : ∀ (e : Ev) (s : Side), (e.takeNumber s).units.notices.get side =
      if side = s then { e.units.notices.get side with number := (e.units.notices.get side).number + 1 }
      else e.units.notices.get side := fun e s => mod e s _
  have flag : ∀ (e : Ev) (s : Side) (f : Flag), (e.setFlag s f).units.notices.get side =
      if side = s then (e.units.notices.get side).setFlag f else e.units.notices.get side := fun e s f => mod e s _
  cases a with
  | notice s x =>
    show Act.Gives _ _ _ ((e.headNotice s x).units.notices.get side)
    have hn := number e s
    unfold Ev.headNotice
    simp only
    by_cases hs : side = s
    · rw [if_pos hs] at hn
      subst hs
      split
      · obtain ⟨-, p2, p3, p4⟩ := place (e.takeNumber side) side x
        refine ⟨by simp [Act.on], ?_, ?_, fun f hf => p4 f ?_, by simp⟩
        · rw [p2, hn]; rfl
        · rw [p3, hn]; simp [Act.numbers]
        · rw [hn]; exact NoticeSide.has_of_flags hf rfl
      · have hf := flag (e.takeNumber side) side .noticeLost
        rw [if_pos rfl, hn] at hf
        rw [hf]
        refine ⟨by simp [Act.on], rfl, by simp [Act.numbers]; rfl, fun f hf => ?_, by simp⟩
        exact NoticeSide.has_setFlag _ (NoticeSide.has_of_flags hf rfl)
    · rw [if_neg hs] at hn
      have hs' : ¬ s = side := fun c => hs c.symm
      have : ∀ b : Bool, (if b then (e.takeNumber s).place s x else (e.takeNumber s).setFlag s .noticeLost).units.notices.get side =
          e.units.notices.get side := by
        intro b
        cases b
        · simp only [Bool.false_eq_true, if_false]; rw [flag, if_neg hs, hn]
        · simp only [if_true]; rw [(place _ _ _).1 hs, hn]
      rw [this]
      exact ⟨fun _ => rfl, rfl, by simp [Act.numbers, hs'], fun _ h => h, by simp⟩
  | order s x =>
    show Act.Gives _ _ _ ((e.orderNotice s x).units.notices.get side)
    have hn := number e s
    unfold Ev.orderNotice
    rw [mod]
    by_cases hs : side = s
    · rw [if_pos hs] at hn ⊢
      subst hs
      obtain ⟨-, p2, p3, p4⟩ := place (e.takeNumber side) side x
      refine ⟨by simp [Act.on], ?_, ?_, fun f hf => NoticeSide.has_of_flags (p4 f ?_) rfl, by simp⟩
      · simp only; rw [p2, hn]; simp [Act.reserves]
      · simp only; rw [p3, hn]; simp [Act.numbers]
      · rw [hn]; exact NoticeSide.has_of_flags hf rfl
    · have hs' : ¬ s = side := fun c => hs c.symm
      rw [if_neg hs] at hn ⊢
      rw [(place _ _ _).1 hs, hn]
      exact ⟨fun _ => rfl, by simp [Act.reserves, hs'], by simp [Act.numbers, hs'], fun _ h => h, by simp⟩
  | lost s =>
    show Act.Gives _ _ _ (((e.takeNumber s).setFlag s .noticeLost).units.notices.get side)
    rw [flag, number]
    by_cases hs : side = s
    · subst hs
      rw [if_pos rfl, if_pos rfl]
      exact ⟨by simp [Act.on], rfl, by simp [Act.numbers]; rfl, fun f hf => NoticeSide.has_setFlag _ (NoticeSide.has_of_flags hf rfl),
        by simp⟩
    · have hs' : ¬ s = side := fun c => hs c.symm
      rw [if_neg hs, if_neg hs]
      exact ⟨fun _ => rfl, rfl, by simp [Act.numbers, hs'], fun _ h => h, by simp⟩
  | flag s x =>
    show Act.Gives _ _ _ ((e.setFlag s x).units.notices.get side)
    rw [flag]
    by_cases hs : side = s
    · subst hs
      rw [if_pos rfl]
      refine ⟨by simp [Act.on], rfl, by simp [Act.numbers]; rfl, fun f hf => NoticeSide.has_setFlag _ hf, fun f hf => ?_⟩
      cases hf
      rw [NoticeSide.setFlag_has]; simp
    · rw [if_neg hs]
      refine ⟨fun _ => rfl, rfl, by simp [Act.numbers], fun _ h => h, fun f hf => ?_⟩
      cases hf
      exact absurd rfl hs
  | reserve s =>
    show Act.Gives _ _ _ ((e.modNotice s fun n => { n with reservations := n.reservations + 1 }).units.notices.get side)
    rw [mod]
    by_cases hs : side = s
    · subst hs
      rw [if_pos rfl]
      exact ⟨by simp [Act.on], by simp [Act.reserves], by simp [Act.numbers], fun f hf => NoticeSide.has_of_flags hf rfl, by simp⟩
    · have hs' : ¬ s = side := fun c => hs c.symm
      rw [if_neg hs]
      exact ⟨fun _ => rfl, by simp [Act.reserves, hs'], by simp [Act.numbers], fun _ h => h, by simp⟩
  | write x => exact ⟨fun _ => rfl, rfl, by simp [Act.numbers]; rfl, fun _ h => h, by simp⟩

/-- A side's notice unit after a list of things put out. -/
structure Gives (l : List Act) (side : Side) (x y : NoticeSide) : Prop where
  other : (∀ a, a ∈ l → a.on side = false) → y = x
  reserved : y.reservations = l.foldl (fun n a => a.reserves side n) x.reservations
  number : y.number = x.number + BitVec.ofNat 16 (l.map (Act.numbers side)).sum
  flags : ∀ f, x.has f = true → y.has f = true
  flag : ∀ f, .flag side f ∈ l → y.has f = true

theorem Ev.acts_gives (side : Side) : ∀ (l : List Act) (e : Ev),
    Gives l side (e.units.notices.get side) ((e.acts l).units.notices.get side) := by
  intro l
  induction l with
  | nil => intro e; exact ⟨fun _ => rfl, rfl, by simp, fun _ h => h, by simp⟩
  | cons a rest ih =>
    intro e
    have h := a.gives e side
    have g := ih (a.take e)
    rw [Ev.acts_cons]
    refine ⟨fun c => ?_, ?_, ?_, fun f hf => g.flags f (h.flags f hf), fun f hf => ?_⟩
    · rw [g.other fun b hb => c b (List.mem_cons_of_mem _ hb), h.other (c a (List.mem_cons_self ..))]
    · rw [g.reserved, h.reserved]; rfl
    · rw [g.number, h.number, List.map_cons, List.sum_cons, BitVec.ofNat_add, BitVec.add_assoc]
    · rcases List.mem_cons.1 hf with c | c
      · exact g.flags f (h.flag f c.symm)
      · exact g.flag f c

theorem Units.puts_gives (u : Units) (l : List Act) (side : Side) :
    Gives l side (u.notices.get side) ((u.puts l).units.notices.get side) := Ev.acts_gives side l (.begin u false 0)

/-! ### The side that an event does not concern -/

/-- A notice unit that no thing put out concerns is the same after the event. -/
theorem State.Puts.other {s t : State} {l : List Act} (h : s.Puts t l) (side : Side) (ho : ∀ a, a ∈ l → a.on side = false) :
    t.units.notices.get side = s.units.notices.get side := by
  have hs := h.1 side
  rw [(s.units.puts_gives l side).other ho] at hs
  have hf := h.2.1.1.2 side
  have hp := h.2.1.2 side
  obtain ⟨h1, h2, h3, h4, h5, h6, h7⟩ := hs
  have hr : flagRises (s.units.notices.get side) (t.units.notices.get side) = false := by
    unfold flagRises
    rw [h6, h7]
    simp only [bne_eq_false_iff_eq]
    rw [BitVec.and_not_self]
    simp
  rw [hr, Bool.or_false] at hp
  have hw : (t.units.notices.get side).flagWord = (s.units.notices.get side).flagWord := by
    unfold NoticeSide.flagWord; rw [h1, h6, h7]
  simp only [Units.flagQueued, hw, true_or, if_true] at hf
  obtain ⟨f1, f2⟩ := hf
  rw [hp] at f2
  have f3 : (t.units.notices.get side).noteWait = (s.units.notices.get side).noteWait := by
    rw [f2, if_neg]
    rintro ⟨a, b⟩
    rw [a] at b; cases b
  generalize t.units.notices.get side = n at *
  generalize s.units.notices.get side = m at *
  obtain ⟨⟩ := n
  obtain ⟨⟩ := m
  simp_all

/-- An event with an effect keeps every piece that the effect keeps and that nothing put out concerns. -/
theorem State.Makes.keeps {s t : State} {r : Effect} (m : s.Makes t r) {q : Piece} (hq : (∀ side, q ≠ .notice side) → s.units.keeps r.1 q)
    (hn : ∀ side, q = .notice side → ∀ a, a ∈ r.2 → a.on side = false) : s.units.keeps t.units q := by
  by_cases h : ∃ side, q = .notice side
  · obtain ⟨side, rfl⟩ := h
    exact m.2.other side (hn side rfl)
  · have h' : ∀ side, q ≠ .notice side := fun side c => h ⟨side, c⟩
    exact Ev.Moves.keeps_trans (hq h') (m.1 q (by simp [h' .a, h' .b]))

theorem State.CommandMakes.keeps {s t : State} {slot : Side} {r : Effect} (m : s.CommandMakes t slot r) {q : Piece}
    (hm : q ≠ .mirror (slotOffset slot)) (hq : (∀ side, q ≠ .notice side) → s.units.keeps r.1 q)
    (hn : ∀ side, q = .notice side → ∀ a, a ∈ r.2 → a.on side = false) : s.units.keeps t.units q := by
  by_cases h : ∃ side, q = .notice side
  · obtain ⟨side, rfl⟩ := h
    exact m.2.other side (hn side rfl)
  · have h' : ∀ side, q ≠ .notice side := fun side c => h ⟨side, c⟩
    exact Ev.Moves.keeps_trans (hq h') (m.1 q (by simp [h' .a, h' .b, hm]))

end Sys2Proof.Machine
end

