-- ==== Sys2Proof/Laws/Reports.lean ====
section
/-! SUPPORT. Reports: a header write as an event, the six checks, and the parts of a taken report. -/

namespace Sys2Proof.Machine

/-! ### Header writes and the six checks (R29, R30) -/

/-- A header write by HL with everything clear (R29, R30). -/
theorem State.Clear.header {s : State} (h : s.Clear) {a : Addr} {w : Word} {slot : Nat} (hw : s.units.inWindow a .report (4 * slot)) :
    ∃ k, WriteLeaves s (s.access .hl (.write a allStrobes w)) .hl a allStrobes
      { ((Ev.begin s.units true k).reportOutcome slot (reportHeader w)).mod (fun u => u.setStage none) with word := some w } := by
  obtain ⟨k, g⟩ := h.write .hl a allStrobes w
  refine ⟨k, ?_⟩
  have : classWrite (Ev.begin s.units true k).units .hl a allStrobes w = .reportHeader slot := by
    rw [show (Ev.begin s.units true k).units = s.units from rfl, classWrite_window hw]
    unfold classWindow
    have e1 : (4 * slot) % 4 = 0 := by omega
    have e2 : (4 * slot) / 4 = slot := by omega
    simp [e1, e2]
  unfold Ev.write at g
  simp only [this] at g
  exact g

/-- A complete write group holds a word at every sample offset (R29). -/
theorem groupComplete_iff (st : Option WriteGroup) (slot n : Nat) :
    groupComplete st slot n = true ↔ ∀ o, 1 ≤ o → o ≤ n → (stagedWord st slot o).isSome = true := by
  unfold groupComplete stagedWord
  cases st with
  | none =>
    simp
    constructor
    · intro h o; omega
    · intro h; by_contra hc; have := h 1 (by omega); omega
  | some g =>
    simp only [Bool.or_eq_true, decide_eq_true_eq, Bool.and_eq_true, List.all_eq_true, List.mem_range, Option.bind_some]
    by_cases hg : g.slot = slot
    · simp only [hg, true_and, if_true]
      constructor
      · rintro (h | h) o h1 h2
        · omega
        · have := h (o - 1) (by omega)
          rwa [show o - 1 + 1 = o by omega] at this
      · intro h
        exact .inr fun i hi => h (i + 1) (by omega) (by omega)
    · simp only [hg, false_and, or_false, if_false]
      constructor
      · intro h o; omega
      · intro h; by_contra hc; have := h 1 (by omega) (by omega); simp at this

/-- A test of the samples of a complete report, offset by offset (R30). -/
theorem samplesOf_all {u : Units} {slot n : Nat} (hc : u.reportComplete slot n) (P : Int → Bool) :
    (samplesOf u.stage n).findIdx? (fun v => !P v) = none ↔
      ∀ o w, 1 ≤ o → o ≤ n → stagedWord u.stage slot o = some w → P w.toInt = true := by
  rw [List.findIdx?_eq_none_iff]
  unfold samplesOf
  unfold Units.reportComplete at hc
  unfold stagedWord at *
  cases hst : u.stage with
  | none =>
    rw [hst] at hc
    simp
  | some g =>
    rw [hst] at hc
    by_cases hg : g.slot = slot
    · simp only [Option.bind_some, hg, if_true] at hc ⊢
      constructor
      · intro h o w h1 h2 h3
        have := h w.toInt (by
          rw [List.mem_filterMap]
          exact ⟨o - 1, by simp; omega, by rw [show o - 1 + 1 = o by omega, h3]; rfl⟩)
        simpa using this
      · intro h x hx
        rw [List.mem_filterMap] at hx
        obtain ⟨i, hi, hx⟩ := hx
        simp only [List.mem_range] at hi
        cases hw : g.at (i + 1) with
        | none => simp [hw] at hx
        | some w =>
          simp [hw] at hx
          have := h (i + 1) w (by omega) (by omega) hw
          simp [← hx, this]
    · have hn : n = 0 := by
        by_contra hn
        have := hc 1 (by omega) (by omega)
        simp [hg] at this
      subst hn
      simp
      intro o w h1 h2
      omega

theorem sampleOk_iff (x : Int) : sampleOk x = true ↔ -200000 ≤ x ∧ x ≤ 2000000 := by
  unfold sampleOk Config.sampleMin Config.sampleMax
  simp

/-! ### Health, the drain test and taken reports (R34, R46, R156) -/

theorem Ev.lowerHealth_head (e : Ev) (h : Fin 32) (c : HealthCause) :
    (e.lowerHealth h c).units.head h = { e.units.head h with health := (e.units.head h).health - 1 } := by
  unfold Ev.lowerHealth
  simp only
  split
  · rename_i h0
    cases hx : e.units.head h with
    | mk => rw [hx] at h0; simp at h0; simp [h0]
  · rw [Ev.setHealth_head]

theorem Ev.lowerHealth_zones (e : Ev) (h : Fin 32) (c : HealthCause) :
    (e.lowerHealth h c).units.zones = e.units.zones := by
  unfold Ev.lowerHealth
  simp only
  split
  · rfl
  · rw [Ev.setHealth_zones]

theorem Ev.drainTest_id {e : Ev} (h : e.units.undrained) : e.drainTest = e := by
  unfold Ev.drainTest
  split
  · rename_i hc
    simp at hc
    have := h hc.1
    rw [this] at hc
    simp at hc
  · rfl

theorem Ev.Moves.params {T : Piece → Prop} {e e' : Ev} (m : e.Moves T e') (hz : e'.units.zones = e.units.zones) (h : Fin 32) :
    e'.units.params h = e.units.params h :=
  Units.params_congr h m.config fun z => by rw [hz]

theorem Units.reportPasses.judge {u : Units} {slot : Nat} {r : ReportHeader} (hp : u.reportPasses slot r) : judgeReport u slot r = .taken := by
  obtain ⟨h1, h2, h3, h4, h5, h6⟩ := hp
  unfold judgeReport
  simp only
  have hg := (groupComplete_iff u.stage slot r.count).mpr h2
  have hg' : (!groupComplete u.stage slot r.count) = false := by rw [hg]; rfl
  rw [if_neg (by omega : ¬ 3 < r.count), if_neg (by rw [hg']; simp), if_neg (by omega : ¬ u.headCount ≤ r.head.val), if_neg h4]
  have := (samplesOf_all (u := u) h2 sampleOk).mpr (fun o w h1 h2 h3 => (sampleOk_iff _).mpr (h5 o w h1 h2 h3))
  rw [this]
  simp only [h6, if_false]

/-- A header write whose report passes takes it (R34). -/
theorem Ev.outcome_taken {s : State} {k : Nat} {slot : Nat} {r : ReportHeader} (hp : s.units.reportPasses slot r) :
    (Ev.begin s.units true k).reportOutcome slot r = (Ev.begin s.units true k).takeReport r := by
  unfold Ev.reportOutcome
  rw [show (Ev.begin s.units true k).units = s.units from rfl, hp.judge]

/-- The drain condition reads the queues, the dumps and which heads are DISCHARGING (R156). -/
theorem Units.drained_congr {u v : Units} (ho : ∀ x, (v.orders.get x).queue = (u.orders.get x).queue)
    (hd : ∀ x, (v.releases.get x).dumps = (u.releases.get x).dumps)
    (hh : ∀ h, ((v.head h).state.name = .discharging ↔ (u.head h).state.name = .discharging)) : v.drained = u.drained := by
  unfold Units.drained
  rw [ho, ho, hd, hd]
  congr 2
  congr 1
  funext h
  simp only [hh]

end Sys2Proof.Machine
end

