-- ==== Sys2Proof/Laws/Orders.lean ====
section
/-! SUPPORT. Orders: the thirteen checks one by one, the heads of an order claimed or returned, and the held notices that a
consume word moves into the ring. -/

namespace Sys2Proof.Machine

/-- The words of an order's group in the stage (R104 check 3). -/
theorem orderWords_eq (st : Option WriteGroup) (slot n : Nat) :
    orderWords st slot n = (stagedWord st slot 1).bind fun w1 => (stagedWord st slot 3).bind fun w3 =>
      if n ≤ 4 then some (w1, 0, w3) else (stagedWord st slot 2).map fun w2 => (w1, w2, w3) := by
  unfold orderWords stagedWord
  cases st with
  | none => rfl
  | some g =>
    simp only [Option.bind_some]
    by_cases hg : g.slot = slot
    · simp only [hg, if_true, ne_eq, not_true_eq_false, if_false, WriteGroup.at]
      cases g.w1 <;> cases g.w3 <;> rfl
    · simp [hg]

/-- No listed head fails a test. -/
theorem firstListed_eq_none (l : List Nat) (f : Nat → Bool) : firstListed l f = none ↔ ∀ m ∈ l, f m = false := by
  unfold firstListed
  simp [List.findIdx?_eq_none_iff]

/-- No head is listed twice (R104 check 6). -/
theorem firstDuplicate_eq_none (l : List Nat) : firstDuplicate l = none ↔ l.Nodup := by
  unfold firstDuplicate
  simp only [Option.map_eq_none_iff, List.find?_eq_none, List.mem_range]
  rw [List.Nodup, List.pairwise_iff_getElem]
  constructor
  · intro h i j hi hj hij e
    apply h j hj
    rw [List.contains_iff_mem]
    rw [List.getD_eq_getElem?_getD, List.getElem?_eq_getElem hj]
    rw [Option.getD_some, ← e, List.mem_take_iff_getElem]
    exact ⟨i, by omega, rfl⟩
  · intro h i hi hc
    rw [List.contains_iff_mem, List.getD_eq_getElem?_getD, List.getElem?_eq_getElem hi, Option.getD_some, List.mem_take_iff_getElem] at hc
    obtain ⟨j, hj, e⟩ := hc
    exact h j i (by omega) hi (by omega) e

/-- Checks 5 to 9 pass (R104). -/
theorem judgeHeads_eq_none (u : Units) (s : Side) (l : List Nat) : judgeHeads u s l = none ↔
    l.Nodup ∧ (∀ m ∈ l, m < u.headCount ∧ u.zoneOf m = u.binding s) ∧
      ∀ h ∈ l.map headNumber, (u.head h).state = .ready ∧ u.granted h s = true ∧ (u.head h).health < 128 := by
  unfold judgeHeads
  simp only [Option.orElse_eq_or, Option.or_eq_none_iff, Option.map_eq_none_iff, firstListed_eq_none, firstDuplicate_eq_none]
  simp only [Bool.or_eq_false_iff, decide_eq_false_iff_not, bne_eq_false_iff_eq, List.mem_map]
  constructor
  · rintro ⟨h1, h2, h3, h4, h5⟩
    refine ⟨h2, fun m hm => ⟨?_, ?_⟩, ?_⟩
    · have := (h1 m hm).1; omega
    · exact (h1 m hm).2
    · rintro h ⟨m, hm, rfl⟩
      have a := h4 m hm; have b := h5 m hm
      refine ⟨by simpa using a, by simpa using b.1, by have := b.2; omega⟩
  · rintro ⟨h2, h1, h3⟩
    refine ⟨fun m hm => ⟨by have := (h1 m hm).1; omega, (h1 m hm).2⟩, h2, fun m hm => ?_, fun m hm => ?_, fun m hm => ?_⟩
    · rw [(h3 _ ⟨m, hm, rfl⟩).1]; nofun
    · simpa using (h3 _ ⟨m, hm, rfl⟩).1
    · have := h3 _ ⟨m, hm, rfl⟩
      exact ⟨by simpa using this.2.1, by omega⟩

/-- Checks 5 to 9 only refuse. -/
theorem judgeHeads_ne_accepted (u : Units) (s : Side) (l : List Nat) (v : OrderVerdict) (h : judgeHeads u s l = some v) (k : Nat) : v ≠ .accepted k := by
  rintro rfl
  unfold judgeHeads at h
  simp only [firstListed, firstDuplicate, Option.map_map] at h
  simp [Option.orElse_eq_or, Option.or_eq_some_iff] at h

/-- Checks 10 to 13 accept (R104, R107). -/
theorem judgeBag_eq_accepted (u : Units) (s : Side) (b : SideBlock) (heads : List (Fin 32)) (total : Int) (k : Nat) :
    judgeBag u s b heads total = .accepted k ↔ total = frozenSum u heads ∧ b.bagMin ≤ total ∧ total ≤ b.bagMax ∧
      (u.orders.get s).queue.length < 2 ∧ k = (u.orders.get s).queue.length + 1 ∧
      (u.notices.get s).reservations + 1 ≤ (u.notices.get s).room (u.ringSize s) := by
  unfold judgeBag
  simp only [show Config.orderDepth = 2 from rfl]
  split
  · simp_all
  · rename_i h1
    have h1 : total = frozenSum u heads := by simpa using h1
    split
    · simp; omega
    · split
      · simp; omega
      · split
        · simp; omega
        · simp; omega

/-- Head word 2 is read only for more than four heads (R104). -/
theorem listedNumbers_congr (w1 w2 w2' : Word) (n : Nat) (h : 4 < n → w2 = w2') : listedNumbers w1 w2 n = (List.range n).map (headField w1 w2') := by
  unfold listedNumbers
  by_cases hn : 4 < n
  · rw [h hn]
  · refine List.map_congr_left fun i hi => ?_
    simp at hi
    unfold headField
    rw [if_pos (by omega), if_pos (by omega)]

/-- Distinct acceptance numbers name one order of a queue. -/
theorem acceptNumbers_find (l : List OrderRec) (i : Nat) (o : OrderRec) (h : l[i]? = some o) (hn : (l.map OrderRec.accept).Nodup) :
    l.find? (fun p => p.accept = o.accept) = some o ∧ l.filter (fun p => p.accept != o.accept) = l.eraseIdx i := by
  induction l generalizing i with
  | nil => simp at h
  | cons a r ih =>
    rw [List.map_cons, List.nodup_cons] at hn
    have hne : ∀ (j : Nat) (q : OrderRec), r[j]? = some q → q.accept ≠ a.accept := fun j q hq c =>
      hn.1 (List.mem_map.mpr ⟨q, List.mem_of_getElem? hq, c⟩)
    cases i with
    | zero =>
      simp at h; subst h
      refine ⟨by simp, ?_⟩
      simp only [bne_self_eq_false, Bool.false_eq_true, not_false_eq_true, List.filter_cons_of_neg, List.eraseIdx_cons_zero]
      rw [List.filter_eq_self]
      intro q hq
      obtain ⟨j, hj⟩ := List.getElem?_of_mem hq
      simpa using hne j q hj
    | succ i =>
      simp at h
      obtain ⟨h1, h2⟩ := ih i h hn.2
      have := hne i o h
      refine ⟨?_, ?_⟩
      · rw [List.find?_cons_of_neg (by simpa using Ne.symm this)]; exact h1
      · rw [List.filter_cons_of_pos (by simpa using Ne.symm this), h2, List.eraseIdx_cons_succ]

/-- Heads of an order that go back to READY (R111). -/
theorem Ev.returnHeads_head (u : Units) (hs : List (Fin 32)) : ∀ (e : Ev), (∀ h, e.units.params h = u.params h) →
    let e' := e.eachHead hs fun h e => e.returnHead h
    (∀ h, e'.units.head h = if h ∈ hs then (e.units.head h).watched .ready (u.params h).silenceLimit else e.units.head h) := by
  induction hs with
  | nil => intro e he; simp [Ev.eachHead]
  | cons g rest ih =>
    intro e he e' h
    have hstep : e' = (e.returnHead g).eachHead rest fun h e => e.returnHead h := rfl
    have h1 : (e.returnHead g).units = e.units.setHead g ((e.units.head g).watched .ready (u.params g).silenceLimit) := by
      unfold Ev.returnHead Ev.enterWatched Ev.startTimer
      simp only [Ev.modHead_units, Units.setHead_params, Units.head_setHead, if_true, he, ZoneBlock.limit, Head.watched]
      unfold Units.setHead; simp
    have i1 := ih (e.returnHead g) (by intro h; rw [h1, Units.setHead_params]; exact he h)
    rw [hstep]
    have := i1 h
    rw [this, h1]
    simp only [Units.head_setHead, List.mem_cons]
    by_cases hr : h ∈ rest
    · by_cases hg : h = g
      · subst hg; simp [hr, Head.watched]
      · simp [hr, hg]
    · by_cases hg : h = g
      · subst hg; simp [hr]
      · simp [hr, hg]

/-- Heads that go to a watched state one after the other change alone (R8, R109). -/
theorem Ev.claimHeads_head (u : Units) (c : CycleState) (hs : List (Fin 32)) : ∀ (e : Ev), (∀ h, e.units.params h = u.params h) →
    let e' := e.eachHead hs fun h e => e.enterWatched h c
    (∀ h, e'.units.head h = if h ∈ hs then (e.units.head h).watched c (u.params h).silenceLimit else e.units.head h) ∧
    e'.out = e.out ∧ e'.required = e.required ∧ e'.release = e.release ∧ e'.word = e.word ∧ (∀ q, (∀ h, q ≠ .head h) → e.units.keeps e'.units q) ∧
      e'.units.notices = e.units.notices ∧ e'.units.orders = e.units.orders ∧ e'.units.releases = e.units.releases ∧ (∀ h, e'.units.params h = u.params h) := by
  induction hs with
  | nil => intro e he; simp [Ev.eachHead]; exact ⟨fun q _ => Ev.Moves.keeps_refl _ _, he⟩
  | cons g rest ih =>
    intro e he e'
    have hstep : e' = (e.enterWatched g c).eachHead rest fun h e => e.enterWatched h c := rfl
    have h1 : (e.enterWatched g c).units = e.units.setHead g ((e.units.head g).watched c (u.params g).silenceLimit) := by
      unfold Ev.enterWatched Ev.startTimer
      simp only [Ev.modHead_units, Units.setHead_params, Units.head_setHead, if_true, Units.setHead_setHead, he, ZoneBlock.limit, Head.watched]
    obtain ⟨i1, i2, i3, i4, i5, i6, i7, i8, i9, i10⟩ := ih (e.enterWatched g c) (by intro h; rw [h1, Units.setHead_params]; exact he h)
    rw [hstep]
    refine ⟨?_, i2, i3, i4, i5, ?_, ?_, ?_, ?_, i10⟩
    · intro h
      rw [i1, h1]
      simp only [Units.head_setHead, List.mem_cons]
      by_cases hr : h ∈ rest
      · by_cases hg : h = g
        · subst hg; simp [hr, Head.watched]
        · simp [hr, hg]
      · by_cases hg : h = g
        · subst hg; simp [hr]
        · simp [hr, hg]
    · intro q hq
      refine Ev.Moves.keeps_trans ?_ (i6 q hq)
      rw [h1]
      cases q <;> simp [Units.keeps] at hq ⊢
      all_goals rfl
    · rw [i7, h1]; rfl
    · rw [i8, h1]; rfl
    · rw [i9, h1]; rfl

/-- What the held notices that move into the ring leave of the notice unit, and their writes (R161, R164). -/
theorem Ev.moveHeld_eq (s : Side) (l : List (BitVec 16 × Notice)) (e : Ev) (size : Nat) (y : NoticeSide) (hy : e.units.notices.get s = y)
    (hs : e.units.ringSize s = size) (hw : y.writeIx < size) (hc : y.consumeIx < size) (hh : y.holding = l) :
    ∃ z, e.moveHeld s l = { e with units := e.units.setNotice s z, out := e.out ++
        (l.take (min l.length (y.ringFree size))).zipIdx.flatMap fun (n, i) => e.units.ringEntry s ((y.writeIx + i) % size) (n.2.words n.1) } ∧
      z.consumeIx = y.consumeIx ∧ z.writeIx = (y.writeIx + min l.length (y.ringFree size)) % size ∧
      z.holding = l.drop (min l.length (y.ringFree size)) ∧ z.number = y.number ∧ z.reservations = y.reservations ∧ z.enables = y.enables ∧
      z.unread size = y.unread size + min l.length (y.ringFree size) ∧
      ∀ f, z.has f = true ↔ y.has f = true ∨ (0 < min l.length (y.ringFree size) ∧ (f = .noticeWritten ∨ (f = .ringHigh ∧ 3 * size ≤ 4 * z.unread size))) := by
  induction l generalizing e y with
  | nil =>
    refine ⟨y, ?_, rfl, ?_, ?_, rfl, rfl, rfl, ?_, ?_⟩
    · simp [Ev.moveHeld, ← hy, Units.setNotice]
    · simp [Nat.mod_eq_of_lt hw]
    · simp [hh]
    · simp
    · simp
  | cons a rest ih =>
    unfold Ev.moveHeld
    rw [hy, hs]
    split
    · rename_i hf
      let e1 := (e.modNotice s fun r => { r with holding := rest }).ringWrite s a.1 a.2
      let y0 : NoticeSide := { y with holding := rest, writeIx := (y.writeIx + 1) % size, flags := y.flags ||| Flag.noticeWritten.mask }
      let y1 : NoticeSide := if 3 * size ≤ y0.unread size * 4 then y0.setFlag .ringHigh else y0
      have he1 : e1 = { e with units := e.units.setNotice s y1, out := e.out ++ e.units.ringEntry s y.writeIx (a.2.words a.1) } := by
        show (e.modNotice s fun r => { r with holding := rest }).ringWrite s a.1 a.2 = _
        unfold Ev.ringWrite Ev.modNotice
        simp only [Units.setNotice_notices, PerSide.get_set, if_true, hy]
        rw [show (e.units.setNotice s { y with holding := rest }).ringSize s = size from hs]
        unfold Units.ringEntry
        congr 1
        · simp [Units.setNotice]; rfl
      have hu : y1.writeIx = (y.writeIx + 1) % size := by show (if _ then _ else _ : NoticeSide).writeIx = _; split <;> rfl
      have hcc : y1.consumeIx = y.consumeIx := by show (if _ then _ else _ : NoticeSide).consumeIx = _; split <;> rfl
      have hhh : y1.holding = rest := by show (if _ then _ else _ : NoticeSide).holding = _; split <;> rfl
      have hnn : y1.number = y.number := by show (if _ then _ else _ : NoticeSide).number = _; split <;> rfl
      have hrr : y1.reservations = y.reservations := by show (if _ then _ else _ : NoticeSide).reservations = _; split <;> rfl
      have hee : y1.enables = y.enables := by show (if _ then _ else _ : NoticeSide).enables = _; split <;> rfl
      have hunr : y0.unread size = y.unread size + 1 := by
        have hff : 0 < size - 1 - y.unread size := hf
        have : y0.unread size = ((y.writeIx + 1) % size + size - y.consumeIx) % size := rfl
        rw [this]
        unfold NoticeSide.unread at hff ⊢
        by_cases h1 : y.writeIx + 1 = size
        · rw [h1, Nat.mod_self]
          by_cases h2 : y.consumeIx = 0
          · exfalso
            rw [h2, show y.writeIx + size - 0 = (size - 1) + size by omega, Nat.add_mod_right, Nat.mod_eq_of_lt (by omega)] at hff
            omega
          · rw [show 0 + size - y.consumeIx = size - y.consumeIx by omega, Nat.mod_eq_of_lt (by omega)]
            rw [show y.writeIx + size - y.consumeIx = (size - 1 - y.consumeIx) + size by omega, Nat.add_mod_right, Nat.mod_eq_of_lt (by omega)]
            omega
        · rw [Nat.mod_eq_of_lt (show y.writeIx + 1 < size by omega)]
          by_cases h2 : y.consumeIx ≤ y.writeIx
          · rw [show y.writeIx + 1 + size - y.consumeIx = (y.writeIx + 1 - y.consumeIx) + size by omega, Nat.add_mod_right, Nat.mod_eq_of_lt (by omega)]
            rw [show y.writeIx + size - y.consumeIx = (y.writeIx - y.consumeIx) + size by omega, Nat.add_mod_right, Nat.mod_eq_of_lt (by omega)]
            omega
          · rw [Nat.mod_eq_of_lt (show y.writeIx + size - y.consumeIx < size by omega)] at hff ⊢
            rw [Nat.mod_eq_of_lt (by omega)]
            omega
      have hun1 : y1.unread size = y.unread size + 1 := by
        rw [← hunr]; unfold NoticeSide.unread; rw [hu, hcc]
      have hfree : y1.ringFree size + 1 = y.ringFree size := by
        have hff : 0 < size - 1 - y.unread size := hf
        unfold NoticeSide.ringFree; rw [hun1]; omega
      have hmin : min (a :: rest).length (y.ringFree size) = min rest.length (y1.ringFree size) + 1 := by
        simp only [List.length_cons]; omega
      have hy1 : e1.units.notices.get s = y1 := by rw [he1]; simp
      obtain ⟨z, hz, z1, z2, z3, z4, z5, z6, z7, z8⟩ := ih e1 y1 hy1 (by rw [he1]; exact hs) (by rw [hu]; exact Nat.mod_lt _ (by omega)) (by rw [hcc]; exact hc) hhh
      refine ⟨z, ?_, by rw [z1, hcc], ?_, ?_, by rw [z4, hnn], by rw [z5, hrr], by rw [z6, hee], ?_, ?_⟩
      · show e1.moveHeld s rest = _
        rw [hz, he1, hmin, List.take_succ_cons, List.zipIdx_cons, List.flatMap_cons, List.zipIdx_succ, List.flatMap_map]
        simp only [Ev.mk.injEq, and_true]
        refine ⟨by simp [Units.setNotice], ?_⟩
        rw [List.append_assoc, Nat.add_zero, Nat.mod_eq_of_lt hw]
        congr 2
        refine List.flatMap_congr fun p _ => ?_
        rw [hu, Nat.mod_add_mod, show y.writeIx + 1 + p.2 = y.writeIx + (p.2 + 1) by omega]
        rfl
      · rw [z2, hu, hmin, Nat.mod_add_mod]; congr 1; omega
      · rw [z3, hmin]; rfl
      · rw [z7, hun1, hmin]; omega
      · intro f
        rw [z8, hmin]
        have hy1f : y1.has f = true ↔ y.has f = true ∨ f = .noticeWritten ∨ (f = .ringHigh ∧ 3 * size ≤ 4 * (y.unread size + 1)) := by
          have hy0f : y0.has f = true ↔ y.has f = true ∨ f = .noticeWritten := by
            have := NoticeSide.setFlag_has y .noticeWritten f
            have e : y0.has f = (y.setFlag .noticeWritten).has f := rfl
            rw [e, this]; cases f <;> simp
          show (if _ then _ else _ : NoticeSide).has f = true ↔ _
          rw [hunr]
          split
          · rw [NoticeSide.setFlag_has]; simp only [Bool.or_eq_true, hy0f, decide_eq_true_eq]
            have : 3 * size ≤ 4 * (y.unread size + 1) := by omega
            cases f <;> simp [this]
          · have : ¬ 3 * size ≤ 4 * (y.unread size + 1) := by omega
            simp only [hy0f, this]; simp
        rw [hy1f]
        have hle : y.unread size + 1 ≤ z.unread size := by rw [z7, hun1]; omega
        constructor
        · rintro ((h | h | ⟨h1, h2⟩) | ⟨h1, h2⟩)
          · exact .inl h
          · exact .inr ⟨by omega, .inl h⟩
          · exact .inr ⟨by omega, .inr ⟨h1, by omega⟩⟩
          · exact .inr ⟨by omega, h2⟩
        · rintro (h | ⟨_, h | ⟨h1, h2⟩⟩)
          · exact .inl (.inl h)
          · exact .inl (.inr (.inl h))
          · by_cases hm : 0 < min rest.length (y1.ringFree size)
            · exact .inr ⟨hm, .inr ⟨h1, h2⟩⟩
            · refine .inl (.inr (.inr ⟨h1, ?_⟩))
              rw [z7, hun1] at h2; omega
    · rename_i hf
      have h0 : y.ringFree size = 0 := by omega
      refine ⟨y, ?_, rfl, ?_, ?_, rfl, rfl, rfl, ?_, ?_⟩
      · subst hy; simp [h0, Units.setNotice]
      · simp [h0, Nat.mod_eq_of_lt hw]
      · simp [h0, hh]
      · simp [h0]
      · simp [h0]

end Sys2Proof.Machine
end

