-- ==== Sys2Proof/Laws/Health.lean ====
section
/-! SUPPORT. The health counter's steps as the expiries take them: below OUT, at OUT, and the plain entry to OUT. -/

namespace Sys2Proof.Machine

/-- A notice unit put back. -/
theorem Units.setNotice_self (u : Units) (s : Side) : u.setNotice s (u.notices.get s) = u := by
  cases s <;> rfl

/-- A health change touches its head, the reporting side's notice unit and the writes (R4). -/
theorem Ev.setHealth_only (e : Ev) (h : Fin 32) (v : Nat) (c : HealthCause) :
    ∃ y l, e.setHealth h v c = { e with units := (e.units.setHead h { e.units.head h with health := v }).setNotice (e.units.reportingHead h) y, out := e.out ++ l } := by
  unfold Ev.setHealth
  simp only
  split
  · refine ⟨(e.units.notices.get (e.units.reportingHead h)), [], ?_⟩
    have := Units.setNotice_self (e.units.setHead h { e.units.head h with health := v }) (e.units.reportingHead h)
    rw [show (e.units.setHead h { e.units.head h with health := v }).notices = e.units.notices from rfl] at this
    rw [this, List.append_nil]
    rfl
  · rw [Ev.headNotice_eq]
    exact ⟨_, _, rfl⟩

/-- A DISCHARGING head keeps the part from being drained (R156). -/
theorem Units.drained_of_discharging {u : Units} {h : Fin 32} (hd : (u.head h).state.name = .discharging) : u.drained = false := by
  unfold Units.drained
  have : (allHeads.any fun h => (u.head h).state.name = .discharging) = true :=
    List.any_eq_true.mpr ⟨h, mem_allHeads h, by simp [hd]⟩
  rw [this]; simp

/-- The drain test does nothing while the drain condition is false (R156). -/
theorem Ev.drainTest_of_undrained {e : Ev} (h : e.units.drained = false) : e.drainTest = e := by
  unfold Ev.drainTest; rw [h]; simp

/-- A health increment below OUT that makes no head BARRED (R45). -/
theorem Ev.raiseHealth_below (e : Ev) (h : Fin 32) (k : Nat) (c : HealthCause) (b : Bool) (h1 : (e.units.head h).state ≠ .out) (h2 : (e.units.head h).state ≠ .disabled)
    (hlt : (e.units.head h).health + k < 256) (hb : ((e.units.head h).state.name ≠ .ready ∧ (e.units.head h).state.name ≠ .claimed) ∨ (e.units.head h).health + k < 128) :
    e.raiseHealth h k c b = e.setHealth h ((e.units.head h).health + k) c := by
  unfold Ev.raiseHealth
  have ho : Config.healthOut = 256 := rfl
  have hmin : min Config.healthOut ((e.units.head h).health + k) = (e.units.head h).health + k := by omega
  simp only [hmin]
  rw [if_neg (by rintro (c | c); exact h1 c; exact h2 c), if_neg (by omega)]
  split
  · rename_i hc
    rcases hb with hb | hb
    · unfold Ev.barredAction
      simp only
      split
      · rename_i hs; rw [Ev.setHealth_head] at hs
        have hs' : (e.units.head h).state = .ready := hs
        rw [hs'] at hb; exact absurd rfl hb.1
      · rename_i hs; rw [Ev.setHealth_head] at hs
        have hs' : (e.units.head h).state = .claimed _ _ := hs
        rw [hs'] at hb; exact absurd rfl hb.2
      · rfl
    · exfalso
      simp only [Bool.and_eq_true, decide_eq_true_eq] at hc
      have := hc.1.2
      unfold levelOf at this
      rw [show (if (e.units.head h).health + k < 128 then Level.watch else if (e.units.head h).health + k < 256 then Level.barred else Level.out) = Level.watch from if_pos (by omega)] at this
      split at this <;> cases this
  · rfl

/-- A health increment that reaches OUT (R22, R45). -/
theorem Ev.raiseHealth_out (e : Ev) (h : Fin 32) (k : Nat) (c : HealthCause) (b : Bool) (h1 : (e.units.head h).state ≠ .out) (h2 : (e.units.head h).state ≠ .disabled)
    (hlt : 256 ≤ (e.units.head h).health + k) : e.raiseHealth h k c b = (e.setHealth h 256 c).enterOut h := by
  unfold Ev.raiseHealth
  have ho : Config.healthOut = 256 := rfl
  have hmin : min Config.healthOut ((e.units.head h).health + k) = 256 := by omega
  simp only [hmin]
  rw [if_neg (by rintro (c | c); exact h1 c; exact h2 c), if_pos ho.symm]

/-- A purge's gate command stands first among its writes. -/
theorem Ev.purge_out (e : Ev) (h : Fin 32) (r : PurgeReason) (w : Option Int) : ∃ l, (e.purge h r w).out = e.out ++ (e.units.purgeEntry h r :: l) := by
  rw [Ev.purge_eq]; exact ⟨_, rfl⟩

/-- A health change's writes stand behind those there are. -/
theorem Ev.setHealth_out (e : Ev) (h : Fin 32) (v : Nat) (c : HealthCause) : ∃ l, (e.setHealth h v c).out = e.out ++ l := by
  obtain ⟨y, l, he⟩ := Ev.setHealth_only e h v c
  rw [he]; exact ⟨l, rfl⟩

/-- A health change leaves the configuration alone. -/
theorem Ev.setHealth_config (e : Ev) (h : Fin 32) (v : Nat) (c : HealthCause) : (e.setHealth h v c).units.config = e.units.config := by
  obtain ⟨y, l, he⟩ := Ev.setHealth_only e h v c
  rw [he]; rfl

/-- A health change leaves the zone parameters alone. -/
theorem Ev.setHealth_params (e : Ev) (h g : Fin 32) (v : Nat) (c : HealthCause) : (e.setHealth h v c).units.params g = e.units.params g := by
  obtain ⟨y, l, he⟩ := Ev.setHealth_only e h v c
  rw [he]; rfl

/-- A purge's gate command depends on the configuration and the gate sequence. -/
theorem Units.purgeEntry_congr {u v : Units} (h : Fin 32) (r : PurgeReason) (hc : v.config = u.config) (hg : (v.head h).gateSeq = (u.head h).gateSeq) : v.purgeEntry h r = u.purgeEntry h r := by
  unfold Units.purgeEntry Units.base
  rw [hc, hg]

/-- Entry to OUT of a head that no order claims and no dump awaits (R22). -/
def Ev.outAlone (e : Ev) (h : Fin 32) : Ev :=
  ((e.modHead h fun x => { x with state := .out, timer := .stopped, frozen := none, bucket := none }).setFlag (e.units.reportingHead h) .headOut).feedStop h

/-- Entry to OUT of a head that no order claims and no dump awaits (R22). -/
theorem Ev.enterOut_alone (e : Ev) (h : Fin 32) (h1 : ∀ s k, (e.units.head h).state ≠ .claimed s k) (h2 : ∀ s, (e.units.head h).state ≠ .discharging (.bag s)) :
    e.enterOut h = Ev.outAlone e h := by
  unfold Ev.enterOut Ev.outAlone
  cases hs : (e.units.head h).state with
  | claimed x k => exact absurd hs (h1 x k)
  | discharging d =>
    cases d with
    | bag x => exact absurd hs (h2 x)
    | reject r => rfl
  | _ => rfl

/-- The head's record at that entry. -/
theorem Ev.outAlone_head (e : Ev) (h : Fin 32) : (Ev.outAlone e h).units.head h = { (e.units.head h).unfed with state := .out, timer := .stopped, frozen := none, bucket := none } := by
  unfold Ev.outAlone
  rw [Ev.feedStop_eq]
  simp [Ev.setFlag, Head.unfed]

/-- The feed stop's order at that entry (R61). -/
theorem Ev.outAlone_out (e : Ev) (h : Fin 32) : (Ev.outAlone e h).out = e.out ++ [e.units.feedEntry h 0 0 ((e.units.head h).feedSeq + 1)] := by
  unfold Ev.outAlone
  rw [Ev.feedStop_eq]
  simp [Ev.setFlag, Units.feedEntry, Units.base]

/-- HEAD-OUT at that entry. -/
theorem Ev.outAlone_flag (e : Ev) (h : Fin 32) : ((Ev.outAlone e h).units.notices.get (e.units.reportingHead h)).has .headOut = true := by
  unfold Ev.outAlone
  rw [Ev.feedStop_eq]
  simp [Ev.setFlag, NoticeSide.setFlag_has]

end Sys2Proof.Machine
end

