-- ==== Sys2Proof/Laws/Releases.lean ====
section
/-! SUPPORT. Releases and START: what the gate commands, the aging, the stale purges and a whole release leave, and what START
makes of one head. -/

namespace Sys2Proof.Machine

/-- A head record after it goes to DISCHARGING to a side (R121, R123). -/
def Head.gated (s : Side) (x : Head) (limit : Nat) : Head :=
  { x with state := .discharging (.bag s), retryUsed := false, gateSeq := x.gateSeq + 1, timer := .running .gate limit }

/-- The released heads and their gate commands (R121 step 4, R123). -/
theorem Ev.openGates_eq (s : Side) (k : Nat) (hs : List (Fin 32)) (hn : hs.Nodup) (n : Nat) (e : Ev) :
    (∀ h, (e.openGates s k hs n).units.head h = if h ∈ hs then Head.gated s (e.units.head h) (e.units.params h).gateLimit else e.units.head h) ∧
      (e.openGates s k hs n).out = e.out ++ (hs.zipIdx n).map fun (h, i) =>
        ⟨BitVec.ofNat 20 (e.units.base .gate + h.val), gateWord (.bag s) (i * k) ((e.units.head h).gateSeq + 1)⟩ := by
  induction hs generalizing n e with
  | nil => simp [Ev.openGates]
  | cons g rest ih =>
    have hr := List.nodup_cons.mp hn
    unfold Ev.openGates
    obtain ⟨e1, he1⟩ : ∃ e1, e1 = (e.enterDischarge g (.bag s)).gateCommand g (.bag s) (n * k) := ⟨_, rfl⟩
    rw [← he1]
    have hu : e1.units = e.units.setHead g (Head.gated s (e.units.head g) (e.units.params g).gateLimit) := by
      rw [he1]
      show (e.enterDischarge g (.bag s)).units = _
      unfold Ev.enterDischarge Ev.startTimer
      simp only [Ev.modHead_units, Units.setHead_params, Units.head_setHead, if_true, ZoneBlock.limit, Head.gated]
      unfold Units.setHead; simp
    have ho : e1.out = e.out ++ [⟨BitVec.ofNat 20 (e.units.base .gate + g.val), gateWord (.bag s) (n * k) ((e.units.head g).gateSeq + 1)⟩] := by
      rw [he1]
      show e.out ++ [⟨BitVec.ofNat 20 ((e.enterDischarge g (.bag s)).units.base .gate + g.val), gateWord (.bag s) (n * k) ((e.enterDischarge g (.bag s)).units.head g).gateSeq⟩] = _
      have : (e.enterDischarge g (.bag s)).units = e.units.setHead g (Head.gated s (e.units.head g) (e.units.params g).gateLimit) := by
        rw [← hu, he1]; rfl
      rw [this, Units.head_setHead, if_pos rfl]
      rfl
    obtain ⟨i1, i2⟩ := ih hr.2 (n + 1) e1
    refine ⟨fun h => ?_, ?_⟩
    · rw [i1, hu, Units.setHead_params]
      simp only [Units.head_setHead, List.mem_cons]
      by_cases hg : h = g
      · subst hg; simp [hr.1]
      · simp [hg]
    · rw [i2, ho, List.zipIdx_cons, List.map_cons, List.append_assoc]
      congr 1
      simp only [List.singleton_append, List.cons.injEq, true_and]
      refine List.map_congr_left fun p hp => ?_
      have hm : p.1 ∈ rest := List.fst_mem_of_mem_zipIdx hp
      have hne : p.1 ≠ g := fun c => hr.1 (c ▸ hm)
      rw [hu]
      simp only [Units.head_setHead, if_neg hne]
      rfl

/-- Aging at a release, head by head (R84). -/
theorem Ev.ageZone_head (e : Ev) (z : Zone) (h : Fin 32) : (e.ageZone z).units.head h =
    if e.units.readyIn z h then { e.units.head h with age := min 255 ((e.units.head h).age + 1) } else e.units.head h := by
  unfold Ev.ageZone
  have := Ev.eachHead_head (fun _ => True) (fun _ x => { x with age := min 255 (x.age + 1) }) (fun h e => e.modHead h fun x => { x with age := min 255 (x.age + 1) })
    (allHeads.filter (e.units.readyIn z)) (allHeads_nodup.filter _) (fun _ _ _ => trivial) (fun h e _ => by simp) (fun h g e _ hg => by simp [hg]) e trivial h
  rw [this]
  simp [mem_allHeads]

/-- Stale purges' gate commands, head by head (R86). -/
theorem Ev.purgeGates_head (u : Units) (hs : List (Fin 32)) (hn : hs.Nodup) (e : Ev) (hp : ∀ h, e.units.params h = u.params h) (h : Fin 32) :
    (e.eachHead hs fun h e => e.purgeGate h .stale).units.head h = if h ∈ hs then (e.units.head h).purged .stale (u.params h).gateLimit else e.units.head h := by
  refine Ev.eachHead_head (fun e => ∀ h, e.units.params h = u.params h) (fun h x => x.purged .stale (u.params h).gateLimit) _ hs hn ?_ ?_ ?_ e hp h
  · intro h e hI g; rw [Ev.purgeGate_eq]; exact hI g
  · intro h e hI; rw [Ev.purgeGate_eq]; simp [hI h]
  · intro h g e hI hg; rw [Ev.purgeGate_eq]; simp [hg]

/-- Stale purges, head by head (R86). -/
theorem Ev.stalePurges_head (e : Ev) (z : Zone) (h : Fin 32) : (e.stalePurges z).units.head h =
    if h ∈ e.units.dueStale z then (e.units.head h).purged .stale (e.units.params h).gateLimit else e.units.head h := by
  have hnd : (e.units.dueStale z).Nodup := by
    unfold Units.dueStale
    simp only
    split
    · exact List.nodup_nil
    · exact allHeads_nodup.filter _
  obtain ⟨e1, he1⟩ : ∃ e1, e1 = e.eachHead (e.units.dueStale z) fun h e => e.purgeGate h .stale := ⟨_, rfl⟩
  obtain ⟨e2, he2⟩ : ∃ e2, e2 = e1.eachHead (e.units.dueStale z) fun h e => e.releaseNotice (e.units.reporting z) (.purge h .stale (e.units.head h).gateSeq (e.units.head h).frozen) := ⟨_, rfl⟩
  have m2 : e1.Moves (fun q => ∃ s, q = .notice s) e2 := by
    rw [he2]
    exact Ev.Moves.eachHead _ _ (fun h _ e => Ev.Moves.releaseNotice _ ⟨_, rfl⟩) _
  have hmain : (e.stalePurges z).units.head h = e1.units.head h := by
    have m3 : e1.Moves (fun q => ∃ s, q = .notice s) (e1.eachHead (e.units.dueStale z) fun h e' => e'.releaseNotice (e.units.reporting z) (.purge h .stale (e'.units.head h).gateSeq (e'.units.head h).frozen)) :=
      Ev.Moves.eachHead _ _ (fun h _ e => Ev.Moves.releaseNotice _ ⟨_, rfl⟩) _
    unfold Ev.stalePurges
    simp only
    split
    · rw [he1]; rw [he1] at m3; exact m3.frame (.head h) (by simp)
    · rw [he1]; rw [he1] at m3; exact m3.frame (.head h) (by simp)
  rw [hmain, he1]
  exact Ev.purgeGates_head e.units _ hnd e (fun _ => rfl) h

/-- Stale purges touch heads and the zone's reporting side. -/
theorem Ev.Moves.stalePurges_of {T : Piece → Prop} (e : Ev) (z : Zone) (hH : ∀ h, T (.head h)) (hN : T (.notice (e.units.reporting z))) : e.Moves T (e.stalePurges z) := by
  unfold Ev.stalePurges
  simp only
  have m1 := Ev.Moves.eachHead (T := T) (e.units.dueStale z) (fun h e => e.purgeGate h .stale)
    (fun h _ e => Ev.Moves.purgeGate (T := T) (e := e) .stale (hH h)) e
  split
  · exact m1.trans (Ev.Moves.eachHead _ _ (fun h _ e => Ev.Moves.releaseNotice _ hN) _)
  · exact (m1.trans (Ev.Moves.eachHead _ _ (fun h _ e => Ev.Moves.releaseNotice _ hN) _)).trans (Ev.Moves.required _)

/-- A release of a side's oldest order, piece by piece (R121). -/
theorem Ev.doRelease_eq (s : State) (side : Side) (z : Zone) (o : OrderRec) (rest : List OrderRec) (e : Ev) (r0 : ReleaseSide)
    (hz : s.units.binding side = some z) (hq : (s.units.orders.get side).queue = o :: rest) (hnd : o.heads.Nodup)
    (hu : e.units = s.units.setRelease side r0) (ho : e.out = [])
    (hr0 : r0 = { s.units.releases.get side with latch := r0.latch }) :
    let zone := (s.units.zones.get z).effect
    let u := s.units.setZone z zone
    let b := u.zoneParams z
    let e' := e.doRelease side
    e'.units.orders.get side = { s.units.orders.get side with queue := rest }.effect ∧
    e'.units.releases.get side = { s.units.releases.get side with
        latch := false, releasePending := false, disch := some 20
        dumps := (s.units.releases.get side).dumps ++
          [{ tag := o.tag, heads := o.heads.map fun h => (h, .pending), total := o.total, target := o.target }] } ∧
    e'.units.zones.get z = { zone with rotation := (zone.rotation + 1) % b.offer.length } ∧
      (∀ h, e'.units.head h =
        let x := s.units.head h
        if h ∈ o.heads then
          { x with
            state := .discharging (.bag side), retryUsed := false, gateSeq := x.gateSeq + 1
            timer := .running .gate (u.params h).gateLimit }
        else if x.state = .ready ∧ s.units.zoneOf h.val = some z then
          let y := { x with age := min 255 (x.age + 1) }
          if b.purgeAge ≠ 0 ∧ b.purgeAge ≤ y.age then y.purged .stale (u.params h).gateLimit else y
        else x) ∧
      (∀ q, ¬ (q = .order side ∨ q = .release side ∨ q = .zone z ∨ (∃ h, q = .head h) ∨ q = .notice (s.units.reporting z)) → e.units.keeps e'.units q) ∧
      ∃ l, e'.out = (o.heads.zipIdx.map fun (h, i) =>
        ⟨BitVec.ofNat 20 (s.units.base .gate + h.val),
          gateWord (.bag side) (i * b.stagger) ((s.units.head h).gateSeq + 1)⟩) ++ l := by
  intro zone u b e'
  let T : Piece → Prop := fun q => q = .order side ∨ q = .release side ∨ q = .zone z ∨ (∃ h, q = .head h) ∨ q = .notice (s.units.reporting z)
  obtain ⟨e1, he1⟩ : ∃ e1, e1 = e.modOrder side fun q => { q with queue := rest } := ⟨_, rfl⟩
  obtain ⟨e2, he2⟩ : ∃ e2, e2 = (e1.sideEffect side).zoneEffect z := ⟨_, rfl⟩
  obtain ⟨e3, he3⟩ : ∃ e3, e3 = e2.openGates side (e2.units.zoneParams z).stagger o.heads 0 := ⟨_, rfl⟩
  obtain ⟨e4, he4⟩ : ∃ e4, e4 = e3.ageZone z := ⟨_, rfl⟩
  obtain ⟨e5, he5⟩ : ∃ e5, e5 = e4.stalePurges z := ⟨_, rfl⟩
  obtain ⟨e6, he6⟩ : ∃ e6, e6 = e5.rotate z := ⟨_, rfl⟩
  have hE : e' = e6.modRelease side fun r => r.released o := by
    show e.doRelease side = _
    unfold Ev.doRelease
    have h1 : (e.units.orders.get side).queue = o :: rest := by rw [hu]; exact hq
    have h2 : e.units.binding side = some z := by rw [hu]; exact hz
    rw [h1, h2]
    simp only
    rw [he6, he5, he4, he3, he2, he1]
  -- e2
  have hu2 : e2.units = ((s.units.setRelease side r0).setOrder side { s.units.orders.get side with queue := rest }.effect).setZone z zone := by
    rw [he2, he1]
    simp only [Ev.zoneEffect, Ev.sideEffect, Ev.modZone_units, Ev.modOrder_units, hu, Units.setOrder_orders, PerSide.get_set, if_true, Units.setOrder_zones, Units.setRelease_zones, Units.setRelease_orders]
    unfold Units.setOrder
    simp
    rfl
  have ho2 : e2.out = [] := by rw [he2, he1]; exact ho
  have hb2 : e2.units.zoneParams z = b := by rw [hu2]; rfl
  have hp2 : ∀ h, e2.units.params h = u.params h := by intro h; rw [hu2]; rfl
  have hh2 : ∀ h, e2.units.head h = s.units.head h := by intro h; rw [hu2]; rfl
  have hz2 : ∀ n, e2.units.zoneOf n = s.units.zoneOf n := by intro n; rw [hu2]; rfl
  have hcf2 : e2.units.config = s.units.config := by rw [hu2]; rfl
  -- e3
  obtain ⟨g1, g2⟩ := Ev.openGates_eq side (e2.units.zoneParams z).stagger o.heads hnd 0 e2
  rw [← he3] at g1 g2
  have m3 : e2.Moves (fun q => ∃ h, q = .head h) e3 := by rw [he3]; exact Ev.Moves.openGates (fun h => ⟨h, rfl⟩) _ _ _
  have m4 : e3.Moves (fun q => ∃ h, q = .head h) e4 := by rw [he4]; exact Ev.Moves.ageZone (fun h => ⟨h, rfl⟩)
  have m34 := m3.trans m4
  have hz4 : e4.units.zones.get z = zone := by
    have := m34.frame (.zone z) (by simp); simp only [Units.keeps] at this
    rw [this, hu2]; simp
  have hzz4 : ∀ y, e4.units.zones.get y = e2.units.zones.get y := fun y => m34.frame (.zone y) (by simp)
  have hpar4 : ∀ h, e4.units.params h = u.params h := by
    intro h; rw [← hp2 h]
    exact Units.params_congr h m34.config fun y => by rw [hzz4]
  have hzp4 : e4.units.zoneParams z = b := by unfold Units.zoneParams; rw [hzz4, ← hb2]; rfl
  have hzp3 : e3.units.zoneOf = s.units.zoneOf := by funext n; rw [m3.zoneOf, hz2]
  have hzo4 : ∀ n, e4.units.zoneOf n = s.units.zoneOf n := fun n => by rw [m34.zoneOf, hz2]
  have hrep4 : e4.units.reporting z = s.units.reporting z := by rw [m34.reporting, hu2]; rfl
  have m5 : e4.Moves (fun q => (∃ h, q = .head h) ∨ q = .notice (s.units.reporting z)) e5 := by
    rw [he5]; exact Ev.Moves.stalePurges_of e4 z (fun h => .inl ⟨h, rfl⟩) (.inr (by rw [hrep4]))
  have hz5 : e5.units.zones.get z = zone := by
    have := m5.frame (.zone z) (by simp); simp only [Units.keeps] at this
    rw [this, hz4]
  have m6 : e5.Moves (fun q => q = .zone z) e6 := by rw [he6]; exact Ev.Moves.rotate rfl
  have hh6 : ∀ h, e6.units.head h = e5.units.head h := fun h => m6.frame (.head h) (by simp)
  have hr6 : e6.units.releases.get side = r0 := by
    have a := m6.frame (.release side) (by simp)
    have b := m5.frame (.release side) (by simp)
    have c := m34.frame (.release side) (by simp)
    simp only [Units.keeps] at a b c
    rw [a, b, c, hu2]; simp
  have ho6 : e6.units.orders.get side = { s.units.orders.get side with queue := rest }.effect := by
    have a := m6.frame (.order side) (by simp)
    have b := m5.frame (.order side) (by simp)
    have c := m34.frame (.order side) (by simp)
    simp only [Units.keeps] at a b c
    rw [a, b, c, hu2]; simp
  have hh4 : ∀ h, e4.units.head h = if h ∈ o.heads then Head.gated side (s.units.head h) (u.params h).gateLimit else
      if (s.units.head h).state = .ready ∧ s.units.zoneOf h.val = some z then { s.units.head h with age := min 255 ((s.units.head h).age + 1) } else s.units.head h := by
    intro h
    rw [he4, Ev.ageZone_head, g1, hh2, hp2]
    have hri : e3.units.readyIn z h = (decide (s.units.zoneOf h.val = some z) && decide ((e3.units.head h).state = .ready)) := by
      unfold Units.readyIn; rw [hzp3]
    rw [hri, g1, hh2, hp2]
    by_cases hm : h ∈ o.heads
    · simp [hm, Head.gated]
    · simp only [hm, if_false, Bool.and_eq_true, decide_eq_true_eq]
      by_cases hc : (s.units.head h).state = .ready ∧ s.units.zoneOf h.val = some z
      · rw [if_pos hc, if_pos ⟨hc.2, hc.1⟩]
      · rw [if_neg hc, if_neg (fun c => hc ⟨c.2, c.1⟩)]
  refine ⟨?_, ?_, ?_, ?_, ?_, ?_⟩
  · rw [hE]; simp only [Ev.modRelease_units, Units.setRelease_orders]; exact ho6
  · rw [hE]; simp only [Ev.modRelease_units, Units.setRelease_releases, PerSide.get_set, if_true, hr6]
    unfold ReleaseSide.released
    rw [hr0]
    rfl
  · rw [hE]; simp only [Ev.modRelease_units, Units.setRelease_zones]
    rw [he6]
    unfold Ev.rotate
    simp only [Ev.modZone_units, Units.setZone_zones, PerZone.get_set, if_true, hz5]
    have : e5.units.zoneParams z = b := by
      rw [← hzp4]; unfold Units.zoneParams; rw [hz5, hz4]
    rw [this]
  · intro h
    rw [hE]
    show e6.units.head h = _
    rw [hh6, he5, Ev.stalePurges_head, hpar4]
    have hdue : h ∈ e4.units.dueStale z ↔ b.purgeAge ≠ 0 ∧ (e4.units.head h).state = .ready ∧ s.units.zoneOf h.val = some z ∧ b.purgeAge ≤ (e4.units.head h).age := by
      unfold Units.dueStale Units.readyIn
      simp only [hzp4]
      split
      · rename_i h0; simp [h0]
      · rename_i h0; simp [mem_allHeads, hzo4, h0]; tauto
    simp only [hdue]
    rw [hh4]
    by_cases hm : h ∈ o.heads
    · simp [hm, Head.gated]
    · simp only [hm, if_false]
      by_cases hc : (s.units.head h).state = .ready ∧ s.units.zoneOf h.val = some z
      · simp only [hc, and_self, if_true, true_and]
      · simp only [hc, if_false]
        rw [if_neg (fun c => hc ⟨c.2.1, c.2.2.1⟩)]
  · have m1 : e.Moves T e1 := by
      rw [he1]
      refine Ev.Moves.modOrder _ (.inl rfl) (.inl ?_)
      rw [hu]; simp only [Units.setRelease_orders, hq]; simp
    have m2 : e1.Moves T e2 := by
      rw [he2]
      exact (Ev.Moves.sideEffect (.inl rfl)).trans (Ev.Moves.zoneEffect (.inr (.inr (.inl rfl))))
    have m345 : e2.Moves T e5 := (m34.mono (fun q c => .inr (.inr (.inr (.inl c))))).trans (m5.mono (by
      rintro q (c | c)
      · exact .inr (.inr (.inr (.inl c)))
      · exact .inr (.inr (.inr (.inr c)))))
    have m6' : e5.Moves T e6 := m6.mono (fun q c => .inr (.inr (.inl c)))
    have hall := ((m1.trans m2).trans m345).trans m6'
    intro q hq
    rw [hE]
    refine Ev.Moves.keeps_trans (hall.frame q hq) ?_
    have hr : q ≠ .release side := fun c => hq (.inr (.inl c))
    simp only [Ev.modRelease_units]
    cases q <;> simp [Units.keeps] at hr ⊢ <;> first | rfl | (intro c; exact absurd c hr)
  · have m6o : ∃ l, e6.out = e3.out ++ l := by
      obtain ⟨a, ha⟩ := m4.out
      obtain ⟨b, hb⟩ := m5.out
      obtain ⟨c, hc⟩ := m6.out
      exact ⟨a ++ b ++ c, by rw [hc, hb, ha]; simp⟩
    obtain ⟨l, hl⟩ := m6o
    refine ⟨l, ?_⟩
    rw [hE]
    show e6.out = _
    rw [hl, g2, ho2, List.nil_append]
    congr 1
    refine List.map_congr_left fun ⟨p, j⟩ _ => ?_
    simp only
    rw [hb2, hh2]
    have : e2.units.base .gate = s.units.base .gate := by unfold Units.base; rw [hcf2]
    rw [this]

/-- What START makes of a head record (R13). -/
def Head.started (u : Units) (h : Fin 32) (x : Head) : Head :=
  if x.state = .disabled ∨ x.state = .out then x
  else (if x.full (u.params h).emptyBand then x.purged .start (u.params h).gateLimit else x.watched .empty (u.params h).silenceLimit).issued
    ((u.setHead h x).issueTicks h)

/-- What START has left at every head so far: the part RUNNING, the zones' blocks and rotation as they were. -/
def Ev.starting (u : Units) (e : Ev) : Prop :=
  e.units.part = .running ∧ e.units.config = u.config ∧ ∀ z, (e.units.zones.get z).live = (u.zones.get z).live ∧
    (e.units.zones.get z).staged = (u.zones.get z).staged ∧ (e.units.zones.get z).rotation = (u.zones.get z).rotation

/-- Entry to a watched state, exactly (R8). -/
theorem Ev.enterWatched_units (e : Ev) (h : Fin 32) (c : CycleState) :
    (e.enterWatched h c).units = e.units.setHead h ((e.units.head h).watched c (e.units.params h).silenceLimit) := by
  unfold Ev.enterWatched Ev.startTimer
  simp only [Ev.modHead_units, Units.setHead_params, Units.head_setHead, if_true, ZoneBlock.limit, Head.watched]
  unfold Units.setHead; simp

/-- START at one head, with its bucket's test named (R13). -/
theorem Ev.startHead_eq (e : Ev) (h : Fin 32) : e.startHead h = if (e.units.head h).state = .disabled ∨ (e.units.head h).state = .out then e else
    (if (e.units.head h).full (e.units.params h).emptyBand = true then e.purge h .start (e.units.head h).bucketWeight else e.enterWatched h .empty).feedIssue h := by
  unfold Ev.startHead Head.full
  simp only <;> cases (e.units.head h).bucketWeight <;> rfl

/-- START at one head touches that head, zones and notice units. -/
theorem Ev.Moves.startHead_of {T : Piece → Prop} (e : Ev) (h : Fin 32) (hH : T (.head h)) (hZ : ∀ z, T (.zone z)) (hN : ∀ x, T (.notice x)) : e.Moves T (e.startHead h) := by
  rw [Ev.startHead_eq]
  split
  · exact .rfl'
  · refine Ev.Moves.trans ?_ (Ev.Moves.feedIssue hH hZ hN)
    split
    · exact Ev.Moves.purge _ _ hH (hN _)
    · exact Ev.Moves.enterWatched _ hH

/-- START at one head, exactly (R13). -/
theorem Ev.startHead_head (u : Units) (h : Fin 32) (e : Ev) (hI : Ev.starting u e) :
    Ev.starting u (e.startHead h) ∧ (e.startHead h).units.head h = Head.started u h (e.units.head h) := by
  obtain ⟨h1, h2, h3⟩ := hI
  have hpar : e.units.params h = u.params h := Units.params_congr h h2 fun z => (h3 z).1
  rw [Ev.startHead_eq]
  unfold Head.started
  by_cases hd : (e.units.head h).state = .disabled ∨ (e.units.head h).state = .out
  · rw [if_pos hd, if_pos hd]; exact ⟨⟨h1, h2, h3⟩, rfl⟩
  · rw [if_neg hd, if_neg hd]
    rw [hpar]
    obtain ⟨e1, he1⟩ : ∃ e1, e1 = (if (e.units.head h).full (u.params h).emptyBand = true then e.purge h .start (e.units.head h).bucketWeight else e.enterWatched h .empty) := ⟨_, rfl⟩
    rw [← he1]
    have f1 : e1.units.part = .running ∧ e1.units.config = u.config ∧ e1.units.zones = e.units.zones ∧
        e1.units.head h = (if (e.units.head h).full (u.params h).emptyBand = true then (e.units.head h).purged .start (u.params h).gateLimit else (e.units.head h).watched .empty (u.params h).silenceLimit) := by
      rw [he1]
      split
      · refine ⟨?_, ?_, Ev.purge_zones .., ?_⟩
        · rw [Ev.purge_eq]; exact h1
        · rw [Ev.purge_eq]; exact h2
        · rw [Ev.purge_head, hpar]
      · rw [Ev.enterWatched_units]
        exact ⟨h1, h2, rfl, by rw [Units.head_setHead, if_pos rfl, hpar]⟩
    obtain ⟨g1, g2, g3, g4⟩ := f1
    have hst : (e1.units.head h).state ≠ .out := by rw [g4]; split <;> simp [Head.purged, Head.watched]
    have htk : e1.units.issueTicks h = (u.setHead h (e.units.head h)).issueTicks h := by
      refine Units.issueTicks_congr h (g2.trans rfl) (fun z => by rw [g3]; exact (h3 z).1) ?_ ?_ ?_
      · rw [g4, Units.head_setHead, if_pos rfl]; split <;> rfl
      · rw [g4, Units.head_setHead, if_pos rfl]; split <;> rfl
      · rw [g4, Units.head_setHead, if_pos rfl]; split <;> rfl
    refine ⟨⟨?_, ?_, fun z => ?_⟩, ?_⟩
    · have := (Ev.Moves.feedIssue (T := fun q => q ≠ .part) (e := e1) (h := h) (by simp) (by simp) (by simp)).frame .part (by simp)
      exact this.1.trans g1
    · have := (Ev.Moves.feedIssue (T := fun q => q ≠ .part) (e := e1) (h := h) (by simp) (by simp) (by simp)).config
      exact this.trans g2
    · obtain ⟨a, b, c⟩ := Ev.feedIssue_zone e1 h z
      rw [a, b, c, g3]; exact h3 z
    · rw [Ev.feedIssue_head e1 h g1 hst, htk, g4]

end Sys2Proof.Machine
end

