-- ==== Sys2Proof/Laws/Effects.lean ====
section
/-! SUPPORT. The effects of Safety.lean are what the operations of an event do: one lemma for each operation, citing the
effect that the rule gives. -/

namespace Sys2Proof.Machine

/-! ### Units and their heads -/

@[simp] theorem Units.mapHeads_head (u : Units) (f : Fin 32 → Head → Head) (h : Fin 32) :
    (u.mapHeads f).head h = f h (u.head h) := by
  show (Vector.ofFn fun g => f g (u.head g))[h.val] = _
  simp

/-- Units are the same when every head and every other field is. -/
theorem Units.ext_head {u v : Units} (hh : ∀ h, u.head h = v.head h) (hr : u = { v with heads := u.heads }) : u = v := by
  have : u.heads = v.heads := by
    apply Vector.ext
    intro i hi
    exact hh ⟨i, hi⟩
  rw [hr, this]

theorem Units.mapHeads_congr (u : Units) (f g : Fin 32 → Head → Head) (h : ∀ k, f k (u.head k) = g k (u.head k)) :
    u.mapHeads f = u.mapHeads g := by
  unfold Units.mapHeads
  simp only [h]

theorem Units.mapHeads_same (u : Units) (f : Fin 32 → Head → Head) (h : ∀ k, f k (u.head k) = u.head k) : u.mapHeads f = u :=
  Units.ext_head (fun g => by rw [Units.mapHeads_head, h]) rfl

theorem Units.setOrder_mapHeads (u : Units) (s : Side) (x : OrderSide) (f : Fin 32 → Head → Head) :
    (u.setOrder s x).mapHeads f = (u.mapHeads f).setOrder s x := rfl

/-- One head's record replaced, then every head's. -/
theorem Units.setHead_mapHeads (u : Units) (k : Fin 32) (y : Head) (f : Fin 32 → Head → Head) :
    (u.setHead k y).mapHeads f = u.mapHeads fun h x => if h = k then f h y else f h x :=
  Units.ext_head (fun g => by
    rw [Units.mapHeads_head, Units.mapHeads_head, Units.head_setHead]
    split
    · rfl
    · rfl) rfl

/-- Every head's record, then one replaced. -/
theorem Units.mapHeads_setHead (u : Units) (k : Fin 32) (y : Head) (f : Fin 32 → Head → Head) :
    (u.mapHeads f).setHead k y = u.mapHeads fun h x => if h = k then y else f h x :=
  Units.ext_head (fun g => by rw [Units.head_setHead, Units.mapHeads_head, Units.mapHeads_head]) rfl

@[simp] theorem Units.setHead_head_self (u : Units) (h : Fin 32) : u.setHead h (u.head h) = u :=
  Units.ext_head (fun g => by rw [Units.head_setHead]; split; (rename_i e; rw [e]); rfl) rfl

@[simp] theorem Units.setHead_twice (u : Units) (h : Fin 32) (x y : Head) : (u.setHead h x).setHead h y = u.setHead h y :=
  Units.ext_head (fun g => by simp only [Units.head_setHead]; split <;> rfl) rfl

/-- Effects whose second part looks at nothing that the first has changed. -/
theorem Effect.then_nil (u : Units) (f : Units → Effect) : Effect.then (u, []) f = f u := rfl

/-! ### Blind effects -/

theorem Units.count_blind (h : Fin 32) (v : Nat) (c : HealthCause) : Blind fun u => u.count h v c := fun _ _ => rfl
theorem Units.purge_blind (h : Fin 32) (r : PurgeReason) (w : Option Int) : Blind fun u => u.purge h r w := fun _ _ => rfl

theorem Units.trim_blind (z : Zone) (d : Int) (c : TrimCause) (h : Fin 32) : Blind fun u => u.trim z d c h := by
  intro u n
  show Units.trim (u.withNotices n) z d c h = ((u.trim z d c h).1.withNotices n, (u.trim z d c h).2)
  unfold Units.trim
  simp only
  have : (u.withNotices n).zones = u.zones := rfl
  rw [this]
  split <;> rfl

theorem Effect.then_blind {f g : Units → Effect} (hf : Blind f) (hg : Blind g) : Blind fun u => (f u).then g := by
  intro u n
  have h1 := hf u n
  have h2 := hg (f u).1 n
  show Effect.then (f (u.withNotices n)) g = _
  unfold Effect.then
  rw [h1]
  simp only
  rw [h2]

theorem Units.withdraw_blind (side : Side) (k : Nat) (w : WithdrawReason) (h : Fin 32) :
    Blind fun u => u.withdraw side k w h := by
  intro u n
  show Units.withdraw (u.withNotices n) side k w h = ((u.withdraw side k w h).1.withNotices n, (u.withdraw side k w h).2)
  unfold Units.withdraw
  have : (u.withNotices n).orders = u.orders := rfl
  rw [this]
  split <;> rfl

theorem Units.markDump_blind (side : Side) (h : Fin 32) (m : Mark) : Blind fun u => u.markDump side h m := fun _ _ => rfl

theorem Units.feed_blind (h : Fin 32) : Blind fun u => u.feed h := by
  intro u n
  show Units.feed (u.withNotices n) h = ((u.feed h).1.withNotices n, (u.feed h).2)
  unfold Units.feed
  have h1 : (u.withNotices n).issueTicks h = u.issueTicks h := rfl
  have h2 : (u.withNotices n).zoneOf h.val = u.zoneOf h.val := rfl
  have h3 : (u.withNotices n).part = u.part := rfl
  have h4 : (u.withNotices n).fillTarget h = u.fillTarget h := rfl
  simp only [h1, h2, h3, h4, Units.withNotices_head]
  have ht : ∀ (ticks : Nat) (l : List Act) (z : Zone) (d : Int) (c : TrimCause),
      Effect.then ((u.withNotices n).setHead h ((u.head h).fed ticks), l) (fun v => v.trim z d c h) =
        ((Effect.then (u.setHead h ((u.head h).fed ticks), l) fun v => v.trim z d c h).1.withNotices n,
          (Effect.then (u.setHead h ((u.head h).fed ticks), l) fun v => v.trim z d c h).2) := fun ticks l z d c =>
    Effect.then_blind (f := fun u => (u.setHead h ((u.head h).fed ticks), l)) (fun _ _ => rfl) (Units.trim_blind z d c h) u n
  cases u.issueTicks h with
  | none => rfl
  | some ticks =>
    cases (u.head h).envelope with
    | none => rfl
    | some env =>
      cases u.zoneOf h.val with
      | none => rfl
      | some z =>
        simp only
        by_cases h1 : u.part ≠ .running ∨ (u.head h).state = .out
        · simp only [h1, if_true]
        · simp only [h1, if_false]
          by_cases h2 : env.tmax < ticksFor (u.fillTarget h) (u.head h).yield
          · simp only [h2, if_true]; exact ht ..
          · simp only [h2, if_false]
            by_cases h3 : ticksFor (u.fillTarget h) (u.head h).yield < env.tmin
            · simp only [h3, if_true]; exact ht ..
            · simp only [h3, if_false]; rfl

theorem Units.goOut_blind (h : Fin 32) : Blind fun u => u.goOut h := by
  intro u n
  show Units.goOut (u.withNotices n) h = ((u.goOut h).1.withNotices n, (u.goOut h).2)
  unfold Units.goOut Effect.then
  simp only [Units.withNotices_head]
  cases (u.head h).state with
  | claimed side k =>
    have := Units.withdraw_blind side k .headOut h u n
    simp only at this ⊢
    rw [this]
    rfl
  | discharging d => cases d <;> rfl
  | _ => rfl

theorem Units.expel_blind (h : Fin 32) (w : WithdrawReason) (r : PurgeReason) : Blind fun u => u.expel h w r := by
  intro u n
  show Units.expel (u.withNotices n) h w r = ((u.expel h w r).1.withNotices n, (u.expel h w r).2)
  unfold Units.expel Effect.then
  simp only [Units.withNotices_head]
  cases (u.head h).state with
  | claimed side k =>
    have := Units.withdraw_blind side k w h u n
    simp only at this ⊢
    rw [this]
    rfl
  | _ => rfl

/-- A raise of a head that takes none (R44). -/
theorem Units.raise_none (u : Units) (h : Fin 32) (k : Nat) (c : HealthCause)
    (h1 : (u.head h).state = .out ∨ (u.head h).state = .disabled) : u.raise h k c = (u, []) := by
  unfold Units.raise
  simp only
  rw [if_pos h1]

/-- A raise that takes the counter to 256 (R45 step 4). -/
theorem Units.raise_out (u : Units) (h : Fin 32) (k : Nat) (c : HealthCause)
    (h1 : ¬ ((u.head h).state = .out ∨ (u.head h).state = .disabled)) (h2 : min 256 ((u.head h).health + k) = 256) :
    u.raise h k c = (u.count h 256 c).then fun w => w.goOut h := by
  unfold Units.raise
  simp only
  rw [if_neg h1, if_pos h2, h2]

/-- A raise that makes the level BARRED (R45 step 5). -/
theorem Units.raise_barred (u : Units) (h : Fin 32) (k : Nat) (c : HealthCause)
    (h1 : ¬ ((u.head h).state = .out ∨ (u.head h).state = .disabled)) (h2 : min 256 ((u.head h).health + k) ≠ 256)
    (h3 : (u.head h).health < 128 ∧ 128 ≤ min 256 ((u.head h).health + k) ∧ c ≠ .disturbed) :
    u.raise h k c = (u.count h (min 256 ((u.head h).health + k)) c).then fun w => w.expel h .barred .barred := by
  unfold Units.raise
  simp only
  rw [if_neg h1, if_neg h2, if_pos h3]

/-- A raise that changes the counter only (R45 steps 1 to 3). -/
theorem Units.raise_count (u : Units) (h : Fin 32) (k : Nat) (c : HealthCause)
    (h1 : ¬ ((u.head h).state = .out ∨ (u.head h).state = .disabled)) (h2 : min 256 ((u.head h).health + k) ≠ 256)
    (h3 : ¬ ((u.head h).health < 128 ∧ 128 ≤ min 256 ((u.head h).health + k) ∧ c ≠ .disturbed)) :
    u.raise h k c = u.count h (min 256 ((u.head h).health + k)) c := by
  unfold Units.raise
  simp only
  rw [if_neg h1, if_neg h2, if_neg h3]

theorem Units.raise_blind (h : Fin 32) (k : Nat) (c : HealthCause) : Blind fun u => u.raise h k c := by
  intro u n
  show Units.raise (u.withNotices n) h k c = ((u.raise h k c).1.withNotices n, (u.raise h k c).2)
  by_cases h1 : (u.head h).state = .out ∨ (u.head h).state = .disabled
  · rw [Units.raise_none _ h k c h1, Units.raise_none (u.withNotices n) h k c h1]
  · by_cases h2 : min 256 ((u.head h).health + k) = 256
    · rw [Units.raise_out _ h k c h1 h2, Units.raise_out (u.withNotices n) h k c h1 h2]
      exact Effect.then_blind (Units.count_blind h _ c) (Units.goOut_blind h) u n
    · by_cases h3 : (u.head h).health < 128 ∧ 128 ≤ min 256 ((u.head h).health + k) ∧ c ≠ .disturbed
      · rw [Units.raise_barred _ h k c h1 h2 h3, Units.raise_barred (u.withNotices n) h k c h1 h2 h3]
        exact Effect.then_blind (Units.count_blind h _ c) (Units.expel_blind h _ _) u n
      · rw [Units.raise_count _ h k c h1 h2 h3, Units.raise_count (u.withNotices n) h k c h1 h2 h3]
        rfl

theorem Units.disturb_blind (h : Fin 32) : Blind fun u => u.disturb h := by
  refine Effect.then_blind (Units.raise_blind h 8 .disturbed) ?_
  intro u n
  simp only [Units.withNotices_head]
  by_cases hs : (u.head h).state = .settling
  · simp only [hs, if_true]; rfl
  · simp only [hs, if_false]; exact Units.expel_blind h _ _ u n

/-! ### The operations -/

namespace Ev.Does

variable {e : Ev}

theorem push (a : Addr) (w : Word) : e.Does (e.push a w) (e.units, [.write ⟨a, w⟩]) := act (.write ⟨a, w⟩)

theorem headNotice (s : Side) (n : Notice) : e.Does (e.headNotice s n) (e.units, [.notice s n]) := act (.notice s n)

theorem setFlag (s : Side) (f : Flag) : e.Does (e.setFlag s f) (e.units, [.flag s f]) := act (.flag s f)

/-- A value of the counter (R45). -/
theorem setHealth (h : Fin 32) (v : Nat) (c : HealthCause) : e.Does (e.setHealth h v c) (e.units.count h v c) := by
  have m : e.Does (e.modHead h fun x => { x with health := v }) (e.units.setHead h { e.units.head h with health := v }, []) :=
    modHead _
  unfold Ev.setHealth Units.count Units.levelActs
  simp only
  split
  · exact m
  · exact (m.trans (f := fun u => (u, [.notice (u.reportingHead h)
      (.healthLevel h (levelOf (e.units.head h).health) (levelOf v) v c)])) (fun _ _ => rfl) (headNotice _ _)).congr rfl

/-- A purge (R20, R129). -/
theorem purge (h : Fin 32) (r : PurgeReason) (w : Option Int) : e.Does (e.purge h r w) (e.units.purge h r w) := by
  have g : e.Does (e.purgeGate h r) (e.units.setHead h ((e.units.head h).purged r (e.units.params h).gateLimit),
      [.write (e.units.purgeEntry h r)]) := by
    rw [Ev.purgeGate_eq]
    exact (of_units (e := e) (u := e.units.setHead h ((e.units.head h).purged r (e.units.params h).gateLimit)) rfl
      ⟨⟨rfl, rfl, rfl, rfl⟩, rfl, fun _ h => h⟩).trans (f := fun u => (u, [.write (e.units.purgeEntry h r)])) (fun _ _ => rfl) (push _ _)
  have n := g.trans (f := fun u => (u, [.notice (u.reportingHead h) (.purge h r (u.head h).gateSeq w)])) (fun _ _ => rfl)
    (headNotice _ _)
  refine Ev.Does.congr n ?_
  unfold Effect.then Units.purge
  simp [Head.purged]
  rfl

/-- A change of the top trim (R69, R70). -/
theorem changeTrim (z : Zone) (d : Int) (c : TrimCause) (h : Fin 32) :
    e.Does (e.changeTrim z d c h) (e.units.trim z d c h) := by
  have ht : trimAfter (e.units.zones.get z).top.trim d = max (-20) (min 20 ((e.units.zones.get z).top.trim + d)) := rfl
  unfold Ev.changeTrim Units.trim
  simp only [ht]
  cases henv : (e.units.zones.get z).top.envelope with
  | none => simp only [Option.map_none, or_true, if_true]; exact modZone _
  | some env =>
    simp only [Option.map_some, Option.some_ne_none, or_false, Option.getD_some]
    by_cases hs : (e.units.zones.get z).top.applied = some (env.apply (max (-20) (min 20 ((e.units.zones.get z).top.trim + d))))
    · rw [if_pos hs, if_pos hs.symm]; exact modZone _
    · rw [if_neg hs, if_neg (Ne.symm hs)]
      have m1 : e.Does _ _ := modZone (z := z) fun r => { r with top := {
        envelope := some env,
        trim := max (-20) (min 20 ((e.units.zones.get z).top.trim + d)),
        applied := some (env.apply (max (-20) (min 20 ((e.units.zones.get z).top.trim + d)))),
        seq := (e.units.zones.get z).top.seq + 1 } }
      have m2 := m1.trans (f := fun u => (u, [.write ⟨BitVec.ofNat 20 (u.base .feed + 32 + z.number),
        topWord (env.apply (max (-20) (min 20 ((e.units.zones.get z).top.trim + d)))) ((e.units.zones.get z).top.seq + 1)⟩]))
        (fun _ _ => rfl) (push _ _)
      exact (m2.trans (f := fun u => (u, [.notice (u.reporting z) (.topTrim z c h
        (max (-20) (min 20 ((e.units.zones.get z).top.trim + d)))
        (env.apply (max (-20) (min 20 ((e.units.zones.get z).top.trim + d)))))])) (fun _ _ => rfl) (headNotice _ _)).congr rfl

theorem feed (h : Fin 32) (a t : Nat) : e.Does (e.feed h a t) (e.units.setHead h ((e.units.head h).fed t),
    [.write (e.units.feedEntry h a t ((e.units.head h).feedSeq + 1))]) := by
  rw [Ev.feed_eq]
  exact (of_units (e := e) (u := e.units.setHead h ((e.units.head h).fed t)) rfl ⟨⟨rfl, rfl, rfl, rfl⟩, rfl, fun _ h => h⟩).trans
    (f := fun u => (u, [.write (e.units.feedEntry h a t ((e.units.head h).feedSeq + 1))])) (fun _ _ => rfl) (push _ _)

theorem feedStop (h : Fin 32) : e.Does (e.feedStop h) (e.units.setHead h (e.units.head h).unfed,
    [.write (e.units.feedEntry h 0 0 ((e.units.head h).feedSeq + 1))]) := by
  rw [Ev.feedStop_eq]
  exact (of_units (e := e) (u := e.units.setHead h (e.units.head h).unfed) rfl ⟨⟨rfl, rfl, rfl, rfl⟩, rfl, fun _ h => h⟩).trans
    (f := fun u => (u, [.write (e.units.feedEntry h 0 0 ((e.units.head h).feedSeq + 1))])) (fun _ _ => rfl) (push _ _)

/-- A feed issue (R58 to R60). -/
theorem feedIssue (h : Fin 32) : e.Does (e.feedIssue h) (e.units.feed h) := by
  unfold Ev.feedIssue Units.feed Units.issueTicks
  simp only
  cases hp : (e.units.head h).pool with
  | some f => simp only [Option.isSome_some, true_or, if_true]; exact refl
  | none =>
    simp only [Option.isSome_none, Bool.false_eq_true, false_or]
    cases henv : (e.units.head h).envelope with
    | none => simp only; split <;> exact refl
    | some env =>
      cases hz : e.units.zoneOf h.val with
      | none => simp only; split <;> exact refl
      | some z =>
        simp only
        split
        · exact refl
        · split
          · exact (feed h _ _).trans (Units.trim_blind z 1 .tmax h) (changeTrim z 1 .tmax h)
          · split
            · exact (feed h _ _).trans (Units.trim_blind z (-1) .tmin h) (changeTrim z (-1) .tmin h)
            · exact feed h _ _

/-- Heads that go to a cycle state with their SILENCE timers (R8). -/
theorem watchedHeads (c : CycleState) (u : Units) (hs : List (Fin 32)) : ∀ e : Ev, (∀ h, e.units.params h = u.params h) →
    e.Does (e.eachHead hs fun h e => e.enterWatched h c)
      (e.units.mapHeads fun g x => if g ∈ hs then x.watched c (u.params g).silenceLimit else x, []) := by
  induction hs with
  | nil =>
    intro e _
    have hs : (e.units.mapHeads fun g x => if g ∈ ([] : List (Fin 32)) then x.watched c (u.params g).silenceLimit else x) =
        e.units := Units.mapHeads_same _ _ fun k => by simp
    rw [hs]
    exact refl
  | cons g rest ih =>
    intro e he
    have h1 : (e.enterWatched g c).units = e.units.setHead g ((e.units.head g).watched c (u.params g).silenceLimit) := by
      rw [Ev.enterWatched_units, he]
    have d1 : e.Does (e.enterWatched g c) (e.units.setHead g ((e.units.head g).watched c (u.params g).silenceLimit), []) := by
      have : e.enterWatched g c = { e with units := (e.enterWatched g c).units } := rfl
      rw [this, h1]
      exact of_units rfl ⟨⟨rfl, rfl, rfl, rfl⟩, rfl, fun _ h => h⟩
    have d2 := ih (e.enterWatched g c) (by intro h; rw [h1, Units.setHead_params]; exact he h)
    have d3 := d1.trans (f := fun v => (v.mapHeads fun g x =>
      if g ∈ rest then x.watched c (u.params g).silenceLimit else x, [])) (fun _ _ => rfl) d2
    unfold Effect.then at d3
    simp only [List.append_nil] at d3
    rw [Units.setHead_mapHeads] at d3
    rw [Units.mapHeads_congr e.units (fun k x => if k ∈ g :: rest then x.watched c (u.params k).silenceLimit else x)
      (fun k x => if k = g then (if k ∈ rest then ((e.units.head g).watched c (u.params g).silenceLimit).watched c
        (u.params k).silenceLimit else (e.units.head g).watched c (u.params g).silenceLimit) else
          if k ∈ rest then x.watched c (u.params k).silenceLimit else x) fun k => ?_]
    · exact d3
    · simp only [List.mem_cons]
      by_cases hk : k = g
      · subst hk
        by_cases hr : k ∈ rest <;> simp [hr, Head.watched]
      · simp [hk]

/-- Heads that go back to READY (R17). -/
theorem returnHeads (u : Units) (hs : List (Fin 32)) (e : Ev) (he : ∀ h, e.units.params h = u.params h) :
    e.Does (e.eachHead hs fun h e => e.returnHead h)
      (e.units.mapHeads fun g x => if g ∈ hs then x.watched .ready (u.params g).silenceLimit else x, []) :=
  watchedHeads .ready u hs e he

/-- A withdrawal for a head's cause (R113). -/
theorem withdrawClaim (side : Side) (k : Nat) (w : WithdrawReason) (h : Fin 32) :
    e.Does (e.withdrawClaim side k w h) (e.units.withdraw side k w h) := by
  unfold Ev.withdrawClaim Units.withdraw
  cases hf : (e.units.orders.get side).queue.find? fun o => o.accept = k with
  | none => exact refl
  | some o =>
    simp only
    unfold Ev.withdraw
    simp only [Option.map_some]
    have d1 : e.Does _ _ := modOrder (s := side) fun q => { q with queue := q.queue.filter fun p => p.accept != o.accept }
    have d2 := returnHeads e.units (o.heads.filter (· != h)) (e.modOrder side fun q =>
      { q with queue := q.queue.filter fun p => p.accept != o.accept }) (fun _ => rfl)
    have d3 := d1.trans (f := fun v => (v.mapHeads fun g x =>
      if g ∈ o.heads.filter (· != h) then x.watched .ready (e.units.params g).silenceLimit else x, [])) (fun _ _ => rfl) d2
    have d4 := d3.trans (f := fun v => (v, [.order side (.orderWithdrawn o.tag w (some (h, o.heads.idxOf h + 1)) o.heads
      o.total), .flag side .orderEnded])) (fun _ _ => rfl) (acts [.order side (.orderWithdrawn o.tag w
        (some (h, o.heads.idxOf h + 1)) o.heads o.total), .flag side .orderEnded])
    refine Ev.Does.congr d4 ?_
    unfold Effect.then Units.withdrawn
    simp only [List.append_nil, List.nil_append]
    rw [Units.setOrder_mapHeads, Units.mapHeads_congr e.units (fun g x => if g ∈ o.heads ∧ g ≠ h then
      x.watched .ready (e.units.params g).silenceLimit else x) (fun g x => if g ∈ o.heads.filter (· != h) then
        x.watched .ready (e.units.params g).silenceLimit else x)
          fun g => by simp only [List.mem_filter, bne_iff_ne, ne_eq]]

/-- The open dumps' list after a mark, as the release unit finds the dump (R127). -/
theorem dumpsAfter_eq (h : Fin 32) (m : Mark) : ∀ l : List Dump,
    (match l.findIdx? fun d => d.awaits h with
      | none => l
      | some i =>
        match l[i]? with
        | none => l
        | some d => if (d.mark h m).complete then l.eraseIdx i else l.set i (d.mark h m)) = dumpsAfter h m l
  | [] => rfl
  | d :: rest => by
    have ih := dumpsAfter_eq h m rest
    unfold dumpsAfter
    rw [List.findIdx?_cons]
    by_cases ha : d.awaits h = true
    · simp only [ha, if_true, List.getElem?_cons_zero, List.eraseIdx_cons_zero, List.set_cons_zero]
    · simp only [ha, if_false, Bool.false_eq_true]
      rw [← ih]
      cases hi : rest.findIdx? fun d => d.awaits h with
      | none => rfl
      | some i =>
        simp only [Option.map_some, List.getElem?_cons_succ]
        cases hg : rest[i]? with
        | none => rfl
        | some x => simp only; split <;> rfl

/-- A dump that a mark completes leaves the list (R128). -/
theorem dumpsAfter_done {h : Fin 32} {m : Mark} {d : Dump} : ∀ l : List Dump, (l.find? fun d => d.awaits h) = some d →
    (d.mark h m).complete = true → (dumpsAfter h m l).length + 1 = l.length
  | [], hd, _ => by cases hd
  | a :: rest, hd, hc => by
    rw [List.find?_cons] at hd
    unfold dumpsAfter
    by_cases ha : a.awaits h = true
    · rw [ha] at hd
      cases hd
      rw [if_pos ha, if_pos hc]
      rfl
    · rw [if_neg ha, List.length_cons, List.length_cons]
      have : a.awaits h = false := by simpa using ha
      rw [this] at hd
      rw [dumpsAfter_done rest hd hc]

/-- A mark in a side's dumps: one that completes no dump is set (R127); one that completes a dump puts out its notice,
and the release test follows (R128). -/
theorem markDump_cases (side : Side) (h : Fin 32) (m : Mark) :
    (e.Does (e.markDump side h m) (e.units.markDump side h m) ∧
      ∀ d, ((e.units.releases.get side).dumps.find? fun d => d.awaits h) = some d → (d.mark h m).complete = false) ∨
      ∃ f, e.Does f (e.units.markDump side h m) ∧ e.markDump side h m = f.releaseTest side ∧ f.required = e.required ∧
        ∃ d, ((e.units.releases.get side).dumps.find? fun d => d.awaits h) = some d ∧ (d.mark h m).complete = true := by
  have hl := dumpsAfter_eq h m (e.units.releases.get side).dumps
  have hfi : (e.units.releases.get side).dumps.find? (fun d => d.awaits h) =
      match (e.units.releases.get side).dumps.findIdx? (fun d => d.awaits h) with
      | none => none
      | some i => (e.units.releases.get side).dumps[i]? := by
    rw [List.find?_eq_bind_findIdx?_getElem?]
    cases (e.units.releases.get side).dumps.findIdx? (fun d => d.awaits h) <;> rfl
  have hself : e.units.setRelease side { e.units.releases.get side with dumps := (e.units.releases.get side).dumps } =
      e.units := by
    show e.units.setRelease side (e.units.releases.get side) = e.units
    cases side <;> rfl
  unfold Ev.markDump Units.markDump
  simp only
  rw [hfi, ← hl]
  cases hi : (e.units.releases.get side).dumps.findIdx? fun d => d.awaits h with
  | none => simp only; rw [hself]; exact .inl ⟨refl, fun d c => by cases c⟩
  | some i =>
    simp only
    cases hg : (e.units.releases.get side).dumps[i]? with
    | none => simp only; rw [hself]; exact .inl ⟨refl, fun d c => by cases c⟩
    | some d =>
      simp only
      by_cases hc : (d.mark h m).complete = true
      · right
        rw [if_pos hc, if_pos hc, if_pos hc]
        have d1 : e.Does (e.orderNotice side (d.mark h m).notice) (e.units, [.order side (d.mark h m).notice]) :=
          act (.order side (d.mark h m).notice)
        have d2 := d1.trans (f := fun u => (u.setRelease side { u.releases.get side with
          dumps := (e.units.releases.get side).dumps.eraseIdx i }, [])) (fun _ _ => rfl)
            (modRelease (s := side) (fun r => { r with dumps := (e.units.releases.get side).dumps.eraseIdx i }) id)
        refine ⟨_, d2.congr rfl, rfl, ?_, d, rfl, hc⟩
        show ((e.takeNumber side).place side (d.mark h m).notice).required = e.required
        unfold Ev.place
        split <;> rfl
      · left
        rw [if_neg hc, if_neg hc, if_neg hc]
        exact ⟨modRelease _ id, fun d' c => by cases c; simpa using hc⟩

/-- A mark that no release follows: it has its effect, and asks for nothing more (R122, R127). -/
theorem markDump_plain (side : Side) (h : Fin 32) (m : Mark) (hr : e.units.unreleased side h m) :
    e.Does (e.markDump side h m) (e.units.markDump side h m) ∧
      ((∀ d, ((e.units.releases.get side).dumps.find? fun d => d.awaits h) = some d → (d.mark h m).complete = false) ∨
        (e.markDump side h m).required = e.required) := by
  rcases markDump_cases (e := e) side h m with ⟨d, hn⟩ | ⟨f, d, hf, hq, x, hx, hc⟩
  · exact ⟨d, .inl hn⟩
  · have hu : f.units = (e.units.markDump side h m).1.withNotices f.units.notices := by
      have := d.units
      rw [this]
      rfl
    have : f.units.releasable side = false := by
      unfold Units.releasable
      rcases hr with hr | hr | hr | hr
      · have : f.units.active = false := by rw [hu]; exact hr
        rw [this]
        simp
      · have : (f.units.releases.get side).latch = false := by
          rw [hu]
          show ((e.units.setRelease side _).releases.get side).latch = false
          rw [Units.setRelease_releases, PerSide.get_set, if_pos rfl]
          exact hr
        rw [this]
        rfl
      · have : (f.units.orders.get side).queue = [] := by rw [hu]; exact hr
        rw [this]
        simp
      · rw [hr x hx] at hc
        cases hc
    rw [hf]
    unfold Ev.releaseTest
    rw [this]
    exact ⟨d, .inr hq⟩

/-- A mark that no release follows. -/
theorem markDump (side : Side) (h : Fin 32) (m : Mark) (hr : e.units.unreleased side h m) :
    e.Does (e.markDump side h m) (e.units.markDump side h m) := (markDump_plain side h m hr).1

/-- The BARRED action (R16). -/
theorem barredAction (h : Fin 32) : e.Does (e.barredAction h) (e.units.expel h .barred .barred) := by
  unfold Ev.barredAction Units.expel
  simp only
  cases (e.units.head h).state with
  | ready => exact purge h _ _
  | claimed side k =>
    exact (withdrawClaim side k .barred h).trans (Units.purge_blind h .barred (e.units.head h).frozen) (purge h _ _)
  | _ => exact refl

end Ev.Does

/-- The head that is withdrawn for takes no part in the withdrawal. -/
theorem Units.setHead_withdrawn (u : Units) (side : Side) (o : OrderRec) (h : Fin 32) (y : Head) :
    (u.setHead h y).withdrawn side o h = (u.withdrawn side o h).setHead h y := by
  have hm : (u.setHead h y).mapHeads (fun g x => if g ∈ o.heads ∧ g ≠ h then
        x.watched .ready ((u.setHead h y).params g).silenceLimit else x) =
      (u.mapHeads fun g x => if g ∈ o.heads ∧ g ≠ h then x.watched .ready (u.params g).silenceLimit else x).setHead h y := by
    rw [Units.setHead_mapHeads, Units.mapHeads_setHead]
    refine Units.mapHeads_congr _ _ _ fun g => ?_
    by_cases hg : g = h
    · simp [hg]
    · simp only [hg, if_false, Units.setHead_params]
  unfold Units.withdrawn
  rw [hm]
  rfl

/-- Effects whose second part looks at nothing that the first has changed. -/
theorem Units.setHead_withdraw (u : Units) (side : Side) (k : Nat) (w : WithdrawReason) (h : Fin 32) (y : Head) :
    (u.setHead h y).withdraw side k w h = ((u.withdraw side k w h).1.setHead h y, (u.withdraw side k w h).2) := by
  unfold Units.withdraw
  rw [Units.setHead_orders]
  cases (u.orders.get side).queue.find? fun o => o.accept = k with
  | none => rfl
  | some o => simp only [Units.setHead_withdrawn]

namespace Ev.Does

variable {e : Ev}

/-- Entry to OUT (R22, R49). -/
theorem enterOut (h : Fin 32) (h256 : (e.units.head h).health = 256)
    (hr : ∀ side, (e.units.head h).state = .discharging (.bag side) → e.units.unreleased side h .unconfirmed) :
    e.Does (e.enterOut h) (e.units.goOut h) := by
  let y : Head := { e.units.head h with state := .out, timer := .stopped, frozen := none, bucket := none }
  have hy : y.unfed = (e.units.head h).outed := by
    show _ = { (e.units.head h).unfed with state := .out, timer := .stopped, frozen := none, bucket := none, health := 256 }
    simp only [y, Head.unfed, h256]
  have d1 : e.Does (e.modHead h fun x => { x with state := .out, timer := .stopped, frozen := none, bucket := none })
      (e.units.setHead h y, []) := modHead _
  -- the flag and the feed stop behind whatever the head's state asked for
  have tail : ∀ (e2 : Ev) (v : Units) (l : List Act), e.Does e2 (v.setHead h y, l) → v.config = e.units.config →
      e.Does ((e2.setFlag (e2.units.reportingHead h) .headOut).feedStop h) (v.setHead h (e.units.head h).outed,
        l ++ [.flag (e.units.reportingHead h) .headOut, .write (e.units.feedEntry h 0 0 ((e.units.head h).feedSeq + 1))]) := by
    intro e2 v l d hc
    have d2 := (d.trans (f := fun u => (u, [.flag (u.reportingHead h) .headOut])) (fun _ _ => rfl) (setFlag _ _)).trans
      (f := fun u => (u.setHead h (u.head h).unfed, [.write (u.feedEntry h 0 0 ((u.head h).feedSeq + 1))])) (fun _ _ => rfl)
      (feedStop h)
    refine d2.congr ?_
    have hrep : (v.setHead h y).reportingHead h = e.units.reportingHead h := by
      unfold Units.reportingHead Units.zoneOf Units.reporting Units.binding
      simp only [Units.setHead_config, hc]
    have hfe : (v.setHead h y).feedEntry h 0 0 (y.feedSeq + 1) = e.units.feedEntry h 0 0 ((e.units.head h).feedSeq + 1) := by
      unfold Units.feedEntry Units.base
      simp only [Units.setHead_config, hc, y]
    unfold Effect.then
    simp only [hrep, Units.head_setHead, if_true, hfe, hy, Units.setHead_twice, List.append_assoc, List.singleton_append]
  unfold Ev.enterOut Units.goOut
  simp only
  cases hs : (e.units.head h).state with
  | claimed side k =>
    simp only
    have d2 := d1.trans (Units.withdraw_blind side k .headOut h) (withdrawClaim side k .headOut h)
    have d3 : e.Does _ ((e.units.withdraw side k .headOut h).1.setHead h y, (e.units.withdraw side k .headOut h).2) :=
      d2.congr (by
        show Units.withdraw (e.units.setHead h y) side k .headOut h = _
        rw [Units.setHead_withdraw])
    have hc : (e.units.withdraw side k .headOut h).1.config = e.units.config :=
      (withdrawClaim (e := e) side k .headOut h).steady.loaded.1
    exact tail _ _ _ d3 hc
  | discharging d =>
    cases d with
    | bag side =>
      simp only
      have d2 := d1.trans (Units.markDump_blind side h .unconfirmed) (markDump side h .unconfirmed (by exact hr side hs))
      exact tail _ (e.units.markDump side h .unconfirmed).1 _ (d2.congr rfl) rfl
    | reject r => exact tail _ e.units [] d1 rfl
  | _ => exact tail _ e.units [] d1 rfl

/-- A raise of the counter (R44, R45). -/
theorem raiseHealth (h : Fin 32) (k : Nat) (c : HealthCause) (b : Bool)
    (hb' : (e.units.head h).health + k < 256 → (b = true ↔ c ≠ .disturbed))
    (hr : 256 ≤ (e.units.head h).health + k → ∀ side, (e.units.head h).state = .discharging (.bag side) →
      e.units.unreleased side h .unconfirmed) :
    e.Does (e.raiseHealth h k c b) (e.units.raise h k c) := by
  have ho : Config.healthOut = 256 := rfl
  unfold Ev.raiseHealth
  simp only [ho]
  by_cases h1 : (e.units.head h).state = .out ∨ (e.units.head h).state = .disabled
  · rw [if_pos h1, Units.raise_none _ h k c h1]
    exact refl
  · rw [if_neg h1]
    have d1 := setHealth (e := e) h (min 256 ((e.units.head h).health + k)) c
    have hu := d1.units
    have hst : ((e.setHealth h (min 256 ((e.units.head h).health + k)) c).units.head h) =
        { e.units.head h with health := min 256 ((e.units.head h).health + k) } := by
      rw [Ev.setHealth_head]
    by_cases h2 : min 256 ((e.units.head h).health + k) = 256
    · rw [if_pos h2, Units.raise_out _ h k c h1 h2]
      rw [h2] at d1 hst ⊢
      refine d1.trans (Units.goOut_blind h) (enterOut h (by rw [hst]) ?_)
      intro side hs
      rw [hst] at hs
      rw [d1.units]
      exact hr (by omega) side hs
    · rw [if_neg h2]
      have hlev : (levelOf (min 256 ((e.units.head h).health + k)) = .barred) ↔
          128 ≤ min 256 ((e.units.head h).health + k) := by
        unfold levelOf
        split <;> simp <;> first | omega | (split <;> simp <;> omega)
      have hlev0 : levelOf (e.units.head h).health ≠ .barred ↔ (e.units.head h).health < 128 ∨
          256 ≤ (e.units.head h).health := by
        unfold levelOf
        split <;> simp <;> first | omega | (split <;> simp <;> omega)
      have hlt : (e.units.head h).health + k < 256 := by omega
      have hb := hb' hlt
      by_cases h3 : (e.units.head h).health < 128 ∧ 128 ≤ min 256 ((e.units.head h).health + k) ∧ c ≠ .disturbed
      · rw [Units.raise_barred _ h k c h1 h2 h3]
        rw [if_pos (by
          simp only [Bool.and_eq_true, decide_eq_true_eq]
          exact ⟨⟨hb.mpr h3.2.2, hlev.mpr h3.2.1⟩, hlev0.mpr (.inl h3.1)⟩)]
        exact d1.trans (Units.expel_blind h _ _) (barredAction h)
      · rw [Units.raise_count _ h k c h1 h2 h3, if_neg (by
          simp only [Bool.and_eq_true, decide_eq_true_eq]
          rintro ⟨⟨a, b⟩, d⟩
          exact h3 ⟨by have := hlev0.mp d; omega, hlev.mp b, hb.mp a⟩)]
        exact d1

/-- What a raise makes of its own head's state, unless it takes the head OUT or the BARRED action follows. -/
theorem disturb (h : Fin 32)
    (hr : 256 ≤ (e.units.head h).health + 8 → ∀ side, (e.units.head h).state = .discharging (.bag side) →
      e.units.unreleased side h .unconfirmed) :
    e.Does (e.disturb h) (e.units.disturb h) := by
  have d1 := raiseHealth (e := e) h 8 .disturbed false (by simp) hr
  have hb : Blind fun v : Units =>
      if (v.head h).state = .settling then v.purge h .disturbed none else v.expel h .disturbed .disturbed := by
    intro u n
    simp only [Units.withNotices_head]
    by_cases hs : (u.head h).state = .settling
    · simp only [hs, if_true]; rfl
    · simp only [hs, if_false]; exact Units.expel_blind h _ _ u n
  have hst : (e.raiseHealth h 8 .disturbed false).units.head h = (e.units.raise h 8 .disturbed).1.head h := by
    rw [d1.units]; rfl
  refine d1.trans hb ?_
  unfold Ev.disturb
  simp only
  -- the state after the raise: OUT, or the one before it with its frozen weight
  have hcase : ((e.raiseHealth h 8 .disturbed false).units.head h).state = .out ∨
      (((e.raiseHealth h 8 .disturbed false).units.head h).state = (e.units.head h).state ∧
        ((e.raiseHealth h 8 .disturbed false).units.head h).frozen = (e.units.head h).frozen) := by
    rw [hst]
    by_cases h1 : (e.units.head h).state = .out ∨ (e.units.head h).state = .disabled
    · rw [Units.raise_none _ h 8 _ h1]; exact .inr ⟨rfl, rfl⟩
    · by_cases h2 : min 256 ((e.units.head h).health + 8) = 256
      · rw [Units.raise_out _ h 8 _ h1 h2]
        left
        unfold Effect.then Units.goOut
        simp only [Effect.then, Units.head_setHead, if_true]
        rfl
      · rw [Units.raise_count _ h 8 _ h1 h2 (by simp)]
        right
        unfold Units.count
        simp
  rcases hcase with ho | ⟨hs, hf⟩
  · rw [if_pos ho]
    unfold Units.expel
    simp only [ho]
    exact refl
  · by_cases ho : ((e.raiseHealth h 8 .disturbed false).units.head h).state = .out
    · rw [if_pos ho]
      unfold Units.expel
      simp only [ho]
      exact refl
    · rw [if_neg ho]
      unfold Units.expel
      simp only [hs, hf]
      cases hx : (e.units.head h).state with
      | settling => exact purge h _ _
      | ready => exact purge h _ _
      | claimed side k =>
        exact (withdrawClaim side k .disturbed h).trans (Units.purge_blind h .disturbed (e.units.head h).frozen) (purge h _ _)
      | _ => exact refl

end Ev.Does

end Sys2Proof.Machine
end

