-- ==== Sys2Proof/Laws/Discharges.lean ====
section
/-! SUPPORT. The effect of a release (Safety.lean) is what the release does: something at each head of a list, the gate
commands, the aging, the STALE purges with the entries left for their notices, and the release whole. -/

namespace Sys2Proof.Machine

theorem Units.mapHeads_twice (u : Units) (f g : Fin 32 → Head → Head) :
    (u.mapHeads f).mapHeads g = u.mapHeads fun h x => g h (f h x) :=
  Units.ext_head (fun h => by simp only [Units.mapHeads_head]) rfl

@[simp] theorem Units.setZone_twice (u : Units) (z : Zone) (x y : ZoneRec) : (u.setZone z x).setZone z y = u.setZone z y := by
  unfold Units.setZone
  simp

@[simp] theorem Units.setOrder_twice (u : Units) (s : Side) (x y : OrderSide) : (u.setOrder s x).setOrder s y = u.setOrder s y := by
  unfold Units.setOrder
  simp

@[simp] theorem Units.setZone_mapHeads (u : Units) (z : Zone) (x : ZoneRec) (f : Fin 32 → Head → Head) :
    (u.setZone z x).mapHeads f = (u.mapHeads f).setZone z x := rfl

theorem Units.mapHeads_config (u : Units) (f : Fin 32 → Head → Head) : (u.mapHeads f).config = u.config := by
  unfold Units.mapHeads; rfl
theorem Units.mapHeads_zones (u : Units) (f : Fin 32 → Head → Head) : (u.mapHeads f).zones = u.zones := by
  unfold Units.mapHeads; rfl
theorem Units.mapHeads_params (u : Units) (f : Fin 32 → Head → Head) (h : Fin 32) : (u.mapHeads f).params h = u.params h :=
  Units.params_congr h (Units.mapHeads_config u f) fun z => by rw [Units.mapHeads_zones]

theorem Units.mapHeads_blind (f : Fin 32 → Head → Head) (l : List Act) : Blind fun u => (u.mapHeads f, l) := fun _ _ => rfl

theorem Units.release_blind (side : Side) (z : Zone) (o : OrderRec) (kept : Fin 32 → Bool) :
    Blind fun u => u.release side z o kept := fun _ _ => rfl

/-- A release clears the latch, whatever it was (R119, R121). -/
theorem Units.release_latch (u : Units) (side : Side) (x : ReleaseSide) (b : Bool) (hx : u.releases.get side = x) (z : Zone) (o : OrderRec) (kept : Fin 32 → Bool) :
    (u.setRelease side { x with latch := b }).release side z o kept = u.release side z o kept := by
  subst hx
  unfold Units.release
  simp only
  have h1 : ∀ y, (u.setRelease side y).zones = u.zones := fun _ => rfl
  have h2 : ∀ y w, (u.setRelease side y).setZone z w = (u.setZone z w).setRelease side y := fun _ _ => rfl
  have h3 : ∀ y h, (u.setRelease side y).head h = u.head h := fun _ _ => rfl
  have h4 : ∀ (v : Units) y h, (v.setRelease side y).params h = v.params h := fun _ _ _ => rfl
  have h5 : ∀ y n, (u.setRelease side y).zoneOf n = u.zoneOf n := fun _ _ => rfl
  have h6 : ∀ y f, (u.setRelease side y).mapHeads f = (u.mapHeads f).setRelease side y := fun _ _ => rfl
  have h7 : ∀ y, (u.setRelease side y).releases.get side = y := fun y => by simp
  have h8 : ∀ y, (u.setRelease side y).orders = u.orders := fun _ => rfl
  have h9 : ∀ y, (u.setRelease side y).base = u.base := fun _ => rfl
  have h10 : ∀ y, (u.setRelease side y).reporting z = u.reporting z := fun _ => rfl
  have h11 : ∀ (v : Units) y l, (v.setRelease side y).staleAt z l = v.staleAt z l := fun _ _ _ => rfl
  have h12 : ∀ (v : Units) y, (v.setRelease side y).zoneParams z = v.zoneParams z := fun _ _ => rfl
  have h13 : ∀ y h, (u.setRelease side y).purgeEntry h .stale = u.purgeEntry h .stale := fun _ _ => rfl
  simp only [h1, h2, h3, h4, h5, h6, h7, h8, h9, h10, h11, h12, h13]
  generalize Units.mapHeads _ _ = m
  refine Prod.ext ?_ rfl
  simp only
  cases side <;> cases z <;> simp [Units.setOrder, Units.setZone, Units.setRelease, PerSide.set, PerSide.get]

/-- A release reads nothing of a head's feed (R121). -/
theorem Units.release_unfed (u : Units) (h : Fin 32) (side : Side) (z : Zone) (o : OrderRec) (kept : Fin 32 → Bool) :
    (u.setHead h (u.head h).unfed).release side z o kept =
      (u.release side z o kept).then fun v => (v.setHead h (v.head h).unfed, []) := by
  obtain ⟨w, hw⟩ : ∃ w, w = u.setHead h (u.head h).unfed := ⟨_, rfl⟩
  rw [← hw]
  have hh : ∀ g, w.head g = if g = h then (u.head g).unfed else u.head g := fun g => by
    rw [hw, Units.head_setHead]
    split
    · rename_i c; rw [c]
    · rfl
  have h1 : ∀ g, (w.head g).gateSeq = (u.head g).gateSeq := fun g => by rw [hh]; split <;> rfl
  have h2 : ∀ g, (w.head g).frozen = (u.head g).frozen := fun g => by rw [hh]; split <;> rfl
  have h3 : ∀ g, (w.head g).state = (u.head g).state := fun g => by rw [hh]; split <;> rfl
  have h4 : ∀ g, (w.head g).age = (u.head g).age := fun g => by rw [hh]; split <;> rfl
  have hz : w.zones = u.zones := by rw [hw]; rfl
  have hc : w.config = u.config := by rw [hw]; rfl
  have ho : w.orders = u.orders := by rw [hw]; rfl
  have hr : w.releases = u.releases := by rw [hw]; rfl
  have hb : w.base .gate = u.base .gate := by unfold Units.base; rw [hc]
  have hzo : ∀ n, w.zoneOf n = u.zoneOf n := fun n => by unfold Units.zoneOf; rw [hc]
  have hre : w.reporting z = u.reporting z := by unfold Units.reporting Units.binding; rw [hc]
  have hp : ∀ g, w.purgeEntry g .stale = u.purgeEntry g .stale := fun g => by unfold Units.purgeEntry; rw [hb, h1]
  have hsz : ∀ x, w.setZone z x = (u.setZone z x).setHead h (u.head h).unfed := fun x => by rw [hw]; rfl
  have hzp : ∀ x, (w.setZone z x).zoneParams z = (u.setZone z x).zoneParams z := fun x => by rw [hsz]; rfl
  have hpa : ∀ x g, (w.setZone z x).params g = (u.setZone z x).params g := fun x g => by rw [hsz]; rfl
  have hst : ∀ x, (w.setZone z x).staleAt z o.heads = (u.setZone z x).staleAt z o.heads := fun x => by
    unfold Units.staleAt
    simp only [hzp]
    have e1 : ∀ g, (w.setZone z x).head g = w.head g := fun _ => rfl
    have e2 : ∀ g, (u.setZone z x).head g = u.head g := fun _ => rfl
    have e3 : ∀ n, (w.setZone z x).zoneOf n = (u.setZone z x).zoneOf n := fun n => by rw [hsz]; rfl
    simp only [e1, e2, e3, h3, h4]
  unfold Units.release Effect.then
  simp only [h1, h2, hz, ho, hr, hb, hzo, hre, hp, hzp, hpa, hst, List.append_nil]
  refine Prod.ext ?_ rfl
  simp only
  obtain ⟨f, hf⟩ : ∃ f : Fin 32 → Head → Head, f = fun g x =>
    if g ∈ o.heads then
      { x with
        state := .discharging (.bag side), retryUsed := false, gateSeq := x.gateSeq + 1
        timer := .running .gate ((u.setZone z (u.zones.get z).effect).params g).gateLimit }
    else if x.state = .ready ∧ u.zoneOf g.val = some z then
      if g ∈ (u.setZone z (u.zones.get z).effect).staleAt z o.heads then
        Head.purged { x with age := min 255 (x.age + 1) } .stale ((u.setZone z (u.zones.get z).effect).params g).gateLimit
      else { x with age := min 255 (x.age + 1) }
    else x := ⟨_, rfl⟩
  have hfu : ∀ g x, f g x.unfed = (f g x).unfed := fun g x => by
    have e1 : x.unfed.state = x.state := rfl
    have e2 : x.unfed.age = x.age := rfl
    rw [hf]
    simp only [e1, e2]
    by_cases c1 : g ∈ o.heads
    · simp only [c1, if_true]; rfl
    · by_cases c2 : x.state = .ready ∧ u.zoneOf g.val = some z
      · by_cases c3 : g ∈ (u.setZone z (u.zones.get z).effect).staleAt z o.heads
        · simp only [c1, c2, c3, if_true, if_false, and_self]; rfl
        · simp only [c1, c2, c3, if_true, if_false, and_self]; rfl
      · rw [if_neg c1, if_neg c2, if_neg c1, if_neg c2]
  have hm : w.mapHeads f = (u.mapHeads f).setHead h (f h (u.head h)).unfed := by
    rw [hw, Units.setHead_mapHeads, Units.mapHeads_setHead]
    refine Units.mapHeads_congr _ _ _ fun g => ?_
    split
    · rename_i c; rw [c, hfu]
    · rfl
  rw [← hf, hm]
  have hhm : (u.mapHeads f).head h = f h (u.head h) := Units.mapHeads_head ..
  generalize u.mapHeads f = m at *
  have he : ((((m.setZone z { (u.zones.get z).effect with rotation := ((u.zones.get z).effect.rotation + 1) % ((u.setZone z (u.zones.get z).effect).zoneParams z).offer.length }).setOrder side { u.orders.get side with queue := (u.orders.get side).queue.tail }.effect).setRelease side { u.releases.get side with
        latch := false, releasePending := false, disch := some 20
        dumps := (u.releases.get side).dumps ++
          [{ tag := o.tag, heads := o.heads.map fun h => (h, .pending), total := o.total, target := o.target }] }).head h) = f h (u.head h) := hhm
  rw [he]
  rfl

theorem Units.release_config (u : Units) (side : Side) (z : Zone) (o : OrderRec) (kept : Fin 32 → Bool) :
    (u.release side z o kept).1.config = u.config := by
  unfold Units.release
  simp only [Units.setRelease_config, Units.setOrder_config, Units.setZone_config, Units.mapHeads_config]

theorem Units.release_feedSeq (u : Units) (h : Fin 32) (side : Side) (z : Zone) (o : OrderRec) (kept : Fin 32 → Bool) :
    ((u.release side z o kept).1.head h).feedSeq = (u.head h).feedSeq := by
  unfold Units.release
  simp only [Units.setRelease_head, Units.setOrder_head, Units.setZone_head, Units.mapHeads_head]
  generalize u.head h = x
  by_cases c1 : h ∈ o.heads
  · rw [if_pos c1]
  · rw [if_neg c1]
    by_cases c2 : x.state = .ready ∧ u.zoneOf h.val = some z
    · rw [if_pos c2]
      by_cases c3 : h ∈ (u.setZone z (u.zones.get z).effect).staleAt z o.heads
      · rw [if_pos c3]; rfl
      · rw [if_neg c3]
    · rw [if_neg c2]

/-- The feed stop of a head that goes OUT may stand before the release or behind it. -/
theorem Units.outReleasing_eq (u : Units) (h : Fin 32) (side : Side) (z : Zone) (o : OrderRec) (kept : Fin 32 → Bool)
    (y : Head) (hy : y.unfed = (u.head h).outed) (hf : y.feedSeq = (u.head h).feedSeq) :
    (((Effect.then (u.setHead h y, []) fun v =>
      (v.markDump side h .unconfirmed).then fun w => w.release side z o kept).then fun v =>
        (v, [.flag (v.reportingHead h) .headOut])).then fun v =>
          (v.setHead h (v.head h).unfed, [.write (v.feedEntry h 0 0 ((v.head h).feedSeq + 1))])) =
      u.outReleasing h side z o kept := by
  obtain ⟨R, hR⟩ : ∃ R, R = { u.releases.get side with
      dumps := dumpsAfter h .unconfirmed (u.releases.get side).dumps } := ⟨_, rfl⟩
  obtain ⟨l, hl⟩ : ∃ l : List Act, l = match (u.releases.get side).dumps.find? fun d => d.awaits h with
    | some d => if (d.mark h .unconfirmed).complete then [.order side (d.mark h .unconfirmed).notice] else []
    | none => [] := ⟨_, rfl⟩
  have hM : ∀ x, (u.setHead h x).markDump side h .unconfirmed = ((u.setHead h x).setRelease side R, l) := fun x => by
    rw [hR, hl]
    rfl
  obtain ⟨V, hV⟩ : ∃ V, V = (u.setHead h y).setRelease side R := ⟨_, rfl⟩
  have hVh : V.head h = y := by rw [hV]; exact (Units.head_setHead ..).trans (if_pos rfl)
  have hVu : (u.setHead h (u.head h).outed).setRelease side R = V.setHead h (V.head h).unfed := by
    rw [hVh, hV, ← hy]
    exact congrArg (fun u : Units => u.setRelease side R) (Units.setHead_twice u h y y.unfed).symm
  have hr := Units.release_unfed V h side z o kept
  have hc : (V.release side z o kept).1.config = u.config := (Units.release_config ..).trans (by rw [hV]; rfl)
  have hs : ((V.release side z o kept).1.head h).feedSeq = (u.head h).feedSeq := by
    rw [Units.release_feedSeq, hVh, hf]
  unfold Units.outReleasing Effect.then
  simp only [hM, ← hV, hVu, hr, List.nil_append]
  generalize V.release side z o kept = r at *
  have e1 : r.1.reportingHead h = u.reportingHead h := by
    unfold Units.reportingHead Units.zoneOf Units.reporting Units.binding
    rw [hc]
  have e2 : r.1.feedEntry h 0 0 ((r.1.head h).feedSeq + 1) = u.feedEntry h 0 0 ((u.head h).feedSeq + 1) := by
    unfold Units.feedEntry Units.base
    rw [hc, hs]
  unfold Effect.then
  simp only [e1, e2, List.append_assoc, List.append_nil, List.cons_append, List.nil_append]

theorem Units.outReleasing_blind (h : Fin 32) (side : Side) (z : Zone) (o : OrderRec) (kept : Fin 32 → Bool) :
    Blind fun u => u.outReleasing h side z o kept := by
  intro u n
  have := Effect.then_blind (f := fun u => (u.setHead h (u.head h).outed).markDump side h .unconfirmed) (fun _ _ => rfl)
    (Units.release_blind side z o kept) u n
  exact congrArg (fun r : Effect => Effect.then r fun v =>
    (v, [.flag (u.reportingHead h) .headOut, .write (u.feedEntry h 0 0 ((u.head h).feedSeq + 1))])) this

/-- A release that follows a mark is no case without one. -/
theorem Units.releaseFollows_not {u : Units} {side : Side} {h : Fin 32} {m : Mark} {z : Zone} {o : OrderRec}
    (f : u.releaseFollows side h m z o) : ¬ u.unreleased side h m := by
  obtain ⟨ha, hl, hq, -, -, -, d, hd, hc⟩ := f
  rintro (c | c | c | c)
  · rw [ha] at c; cases c
  · rw [hl] at c; cases c
  · rw [c] at hq; cases hq
  · rw [c d hd] at hc; cases hc

/-- A release leaves the side's stage alone (R121). -/
theorem Units.release_stage (u : Units) (side : Side) (x : OrderSide) (z : Zone) (o : OrderRec) (kept : Fin 32 → Bool) :
    ((u.setOrder side x).release side z o kept).then (fun v => (v.setOrder side { v.orders.get side with stage := none }, [])) =
      (u.setOrder side { x with stage := none }).release side z o kept := by
  unfold Units.release
  simp only
  have h1 : ∀ y, (u.setOrder side y).zones = u.zones := fun _ => rfl
  have h2 : ∀ y w, (u.setOrder side y).setZone z w = (u.setZone z w).setOrder side y := fun _ _ => rfl
  have h3 : ∀ y h, (u.setOrder side y).head h = u.head h := fun _ _ => rfl
  have h4 : ∀ (v : Units) y h, (v.setOrder side y).params h = v.params h := fun _ _ _ => rfl
  have h5 : ∀ y n, (u.setOrder side y).zoneOf n = u.zoneOf n := fun _ _ => rfl
  have h6 : ∀ y f, (u.setOrder side y).mapHeads f = (u.mapHeads f).setOrder side y := fun _ _ => Units.setOrder_mapHeads ..
  have h7 : ∀ y, (u.setOrder side y).orders.get side = y := fun y => by simp
  have h8 : ∀ y, (u.setOrder side y).releases = u.releases := fun _ => rfl
  have h9 : ∀ y, (u.setOrder side y).base = u.base := fun _ => rfl
  have h10 : ∀ y, (u.setOrder side y).reporting z = u.reporting z := fun _ => rfl
  have h11 : ∀ (v : Units) y l, (v.setOrder side y).staleAt z l = v.staleAt z l := fun _ _ _ => rfl
  have h12 : ∀ (v : Units) y, (v.setOrder side y).zoneParams z = v.zoneParams z := fun _ _ => rfl
  have h13 : ∀ y h, (u.setOrder side y).purgeEntry h .stale = u.purgeEntry h .stale := fun _ _ => rfl
  simp only [h1, h2, h3, h4, h5, h6, h7, h8, h9, h10, h11, h12, h13]
  generalize Units.mapHeads _ _ = m
  unfold Effect.then
  simp only [List.append_nil]
  refine Prod.ext ?_ rfl
  simp only
  cases hs : x.staged <;> cases side <;> cases z <;> simp [OrderSide.effect, hs, Units.setOrder, Units.setZone, Units.setRelease, PerSide.set, PerSide.get]

/-! ### The entries left for a release's notices (R122) -/

theorem Ev.eachHead_spare (op : Fin 32 → Ev → Ev) (h : ∀ g f, (op g f).spare = f.spare) :
    ∀ (hs : List (Fin 32)) (e : Ev), (e.eachHead hs op).spare = e.spare
  | [], _ => rfl
  | g :: rest, e => (Ev.eachHead_spare op h rest (op g e)).trans (h g e)

theorem Ev.purgeGates_spare (hs : List (Fin 32)) (e : Ev) : (e.eachHead hs fun h e => e.purgeGate h .stale).spare = e.spare :=
  Ev.eachHead_spare (fun h e => e.purgeGate h .stale) (fun _ _ => rfl) hs e

theorem Ev.ageZone_spare (e : Ev) (z : Zone) : (e.ageZone z).spare = e.spare :=
  Ev.eachHead_spare (fun h e => e.modHead h fun x => { x with age := min 255 (x.age + 1) }) (fun _ _ => rfl) _ e

/-- With no entries left a release's notice puts nothing into the queue. -/
theorem Ev.releaseNotice_silent (e : Ev) (s : Side) (n : Notice) (h : e.spare = 0) :
    (e.releaseNotice s n).out = e.out ∧ (e.releaseNotice s n).spare = 0 := by
  have hs : (e.takeNumber s).spare = 0 := h
  unfold Ev.releaseNotice
  simp only
  split
  · exact ⟨rfl, hs⟩
  · split
    · exact ⟨rfl, hs⟩
    · rw [if_neg (by omega)]
      exact ⟨rfl, hs⟩

theorem Ev.releaseNotices_silent (s : Side) (N : Fin 32 → Ev → Notice) : ∀ (hs : List (Fin 32)) (e : Ev), e.spare = 0 →
    (e.eachHead hs fun h f => f.releaseNotice s (N h f)).out = e.out
  | [], _, _ => rfl
  | g :: rest, e, h =>
    let k := Ev.releaseNotice_silent e s (N g e) h
    (Ev.releaseNotices_silent s N rest _ k.2).trans k.1

theorem Ev.purgeGates_length : ∀ (hs : List (Fin 32)) (e : Ev),
    (e.eachHead hs fun h e => e.purgeGate h .stale).out.length = e.out.length + hs.length
  | [], _ => rfl
  | g :: rest, e => by
    show ((e.purgeGate g .stale).eachHead rest fun h e => e.purgeGate h .stale).out.length = _
    rw [Ev.purgeGates_length rest]
    show (e.out ++ [_]).length + _ = _
    simp
    omega

theorem Ev.openGates_spare (s : Side) (k : Nat) : ∀ (hs : List (Fin 32)) (n : Nat) (e : Ev), (e.openGates s k hs n).spare = e.spare
  | [], _, _ => rfl
  | _ :: rest, _, _ => (Ev.openGates_spare s k rest _ _).trans rfl

/-! ### The entries that a release asks for (R122) -/

theorem Ev.eachHead_required (f : Fin 32 → Ev → Ev) (hf : ∀ h e, (f h e).required = e.required) :
    ∀ (hs : List (Fin 32)) (e : Ev), (e.eachHead hs f).required = e.required
  | [], _ => rfl
  | h :: rest, e => (Ev.eachHead_required f hf rest (f h e)).trans (hf h e)

/-- Only gate words were queued, and no flag word is asked for beside those asked for before. -/
def Ev.GatesOnly (e f : Ev) : Prop :=
  f.required = e.required ∧ f.units.config = e.units.config ∧
    ∀ x, x ∈ f.out → x ∈ e.out ∨ ∃ h : Fin 32, x.addr = BitVec.ofNat 20 (e.units.base .gate + h.val)

namespace Ev.GatesOnly

variable {e f g : Ev}

/-- Nothing was queued. -/
theorem silent (hr : f.required = e.required) (hc : f.units.config = e.units.config) (ho : f.out = e.out) : e.GatesOnly f :=
  ⟨hr, hc, fun _ hx => .inl (ho ▸ hx)⟩

theorem trans (h : e.GatesOnly f) (k : f.GatesOnly g) : e.GatesOnly g := by
  refine ⟨k.1.trans h.1, k.2.1.trans h.2.1, fun x hx => ?_⟩
  rcases k.2.2 x hx with c | ⟨y, c⟩
  · exact h.2.2 x c
  · refine .inr ⟨y, c.trans ?_⟩
    unfold Units.base
    rw [h.2.1]

theorem gate (hr : f.required = e.required) (hc : f.units.config = e.units.config) (h : Fin 32) (w : Word)
    (ho : f.out = e.out ++ [⟨BitVec.ofNat 20 (e.units.base .gate + h.val), w⟩]) : e.GatesOnly f := by
  refine ⟨hr, hc, fun x hx => ?_⟩
  rw [ho, List.mem_append, List.mem_singleton] at hx
  exact hx.imp id fun c => ⟨h, by rw [c]⟩

theorem eachHead (op : Fin 32 → Ev → Ev) (hop : ∀ h (e : Ev), e.GatesOnly (op h e)) :
    ∀ (hs : List (Fin 32)) (e : Ev), e.GatesOnly (e.eachHead hs op)
  | [], _ => silent rfl rfl rfl
  | h :: rest, e => (hop h e).trans (eachHead op hop rest (op h e))

theorem openGate (e : Ev) (h : Fin 32) (s : Side) (delay : Nat) :
    e.GatesOnly ((e.enterDischarge h (.bag s)).gateCommand h (.bag s) delay) :=
  gate (e := e) rfl rfl h (gateWord (.bag s) delay ((e.enterDischarge h (.bag s)).units.head h).gateSeq) rfl

theorem openGates (s : Side) (k : Nat) :
    ∀ (hs : List (Fin 32)) (n : Nat) (e : Ev), e.GatesOnly (e.openGates s k hs n)
  | [], _, _ => silent rfl rfl rfl
  | h :: rest, n, e => (openGate e h s (n * k)).trans (openGates s k rest (n + 1) _)

theorem ageZone (e : Ev) (z : Zone) : e.GatesOnly (e.ageZone z) :=
  eachHead (fun h e => e.modHead h fun x => { x with age := min 255 (x.age + 1) }) (fun _ _ => silent rfl rfl rfl) _ e

theorem purgeGates (hs : List (Fin 32)) (e : Ev) : e.GatesOnly (e.eachHead hs fun h e => e.purgeGate h .stale) :=
  eachHead _ (fun h e => by
    rw [Ev.purgeGate_eq]
    exact gate (e := e) rfl rfl h (e.units.purgeEntry h .stale).data rfl) hs e

end Ev.GatesOnly

theorem Ev.place_required (e : Ev) (s : Side) (n : Notice) : (e.place s n).required = e.required := by
  unfold Ev.place
  split <;> rfl

theorem Ev.releaseNotice_required (e : Ev) (s : Side) (n : Notice) : (e.releaseNotice s n).required = e.required := by
  unfold Ev.releaseNotice
  simp only
  split
  · rfl
  · split
    · rfl
    · split
      · exact Ev.place_required (e.takeNumber s) s n
      · rfl

/-- The purges due at a release with no entries left for their notices: gate words, and one flag word asked for where a
purge is due. -/
theorem Ev.stalePurges_asks (e : Ev) (z : Zone) (h0 : e.spare = 0) :
    (e.stalePurges z).required =
        (if e.units.dueStale z = [] then e.required else e.required.set (e.units.reporting z) true) ∧
      ∀ x, x ∈ (e.stalePurges z).out →
        x ∈ e.out ∨ ∃ h : Fin 32, x.addr = BitVec.ofNat 20 (e.units.base .gate + h.val) := by
  have g := Ev.GatesOnly.purgeGates (e.units.dueStale z) e
  have hsp := (Ev.purgeGates_spare (e.units.dueStale z) e).trans h0
  unfold Ev.stalePurges
  simp only
  generalize e.eachHead (e.units.dueStale z) (fun h e => e.purgeGate h .stale) = f at *
  have hr := Ev.eachHead_required
    (fun h e => e.releaseNotice (f.units.reporting z) (.purge h .stale (e.units.head h).gateSeq (e.units.head h).frozen))
    (fun _ _ => Ev.releaseNotice_required _ _ _) (e.units.dueStale z) f
  have hs : f.units.reporting z = e.units.reporting z := by unfold Units.reporting Units.binding; rw [g.2.1]
  rw [hs] at hr
  have ho := Ev.releaseNotices_silent (e.units.reporting z)
    (fun h f => .purge h .stale (f.units.head h).gateSeq (f.units.head h).frozen) (e.units.dueStale z) f hsp
  cases hd : e.units.dueStale z with
  | nil =>
    rw [hd] at hr ho
    exact ⟨hr.trans g.1, fun x hx => g.2.2 x (ho ▸ hx)⟩
  | cons a rest =>
    rw [hd] at hr ho
    refine ⟨?_, fun x hx => g.2.2 x (ho ▸ hx)⟩
    show PerSide.set _ _ _ = _
    rw [if_neg (by simp)]
    exact congrArg (PerSide.set · (e.units.reporting z) true) (hr.trans g.1)

namespace Ev.Does

variable {e : Ev}

/-- Entry to DISCHARGING with its gate command (R19, R123). -/
theorem openGate (h : Fin 32) (side : Side) (delay : Nat) :
    e.Does ((e.enterDischarge h (.bag side)).gateCommand h (.bag side) delay)
      (e.units.setHead h (Head.gated side (e.units.head h) (e.units.params h).gateLimit),
        [.write ⟨BitVec.ofNat 20 (e.units.base .gate + h.val),
          gateWord (.bag side) delay ((e.units.head h).gateSeq + 1)⟩]) := by
  have hu : (e.enterDischarge h (.bag side)).units =
      e.units.setHead h (Head.gated side (e.units.head h) (e.units.params h).gateLimit) := by
    unfold Ev.enterDischarge Ev.startTimer
    simp only [Ev.modHead_units, Units.setHead_params, Units.head_setHead, if_true, ZoneBlock.limit, Head.gated,
      Units.setHead_twice]
  have d1 : e.Does (e.enterDischarge h (.bag side))
      (e.units.setHead h (Head.gated side (e.units.head h) (e.units.params h).gateLimit), []) := by
    have : e.enterDischarge h (.bag side) = { e with units := (e.enterDischarge h (.bag side)).units } := rfl
    rw [this, hu]
    exact of_units rfl ⟨⟨rfl, rfl, rfl, rfl⟩, rfl, fun _ h => h⟩
  have d2 := d1.trans (f := fun u => (u, [.write ⟨BitVec.ofNat 20 (u.base .gate + h.val),
    gateWord (.bag side) delay (u.head h).gateSeq⟩])) (fun _ _ => rfl) (push _ _)
  refine d2.congr ?_
  unfold Effect.then
  simp only [Units.head_setHead, if_true, List.nil_append]
  rfl

/-- Something at each head of a list without repetition: a record of its own and things put out. -/
theorem eachHead (I : Units → Prop) (hI : ∀ u f, I u → I (u.mapHeads f)) (hN : ∀ u n, I u → I (u.withNotices n))
    (F : Fin 32 → Head → Head) (G : Fin 32 → Head → List Act)
    (op : Fin 32 → Ev → Ev) (hop : ∀ h (e : Ev), I e.units → e.Does (op h e) (e.units.setHead h (F h (e.units.head h)), G h (e.units.head h)))
    (hs : List (Fin 32)) : ∀ e : Ev, I e.units → hs.Nodup →
    e.Does (e.eachHead hs op)
      (e.units.mapHeads fun h x => if h ∈ hs then F h x else x, hs.flatMap fun h => G h (e.units.head h)) := by
  induction hs with
  | nil =>
    intro e _ _
    have : (e.units.mapHeads fun h x => if h ∈ ([] : List (Fin 32)) then F h x else x) = e.units :=
      Units.mapHeads_same _ _ fun k => by simp
    rw [this]
    exact refl
  | cons g rest ih =>
    intro e he hn
    rw [List.nodup_cons] at hn
    have d1 := hop g e he
    have h1 : (e.units.setHead g (F g (e.units.head g))) = e.units.mapHeads fun h x => if h = g then F g (e.units.head g) else x := by
      have := Units.mapHeads_setHead e.units g (F g (e.units.head g)) (fun _ x => x)
      rw [Units.mapHeads_same _ (fun _ x => x) (fun _ => rfl)] at this
      exact this
    have hI1 : I (op g e).units := by
      rw [d1.units]
      refine hN _ _ ?_
      simp only [h1]
      exact hI _ _ he
    have d2 := ih (op g e) hI1 hn.2
    have hh : ∀ k, (op g e).units.head k = (e.units.setHead g (F g (e.units.head g))).head k := fun k => by rw [d1.units]; rfl
    have hG : rest.flatMap (fun h => G h ((op g e).units.head h)) = rest.flatMap fun h => G h (e.units.head h) := by
      refine List.flatMap_congr ?_
      intro k hk
      rw [hh, Units.head_setHead, if_neg (fun c : k = g => hn.1 (c ▸ hk))]
    rw [hG] at d2
    have d3 := d1.trans (f := fun v => (v.mapHeads fun h x => if h ∈ rest then F h x else x,
      rest.flatMap fun h => G h (e.units.head h))) (fun _ _ => rfl) d2
    refine d3.congr ?_
    unfold Effect.then
    simp only [List.flatMap_cons]
    rw [Units.setHead_mapHeads, Units.mapHeads_congr e.units (fun k x => if k ∈ g :: rest then F k x else x)
      (fun k x => if k = g then (if k ∈ rest then F k (F g (e.units.head g)) else F g (e.units.head g)) else
        if k ∈ rest then F k x else x) fun k => ?_]
    simp only [List.mem_cons]
    by_cases hk : k = g
    · subst hk; simp [hn.1]
    · simp [hk]

/-- Something at each head of a list without repetition that puts nothing out. -/
theorem eachHead_mod (F : Fin 32 → Head → Head) (op : Fin 32 → Ev → Ev)
    (hop : ∀ h (e : Ev), e.Does (op h e) (e.units.setHead h (F h (e.units.head h)), [])) (hs : List (Fin 32)) (hn : hs.Nodup) :
    e.Does (e.eachHead hs op) (e.units.mapHeads fun h x => if h ∈ hs then F h x else x, []) :=
  (eachHead (fun _ => True) (fun _ _ _ => trivial) (fun _ _ _ => trivial) F (fun _ _ => []) op (fun h e _ => hop h e) hs e
    trivial hn).congr (by simp)

/-- The released heads with their gate commands (R121 step 4, R123). -/
theorem openGates (side : Side) (k : Nat) (u : Units) (hs : List (Fin 32)) : ∀ (n : Nat) (e : Ev), hs.Nodup →
    e.units.config = u.config → (∀ h, e.units.params h = u.params h) →
    e.Does (e.openGates side k hs n)
      (e.units.mapHeads fun h x => if h ∈ hs then Head.gated side x (u.params h).gateLimit else x,
        (hs.zipIdx n).map fun (h, i) => .write ⟨BitVec.ofNat 20 (u.base .gate + h.val),
          gateWord (.bag side) (i * k) ((e.units.head h).gateSeq + 1)⟩) := by
  induction hs with
  | nil =>
    intro n e _ _ _
    rw [Units.mapHeads_same _ _ fun k => by simp]
    exact refl
  | cons g rest ih =>
    intro n e hn hc hp
    rw [List.nodup_cons] at hn
    have hb : e.units.base .gate = u.base .gate := by unfold Units.base; rw [hc]
    have d1 := openGate (e := e) g side (n * k)
    rw [hp, hb] at d1
    unfold Ev.openGates
    obtain ⟨e1, he1⟩ : ∃ e1, e1 = (e.enterDischarge g (.bag side)).gateCommand g (.bag side) (n * k) := ⟨_, rfl⟩
    rw [← he1] at d1 ⊢
    have hh : ∀ j, e1.units.head j = (e.units.setHead g (Head.gated side (e.units.head g) (u.params g).gateLimit)).head j :=
      fun j => by rw [d1.units]; rfl
    have d2 := ih (n + 1) e1 hn.2 (by rw [d1.units]; exact hc)
      (fun h => by rw [d1.units]; exact (hp h))
    have hG : ((rest.zipIdx (n + 1)).map fun (h, i) => Act.write ⟨BitVec.ofNat 20 (u.base .gate + h.val),
          gateWord (.bag side) (i * k) ((e1.units.head h).gateSeq + 1)⟩) =
        (rest.zipIdx (n + 1)).map fun (h, i) => Act.write ⟨BitVec.ofNat 20 (u.base .gate + h.val),
          gateWord (.bag side) (i * k) ((e.units.head h).gateSeq + 1)⟩ := by
      refine List.map_congr_left fun p hm => ?_
      have hm : p.1 ∈ rest := List.fst_mem_of_mem_zipIdx hm
      simp only
      rw [hh, Units.head_setHead, if_neg (fun c : p.1 = g => hn.1 (c ▸ hm))]
    rw [hG] at d2
    simp only [List.zipIdx_cons, List.map_cons]
    obtain ⟨l, hl⟩ : ∃ l, l = ((rest.zipIdx (n + 1)).map fun (h, i) => Act.write ⟨BitVec.ofNat 20 (u.base .gate + h.val),
      gateWord (.bag side) (i * k) ((e.units.head h).gateSeq + 1)⟩) := ⟨_, rfl⟩
    rw [← hl] at d2 ⊢
    have d3 := d1.trans (f := fun v => (v.mapHeads fun h x => if h ∈ rest then Head.gated side x (u.params h).gateLimit else x, l))
      (fun _ _ => rfl) d2
    refine d3.congr ?_
    unfold Effect.then
    simp only [List.singleton_append]
    rw [Units.setHead_mapHeads]
    rw [Units.mapHeads_congr e.units _ _ fun j => ?_]
    simp only [List.mem_cons]
    by_cases hj : j = g
    · subst hj; simp [hn.1]
    · simp [hj]

/-- Aging at a release (R84). -/
theorem ageZone (z : Zone) : e.Does (e.ageZone z)
    (e.units.mapHeads fun h x => if e.units.readyIn z h then { x with age := min 255 (x.age + 1) } else x, []) := by
  refine (eachHead_mod (fun _ x => { x with age := min 255 (x.age + 1) }) _ (fun h e => modHead _) _
    (allHeads_nodup.filter _)).congr ?_
  refine Prod.ext (Units.mapHeads_congr e.units _ _ fun h => ?_) rfl
  simp [mem_allHeads]

/-- The notice of a STALE purge is placed, or dropped where the room or the entries are wanting (R122). -/
theorem releaseNotice (s : Side) (n : Notice) : ∃ kept : Bool, (4 ≤ e.spare → kept = true) ∧
    e.spare ≤ (e.releaseNotice s n).spare + 4 ∧
    e.Does (e.releaseNotice s n) (e.units, [if kept then .notice s n else .lost s]) := by
  have hs : (e.takeNumber s).spare = e.spare := rfl
  unfold Ev.releaseNotice
  simp only
  by_cases h1 : (e.takeNumber s).hasRoom s = true
  · simp only [h1, Bool.not_true, Bool.false_eq_true, if_false]
    by_cases h2 : (e.takeNumber s).ringOpen s = true
    · simp only [h2, Bool.not_true, Bool.false_eq_true, if_false]
      by_cases h3 : 4 ≤ (e.takeNumber s).spare
      · rw [if_pos h3]
        refine ⟨true, fun _ => rfl, ?_, ?_⟩
        · show e.spare ≤ (e.takeNumber s).spare - 4 + 4
          omega
        have : (e.takeNumber s).place s n = e.headNotice s n := by
          unfold Ev.headNotice; simp only; rw [if_pos h1]
        rw [this]
        exact (headNotice s n).aside
      · rw [if_neg h3]
        exact ⟨false, fun c => absurd (hs ▸ c) h3, by show e.spare ≤ (e.takeNumber s).spare + 4; omega, act (.lost s)⟩
    · have h2' : (e.takeNumber s).ringOpen s = false := by simpa using h2
      rw [h2']
      simp only [Bool.not_false, if_true]
      refine ⟨true, fun _ => rfl, by show e.spare ≤ (e.takeNumber s).spare + 4; omega, ?_⟩
      have : (e.takeNumber s).holdNotice s n = e.headNotice s n := by
        unfold Ev.headNotice Ev.place
        simp only
        rw [if_pos h1, h2']
        simp
      rw [this]
      exact headNotice s n
  · have h1' : (e.takeNumber s).hasRoom s = false := by simpa using h1
    rw [h1']
    simp only [Bool.not_false, if_true]
    refine ⟨true, fun _ => rfl, by show e.spare ≤ (e.takeNumber s).spare + 4; omega, ?_⟩
    have : (e.takeNumber s).setFlag s .noticeLost = e.headNotice s n := by
      unfold Ev.headNotice; simp only; rw [h1']; rfl
    rw [this]
    exact headNotice s n

/-- The notices of the STALE purges, in order (R86, R122). -/
theorem releaseNotices (s : Side) (N : Fin 32 → Notice) (op : Fin 32 → Ev → Ev)
    (hs : List (Fin 32)) : ∀ (e : Ev), hs.Nodup → (∀ h ∈ hs, ∀ f : Ev, (∀ k, f.units.head k = e.units.head k) → op h f = f.releaseNotice s (N h)) →
    ∃ kept : Fin 32 → Bool, (4 * hs.length ≤ e.spare → ∀ h, kept h = true) ∧
    e.Does (e.eachHead hs op) (e.units, hs.map fun h => if kept h then .notice s (N h) else .lost s) := by
  induction hs with
  | nil => exact fun e _ _ => ⟨fun _ => true, fun _ _ => rfl, refl⟩
  | cons g rest ih =>
    intro e hn hop
    rw [List.nodup_cons] at hn
    obtain ⟨b, hb, hsp, d1⟩ := releaseNotice (e := e) s (N g)
    rw [← hop g (List.mem_cons_self ..) e (fun _ => rfl)] at d1 hsp
    obtain ⟨kept, hk, d2⟩ := ih (op g e) hn.2 (fun h hh f hf => hop h (List.mem_cons_of_mem _ hh) f fun k => by
      rw [hf, d1.units]; rfl)
    refine ⟨fun h => if h = g then b else kept h, fun c h => ?_, ?_⟩
    · rw [List.length_cons] at c
      show (if h = g then b else kept h) = true
      split
      · exact hb (by omega)
      · exact hk (by omega) h
    have d3 := d1.trans (f := fun v => (v, rest.map fun h => if kept h then Act.notice s (N h) else .lost s)) (fun _ _ => rfl) d2
    refine d3.congr ?_
    unfold Effect.then
    simp only [List.map_cons, if_true, List.singleton_append]
    have : ∀ h ∈ rest, (if (if h = g then b else kept h) = true then Act.notice s (N h) else .lost s) =
        if kept h = true then Act.notice s (N h) else .lost s := fun h hh => by
      rw [if_neg (fun c : h = g => hn.1 (c ▸ hh))]
    rw [List.map_congr_left this]

/-- The gate command of a purge (R20, R129). -/
theorem purgeGate (h : Fin 32) (r : PurgeReason) :
    e.Does (e.purgeGate h r) (e.units.setHead h ((e.units.head h).purged r (e.units.params h).gateLimit),
      [.write (e.units.purgeEntry h r)]) := by
  rw [Ev.purgeGate_eq]
  exact (of_units (e := e) (u := e.units.setHead h ((e.units.head h).purged r (e.units.params h).gateLimit)) rfl
    ⟨⟨rfl, rfl, rfl, rfl⟩, rfl, fun _ h => h⟩).trans (f := fun u => (u, [.write (e.units.purgeEntry h r)])) (fun _ _ => rfl) (push _ _)

/-- The purges due at a release (R86, R122). -/
theorem stalePurges (z : Zone) : ∃ kept : Fin 32 → Bool,
    (4 * (e.units.dueStale z).length ≤ e.spare → ∀ h, kept h = true) ∧
    (e.spare = 0 → (e.stalePurges z).out.length = e.out.length + (e.units.dueStale z).length) ∧ e.Does (e.stalePurges z)
    (e.units.mapHeads fun h x => if h ∈ e.units.dueStale z then x.purged .stale (e.units.params h).gateLimit else x,
      ((e.units.dueStale z).map fun h => .write (e.units.purgeEntry h .stale)) ++
      (e.units.dueStale z).map fun h =>
        if kept h then .notice (e.units.reporting z) (.purge h .stale ((e.units.head h).gateSeq + 1) (e.units.head h).frozen)
        else .lost (e.units.reporting z)) := by
  have hnd : (e.units.dueStale z).Nodup := by
    unfold Units.dueStale
    simp only
    split
    · exact List.nodup_nil
    · exact allHeads_nodup.filter _
  obtain ⟨due, hdue⟩ : ∃ due, due = e.units.dueStale z := ⟨_, rfl⟩
  have d1 := eachHead (fun v => v.config = e.units.config ∧ ∀ h, v.params h = e.units.params h)
    (fun v f h => ⟨(Units.mapHeads_config v f).trans h.1, fun k => (Units.mapHeads_params v f k).trans (h.2 k)⟩) (fun _ _ h => h)
    (fun h x => x.purged .stale (e.units.params h).gateLimit)
    (fun h x => [.write ⟨BitVec.ofNat 20 (e.units.base .gate + h.val), gateWord (.reject .stale) 0 (x.gateSeq + 1)⟩])
    (fun h e => e.purgeGate h .stale) (fun h f hf => by
      have := purgeGate (e := f) h .stale
      rw [hf.2] at this
      refine this.congr ?_
      unfold Units.purgeEntry Units.base
      rw [hf.1]) due e ⟨rfl, fun _ => rfl⟩ (hdue ▸ hnd)
  obtain ⟨e1, he1⟩ : ∃ e1, e1 = e.eachHead due fun h e => e.purgeGate h .stale := ⟨_, rfl⟩
  rw [← he1] at d1
  have hh : ∀ h ∈ due, e1.units.head h = (e.units.head h).purged .stale (e.units.params h).gateLimit := fun h hm => by
    rw [d1.units, Units.withNotices_head, Units.mapHeads_head, if_pos hm]
  obtain ⟨kept, hk, d2⟩ := releaseNotices (e.units.reporting z)
    (fun h => .purge h .stale ((e.units.head h).gateSeq + 1) (e.units.head h).frozen)
    (fun h f => f.releaseNotice (e.units.reporting z) (.purge h .stale (f.units.head h).gateSeq (f.units.head h).frozen))
    due e1 (hdue ▸ hnd) (fun h hm f hf => by
      simp only [hf, hh h hm]
      rfl)
  have hsp : e1.spare = e.spare := by rw [he1]; exact Ev.purgeGates_spare due e
  refine ⟨kept, by rw [← hdue, ← hsp]; exact hk, fun h0 => ?_, ?_⟩
  · have hout : (e.stalePurges z).out = e1.out := by
      unfold Ev.stalePurges
      simp only
      rw [← hdue, ← he1]
      have := Ev.releaseNotices_silent (e.units.reporting z)
        (fun h f => .purge h .stale (f.units.head h).gateSeq (f.units.head h).frozen) due e1 (hsp.trans h0)
      split <;> exact this
    rw [hout, he1, Ev.purgeGates_length, ← hdue]
  rw [← hdue]
  obtain ⟨l, hl⟩ : ∃ l, l = due.map fun h => if kept h then Act.notice (e.units.reporting z)
    (.purge h .stale ((e.units.head h).gateSeq + 1) (e.units.head h).frozen) else .lost (e.units.reporting z) := ⟨_, rfl⟩
  rw [← hl] at d2 ⊢
  have d3 := d1.trans (f := fun v => (v, l)) (fun _ _ => rfl) d2
  have hg : (due.flatMap fun h => [Act.write ⟨BitVec.ofNat 20 (e.units.base .gate + h.val),
      gateWord (.reject .stale) 0 ((e.units.head h).gateSeq + 1)⟩]) = due.map fun h => .write (e.units.purgeEntry h .stale) :=
    List.map_eq_flatMap.symm
  rw [hg] at d3
  unfold Ev.stalePurges
  simp only
  rw [← hdue, ← he1]
  split
  · exact d3
  · exact d3.aside

/-- A release of a side's oldest order (R121). -/
theorem doRelease (side : Side) (z : Zone) (o : OrderRec) (rest : List OrderRec)
    (hz : e.units.binding side = some z) (hq : (e.units.orders.get side).queue = o :: rest) (hn : o.heads.Nodup) :
    ∃ kept : Fin 32 → Bool,
      (4 * ((e.units.setZone z (e.units.zones.get z).effect).staleAt z o.heads).length ≤ e.spare → ∀ h, kept h = true) ∧
      (e.spare = 0 → (e.doRelease side).out.length = e.out.length + o.heads.length +
          ((e.units.setZone z (e.units.zones.get z).effect).staleAt z o.heads).length ∧
        (e.doRelease side).required =
          (if (e.units.setZone z (e.units.zones.get z).effect).staleAt z o.heads = [] then e.required
           else e.required.set (e.units.reporting z) true) ∧
        ∀ x, x ∈ (e.doRelease side).out →
          x ∈ e.out ∨ ∃ h : Fin 32, x.addr = BitVec.ofNat 20 (e.units.base .gate + h.val)) ∧
      e.Does (e.doRelease side) (e.units.release side z o kept) := by
  -- the staged blocks take effect
  obtain ⟨u2, hu2⟩ : ∃ u2, u2 = (e.units.setOrder side { e.units.orders.get side with queue := rest }.effect).setZone z
      (e.units.zones.get z).effect := ⟨_, rfl⟩
  obtain ⟨e2, he2⟩ : ∃ e2, e2 = ((e.modOrder side fun q => { q with queue := rest }).sideEffect side).zoneEffect z := ⟨_, rfl⟩
  have h2 : e2.units = u2 := by
    rw [he2, hu2]
    simp only [Ev.zoneEffect, Ev.sideEffect, Ev.modZone_units, Ev.modOrder_units, Units.setOrder_orders, PerSide.get_set,
      if_true, Units.setOrder_zones, Units.setOrder_twice]
  have d2 : e.Does e2 (u2, []) := by
    have : e2 = { e with units := u2 } := by rw [← h2, he2]; rfl
    rw [this, hu2]
    exact of_units rfl ⟨⟨rfl, rfl, rfl, rfl⟩, rfl, fun _ h => h⟩
  have hc2 : u2.config = e.units.config := by rw [hu2]; rfl
  have hh2 : ∀ h, u2.head h = e.units.head h := fun h => by rw [hu2]; rfl
  have hz2 : ∀ n, u2.zoneOf n = e.units.zoneOf n := fun n => by unfold Units.zoneOf; rw [hc2]
  have hr2 : ∀ n, u2.reporting n = e.units.reporting n := fun n => by unfold Units.reporting Units.binding; rw [hc2]
  have hp2 : ∀ h, u2.purgeEntry h .stale = e.units.purgeEntry h .stale := fun h => by
    unfold Units.purgeEntry Units.base; rw [hc2, hh2]
  -- the gates
  obtain ⟨e3, he3⟩ : ∃ e3, e3 = e2.openGates side (e2.units.zoneParams z).stagger o.heads 0 := ⟨_, rfl⟩
  have d3' := openGates side (e2.units.zoneParams z).stagger u2 o.heads 0 e2 hn (by rw [h2]) (fun h => by rw [h2])
  obtain ⟨l3, hl3⟩ : ∃ l : List Act, l = o.heads.zipIdx.map fun (h, i) => .write ⟨BitVec.ofNat 20 (e.units.base .gate + h.val),
      gateWord (.bag side) (i * (u2.zoneParams z).stagger) ((e.units.head h).gateSeq + 1)⟩ := ⟨_, rfl⟩
  have hb2 : u2.base .gate = e.units.base .gate := by unfold Units.base; rw [hc2]
  rw [← he3, h2] at d3'
  simp only [hh2, hb2] at d3'
  rw [← hl3] at d3'
  have d3 := d2.trans (Units.mapHeads_blind (fun h x => if h ∈ o.heads then Head.gated side x (u2.params h).gateLimit else x) l3)
    (by rw [h2]; exact d3')
  rw [Effect.then_nil] at d3
  obtain ⟨u3, hu3⟩ : ∃ u3, u3 = u2.mapHeads fun h x => if h ∈ o.heads then Head.gated side x (u2.params h).gateLimit else x := ⟨_, rfl⟩
  rw [← hu3] at d3
  have hh3 : ∀ h, u3.head h = if h ∈ o.heads then Head.gated side (e.units.head h) (u2.params h).gateLimit else e.units.head h :=
    fun h => by rw [hu3, Units.mapHeads_head, hh2]
  have hc3 : u3.config = e.units.config := by rw [hu3, Units.mapHeads_config, hc2]
  have hzs3 : u3.zones = u2.zones := by rw [hu3, Units.mapHeads_zones]
  have hz3 : ∀ n, u3.zoneOf n = e.units.zoneOf n := fun n => by unfold Units.zoneOf; rw [hc3]
  -- aging
  obtain ⟨e4, he4⟩ : ∃ e4, e4 = e3.ageZone z := ⟨_, rfl⟩
  obtain ⟨u4, hu4⟩ : ∃ u4, u4 = u3.mapHeads fun h x => if u3.readyIn z h then { x with age := min 255 (x.age + 1) } else x := ⟨_, rfl⟩
  have hri : ∀ h, e3.units.readyIn z h = u3.readyIn z h := fun h => by rw [d3.units]; rfl
  have d4' := ageZone (e := e3) z
  rw [← he4] at d4'
  simp only [hri] at d4'
  have d4 := d3.trans (Units.mapHeads_blind (fun h x => if u3.readyIn z h then { x with age := min 255 (x.age + 1) } else x) []) d4'
  unfold Effect.then at d4
  simp only [List.append_nil] at d4
  rw [← hu4] at d4
  have hh4 : ∀ h, u4.head h = if u3.readyIn z h then { u3.head h with age := min 255 ((u3.head h).age + 1) } else u3.head h :=
    fun h => by rw [hu4, Units.mapHeads_head]
  have hc4 : u4.config = e.units.config := by rw [hu4, Units.mapHeads_config, hc3]
  have hzs4 : u4.zones = u2.zones := by rw [hu4, Units.mapHeads_zones, hzs3]
  have hz4 : ∀ n, u4.zoneOf n = e.units.zoneOf n := fun n => by unfold Units.zoneOf; rw [hc4]
  have hr4 : u4.reporting z = e.units.reporting z := by unfold Units.reporting Units.binding; rw [hc4]
  have hp4 : ∀ h, u4.params h = u2.params h := fun h => Units.params_congr h (hc4.trans hc2.symm) fun y => by rw [hzs4]
  have hzp : ∀ v : Units, v.zones = u2.zones → v.zoneParams z = ((e.units.setZone z (e.units.zones.get z).effect).zoneParams z) := by
    intro v hv
    unfold Units.zoneParams
    rw [hv, hu2]
    simp
  -- the purges due
  obtain ⟨e5, he5⟩ : ∃ e5, e5 = e4.stalePurges z := ⟨_, rfl⟩
  obtain ⟨kept, hk, hol, d5'⟩ := stalePurges (e := e4) z
  rw [← he5] at d5'
  have x1 : e4.units.dueStale z = u4.dueStale z := by rw [d4.units]; rfl
  have x2 : ∀ h, e4.units.params h = u2.params h := fun h => by rw [d4.units]; exact hp4 h
  have x3 : ∀ h, e4.units.head h = u4.head h := fun h => by rw [d4.units]; rfl
  have x4 : e4.units.reporting z = e.units.reporting z := by rw [d4.units]; exact hr4
  have x5 : ∀ h ∈ u4.dueStale z, u4.head h = { e.units.head h with age := min 255 ((e.units.head h).age + 1) } ∧
      h ∉ o.heads := by
    intro h hd
    have : (u4.head h).state = .ready ∧ u4.zoneOf h.val = some z := by
      unfold Units.dueStale at hd
      simp only at hd
      split at hd
      · cases hd
      · simp [mem_allHeads, Units.readyIn] at hd; exact ⟨hd.1.2, hd.1.1⟩
    have hm : h ∉ o.heads := by
      intro c
      rw [hh4, hh3, if_pos c] at this
      have := this.1
      split at this <;> simp [Head.gated] at this
    refine ⟨?_, hm⟩
    have hr : u3.readyIn z h = true := by
      rw [hh4, hh3, if_neg hm] at this
      unfold Units.readyIn
      rw [hh3, if_neg hm, hz3, ← hz4, this.2]
      have := this.1
      split at this <;> simpa using this
    rw [hh4, if_pos hr, hh3, if_neg hm]
  have hdue : u4.dueStale z = (e.units.setZone z (e.units.zones.get z).effect).staleAt z o.heads := by
    unfold Units.dueStale Units.staleAt
    simp only [hzp u4 hzs4]
    by_cases h0 : ((e.units.setZone z (e.units.zones.get z).effect).zoneParams z).purgeAge = 0
    · simp [h0]
    · rw [if_neg h0]
      refine List.filter_congr fun h _ => ?_
      rw [Bool.eq_iff_iff]
      simp only [Bool.and_eq_true, decide_eq_true_eq]
      have hhd : (e.units.setZone z (e.units.zones.get z).effect).head h = e.units.head h := rfl
      have hzo : (e.units.setZone z (e.units.zones.get z).effect).zoneOf h.val = e.units.zoneOf h.val := rfl
      rw [hhd, hzo, hh4, hh3]
      unfold Units.readyIn
      rw [hz4, hz3, hh3, hh4, hh3]
      unfold Units.readyIn
      rw [hz3, hh3]
      by_cases hm : h ∈ o.heads
      · simp [hm, Head.gated]
      · simp only [hm, if_false, not_false_eq_true, true_and, ne_eq, h0, Bool.and_eq_true, decide_eq_true_eq]
        by_cases hc : e.units.zoneOf h.val = some z ∧ (e.units.head h).state = .ready
        · rw [if_pos hc]
          simp [hc]
        · rw [if_neg hc]
          constructor
          · rintro ⟨c, _⟩; exact absurd c hc
          · rintro ⟨c1, c2, _⟩; exact absurd ⟨c2, c1⟩ hc
  obtain ⟨stale, hstale⟩ : ∃ l, l = (e.units.setZone z (e.units.zones.get z).effect).staleAt z o.heads := ⟨_, rfl⟩
  rw [← hstale] at hdue
  rw [x1, x4, hdue] at d5'
  simp only [x2, x3] at d5'
  have hw : (stale.map fun h => Act.write (e4.units.purgeEntry h .stale)) = stale.map fun h => .write (e.units.purgeEntry h .stale) := by
    refine List.map_congr_left fun h hm => ?_
    rw [← hdue] at hm
    have : e4.units.purgeEntry h .stale = u4.purgeEntry h .stale := by rw [d4.units]; rfl
    rw [this]
    unfold Units.purgeEntry Units.base
    rw [hc4, (x5 h hm).1]
  have hnn : (stale.map fun h => if kept h = true then Act.notice (e.units.reporting z) (.purge h .stale ((u4.head h).gateSeq + 1)
      (u4.head h).frozen) else .lost (e.units.reporting z)) = stale.map fun h => if kept h = true then
        Act.notice (e.units.reporting z) (.purge h .stale ((e.units.head h).gateSeq + 1) (e.units.head h).frozen)
        else .lost (e.units.reporting z) := by
    refine List.map_congr_left fun h hm => ?_
    rw [← hdue] at hm
    rw [(x5 h hm).1]
  rw [hw, hnn] at d5'
  obtain ⟨l5, hl5⟩ : ∃ l : List Act, l = (stale.map fun h => .write (e.units.purgeEntry h .stale)) ++ stale.map fun h =>
    if kept h = true then Act.notice (e.units.reporting z) (.purge h .stale ((e.units.head h).gateSeq + 1) (e.units.head h).frozen)
        else .lost (e.units.reporting z) := ⟨_, rfl⟩
  rw [← hl5] at d5'
  have d5 := d4.trans (Units.mapHeads_blind (fun h x => if h ∈ stale then x.purged .stale (u2.params h).gateLimit else x) l5) d5'
  unfold Effect.then at d5
  simp only at d5
  obtain ⟨u5, hu5⟩ : ∃ u5, u5 = u4.mapHeads fun h x => if h ∈ stale then x.purged .stale (u2.params h).gateLimit else x := ⟨_, rfl⟩
  rw [← hu5] at d5
  have hzs5 : u5.zones = u2.zones := by rw [hu5, Units.mapHeads_zones, hzs4]
  -- rotation, and the release unit
  obtain ⟨e6, he6⟩ : ∃ e6, e6 = e5.rotate z := ⟨_, rfl⟩
  obtain ⟨zone, hzone⟩ : ∃ r, r = (e.units.zones.get z).effect := ⟨_, rfl⟩
  have hg2 : u2.zones.get z = zone := by rw [hu2, hzone]; simp
  have d6' : e5.Does e6 (e5.units.setZone z { zone with
      rotation := (zone.rotation + 1) % ((e.units.setZone z zone).zoneParams z).offer.length }, []) := by
    have hze : e5.units.zones = u2.zones := by rw [d5.units]; exact hzs5
    rw [he6]
    have : e5.rotate z = e5.modZone z fun r => { r with
      rotation := (r.rotation + 1) % ((e.units.setZone z zone).zoneParams z).offer.length } := by
      rw [hzone]
      unfold Ev.rotate
      simp only [hzp e5.units hze]
    rw [this]
    refine (modZone _).congr ?_
    rw [hze, hg2]
  have d6 := d5.trans (f := fun v => (v.setZone z { zone with
      rotation := (zone.rotation + 1) % ((e.units.setZone z zone).zoneParams z).offer.length }, [])) (fun _ _ => rfl) d6'
  have d7 := d6.trans (f := fun v => (v.setRelease side ((v.releases.get side).released o), [])) (fun _ _ => rfl)
    (modRelease (s := side) (fun r => r.released o) fun c => by cases c)
  unfold Effect.then at d7
  simp only [List.append_nil] at d7
  have hE : e.doRelease side = e6.modRelease side fun r => r.released o := by
    unfold Ev.doRelease
    rw [hq, hz]
    simp only
    rw [he6, he5, he4, he3, he2]
  rw [hE]
  have hsp : e4.spare = e.spare := by
    rw [he4, he3, he2]
    rw [Ev.ageZone_spare, Ev.openGates_spare]
    rfl
  refine ⟨kept, fun c => hk (by rw [x1, hdue, hsp, hstale]; exact c), fun h0 => ?_, d7.congr ?_⟩
  · have h1 : (e6.modRelease side fun r => r.released o).out = e5.out := by rw [he6]; rfl
    have h3 : e3.out.length = e.out.length + o.heads.length := by
      have := (Ev.openGates_eq side (e2.units.zoneParams z).stagger o.heads hn 0 e2).2
      rw [← he3] at this
      rw [this]
      have h2o : e2.out = e.out := by rw [he2]; rfl
      simp [h2o]
    have h4 : e4.out = e3.out := by rw [d4'.out]; rfl
    have g2 : e.GatesOnly e2 := .silent (by rw [he2]; rfl) (by rw [h2]; exact hc2) (by rw [he2]; rfl)
    have g4 : e.GatesOnly e4 := by
      rw [he4, he3]
      exact (g2.trans (.openGates side _ o.heads 0 e2)).trans (.ageZone _ z)
    obtain ⟨a1, a2⟩ := Ev.stalePurges_asks e4 z (hsp.trans h0)
    rw [x1, hdue, hstale, x4, g4.1, ← he5] at a1
    refine ⟨by rw [h1, he5, hol (hsp.trans h0), x1, hdue, h4, h3, hstale], ?_, fun x hx => ?_⟩
    · have : (e6.modRelease side fun r => r.released o).required = e5.required := by rw [he6]; rfl
      rw [this, a1]
    · rw [h1, he5] at hx
      rcases a2 x hx with c | ⟨h, c⟩
      · exact g4.2.2 x c
      · refine .inr ⟨h, c.trans ?_⟩
        unfold Units.base
        rw [g4.2.1]
  have hu2p : ∀ h, u2.params h = (e.units.setZone z zone).params h := fun h => by rw [hu2, hzone]; rfl
  have hst : (e.units.setZone z zone).staleAt z o.heads = stale := by rw [hstale, hzone]
  have hl3' : l3 = o.heads.zipIdx.map fun (h, i) => .write ⟨BitVec.ofNat 20 (e.units.base .gate + h.val),
      gateWord (.bag side) (i * ((e.units.setZone z zone).zoneParams z).stagger) ((e.units.head h).gateSeq + 1)⟩ := by
    rw [hl3, hzp u2 rfl, hzone]
  have hqt : { e.units.orders.get side with queue := (e.units.orders.get side).queue.tail } =
      { e.units.orders.get side with queue := rest } := by rw [hq]; rfl
  unfold Units.release
  simp only [← hzone]
  rw [hst, ← hl3', hqt]
  refine Prod.ext ?_ (by simp only [hl5, List.append_assoc])
  simp only
  have h5 : u5 = ((e.units.mapHeads fun h x =>
      if h ∈ o.heads then
        { x with
          state := .discharging (.bag side), retryUsed := false, gateSeq := x.gateSeq + 1
          timer := .running .gate ((e.units.setZone z zone).params h).gateLimit }
      else if x.state = .ready ∧ e.units.zoneOf h.val = some z then
        if h ∈ stale then ({ x with age := min 255 (x.age + 1) } : Head).purged .stale ((e.units.setZone z zone).params h).gateLimit
        else { x with age := min 255 (x.age + 1) }
      else x).setZone z zone).setOrder side { e.units.orders.get side with queue := rest }.effect := by
    refine Units.ext_head (fun h => ?_) ?_
    · rw [hu5, Units.mapHeads_head, hh4, hh3]
      have hri3 : u3.readyIn z h = true ↔ h ∉ o.heads ∧ (e.units.head h).state = .ready ∧ e.units.zoneOf h.val = some z := by
        unfold Units.readyIn
        rw [hz3, hh3]
        by_cases hm : h ∈ o.heads
        · simp [hm, Head.gated]
        · simp [hm]; tauto
      have hsm : h ∈ stale → h ∉ o.heads ∧ (e.units.head h).state = .ready ∧ e.units.zoneOf h.val = some z := by
        intro c
        rw [hstale] at c
        unfold Units.staleAt at c
        simp only [List.mem_filter, decide_eq_true_eq] at c
        exact ⟨c.2.2.1, c.2.2.2.1, c.2.2.2.2.1⟩
      rw [Units.setOrder_head, Units.setZone_head, Units.mapHeads_head, ← hu2p]
      by_cases hm : h ∈ o.heads
      · have h1 : ¬ u3.readyIn z h = true := fun c => (hri3.mp c).1 hm
        have h2 : h ∉ stale := fun c => (hsm c).1 hm
        simp only [hm, h1, h2, if_true, if_false, Bool.false_eq_true]
        rfl
      · simp only [hm, if_false]
        by_cases hr : (e.units.head h).state = .ready ∧ e.units.zoneOf h.val = some z
        · rw [if_pos (hri3.mpr ⟨hm, hr⟩), if_pos hr]
        · rw [if_neg (fun c => hr (hri3.mp c).2), if_neg hr, if_neg (fun c => hr (hsm c).2)]
    · rw [hu5, hu4, hu3, hu2, hzone]
      unfold Units.mapHeads
      rfl
  rw [h5]
  have hX : ∀ f, (e.units.mapHeads f).releases = e.units.releases := fun f => by unfold Units.mapHeads; rfl
  generalize hY : e.units.mapHeads _ = Y
  have hY' : Y.releases = e.units.releases := by rw [← hY]; exact hX _
  have hswap : ∀ (q : OrderSide) (r : ZoneRec), ((Y.setZone z zone).setOrder side q).setZone z r =
      (Y.setZone z r).setOrder side q := fun q r => by
    rw [← Units.setZone_twice Y z zone r]
    rfl
  rw [hswap, Units.setOrder_releases, Units.setZone_releases, hY']
  rfl

/-- A release test that passes in an event which may take the release (R120). -/
theorem releaseTest (side : Side) (z : Zone) (o : OrderRec) (rest : List OrderRec) (hr : e.units.releasable side = true)
    (hp : (e.units.releases.get side).releasePending = false) (hy : e.release = true)
    (hz : e.units.binding side = some z) (hq : (e.units.orders.get side).queue = o :: rest) (hn : o.heads.Nodup) :
    ∃ kept, e.Does (e.releaseTest side) (e.units.release side z o kept) := by
  obtain ⟨kept, -, -, d⟩ := doRelease side z o rest hz hq hn
  refine ⟨kept, ?_⟩
  unfold Ev.releaseTest
  rw [hr, hp, hy]
  exact d

/-- A mark that completes a dump with a request latched and an order queued: the release follows (R120, R128). -/
theorem markDump_release (side : Side) (h : Fin 32) (m : Mark) (z : Zone) (o : OrderRec)
    (hr : e.units.releaseFollows side h m z o) (hp : (e.units.releases.get side).releasePending = false)
    (hy : e.release = true) :
    ∃ kept, e.Does (e.markDump side h m) ((e.units.markDump side h m).then fun u => u.release side z o kept) := by
  obtain ⟨ha, hl, hq, hz, hn, hs, d, hd, hc⟩ := hr
  obtain ⟨rest, hq⟩ := List.head?_eq_some_iff.1 hq
  rcases markDump_cases (e := e) side h m with ⟨-, c⟩ | ⟨f, d2, hM, -⟩
  · rw [c d hd] at hc; cases hc
  · have hu : f.units = (e.units.setRelease side { e.units.releases.get side with
        dumps := dumpsAfter h m (e.units.releases.get side).dumps }).withNotices f.units.notices := by
      have := d2.units
      rw [this]
      rfl
    have h2 : f.units.releases.get side = { e.units.releases.get side with
        dumps := dumpsAfter h m (e.units.releases.get side).dumps } := by rw [hu]; simp [Units.withNotices]
    have h3 : f.units.orders = e.units.orders := by rw [hu]; rfl
    have h4 : f.units.active = e.units.active := by rw [hu]; rfl
    have h5 : f.units.binding side = e.units.binding side := by rw [hu]; rfl
    have hlen := dumpsAfter_done (h := h) (m := m) _ hd hc
    obtain ⟨kept, d3⟩ := releaseTest (e := f) side z o rest (by
      unfold Units.releasable
      rw [h2, h3, h4, hq, ha]
      simp only [hl, List.isEmpty_cons, Bool.and_self, Bool.not_false, Bool.true_and, decide_eq_true_eq]
      omega) (by rw [h2]; exact hp) (d2.release.trans hy) (h5.trans hz) (by rw [h3]; exact hq) hn
    refine ⟨kept, ?_⟩
    rw [hM]
    exact d2.trans (Units.release_blind side z o kept) d3

/-- Entry to OUT of a head whose mark completes a dump, a release following (R22, R120, R127, R128). -/
theorem enterOut_release (h : Fin 32) (side : Side) (z : Zone) (o : OrderRec)
    (h256 : (e.units.head h).health = 256) (hst : (e.units.head h).state = .discharging (.bag side))
    (hr : e.units.releaseFollows side h .unconfirmed z o) (hp : (e.units.releases.get side).releasePending = false)
    (hy : e.release = true) :
    ∃ kept, e.Does (e.enterOut h) (e.units.outReleasing h side z o kept) := by
  let y : Head := { e.units.head h with state := .out, timer := .stopped, frozen := none, bucket := none }
  have hyo : y.unfed = (e.units.head h).outed := by
    show _ = { (e.units.head h).unfed with state := .out, timer := .stopped, frozen := none, bucket := none, health := 256 }
    simp only [y, Head.unfed, h256]
  have d1 : e.Does (e.modHead h fun x => { x with state := .out, timer := .stopped, frozen := none, bucket := none })
      (e.units.setHead h y, []) := modHead _
  obtain ⟨e1, he1⟩ : ∃ e1, e1 = e.modHead h fun x => { x with state := .out, timer := .stopped, frozen := none, bucket := none } :=
    ⟨_, rfl⟩
  rw [← he1] at d1
  have hu1 : e1.units = e.units.setHead h y := by rw [he1]; rfl
  obtain ⟨kept, d2⟩ := markDump_release (e := e1) side h .unconfirmed z o (by rw [hu1]; exact hr) (by rw [hu1]; exact hp)
    (d1.release.trans hy)
  refine ⟨kept, ?_⟩
  have d3 := d1.trans (Effect.then_blind (Units.markDump_blind side h .unconfirmed) (Units.release_blind side z o kept)) d2
  obtain ⟨e2, he2⟩ : ∃ e2, e2 = e1.markDump side h .unconfirmed := ⟨_, rfl⟩
  rw [← he2] at d3
  have d4 := (d3.trans (f := fun u => (u, [.flag (u.reportingHead h) .headOut])) (fun _ _ => rfl) (setFlag _ _)).trans
    (f := fun u => (u.setHead h (u.head h).unfed, [.write (u.feedEntry h 0 0 ((u.head h).feedSeq + 1))])) (fun _ _ => rfl)
    (feedStop h)
  have hE : e.enterOut h = (e2.setFlag (e2.units.reportingHead h) .headOut).feedStop h := by
    unfold Ev.enterOut
    simp only [hst]
    rw [he2, he1]
  rw [hE]
  refine d4.congr ?_
  exact Units.outReleasing_eq e.units h side z o kept y hyo rfl

/-- A raise to 256 of a head whose mark completes a dump, a release following (R45, R49). -/
theorem raiseHealth_release (h : Fin 32) (k : Nat) (c : HealthCause) (b : Bool) (side : Side) (z : Zone) (o : OrderRec)
    (hk : 256 ≤ (e.units.head h).health + k) (hst : (e.units.head h).state = .discharging (.bag side))
    (hr : e.units.releaseFollows side h .unconfirmed z o) (hp : (e.units.releases.get side).releasePending = false)
    (hy : e.release = true) :
    ∃ kept, e.Does (e.raiseHealth h k c b) ((e.units.count h 256 c).then fun v => v.outReleasing h side z o kept) := by
  have d1 := setHealth (e := e) h 256 c
  obtain ⟨e1, he1⟩ : ∃ e1, e1 = e.setHealth h 256 c := ⟨_, rfl⟩
  rw [← he1] at d1
  have hh : e1.units.head h = { e.units.head h with health := 256 } := by rw [he1, Ev.setHealth_head]
  have hu : e1.units = (e.units.setHead h { e.units.head h with health := 256 }).withNotices e1.units.notices := by
    have := d1.units
    rw [this]
    rfl
  obtain ⟨kept, d2⟩ := enterOut_release (e := e1) h side z o (by rw [hh]) (by rw [hh]; exact hst) (by rw [hu]; exact hr)
    (by rw [hu]; exact hp) (d1.release.trans hy)
  have hE : e.raiseHealth h k c b = e1.enterOut h := by
    have ho : Config.healthOut = 256 := rfl
    unfold Ev.raiseHealth
    simp only [ho]
    rw [if_neg (by rw [hst]; simp), if_pos (by omega), he1]
    congr 1
    congr 1
    omega
  refine ⟨kept, ?_⟩
  rw [hE]
  exact d1.trans (fun _ _ => rfl) d2

end Ev.Does
end Sys2Proof.Machine
end

