-- ==== Sys2Proof/Laws/Outcomes.lean ====
section
/-! SUPPORT. The effects of reports, START, drain complete and the expiries (Safety.lean) are what those events do: one
lemma for each operation, citing the effect that the rule gives. -/

namespace Sys2Proof.Machine

/-! ### Blind effects -/

theorem Units.lower_blind (h : Fin 32) (c : HealthCause) : Blind fun u => u.lower h c := fun _ _ => rfl

theorem Units.setHead_blind (h : Fin 32) (f : Units → Head) (l : List Act) (hf : ∀ u n, f (u.withNotices n) = f u) :
    Blind fun u => (u.setHead h (f u), l) := fun u n => by
  simp only [hf]
  rfl

theorem Units.confirm_blind (h : Fin 32) : Blind fun u => u.confirm h := by
  intro u n
  show Units.confirm (u.withNotices n) h = ((u.confirm h).1.withNotices n, (u.confirm h).2)
  unfold Units.confirm
  simp only [Units.withNotices_head]
  cases (u.head h).state with
  | discharging d =>
    cases d with
    | bag side => rfl
    | reject r => cases r <;> rfl
  | _ => rfl

theorem Units.emptyPool_blind (h : Fin 32) : Blind fun u => u.emptyPool h := fun _ _ => rfl

theorem Units.dropIn_blind (h : Fin 32) (c : CycleState) : Blind fun u => u.dropIn h c := by
  have hd := Effect.then_blind (Units.disturb_blind h) (Units.emptyPool_blind h)
  intro u n
  cases c with
  | settling | ready | claimed => exact hd u n
  | stopped =>
    show (if (u.head h).pool.isSome then (u.withNotices n).emptyPool h else (u.withNotices n).disturb h) =
      ((if (u.head h).pool.isSome then u.emptyPool h else u.disturb h).1.withNotices n,
        (if (u.head h).pool.isSome then u.emptyPool h else u.disturb h).2)
    cases (u.head h).pool with
    | none => exact Units.disturb_blind h u n
    | some f => rfl
  | _ => rfl

theorem Units.dropPool_blind (h : Fin 32) : Blind fun u => u.dropPool h := fun u n =>
  Effect.then_blind (Units.dropIn_blind h (u.head h).state) (Units.feed_blind h) u n

theorem Units.partChanged_blind : Blind Units.partChanged := fun _ _ => rfl

theorem Units.drainEnd_blind : Blind Units.drainEnd := by
  intro u n
  unfold Units.drainEnd
  have h1 : (u.withNotices n).part = u.part := rfl
  have h2 : (u.withNotices n).drained = u.drained := rfl
  rw [h1, h2]
  split
  · rfl
  · rfl

theorem Units.heardFrom_blind (h : Fin 32) : Blind fun u => (u.heardFrom h, []) := by
  intro u n
  show ((u.withNotices n).heardFrom h, _) = ((u.heardFrom h).withNotices n, _)
  unfold Units.heardFrom
  have h1 : (u.withNotices n).active = u.active := rfl
  simp only [h1, Units.withNotices_head]
  split <;> rfl

theorem Units.startAt_blind (h : Fin 32) : Blind fun u => u.startAt h := by
  intro u n
  show Units.startAt (u.withNotices n) h = ((u.startAt h).1.withNotices n, (u.startAt h).2)
  unfold Units.startAt
  have hp : (u.withNotices n).params h = u.params h := rfl
  simp only [Units.withNotices_head, hp]
  split
  · rfl
  · split
    · exact Effect.then_blind (Units.purge_blind h .start (u.head h).bucketWeight) (Units.feed_blind h) u n
    · exact Effect.then_blind (f := fun u => (u.setHead h _, [])) (fun _ _ => rfl) (Units.feed_blind h) u n

theorem Units.reissue_blind (h : Fin 32) (d : Destination) : Blind fun u => u.reissue h d := fun _ _ => rfl

theorem Units.setStage_blind : Blind fun u => (u.setStage none, []) := fun _ _ => rfl

theorem Units.weighed_blind (h : Fin 32) (w : Int) : Blind fun u => (u.weighed h w, []) := fun _ _ => rfl

theorem Units.learned_blind (h : Fin 32) (net : Int) : Blind fun u => (u.learned h net, []) := fun _ _ => rfl

theorem Units.settleOff_blind (h : Fin 32) (net d : Int) (c : TrimCause) (r : PurgeReason) :
    Blind fun u => u.settleOff h net d c r := by
  intro u n
  show Units.settleOff (u.withNotices n) h net d c r = ((u.settleOff h net d c r).1.withNotices n, (u.settleOff h net d c r).2)
  unfold Units.settleOff
  have hz : (u.withNotices n).zoneOf h.val = u.zoneOf h.val := rfl
  have hl : (u.withNotices n).learned h net = (u.learned h net).withNotices n := rfl
  rw [hz, hl]
  cases u.zoneOf h.val with
  | none => rfl
  | some z => exact Effect.then_blind (Units.trim_blind z d c h) (Units.purge_blind h r (some net)) (u.learned h net) n

theorem Units.settleReady_blind (h : Fin 32) (net : Int) : Blind fun u => u.settleReady h net := fun _ _ => rfl

theorem Units.settle_blind (h : Fin 32) (net : Int) : Blind fun u => u.settle h net := by
  intro u n
  show Units.settle (u.withNotices n) h net = ((u.settle h net).1.withNotices n, (u.settle h net).2)
  unfold Units.settle
  by_cases h1 : (u.params h).ceiling < net
  · rw [if_pos h1]
    exact (if_pos h1).trans (Units.settleOff_blind h net _ _ _ u n)
  · rw [if_neg h1]
    refine (if_neg h1).trans ?_
    by_cases h2 : net < (u.params h).minFill
    · rw [if_pos h2]
      exact (if_pos h2).trans (Units.settleOff_blind h net _ _ _ u n)
    · rw [if_neg h2]
      refine (if_neg h2).trans ?_
      by_cases hb : levelOf (u.head h).health = .barred
      · rw [if_pos hb]
        exact (if_pos hb).trans (Effect.then_blind (Units.settleReady_blind h net) (Units.purge_blind h .barred (some net)) u n)
      · rw [if_neg hb]
        exact (if_neg hb).trans (Units.settleReady_blind h net u n)

/-- The learned yield, with the bucket feed record used up (R62). -/
theorem Head.learn_eq (x : Head) (net : Int) : x.learn net = { x with
    yield := match x.bucket with
      | none => x.yield
      | some ticks => learnedYield x.yield net ticks
    bucket := none } := by
  obtain ⟨_, _, _, _, _, _, _, _, _, b, _⟩ := x
  cases b <;> rfl

namespace Ev.Does

variable {e e' : Ev} {r : Effect}

/-- A lowering of the counter (R46). -/
theorem lowerHealth (h : Fin 32) (c : HealthCause) : e.Does (e.lowerHealth h c) (e.units.lower h c) := by
  unfold Ev.lowerHealth Units.lower
  simp only
  split
  · rename_i h0
    have : e.units.count h ((e.units.head h).health - 1) c = (e.units, []) := by
      unfold Units.count Units.levelActs
      rw [h0]
      simp only [Nat.zero_sub, if_true]
      have : ({ e.units.head h with health := 0 } : Head) = e.units.head h := by rw [← h0]
      rw [this, Units.setHead_head_self]
    rw [this]
    exact refl
  · exact setHealth h _ c

theorem enterWatched (h : Fin 32) (c : CycleState) :
    e.Does (e.enterWatched h c) (e.units.setHead h ((e.units.head h).watched c (e.units.params h).silenceLimit), []) := by
  have : e.enterWatched h c = { e with units := (e.enterWatched h c).units } := rfl
  rw [this, Ev.enterWatched_units]
  exact of_units rfl ⟨⟨rfl, rfl, rfl, rfl⟩, rfl, fun _ h => h⟩

theorem startTimer (h : Fin 32) (k : TimerKind) :
    e.Does (e.startTimer h k) (e.units.setHead h { e.units.head h with timer := .running k ((e.units.params h).limit k) }, []) :=
  modHead _

/-- A confirmed head leaves DISCHARGING (R21). -/
theorem leaveDischarge (h : Fin 32) : e.Does (e.leaveDischarge h) (e.units.setHead h
    (if e.units.part = .running then
      ({ e.units.head h with frozen := none, retryUsed := false } : Head).watched .empty (e.units.params h).silenceLimit
     else { e.units.head h with frozen := none, retryUsed := false, state := .stopped, timer := .stopped }), []) := by
  unfold Ev.leaveDischarge
  simp only
  have d1 : e.Does (e.modHead h fun x => { x with frozen := none, retryUsed := false, timer := .stopped }) _ := modHead _
  have hp : (e.modHead h fun x => { x with frozen := none, retryUsed := false, timer := .stopped }).units.part = e.units.part := rfl
  rw [hp]
  split
  · refine (d1.trans (f := fun u => (u.setHead h ((u.head h).watched .empty (u.params h).silenceLimit), [])) (fun _ _ => rfl)
      (enterWatched h .empty)).congr ?_
    unfold Effect.then
    simp only [Units.head_setHead, if_true, Units.setHead_twice, Units.setHead_params, List.append_nil]
    rfl
  · refine (d1.trans (f := fun u => (u.setHead h { u.head h with state := .stopped }, [])) (fun _ _ => rfl)
      (modHead _)).congr ?_
    unfold Effect.then
    simp only [Units.head_setHead, if_true, Units.setHead_twice, List.append_nil]

/-- GATE-CLOSED with the head's gate sequence (R21). -/
theorem gateClosed (h : Fin 32) (echo : BitVec 4) (he : (e.units.head h).gateSeq = echo)
    (hr : ∀ side, (e.units.head h).state = .discharging (.bag side) → e.units.unreleased side h .confirmed) :
    e.Does (e.gateClosed h echo) (e.units.confirm h) := by
  unfold Ev.gateClosed Units.confirm
  simp only
  cases hs : (e.units.head h).state with
  | discharging d =>
    simp only
    rw [if_neg (fun c => c he)]
    have d1 := leaveDischarge (e := e) h
    cases d with
    | bag side =>
      simp only
      rw [if_neg (by simp)]
      have d2 := d1.trans (Units.lower_blind h .confirm) (lowerHealth h .confirm)
      refine (d2.trans (Units.markDump_blind side h .confirmed) (markDump side h .confirmed ?_)).congr rfl
      rw [d2.units]
      exact hr side hs
    | reject r =>
      cases r with
      | recover => exact d1
      | _ => exact (d1.trans (Units.lower_blind h .confirm) (lowerHealth h .confirm)).congr rfl
  | _ => exact refl

/-- Any other echo leaves the discharge as it was (R38). -/
theorem gateClosed_other (h : Fin 32) (echo : BitVec 4)
    (he : (e.units.head h).gateSeq ≠ echo ∨ (e.units.head h).state.name ≠ .discharging) :
    e.Does (e.gateClosed h echo) (e.units, []) := by
  unfold Ev.gateClosed
  simp only
  cases hs : (e.units.head h).state with
  | discharging d =>
    simp only
    rw [if_pos (by rcases he with he | he; exact he; rw [hs] at he; exact absurd rfl he)]
    exact refl
  | _ => exact refl

/-- POOL-DROP (R14). -/
theorem poolDrop (h : Fin 32) : e.Does (e.poolDrop h) (e.units.dropPool h) := by
  have hd : (∀ side, (e.units.head h).state ≠ .discharging (.bag side)) → e.Does (e.disturb h) (e.units.disturb h) :=
    fun hn => disturb h fun _ side c => absurd c (hn side)
  have hp : ∀ f : Ev, f.Does (f.modHead h fun x => { x with pool := none }) (f.units.emptyPool h) := fun f => modHead _
  have hdp : (∀ side, (e.units.head h).state ≠ .discharging (.bag side)) → e.Does
      ((e.disturb h).modHead h fun x => { x with pool := none })
      ((e.units.disturb h).then fun v => v.emptyPool h) := fun hn => (hd hn).trans (Units.emptyPool_blind h) (hp _)
  have hfeed : ∀ {e' : Ev} {r : Effect}, e.Does e' r → e.Does (e'.feedIssue h) (r.then fun v => v.feed h) := fun d =>
    d.trans (Units.feed_blind h) (feedIssue h)
  unfold Ev.poolDrop Units.dropPool
  simp only
  refine hfeed ?_
  cases hs : (e.units.head h).state with
  | empty =>
    refine Ev.Does.congr ((modHead fun x => { x with bucket := x.pool.map Feed.ticks, pool := none, state := .settling }).trans
      (f := fun u => (u.setHead h { u.head h with timer := .running .settle ((u.params h).limit .settle) }, []))
      (fun _ _ => rfl) (startTimer h .settle)) ?_
    unfold Effect.then
    simp only [Units.head_setHead, if_true, Units.setHead_twice, List.append_nil]
    rfl
  | settling => exact hdp (by rw [hs]; intro _ c; cases c)
  | ready => exact hdp (by rw [hs]; intro _ c; cases c)
  | claimed _ _ => exact hdp (by rw [hs]; intro _ c; cases c)
  | stopped =>
    have hd := hd (by rw [hs]; intro _ c; cases c)
    show e.Does _ (if (e.units.head h).pool.isSome then e.units.emptyPool h else e.units.disturb h)
    simp only
    split
    · exact hp e
    · exact hd
  | discharging d => exact hp e
  | out => exact refl
  | disabled => exact refl

/-- The learned yield (R62). -/
theorem learn (h : Fin 32) (net : Int) : e.Does (e.modHead h fun x => x.learn net) (e.units.learned h net, []) := by
  refine (modHead _).congr ?_
  rw [Head.learn_eq]
  rfl

/-- The settle outcomes OVER and UNDER (R15). -/
theorem settlePurge (h : Fin 32) (net delta : Int) (c : TrimCause) (r : PurgeReason) :
    e.Does (e.settlePurge h net delta c r) (e.units.settleOff h net delta c r) := by
  have d1 := learn (e := e) h net
  unfold Ev.settlePurge Units.settleOff
  simp only
  have hz : (e.modHead h fun x => x.learn net).units.zoneOf h.val = e.units.zoneOf h.val := rfl
  rw [hz]
  cases e.units.zoneOf h.val with
  | none => exact (d1.trans (Units.purge_blind h r (some net)) (purge h r (some net))).congr rfl
  | some z =>
    exact ((d1.trans (Units.trim_blind z delta c h) (changeTrim z delta c h)).trans (Units.purge_blind h r (some net))
      (purge h r (some net))).congr rfl

/-- The settle outcome (R15, R16). -/
theorem settle (h : Fin 32) (net : Int) : e.Does (e.settle h net) (e.units.settle h net) := by
  unfold Ev.settle Units.settle
  simp only
  split
  · exact settlePurge _ _ _ _ _
  · split
    · exact settlePurge _ _ _ _ _
    · unfold Ev.settleReady
      simp only
      have d2 := (learn (e := e) h net).trans (Units.lower_blind h .fill) (lowerHealth h .fill)
      have d3 := d2.trans (f := fun u => (u.setHead h { u.head h with frozen := some net, age := 0 }, []))
        (fun _ _ => rfl) (modHead fun x => { x with frozen := some net, age := 0 })
      have d4 := d3.trans (f := fun u => (u.setHead h ((u.head h).watched .ready (u.params h).silenceLimit), []))
        (fun _ _ => rfl) (enterWatched h .ready)
      have d5 : e.Does _ (e.units.settleReady h net) := d4.congr (by
        unfold Units.settleReady Effect.then
        simp only [Units.head_setHead, if_true, Units.setHead_twice, Units.setHead_params, List.append_nil, List.nil_append]
        rfl)
      split
      · exact d5.trans (Units.purge_blind h _ _) (purge h .barred (some net))
      · exact d5

/-- A change of the units that touches no notice unit and nothing loaded. -/
theorem mod (f : Units → Units) (hn : (f e.units).notices = e.units.notices) (hl : e.units.Steady (f e.units)) :
    e.Does (e.mod f) (f e.units, []) := of_units hn hl

/-- A commit or a report that has been decided empties its stage (R27). -/
theorem emptyStage : e.Does (e.mod fun u => u.setStage none) (e.units.setStage none, []) :=
  mod _ rfl ⟨⟨rfl, rfl, rfl, rfl⟩, rfl, fun _ h => h⟩

/-- A part-state change (R158). -/
theorem partChange : e.Does e.partChange e.units.partChanged := by
  have d1 : e.Does (e.mod fun u => { u with changeCount := u.changeCount + 1 }) _ := mod _ rfl ⟨⟨rfl, rfl, rfl, rfl⟩, rfl, fun _ h => h⟩
  have d2 := d1.trans (f := fun u => (u, [.write ⟨u.statusAddr, statusWord u.part u.cbase u.oneck u.changeCount⟩]))
    (fun _ _ => rfl) (push _ _)
  have d3 := d2.trans (f := fun u => (u, [.flag .a .partState])) (fun _ _ => rfl) (setFlag .a .partState)
  exact (d3.trans (f := fun u => (u, [.flag .b .partState])) (fun _ _ => rfl) (setFlag .b .partState)).congr rfl

/-- Heads that stop (R23). -/
theorem stopHeads (hs : List (Fin 32)) (hn : hs.Nodup) :
    e.Does (e.eachHead hs fun h e => e.stopHead h) (e.units.mapHeads fun h x => if h ∈ hs then x.halted else x, []) :=
  eachHead_mod (fun _ x => x.halted) _ (fun _ _ => modHead _) hs hn

end Ev.Does

/-- Latches CLEAR and every staged block in effect (R78, R117, R119). -/
def Units.blocksTaken (u : Units) : Units :=
  { u with
    releases := ⟨{ u.releases.a with latch := false, releasePending := false },
      { u.releases.b with latch := false, releasePending := false }⟩
    orders := ⟨u.orders.a.effect, u.orders.b.effect⟩
    zones := ⟨u.zones.z0.effect, u.zones.z1.effect⟩ }

namespace Ev.Does

variable {e e' : Ev} {r : Effect}

theorem blocksTaken : e.Does e.clearLatches.allEffects (e.units.blocksTaken, []) := by
  have : e.clearLatches.allEffects = { e with units := e.units.blocksTaken } := by
    unfold Ev.clearLatches Ev.allEffects Ev.sideEffect Ev.zoneEffect Ev.modRelease Ev.modOrder Ev.modZone Units.blocksTaken
      Units.setRelease Units.setOrder Units.setZone
    simp only [PerSide.set, PerSide.get, PerZone.set, PerZone.get]
  rw [this]
  exact of_units rfl ⟨⟨rfl, rfl, rfl, rfl⟩, rfl, fun side c => by cases side <;> cases c⟩

/-- The drain test (R156). -/
theorem drainTest : e.Does e.drainTest e.units.drainEnd := by
  unfold Ev.drainTest Units.drainEnd
  by_cases hd : e.units.part = .draining ∧ e.units.drained = true
  · rw [if_pos hd, if_pos (by simp [hd.1, hd.2])]
    unfold Ev.drainComplete
    simp only
    have d1 : e.Does (e.mod fun u => u.setPart .stopped) _ := mod _ rfl ⟨⟨rfl, rfl, rfl, rfl⟩, rfl, fun _ h => h⟩
    have d2 := d1.trans (Units.mapHeads_blind (fun h x =>
      if h ∈ allHeads.filter (fun h => stopsAtDrain (e.units.head h).state.name) then x.halted else x) [])
      (stopHeads (e := e.mod fun u => u.setPart .stopped) (allHeads.filter fun h => stopsAtDrain (e.units.head h).state.name)
        (allHeads_nodup.filter _))
    have d3 := d2.trans (f := fun u => (u.blocksTaken, [])) (fun _ _ => rfl) blocksTaken
    refine (d3.trans Units.partChanged_blind partChange).congr ?_
    have hm : (e.units.mapHeads fun h x =>
        if h ∈ allHeads.filter (fun h => stopsAtDrain (e.units.head h).state.name) then x.halted else x) =
        e.units.mapHeads fun _ x => if stopsAtDrain x.state.name then x.halted else x :=
      Units.mapHeads_congr _ _ _ fun h => by simp [mem_allHeads]
    rw [← hm]
    rfl
  · rw [if_neg hd, if_neg (by simpa using hd)]
    exact refl

/-- Feeds stopped at a list of heads (R61, R157). -/
theorem feedStops (hs : List (Fin 32)) (hn : hs.Nodup) :
    e.Does (e.eachHead hs fun h e => e.feedStop h) (e.units.mapHeads fun h x => if h ∈ hs then x.unfed else x,
      hs.map fun h => .write (e.units.feedEntry h 0 0 ((e.units.head h).feedSeq + 1))) := by
  refine (eachHead (fun u => u.config = e.units.config) (fun u f h => (Units.mapHeads_config u f).trans h) (fun _ _ h => h)
    (fun _ x => x.unfed) (fun h x => [.write (e.units.feedEntry h 0 0 (x.feedSeq + 1))]) _ (fun h f hf => ?_) hs e rfl hn).congr ?_
  · refine (feedStop h).congr ?_
    have : ∀ n, f.units.feedEntry h 0 0 n = e.units.feedEntry h 0 0 n := fun n => by
      unfold Units.feedEntry Units.base; rw [hf]
    rw [this]
  · refine Prod.ext rfl ?_
    simp only
    induction hs with
    | nil => rfl
    | cons a rest ih => rw [List.flatMap_cons, List.map_cons, ih (List.nodup_cons.1 hn).2]; rfl

/-- A withdrawal by HALT (R114). -/
theorem withdrawHalt (s : Side) (o : OrderRec) : e.Does (e.withdraw s o .halt none)
    (e.units.setOrder s { e.units.orders.get s with
        queue := (e.units.orders.get s).queue.filter fun p => p.accept != o.accept },
      [.order s (.orderWithdrawn o.tag .halt none o.heads o.total), .flag s .orderEnded]) := by
  have d1 : e.Does (e.modOrder s fun q => { q with queue := q.queue.filter fun p => p.accept != o.accept }) _ := modOrder _
  have d2 := d1.trans (f := fun u => (u, [.order s (.orderWithdrawn o.tag .halt none o.heads o.total)])) (fun _ _ => rfl)
    (act (.order s (.orderWithdrawn o.tag .halt none o.heads o.total)))
  exact (d2.trans (f := fun u => (u, [.flag s .orderEnded])) (fun _ _ => rfl) (setFlag s .orderEnded)).congr rfl

/-- HALT at one side (R114). -/
theorem haltSide (s : Side) : e.Does (e.haltSide s)
    (e.units.setOrder s { e.units.orders.get s with queue := [] }, e.units.haltActs s) := by
  have key : ∀ (l : List OrderRec) (e : Ev), e.Does (l.foldl (fun e o => e.withdraw s o .halt none) e)
      (e.units.setOrder s { e.units.orders.get s with
          queue := (e.units.orders.get s).queue.filter fun p => l.all fun o => p.accept != o.accept },
        l.flatMap fun o => [.order s (.orderWithdrawn o.tag .halt none o.heads o.total), .flag s .orderEnded]) := by
    intro l
    induction l with
    | nil =>
      intro e
      refine refl.congr (Prod.ext ?_ rfl)
      have : (fun p : OrderRec => ([] : List OrderRec).all fun o => p.accept != o.accept) = fun _ => true := rfl
      simp only [this, List.filter_true]
      unfold Units.setOrder
      rw [PerSide.set_get]
    | cons o rest ih =>
      intro e
      rw [List.foldl_cons]
      refine ((withdrawHalt s o).trans (f := fun u => (u.setOrder s { u.orders.get s with
          queue := (u.orders.get s).queue.filter fun p => rest.all fun o => p.accept != o.accept },
        rest.flatMap fun o => [.order s (.orderWithdrawn o.tag .halt none o.heads o.total), .flag s .orderEnded]))
        (fun _ _ => rfl) (ih _)).congr ?_
      unfold Effect.then
      simp [Units.setOrder, List.filter_filter, Bool.and_comm]
  refine (key _ e).congr (Prod.ext ?_ rfl)
  simp only
  congr 2
  rw [List.filter_eq_nil_iff]
  intro p hp hc
  have := List.all_eq_true.mp hc p hp
  simp at this

/-- HALT (R157): both queues withdrawn, feeds stopped, heads STOPPED, latches CLEAR, staged blocks in effect. -/
theorem halt (h : e.units.active = true) : ∃ e', e.cmdHalt = (e', .done 0) ∧ e.Does e'
    ((Units.partChanged (((((e.units.setOrder .a { e.units.orders.get .a with queue := [] }).setOrder .b
        { e.units.orders.get .b with queue := [] }).mapHeads fun _ x =>
          let y := if feedsAtHalt x.state.name then x.unfed else x
          if stopsAtHalt x.state.name then y.halted else y).setPart .stopped).blocksTaken)).1,
      e.units.haltActs .a ++ e.units.haltActs .b ++
        ((allHeads.filter fun h => feedsAtHalt (e.units.head h).state.name).map fun h =>
          .write (e.units.feedEntry h 0 0 ((e.units.head h).feedSeq + 1))) ++
        [.write (e.units.statusEntry .stopped), .flag .a .partState, .flag .b .partState]) := by
  have d1 := (haltSide (e := e) .a)
  have d2 := d1.trans (f := fun u => (u.setOrder .b { u.orders.get .b with queue := [] }, u.haltActs .b)) (fun _ _ => rfl) (haltSide .b)
  obtain ⟨e2, hE2⟩ : ∃ e2, e2 = (e.haltSide .a).haltSide .b := ⟨_, rfl⟩
  rw [← hE2] at d2
  have hh : ∀ g, e2.units.head g = e.units.head g := fun g => by rw [d2.units]; rfl
  have hc : e2.units.config = e.units.config := d2.config
  have d3 := feedStops (e := e2) (allHeads.filter fun h => feedsAtHalt (e2.units.head h).state.name) (allHeads_nodup.filter _)
  have hfe : ∀ h n, e2.units.feedEntry h 0 0 n = e.units.feedEntry h 0 0 n := fun h n => by
    unfold Units.feedEntry Units.base; rw [hc]
  simp only [hh, hfe] at d3
  obtain ⟨hs, hhs⟩ : ∃ hs, hs = allHeads.filter fun h => feedsAtHalt (e.units.head h).state.name := ⟨_, rfl⟩
  rw [← hhs] at d3 ⊢
  obtain ⟨l, hl⟩ : ∃ l : List Act, l = hs.map fun h => .write (e.units.feedEntry h 0 0 ((e.units.head h).feedSeq + 1)) := ⟨_, rfl⟩
  rw [← hl] at d3 ⊢
  obtain ⟨e3, hE3⟩ : ∃ e3, e3 = e2.eachHead hs fun h e => e.feedStop h := ⟨_, rfl⟩
  rw [← hE3] at d3
  have d3' := d2.trans (Units.mapHeads_blind (fun h x => if h ∈ hs then x.unfed else x) l) d3
  obtain ⟨hs4, hhs4⟩ : ∃ hs, hs = allHeads.filter fun h => stopsAtHalt (e3.units.head h).state.name := ⟨_, rfl⟩
  have d4 := d3'.trans (Units.mapHeads_blind (fun h x => if h ∈ hs4 then x.halted else x) []) (stopHeads hs4 (by rw [hhs4]; exact allHeads_nodup.filter _))
  have d5 := d4.trans (f := fun u => (u.setPart .stopped, [])) (fun _ _ => rfl) (mod (fun u => u.setPart .stopped) rfl ⟨⟨rfl, rfl, rfl, rfl⟩, rfl, fun _ h => h⟩)
  have d6 := d5.trans (f := fun u => (u.blocksTaken, [])) (fun _ _ => rfl) blocksTaken
  have d7 := d6.trans Units.partChanged_blind partChange
  have hcmd : e.cmdHalt = ((((e3.eachHead hs4 fun h e => e.stopHead h).mod fun u => u.setPart .stopped).clearLatches.allEffects).partChange, .done 0) := by
    unfold Ev.cmdHalt
    rw [h, hhs4, hE3, hhs]
    simp only [Bool.not_true, Bool.false_eq_true, if_false]
    rw [← hE2]
    simp only [hh]
  refine ⟨_, hcmd, d7.congr ?_⟩
  have hf : ∀ (v : Units), (∀ k, v.head k = e.units.head k) → ((v.mapHeads fun h x => if h ∈ hs then x.unfed else x).mapHeads
      fun h x => if h ∈ hs4 then x.halted else x) = v.mapHeads fun _ x =>
        let y := if feedsAtHalt x.state.name then x.unfed else x
        if stopsAtHalt x.state.name then y.halted else y := by
    intro v hv
    rw [Units.mapHeads_twice]
    refine Units.mapHeads_congr _ _ _ fun k => ?_
    have h3 : e3.units.head k = if k ∈ hs then (e.units.head k).unfed else e.units.head k := by
      rw [d3.units, Units.withNotices_head, Units.mapHeads_head, hh]
    have m1 : k ∈ hs ↔ feedsAtHalt (e.units.head k).state.name = true := by rw [hhs]; simp [mem_allHeads]
    have m4 : k ∈ hs4 ↔ stopsAtHalt (e.units.head k).state.name = true := by
      rw [hhs4]
      have : (e3.units.head k).state = (e.units.head k).state := by rw [h3]; split <;> rfl
      simp [mem_allHeads, this]
    simp only [hv, m1, m4]
  have hv := hf (Units.setOrder (e.units.setOrder .a { e.units.orders.get .a with queue := [] }) .b
    { (e.units.setOrder .a { e.units.orders.get .a with queue := [] }).orders.get .b with queue := [] }) fun _ => rfl
  refine Prod.ext ?_ ?_
  · unfold Effect.then
    simp only
    rw [hv]
    rfl
  · unfold Effect.then
    simp only
    rw [hv]
    simp only [List.append_nil]
    have hb : (e.units.setOrder .a { e.units.orders.get .a with queue := [] }).haltActs .b = e.units.haltActs .b := rfl
    rw [hb]
    have hm : ∀ (v : Units) (f : Fin 32 → Head → Head), v.cbase = e.units.cbase → v.oneck = e.units.oneck →
        v.changeCount = e.units.changeCount → ((v.mapHeads f).setPart .stopped).blocksTaken.partChanged.2 =
          [.write (e.units.statusEntry .stopped), .flag .a .partState, .flag .b .partState] := by
      intro v f h1 h2 h3
      have hst : (v.mapHeads f).cbase = v.cbase ∧ (v.mapHeads f).oneck = v.oneck ∧ (v.mapHeads f).changeCount = v.changeCount := by
        unfold Units.mapHeads; exact ⟨rfl, rfl, rfl⟩
      generalize v.mapHeads f = w at hst
      rw [h1, h2, h3] at hst
      show [Act.write ((w.setPart .stopped).blocksTaken.statusEntry .stopped), _, _] = _
      unfold Units.statusEntry Units.statusAddr Units.controlBase
      have c1 : (w.setPart .stopped).blocksTaken.cbase = w.cbase := rfl
      have c2 : (w.setPart .stopped).blocksTaken.oneck = w.oneck := rfl
      have c3 : (w.setPart .stopped).blocksTaken.changeCount = w.changeCount := rfl
      rw [c1, c2, c3, hst.1, hst.2.1, hst.2.2]
    exact congrArg _ (hm (Units.setOrder (e.units.setOrder .a { e.units.orders.get .a with queue := [] }) .b
      { (e.units.setOrder .a { e.units.orders.get .a with queue := [] }).orders.get .b with queue := [] }) _ rfl rfl rfl)

/-- The SILENCE timer's restart at a taken report (R34). -/
theorem restartSilence (h : Fin 32) : e.Does (e.restartSilence h) (e.units.heardFrom h, []) := by
  unfold Ev.restartSilence Units.heardFrom
  simp only
  by_cases hc : e.units.active = true ∧ ((e.units.head h).state.name = .empty ∨ (e.units.head h).state.name = .ready ∨
      (e.units.head h).state.name = .claimed)
  · rw [if_pos hc, if_pos (by simpa [or_assoc] using hc)]
    exact startTimer h .silence
  · rw [if_neg hc, if_neg (by simpa [or_assoc] using hc)]
    exact refl

/-- START at one head (R13). -/
theorem startHead (h : Fin 32) : e.Does (e.startHead h) (e.units.startAt h) := by
  rw [Ev.startHead_eq]
  unfold Units.startAt
  simp only
  split
  · exact refl
  · split
    · exact (purge h _ _).trans (Units.feed_blind h) (feedIssue h)
    · exact (enterWatched h .empty).trans (Units.feed_blind h) (feedIssue h)

/-- An effect at each head of a list (R13). -/
theorem atEach {f : Units → Fin 32 → Effect} (hf : ∀ h, Blind fun u => f u h) (op : Fin 32 → Ev → Ev)
    (hop : ∀ h (e : Ev), e.Does (op h e) (f e.units h)) (hs : List (Fin 32)) : ∀ {e' : Ev} {r : Effect}, e.Does e' r →
    e.Does (e'.eachHead hs op) (r.atEach hs f) := by
  induction hs with
  | nil => exact fun d => d
  | cons g rest ih => exact fun d => ih (d.trans (hf g) (hop g _))

/-- The reissue at the first GATE expiry (R53). -/
theorem reissue (h : Fin 32) (d : Destination) :
    e.Does (((e.modHead h fun x => { x with gateSeq := x.gateSeq + 1, retryUsed := true }).gateCommand h d 0).startTimer h .gate)
      (e.units.reissue h d) := by
  have d1 : e.Does (e.modHead h fun x => { x with gateSeq := x.gateSeq + 1, retryUsed := true }) _ := modHead _
  have d2 := d1.trans (f := fun u => (u, [.write ⟨BitVec.ofNat 20 (u.base .gate + h.val), gateWord d 0 (u.head h).gateSeq⟩]))
    (fun _ _ => rfl) (push _ _)
  refine (d2.trans (f := fun u => (u.setHead h { u.head h with timer := .running .gate ((u.params h).limit .gate) }, []))
    (fun _ _ => rfl) (startTimer h .gate)).congr ?_
  unfold Effect.then Units.reissue
  simp only [Units.head_setHead, if_true, Units.setHead_twice, Units.setHead_params, List.append_nil, List.nil_append]
  rfl

end Ev.Does

/-! ### Expiries (R50 to R53, R156) -/

/-- An effect that waits for its head not to have gone OUT. -/
theorem unlessOut_blind (h : Fin 32) {f : Units → Effect} (hf : Blind f) :
    Blind fun v : Units => if (v.head h).state = .out then (v, []) else f v := by
  intro u n
  simp only [Units.withNotices_head]
  by_cases hs : (u.head h).state = .out
  · simp only [hs, if_true]
  · simp only [hs, if_false]; exact hf u n

theorem Ev.Does.unlessOut {e e' : Ev} (h : Fin 32) {r : Effect} (d : e.Does e' r) :
    e.Does (if (e.units.head h).state = .out then e else e') (if (e.units.head h).state = .out then (e.units, []) else r) := by
  split
  · exact .refl
  · exact d

/-- An expiry of a head's timer, where no release follows a mark (R51 to R53). -/
theorem Ev.Does.expire {e : Ev} (h : Fin 32) (k : TimerKind)
    (hr : k ≠ .gate ∨ (e.units.head h).retryUsed = true ∨ 256 ≤ (e.units.head h).health + 32 →
      ∀ side, (e.units.head h).state = .discharging (.bag side) → e.units.unreleased side h .unconfirmed) :
    e.Does (e.expire h k) ((e.units.expiry h k).then Units.drainEnd) := by
  unfold Ev.expire
  refine Ev.Does.trans ?_ Units.drainEnd_blind drainTest
  cases k with
  | settle =>
    show e.Does (e.settleExpiry h) _
    unfold Units.expiry Ev.settleExpiry
    exact (raiseHealth h 8 .settle true (by simp) fun _ => hr (.inl (by simp))).trans (unlessOut_blind h (Units.purge_blind h .unsettled none))
      (unlessOut h (purge h .unsettled none))
  | silence =>
    show e.Does ((e.startTimer h .silence).raiseHealth h 8 .silence true) _
    refine ((startTimer h .silence).trans (Units.raise_blind h 8 .silence) (raiseHealth h 8 .silence true (by simp) ?_)).congr rfl
    intro _ side hs
    refine hr (.inl (by simp)) side ?_
    rw [← hs]
    unfold Ev.startTimer
    simp
  | gate =>
    show e.Does (e.gateExpiry h) (match (e.units.head h).state with
      | .discharging d =>
        if (e.units.head h).retryUsed then e.units.raise h 256 .gateFinal
        else (e.units.raise h 32 .gate).then fun v => if (v.head h).state = .out then (v, []) else v.reissue h d
      | _ => (e.units, []))
    unfold Ev.gateExpiry
    simp only
    cases (e.units.head h).state with
    | discharging d =>
      simp only
      split
      · exact raiseHealth h 256 .gateFinal false (fun c => absurd c (by omega)) fun _ => hr (.inr (.inl (by assumption)))
      · exact (raiseHealth h 32 .gate true (by simp) fun c => hr (.inr (.inr c))).trans (unlessOut_blind h (Units.reissue_blind h d))
          (unlessOut h (reissue h d))
    | _ => exact refl

end Sys2Proof.Machine
end

