-- ==== Sys2Proof/Laws/Results.lean ====
section
/-! SUPPORT. What the effects of Safety.lean leave of each piece of the units: the record that an effect is about, and that
the other pieces stay. -/

namespace Sys2Proof.Machine

/-! ### One piece replaced -/

theorem Units.setHead_keeps (u : Units) (h : Fin 32) (x : Head) (q : Piece) (hq : q ≠ .head h) : u.keeps (u.setHead h x) q := by
  cases q <;> simp [Units.keeps, Units.mirrorWord] at hq ⊢
  intro c; exact absurd c hq

theorem Units.setZone_keeps (u : Units) (z : Zone) (x : ZoneRec) (q : Piece) (hq : q ≠ .zone z) : u.keeps (u.setZone z x) q := by
  cases q <;> simp [Units.keeps, Units.mirrorWord] at hq ⊢
  intro c; exact absurd c hq

theorem Units.setOrder_keeps (u : Units) (s : Side) (x : OrderSide) (q : Piece) (hq : q ≠ .order s) :
    u.keeps (u.setOrder s x) q := by
  cases q <;> simp [Units.keeps, Units.mirrorWord] at hq ⊢
  intro c; exact absurd c hq

theorem Units.setRelease_keeps (u : Units) (s : Side) (x : ReleaseSide) (q : Piece) (hq : q ≠ .release s) :
    u.keeps (u.setRelease s x) q := by
  cases q <;> simp [Units.keeps, Units.mirrorWord] at hq ⊢
  intro c; exact absurd c hq

theorem Units.setStage_keeps (u : Units) (g : Option WriteGroup) (q : Piece) (hq : q ≠ .stage) : u.keeps (u.setStage g) q := by
  cases q <;> simp [Units.keeps, Units.mirrorWord] at hq ⊢

theorem Units.mapHeads_keeps (u : Units) (f : Fin 32 → Head → Head) (q : Piece)
    (hq : ∀ h, q = .head h → f h (u.head h) = u.head h) : u.keeps (u.mapHeads f) q := by
  have hh := Units.mapHeads_head u f
  obtain ⟨l, hl⟩ : ∃ l, u.mapHeads f = { u with heads := l } := ⟨_, rfl⟩
  rw [hl] at hh ⊢
  cases q with
  | part => exact ⟨rfl, rfl⟩
  | loaded => exact ⟨rfl, rfl, rfl, rfl⟩
  | head h => exact (hh h).trans (hq h rfl)
  | _ => rfl

/-! ### The top trim and the feed (R58 to R61, R69, R70) -/

theorem Units.trim_keeps (u : Units) (z : Zone) (d : Int) (c : TrimCause) (h : Fin 32) (q : Piece) (hq : q ≠ .zone z) :
    u.keeps (u.trim z d c h).1 q := by
  unfold Units.trim
  simp only
  split <;> exact Units.setZone_keeps _ _ _ _ hq

/-- A change of the top trim changes nothing else of a zone. -/
theorem Units.trim_zone (u : Units) (z y : Zone) (d : Int) (c : TrimCause) (h : Fin 32) :
    ((u.trim z d c h).1.zones.get y).live = (u.zones.get y).live ∧
      ((u.trim z d c h).1.zones.get y).staged = (u.zones.get y).staged ∧
      ((u.trim z d c h).1.zones.get y).rotation = (u.zones.get y).rotation := by
  unfold Units.trim
  simp only
  split <;> simp only [Units.setZone_zones, PerZone.get_set] <;> split <;> simp_all

/-- A feed is the fed record, and perhaps a change of the zone's top trim, or nothing. -/
theorem Units.feed_cases (u : Units) (h : Fin 32) :
    ((u.part ≠ .running ∨ (u.head h).state = .out ∨ u.issueTicks h = none) ∧ u.feed h = (u, [])) ∨
      ∃ ticks env z, u.issueTicks h = some ticks ∧ (u.head h).envelope = some env ∧ u.zoneOf h.val = some z ∧
        u.part = .running ∧ (u.head h).state ≠ .out ∧
        let fed : Effect :=
          (u.setHead h ((u.head h).fed ticks), [.write (u.feedEntry h env.amplitude ticks ((u.head h).feedSeq + 1))])
        (u.feed h = fed ∨ ∃ d c, u.feed h = fed.then fun v => v.trim z d c h) := by
  unfold Units.feed
  simp only
  cases ht : u.issueTicks h with
  | none => exact .inl ⟨.inr (.inr rfl), rfl⟩
  | some ticks =>
    have hi := ht
    unfold Units.issueTicks at hi
    cases he : (u.head h).envelope with
    | none => simp [he] at hi
    | some env =>
      cases hz : u.zoneOf h.val with
      | none => simp [he, hz] at hi
      | some z =>
        simp only
        by_cases hp : u.part ≠ .running ∨ (u.head h).state = .out
        · rw [if_pos hp]
          exact .inl ⟨by tauto, rfl⟩
        · rw [if_neg hp]
          refine .inr ⟨ticks, env, z, rfl, rfl, rfl, by tauto, by tauto, ?_⟩
          split
          · exact .inr ⟨_, _, rfl⟩
          · split
            · exact .inr ⟨_, _, rfl⟩
            · exact .inl rfl

theorem Units.feed_keeps (u : Units) (h : Fin 32) (q : Piece) (hh : q ≠ .head h)
    (hz : ∀ z, u.zoneOf h.val = some z → q ≠ .zone z) : u.keeps (u.feed h).1 q := by
  rcases u.feed_cases h with ⟨-, e⟩ | ⟨ticks, env, z, -, -, hz', -, -, e | ⟨d, c, e⟩⟩ <;> rw [e]
  · exact Ev.Moves.keeps_refl _ _
  · exact Units.setHead_keeps _ _ _ _ hh
  · exact Ev.Moves.keeps_trans (Units.setHead_keeps _ _ _ _ hh) (Units.trim_keeps _ _ _ _ _ _ (hz z hz'))

theorem Units.feed_zone (u : Units) (h : Fin 32) (y : Zone) :
    ((u.feed h).1.zones.get y).live = (u.zones.get y).live ∧
      ((u.feed h).1.zones.get y).staged = (u.zones.get y).staged ∧
      ((u.feed h).1.zones.get y).rotation = (u.zones.get y).rotation := by
  rcases u.feed_cases h with ⟨-, e⟩ | ⟨ticks, env, z, -, -, hz', -, -, e | ⟨d, c, e⟩⟩ <;> rw [e]
  · exact ⟨rfl, rfl, rfl⟩
  · exact ⟨rfl, rfl, rfl⟩
  · exact Units.trim_zone _ _ _ _ _ _

/-- A feed of a head that may have one: the fed record, where a feed is issued. -/
theorem Units.feed_head (u : Units) (h : Fin 32) (hp : u.part = .running) (ho : (u.head h).state ≠ .out) :
    (u.feed h).1.head h = (u.head h).issued (u.issueTicks h) := by
  rcases u.feed_cases h with ⟨c, e⟩ | ⟨ticks, env, z, ht, -, hz', -, -, e | ⟨d, c, e⟩⟩ <;> rw [e]
  · have : u.issueTicks h = none := by tauto
    rw [this]
    rfl
  · rw [ht]; exact (Units.head_setHead ..).trans (if_pos rfl)
  · rw [ht]
    have := Units.trim_keeps (u.setHead h ((u.head h).fed ticks)) z d c h (.head h) (by simp)
    exact Eq.trans this ((Units.head_setHead ..).trans (if_pos rfl))

theorem Units.feed_idle (u : Units) (h : Fin 32) (hp : u.part ≠ .running) : u.feed h = (u, []) := by
  rcases u.feed_cases h with ⟨-, e⟩ | ⟨_, _, _, -, -, -, c, -⟩
  · exact e
  · exact absurd c hp

/-! ### Purges and the counter (R20, R45) -/

theorem Units.purge_keeps (u : Units) (h : Fin 32) (r : PurgeReason) (w : Option Int) (q : Piece) (hq : q ≠ .head h) :
    u.keeps (u.purge h r w).1 q := Units.setHead_keeps _ _ _ _ hq

theorem Units.purge_head (u : Units) (h : Fin 32) (r : PurgeReason) (w : Option Int) :
    (u.purge h r w).1.head h = (u.head h).purged r (u.params h).gateLimit := (Units.head_setHead ..).trans (if_pos rfl)

theorem Units.count_keeps (u : Units) (h : Fin 32) (v : Nat) (c : HealthCause) (q : Piece) (hq : q ≠ .head h) :
    u.keeps (u.count h v c).1 q := Units.setHead_keeps _ _ _ _ hq

theorem Units.count_head (u : Units) (h : Fin 32) (v : Nat) (c : HealthCause) :
    (u.count h v c).1.head h = { u.head h with health := v } := (Units.head_setHead ..).trans (if_pos rfl)

/-! ### Withdrawals, dumps and entry to OUT (R22, R113, R127) -/

theorem Units.withdrawn_keeps (u : Units) (side : Side) (o : OrderRec) (h : Fin 32) (q : Piece) (ho : q ≠ .order side)
    (hh : ∀ g, g ∈ o.heads → g ≠ h → q ≠ .head g) : u.keeps (u.withdrawn side o h) q := by
  refine Ev.Moves.keeps_trans (Units.mapHeads_keeps _ _ _ ?_) (Units.setOrder_keeps _ _ _ _ ho)
  rintro g rfl
  rw [if_neg (fun c => hh g c.1 c.2 rfl)]

theorem Units.withdrawn_head (u : Units) (side : Side) (o : OrderRec) (h g : Fin 32) :
    (u.withdrawn side o h).head g =
      if g ∈ o.heads ∧ g ≠ h then (u.head g).watched .ready (u.params g).silenceLimit else u.head g := by
  unfold Units.withdrawn
  rw [Units.setOrder_head, Units.mapHeads_head]

theorem Units.withdrawn_order (u : Units) (side : Side) (o : OrderRec) (h : Fin 32) :
    (u.withdrawn side o h).orders.get side =
      { u.orders.get side with queue := (u.orders.get side).queue.filter fun p => p.accept != o.accept } := by
  unfold Units.withdrawn
  rw [Units.setOrder_orders, PerSide.get_set, if_pos rfl]

theorem Units.withdraw_keeps (u : Units) (side : Side) (k : Nat) (w : WithdrawReason) (h : Fin 32) (q : Piece)
    (ho : q ≠ .order side) (hh : ∀ g, g ≠ h → q ≠ .head g) : u.keeps (u.withdraw side k w h).1 q := by
  unfold Units.withdraw
  split
  · exact Ev.Moves.keeps_refl _ _
  · exact Units.withdrawn_keeps _ _ _ _ _ ho fun g _ hg => hh g hg

theorem Units.markDump_keeps (u : Units) (side : Side) (h : Fin 32) (m : Mark) (q : Piece) (hq : q ≠ .release side) :
    u.keeps (u.markDump side h m).1 q := Units.setRelease_keeps _ _ _ _ hq

/-- The order that claims a head, found by its acceptance number. -/
theorem OrderSide.find_order {q : OrderSide} {o : OrderRec} (hn : (q.queue.map OrderRec.accept).Nodup) (ho : o ∈ q.queue) :
    q.queue.find? (fun p => p.accept = o.accept) = some o ∧
      q.queue.filter (fun p => p.accept != o.accept) = q.queue.filter (· ≠ o) := by
  have inj : ∀ p, p ∈ q.queue → p.accept = o.accept → p = o := fun p hp h => List.inj_on_of_nodup_map hn hp ho h
  refine ⟨?_, ?_⟩
  · rw [List.find?_eq_some_iff_append]
    obtain ⟨l1, l2, e⟩ := List.append_of_mem ho
    refine ⟨by simp, l1, l2, e, fun p hp => ?_⟩
    simp only [Bool.not_eq_true', decide_eq_false_iff_not]
    intro c
    have := inj p (by rw [e]; simp [hp]) c
    subst this
    rw [e] at hn
    simp only [List.map_append, List.map_cons] at hn
    exact (List.nodup_append.1 hn).2.2 p.accept (List.mem_map_of_mem hp) p.accept (by simp) rfl
  · refine List.filter_congr fun p hp => ?_
    simp only [ne_eq, bne, beq_eq_decide, decide_not]
    congr 1
    exact decide_eq_decide.2 ⟨inj p hp, fun c => c ▸ rfl⟩

theorem Units.goOut_head (u : Units) (h : Fin 32) : (u.goOut h).1.head h = (u.head h).outed :=
  (Units.head_setHead ..).trans (if_pos rfl)

theorem Units.goOut_keeps (u : Units) (h : Fin 32) (q : Piece) (hq : ∀ g, q ≠ .head g) (ho : ∀ s, q ≠ .order s)
    (hr : ∀ s, q ≠ .release s) : u.keeps (u.goOut h).1 q := by
  unfold Units.goOut Effect.then
  refine Ev.Moves.keeps_trans ?_ (Units.setHead_keeps _ _ _ _ (hq h))
  cases (u.head h).state with
  | claimed s k => exact Units.withdraw_keeps _ _ _ _ _ _ (ho s) fun g _ => hq g
  | discharging d =>
    cases d with
    | bag s => exact Units.markDump_keeps _ _ _ _ _ (hr s)
    | reject r => exact Ev.Moves.keeps_refl _ _
  | _ => exact Ev.Moves.keeps_refl _ _

/-- Entry to OUT of a head that no order claims and no dump awaits. -/
theorem Units.goOut_plain (u : Units) (h : Fin 32) (hc : (u.head h).state.name ≠ .claimed)
    (hb : ∀ s, (u.head h).state ≠ .discharging (.bag s)) :
    u.goOut h = (u.setHead h (u.head h).outed,
      [.flag (u.reportingHead h) .headOut, .write (u.feedEntry h 0 0 ((u.head h).feedSeq + 1))]) := by
  unfold Units.goOut
  simp only
  cases hs : (u.head h).state with
  | claimed s k => simp [hs, CycleState.name] at hc
  | discharging d =>
    cases d with
    | bag s => exact absurd hs (hb s)
    | reject r => rfl
  | _ => rfl

/-! ### Raises of the counter (R16, R44, R45) -/

/-- The BARRED action leaves a head that is neither READY nor CLAIMED as it is. -/
theorem Units.expel_none (u : Units) (h : Fin 32) (w : WithdrawReason) (r : PurgeReason) (h1 : (u.head h).state.name ≠ .ready)
    (h2 : (u.head h).state.name ≠ .claimed) : u.expel h w r = (u, []) := by
  unfold Units.expel
  simp only
  cases hs : (u.head h).state <;> first
    | rfl
    | exact absurd (by rw [hs]; rfl) h1
    | exact absurd (by rw [hs]; rfl) h2

/-- A raise that does not reach 256 of a head that takes no BARRED action. -/
theorem Units.raise_below (u : Units) (h : Fin 32) (k : Nat) (c : HealthCause) (h0 : (u.head h).state ≠ .out)
    (h1 : (u.head h).state ≠ .disabled) (h2 : (u.head h).health + k < 256)
    (h3 : ((u.head h).state.name ≠ .ready ∧ (u.head h).state.name ≠ .claimed) ∨ 128 ≤ (u.head h).health ∨
      (u.head h).health + k < 128 ∨ c = .disturbed) : u.raise h k c = u.count h ((u.head h).health + k) c := by
  have hv : min 256 ((u.head h).health + k) = (u.head h).health + k := by omega
  have ho : ¬ ((u.head h).state = .out ∨ (u.head h).state = .disabled) := by tauto
  by_cases hb : (u.head h).health < 128 ∧ 128 ≤ min 256 ((u.head h).health + k) ∧ c ≠ .disturbed
  · rw [Units.raise_barred u h k c ho (by omega) hb, hv]
    have h3' : (u.head h).state.name ≠ .ready ∧ (u.head h).state.name ≠ .claimed := by
      rcases h3 with h3 | h3 | h3 | h3
      · exact h3
      · omega
      · omega
      · exact absurd h3 hb.2.2
    have hh : ((u.count h ((u.head h).health + k) c).1.head h).state = (u.head h).state := by rw [Units.count_head]
    unfold Effect.then
    simp only
    rw [Units.expel_none _ h _ _ (by rw [hh]; exact h3'.1) (by rw [hh]; exact h3'.2)]
    simp
  · rw [Units.raise_count u h k c ho (by omega) hb, hv]

/-- A raise that reaches 256. -/
theorem Units.raise_top (u : Units) (h : Fin 32) (k : Nat) (c : HealthCause) (h0 : (u.head h).state ≠ .out)
    (h1 : (u.head h).state ≠ .disabled) (h2 : 256 ≤ (u.head h).health + k) :
    u.raise h k c = (u.count h 256 c).then fun v => v.goOut h :=
  Units.raise_out u h k c (by tauto) (by omega)

/-- The BARRED action or the purge of a disturbance: the head is purged, its order withdrawn (R16, R18). -/
theorem Units.expel_head (u : Units) (h : Fin 32) (w : WithdrawReason) (r : PurgeReason)
    (hs : (u.head h).state.name = .ready ∨ (u.head h).state.name = .claimed) :
    (u.expel h w r).1.head h = (u.head h).purged r (u.params h).gateLimit := by
  unfold Units.expel
  simp only
  cases hx : (u.head h).state with
  | ready => exact Units.purge_head u h r _
  | claimed side k =>
    show ((u.withdraw side k w h).1.purge h r (u.head h).frozen).1.head h = _
    rw [Units.purge_head]
    have h1 : (u.withdraw side k w h).1.head h = u.head h := by
      unfold Units.withdraw
      split
      · rfl
      · rw [Units.withdrawn_head, if_neg (fun c => c.2 rfl)]
    have h2 : (u.withdraw side k w h).1.params h = u.params h := by
      refine Units.params_congr h ?_ fun z => ?_
      · exact (Units.withdraw_keeps u side k w h .loaded (by simp) (by simp)).1
      · rw [show (u.withdraw side k w h).1.zones.get z = u.zones.get z from
          Units.withdraw_keeps u side k w h (.zone z) (by simp) (by simp)]
    rw [h1, h2]
  | _ => rw [hx] at hs; rcases hs with c | c <;> cases c

/-- The withdrawal of the order that claims a head, where that order is known. -/
theorem Units.withdraw_order (u : Units) (side : Side) (w : WithdrawReason) (h : Fin 32) (o : OrderRec)
    (hn : ((u.orders.get side).queue.map OrderRec.accept).Nodup) (ho : o ∈ (u.orders.get side).queue) :
    u.withdraw side o.accept w h = (u.withdrawn side o h,
      [.order side (.orderWithdrawn o.tag w (some (h, o.heads.idxOf h + 1)) o.heads o.total), .flag side .orderEnded]) := by
  unfold Units.withdraw
  rw [(OrderSide.find_order hn ho).1]

theorem Units.withdrawn_params (u : Units) (side : Side) (o : OrderRec) (h g : Fin 32) :
    (u.withdrawn side o h).params g = u.params g := by
  refine Units.params_congr g ?_ fun z => ?_
  · exact (Units.withdrawn_keeps u side o h .loaded (by simp) (by simp)).1
  · rw [show (u.withdrawn side o h).zones.get z = u.zones.get z from
      Units.withdrawn_keeps u side o h (.zone z) (by simp) (by simp)]

/-- Entry to OUT of a head that an order claims. -/
theorem Units.goOut_claimed (u : Units) (h : Fin 32) (side : Side) (o : OrderRec) (hs : (u.head h).state = .claimed side o.accept)
    (hn : ((u.orders.get side).queue.map OrderRec.accept).Nodup) (ho : o ∈ (u.orders.get side).queue) :
    u.goOut h = ((u.withdrawn side o h).setHead h (u.head h).outed,
      [.order side (.orderWithdrawn o.tag .headOut (some (h, o.heads.idxOf h + 1)) o.heads o.total), .flag side .orderEnded,
        .flag (u.reportingHead h) .headOut, .write (u.feedEntry h 0 0 ((u.head h).feedSeq + 1))]) := by
  unfold Units.goOut
  simp only [hs]
  rw [Units.withdraw_order u side .headOut h o hn ho]
  rfl

/-- Entry to OUT of a head that a dump awaits. -/
theorem Units.goOut_bag (u : Units) (h : Fin 32) (side : Side) (hs : (u.head h).state = .discharging (.bag side)) :
    u.goOut h = (u.markDump side h .unconfirmed).then fun v => (v.setHead h (u.head h).outed,
      [.flag (u.reportingHead h) .headOut, .write (u.feedEntry h 0 0 ((u.head h).feedSeq + 1))]) := by
  unfold Units.goOut
  simp only [hs]

/-- A CLAIMED head that becomes unfit: its order is withdrawn, and the head purged. -/
theorem Units.expel_claimed (u : Units) (h : Fin 32) (w : WithdrawReason) (r : PurgeReason) (side : Side) (o : OrderRec)
    (hs : (u.head h).state = .claimed side o.accept) (hn : ((u.orders.get side).queue.map OrderRec.accept).Nodup)
    (ho : o ∈ (u.orders.get side).queue) :
    u.expel h w r = ((u.withdrawn side o h).setHead h ((u.head h).purged r (u.params h).gateLimit),
      [.order side (.orderWithdrawn o.tag w (some (h, o.heads.idxOf h + 1)) o.heads o.total), .flag side .orderEnded,
        .write (u.purgeEntry h r), .notice (u.reportingHead h) (.purge h r ((u.head h).gateSeq + 1) (u.head h).frozen)]) := by
  unfold Units.expel
  simp only [hs]
  rw [Units.withdraw_order u side w h o hn ho]
  have h1 : (u.withdrawn side o h).head h = u.head h := by
    rw [Units.withdrawn_head, if_neg (fun c => c.2 rfl)]
  have h2 : (u.withdrawn side o h).config = u.config :=
    (Units.withdrawn_keeps u side o h .loaded (by simp) (by simp)).1
  have h3 : (u.withdrawn side o h).purgeEntry h r = u.purgeEntry h r := by
    unfold Units.purgeEntry Units.base; rw [h1, h2]
  have h4 : (u.withdrawn side o h).reportingHead h = u.reportingHead h := by
    unfold Units.reportingHead Units.zoneOf Units.reporting Units.binding; rw [h2]
  have h5 := Units.withdrawn_params u side o h h
  generalize u.withdrawn side o h = v at *
  unfold Effect.then Units.purge
  simp only [h1, h3, h4, h5]
  rfl

/-- A disturbance that takes the head OUT (R18). -/
theorem Units.disturb_top (u : Units) (h : Fin 32) (h0 : (u.head h).state ≠ .out) (h1 : (u.head h).state ≠ .disabled)
    (h2 : 256 ≤ (u.head h).health + 8) : u.disturb h = (u.count h 256 .disturbed).then fun v => v.goOut h := by
  unfold Units.disturb
  rw [Units.raise_top u h 8 .disturbed h0 h1 h2]
  have ho : (((u.count h 256 .disturbed).then fun v => v.goOut h).1.head h).state = .out := by
    show (((u.count h 256 .disturbed).1.goOut h).1.head h).state = .out
    rw [Units.goOut_head]; rfl
  unfold Effect.then at ho ⊢
  simp only at ho ⊢
  rw [ho, if_neg (by simp), Units.expel_none _ h _ _ (by rw [ho]; simp [CycleState.name]) (by rw [ho]; simp [CycleState.name])]
  simp

/-- A disturbance that leaves the head below 256 (R18). -/
theorem Units.disturb_below (u : Units) (h : Fin 32) (h0 : (u.head h).state ≠ .out) (h1 : (u.head h).state ≠ .disabled)
    (h2 : (u.head h).health + 8 < 256) : u.disturb h = (u.count h ((u.head h).health + 8) .disturbed).then fun v =>
      if (u.head h).state = .settling then v.purge h .disturbed none else v.expel h .disturbed .disturbed := by
  unfold Units.disturb
  rw [Units.raise_below u h 8 .disturbed h0 h1 h2 (by simp)]
  unfold Effect.then
  simp only [Units.count_head]

/-- What a disturbance makes of the head's counter and cycle state. -/
theorem Units.disturb_head (u : Units) (h : Fin 32) (h0 : (u.head h).state ≠ .out) (h1 : (u.head h).state ≠ .disabled) :
    (256 ≤ (u.head h).health + 8 → ((u.disturb h).1.head h).health = 256 ∧ ((u.disturb h).1.head h).state = .out) ∧
      ((u.head h).health + 8 < 256 → ((u.disturb h).1.head h).health = (u.head h).health + 8 ∧
        ((u.disturb h).1.head h).state = if (u.head h).state.name = .settling ∨ (u.head h).state.name = .ready ∨
          (u.head h).state.name = .claimed then .discharging (.reject .disturbed) else (u.head h).state) := by
  refine ⟨fun hb => ?_, fun hb => ?_⟩
  · rw [Units.disturb_top u h h0 h1 hb]
    have : ((u.count h 256 .disturbed).then fun v => v.goOut h).1.head h = ((u.count h 256 .disturbed).1.goOut h).1.head h := rfl
    rw [this, Units.goOut_head]
    exact ⟨rfl, rfl⟩
  · rw [Units.disturb_below u h h0 h1 hb]
    generalize hv : u.count h ((u.head h).health + 8) .disturbed = c
    have hh : c.1.head h = { u.head h with health := (u.head h).health + 8 } := by rw [← hv, Units.count_head]
    unfold Effect.then
    simp only
    by_cases hs : (u.head h).state = .settling
    · rw [if_pos hs, Units.purge_head, hh, hs]
      exact ⟨rfl, rfl⟩
    · rw [if_neg hs]
      by_cases hx : (u.head h).state.name = .ready ∨ (u.head h).state.name = .claimed
      · rw [Units.expel_head _ h _ _ (by rw [hh]; exact hx), hh, if_pos (.inr hx)]
        exact ⟨rfl, rfl⟩
      · have hx := not_or.1 hx
        rw [Units.expel_none _ h _ _ (by rw [hh]; exact hx.1) (by rw [hh]; exact hx.2), hh]
        have hs' : (u.head h).state.name ≠ .settling := by
          cases hc : (u.head h).state <;> first
            | exact absurd hc hs
            | simp [CycleState.name]
        rw [if_neg (by tauto)]
        exact ⟨rfl, rfl⟩

/-- What a disturbance makes of the order that claims the head. -/
theorem Units.disturb_claimed (u : Units) (h : Fin 32) (side : Side) (o : OrderRec)
    (hs : (u.head h).state = .claimed side o.accept) (hn : ((u.orders.get side).queue.map OrderRec.accept).Nodup)
    (ho : o ∈ (u.orders.get side).queue) :
    ∃ y l m w, u.disturb h = ((u.withdrawn side o h).setHead h y, l ++ (.order side (.orderWithdrawn o.tag w
        (some (h, o.heads.idxOf h + 1)) o.heads o.total) :: .flag side .orderEnded :: m)) ∧
      (∀ a n, a ∈ l ++ m → a.reserves side n = n) := by
  have hl : ∀ v c a n, a ∈ u.levelActs h v c → a.reserves side n = n := by
    intro v c a n ha
    unfold Units.levelActs at ha
    simp only at ha
    split at ha
    · cases ha
    · simp only [List.mem_singleton] at ha
      rw [ha]; rfl
  have hw := fun y => Units.setHead_withdrawn u side o h y
  by_cases hb : 256 ≤ (u.head h).health + 8
  · rw [Units.disturb_top u h (by rw [hs]; simp) (by rw [hs]; simp) hb]
    unfold Effect.then Units.count
    simp only
    rw [Units.goOut_claimed (u.setHead h { u.head h with health := 256 }) h side o (by rw [Units.head_setHead, if_pos rfl]; exact hs) hn ho, hw]
    simp only [Units.setHead_twice]
    refine ⟨_, _, _, _, rfl, fun a n ha => ?_⟩
    rcases List.mem_append.1 ha with ha | ha
    · exact hl _ _ a n ha
    · simp only [List.mem_cons, List.not_mem_nil, or_false] at ha
      rcases ha with rfl | rfl <;> rfl
  · rw [Units.disturb_below u h (by rw [hs]; simp) (by rw [hs]; simp) (by omega)]
    unfold Effect.then Units.count
    simp only
    rw [if_neg (show ¬ (u.head h).state = .settling by rw [hs]; simp)]
    rw [Units.expel_claimed (u.setHead h { u.head h with health := (u.head h).health + 8 }) h .disturbed .disturbed side o (by rw [Units.head_setHead, if_pos rfl]; exact hs) hn ho, hw]
    simp only [Units.setHead_twice]
    refine ⟨_, _, _, _, rfl, fun a n ha => ?_⟩
    rcases List.mem_append.1 ha with ha | ha
    · exact hl _ _ a n ha
    · simp only [List.mem_cons, List.not_mem_nil, or_false] at ha
      rcases ha with rfl | rfl <;> rfl

/-- Two things put out concern whom each concerns. -/
theorem Act.on_append {l m : List Act} {side : Side} (hl : ∀ a, a ∈ l → a.on side = false) (hm : ∀ a, a ∈ m → a.on side = false) :
    ∀ a, a ∈ l ++ m → a.on side = false := fun a ha => (List.mem_append.1 ha).elim (hl a) (hm a)

/-! ### Reports and the drain (R34, R156) -/

theorem Units.drainEnd_idle (u : Units) (h : u.part ≠ .draining ∨ u.drained = false) : u.drainEnd = (u, []) := by
  unfold Units.drainEnd
  rw [if_neg]
  rintro ⟨a, b⟩
  rcases h with h | h
  · exact h a
  · rw [h] at b; cases b

theorem Units.heardFrom_keeps (u : Units) (h : Fin 32) (q : Piece) (hq : q ≠ .head h) : u.keeps (u.heardFrom h) q := by
  unfold Units.heardFrom
  simp only
  split
  · exact Units.setHead_keeps _ _ _ _ hq
  · exact Ev.Moves.keeps_refl _ _

theorem Units.heardFrom_head (u : Units) (h : Fin 32) : (u.heardFrom h).head h = { u.head h with
    timer := if u.active = true ∧
        ((u.head h).state.name = .empty ∨ (u.head h).state.name = .ready ∨ (u.head h).state.name = .claimed) then
      .running .silence (u.params h).silenceLimit else (u.head h).timer } := by
  unfold Units.heardFrom
  simp only
  split
  · exact (Units.head_setHead ..).trans (if_pos rfl)
  · rfl

/-- A taken report, where drain complete does not follow. -/
theorem Units.taken_idle (u : Units) (r : ReportHeader) (f : Units → Effect)
    (hd : let v := (f (u.setHead r.head { u.head r.head with lastSeq := some r.seq })).1
      v.part ≠ .draining ∨ (v.heardFrom r.head).drained = false) :
    u.taken r f =
      let e := f (u.setHead r.head { u.head r.head with lastSeq := some r.seq })
      ((e.1.heardFrom r.head).setStage none, e.2) := by
  unfold Units.taken Effect.then
  simp only
  rw [Units.drainEnd_idle]
  · simp
  · have := (Units.heardFrom_keeps (f (u.setHead r.head { u.head r.head with lastSeq := some r.seq })).1 r.head .part (by simp)).1
    simp only at hd ⊢
    rw [this]
    exact hd

/-! ### Whom the things put out concern -/

theorem Units.levelActs_on (u : Units) (h : Fin 32) (v : Nat) (c : HealthCause) (side : Side) (hs : side ≠ u.reportingHead h) :
    ∀ a, a ∈ u.levelActs h v c → a.on side = false := by
  intro a ha
  unfold Units.levelActs at ha
  simp only at ha
  split at ha
  · simp at ha
  · simp only [List.mem_cons, List.not_mem_nil, or_false] at ha
    subst ha
    simp [Act.on, Ne.symm hs]

theorem Units.purge_on (u : Units) (h : Fin 32) (r : PurgeReason) (w : Option Int) (side : Side)
    (hs : side ≠ u.reportingHead h) : ∀ a, a ∈ (u.purge h r w).2 → a.on side = false := by
  intro a ha
  simp only [Units.purge, List.mem_cons, List.not_mem_nil, or_false] at ha
  rcases ha with rfl | rfl
  · rfl
  · simp [Act.on, Ne.symm hs]

theorem Units.trim_on (u : Units) (z : Zone) (d : Int) (c : TrimCause) (h : Fin 32) (side : Side) (hs : side ≠ u.reporting z) :
    ∀ a, a ∈ (u.trim z d c h).2 → a.on side = false := by
  intro a ha
  unfold Units.trim at ha
  simp only at ha
  split at ha
  · simp at ha
  · simp only [List.mem_cons, List.not_mem_nil, or_false] at ha
    rcases ha with rfl | rfl
    · rfl
    · simp [Act.on, Ne.symm hs]

theorem Units.feed_on (u : Units) (h : Fin 32) (side : Side) (hs : ∀ z, u.zoneOf h.val = some z → side ≠ u.reporting z) :
    ∀ a, a ∈ (u.feed h).2 → a.on side = false := by
  intro a ha
  rcases u.feed_cases h with ⟨-, e⟩ | ⟨ticks, env, z, -, -, hz', -, -, e | ⟨d, c, e⟩⟩ <;> rw [e] at ha
  · simp at ha
  · simp only [List.mem_cons, List.not_mem_nil, or_false] at ha
    rw [ha]; rfl
  · rcases List.mem_append.1 ha with ha | ha
    · simp only [List.mem_cons, List.not_mem_nil, or_false] at ha
      rw [ha]; rfl
    · exact Units.trim_on (u.setHead h ((u.head h).fed ticks)) z d c h side (hs z hz') a ha

/-! ### Taken reports (R34) -/

/-- The part of a taken report between its sequence and the SILENCE timer: flags, then weight (R34). -/
def Ev.reportParts (r : ReportHeader) (weight : Option (Int × Bool)) (e : Ev) : Ev :=
  let h := r.head
  let e := if r.boardFault then e.raiseHealth h 32 .boardFault true else e
  let e := if r.gateClosed then e.gateClosed h r.echo else e
  let e := if r.poolDrop then e.poolDrop h else e
  match weight with
  | some (w, true) => e.useWeight h w r.seq r.poolDrop
  | _ => e

theorem Ev.takeReport_eq (e : Ev) (r : ReportHeader) : e.takeReport r =
    (((e.modHead r.head fun x => { x with lastSeq := some r.seq }).reportParts r (e.units.reportWeight r)).restartSilence
      r.head).drainTest := rfl

/-- A report that passes its checks has the effect of its parts, with all that R34 puts around them, where that effect
has some property. -/
theorem State.Clear.report_makes_some {s : State} (h : s.Clear) {a : Addr} {w : Word} {slot : Nat}
    (hw : s.units.inWindow a .report (4 * slot)) (hp : s.units.reportPasses slot (reportHeader w))
    {P : (Units → Effect) → Prop}
    (d : ∀ e : Ev, e.release = true → e.units = s.units.setHead (reportHeader w).head
        { s.units.head (reportHeader w).head with lastSeq := some (reportHeader w).seq } →
      ∃ f, Blind f ∧ P f ∧ e.Does (e.reportParts (reportHeader w) (s.units.reportWeight (reportHeader w))) (f e.units)) :
    ∃ t f, P f ∧ exec (.reportHeaderWrite a w) s = .next t ∧ s.Wrote t .hl a w ∧ t.units.stage = none ∧
      s.Makes t (s.units.taken (reportHeader w) f) := by
  obtain ⟨k, g⟩ := h.header (w := w) hw
  rw [Ev.outcome_taken hp] at g
  have d1 : (Ev.begin s.units true k).Does ((Ev.begin s.units true k).modHead (reportHeader w).head fun x =>
    { x with lastSeq := some (reportHeader w).seq }) _ := Ev.Does.modHead _
  obtain ⟨f, hf, hP, df⟩ := d _ rfl (d1.units.trans rfl)
  refine ⟨_, f, hP, rfl, g.wrote rfl h.1.2.2.2.2.1, g.stage, g.makes (e0 := .begin s.units true k) ?_ rfl rfl h.1.2.2.2.1⟩
  have d2 := d1.trans hf df
  have d3 := (d2.trans (Units.heardFrom_blind (reportHeader w).head) (Ev.Does.restartSilence (reportHeader w).head)).trans
    Units.drainEnd_blind Ev.Does.drainTest
  have d4 := d3.trans Units.setStage_blind Ev.Does.emptyStage
  exact (d4.congr rfl).aside (w := some w)

/-- A report that passes its checks has the effect of its parts, with all that R34 puts around them. -/
theorem State.Clear.report_makes {s : State} (h : s.Clear) {a : Addr} {w : Word} {slot : Nat}
    (hw : s.units.inWindow a .report (4 * slot)) (hp : s.units.reportPasses slot (reportHeader w)) {f : Units → Effect}
    (hf : Blind f)
    (d : ∀ e : Ev, e.units = s.units.setHead (reportHeader w).head
        { s.units.head (reportHeader w).head with lastSeq := some (reportHeader w).seq } →
      e.Does (e.reportParts (reportHeader w) (s.units.reportWeight (reportHeader w))) (f e.units)) :
    ∃ t, exec (.reportHeaderWrite a w) s = .next t ∧ s.Wrote t .hl a w ∧ t.units.stage = none ∧
      s.Makes t (s.units.taken (reportHeader w) f) := by
  obtain ⟨t, g, rfl, r⟩ := h.report_makes_some hw hp (P := fun g => g = f) fun e _ he => ⟨f, hf, rfl, d e he⟩
  exact ⟨t, r⟩

/-- A report that only confirms a gate (R34, R38). -/
theorem Ev.reportParts_gate (e : Ev) (r : ReportHeader) (weight : Option (Int × Bool)) (hb : r.boardFault = false)
    (hp : r.poolDrop = false) (hg : r.gateClosed = true) (hw : ∀ w, weight ≠ some (w, true)) :
    e.reportParts r weight = e.gateClosed r.head r.echo := by
  unfold Ev.reportParts
  rcases weight with _ | ⟨w, _ | _⟩
  · simp only [hb, hp, hg, if_true, Bool.false_eq_true, if_false]
  · simp only [hb, hp, hg, if_true, Bool.false_eq_true, if_false]
  · exact absurd rfl (hw w)

/-- A head that discharges keeps the drain condition false (R156). -/
theorem Units.drained_discharging {u : Units} {h : Fin 32} (hd : (u.head h).state.name = .discharging) : u.drained = false := by
  unfold Units.drained
  have : (allHeads.any fun h => (u.head h).state.name = .discharging) = true :=
    List.any_eq_true.2 ⟨h, mem_allHeads h, by simp [hd]⟩
  rw [this]
  simp

theorem Units.taken_keeps (u : Units) (r : ReportHeader) (f : Units → Effect)
    (hd : let v := (f (u.setHead r.head { u.head r.head with lastSeq := some r.seq })).1
      v.part ≠ .draining ∨ (v.heardFrom r.head).drained = false) (q : Piece) (hh : q ≠ .head r.head) (hs : q ≠ .stage)
    (hf : let v := u.setHead r.head { u.head r.head with lastSeq := some r.seq }
      v.keeps (f v).1 q) : u.keeps (u.taken r f).1 q := by
  rw [Units.taken_idle u r f hd]
  exact Ev.Moves.keeps_trans (Ev.Moves.keeps_trans (Ev.Moves.keeps_trans (Units.setHead_keeps u _ _ q hh) hf)
    (Units.heardFrom_keeps _ _ q hh)) (Units.setStage_keeps _ _ q hs)

/-- A gate echo at a head that does not discharge changes nothing (R38). -/
theorem Ev.gateClosed_idle (e : Ev) (h : Fin 32) (echo : BitVec 4) (hd : (e.units.head h).state.name ≠ .discharging) :
    e.gateClosed h echo = e := by
  unfold Ev.gateClosed
  simp only
  cases hs : (e.units.head h).state <;> first
    | rfl
    | exact absurd (by rw [hs]; rfl) hd

/-- A report with a stable weight and no flag that acts is the use of its weight (R34). -/
theorem Ev.reportParts_weight (e : Ev) (r : ReportHeader) (weight : Int) (hb : r.boardFault = false) (hp : r.poolDrop = false)
    (hd : (e.units.head r.head).state.name ≠ .discharging) :
    e.reportParts r (some (weight, true)) = e.useWeight r.head weight r.seq false := by
  unfold Ev.reportParts
  simp only [hb, hp, Bool.false_eq_true, if_false]
  have : (if r.gateClosed = true then e.gateClosed r.head r.echo else e) = e := by
    split
    · exact e.gateClosed_idle _ _ hd
    · rfl
  rw [this]

/-! ### Hold timers (R112) -/

/-- An order leaves the queue by its hold timer: its heads are READY again (R112). -/
theorem Ev.Does.holdExpiry {e : Ev} (side : Side) (k : Nat) (o : OrderRec)
    (hf : (e.units.orders.get side).queue.find? (fun p => p.accept = k) = some o) :
    e.Does (e.holdExpiry side k) (Effect.then
      ((e.units.mapHeads fun h x => if h ∈ o.heads then x.watched .ready (e.units.params h).silenceLimit else x).setOrder side
        { e.units.orders.get side with queue := (e.units.orders.get side).queue.filter fun p => p.accept != k },
        [.order side (.orderExpired o.tag o.heads o.total), .flag side .orderEnded]) Units.drainEnd) := by
  unfold Ev.holdExpiry
  rw [hf]
  simp only
  have d1 : e.Does (e.modOrder side fun q => { q with queue := q.queue.filter fun p => p.accept != k }) _ := Ev.Does.modOrder _
  have d2 := d1.trans (f := fun v => (v.mapHeads fun h x =>
    if h ∈ o.heads then x.watched .ready (e.units.params h).silenceLimit else x, [])) (fun _ _ => rfl)
    (Ev.Does.returnHeads e.units o.heads _ fun h => rfl)
  have d3 := d2.trans (f := fun v => (v, [.order side (.orderExpired o.tag o.heads o.total)])) (fun _ _ => rfl)
    (Ev.Does.act (.order side (.orderExpired o.tag o.heads o.total)))
  have d4 := d3.trans (f := fun v => (v, [.flag side .orderEnded])) (fun _ _ => rfl) (Ev.Does.act (.flag side .orderEnded))
  exact (d4.trans Units.drainEnd_blind Ev.Does.drainTest).congr rfl

end Sys2Proof.Machine
end

