-- ==== Sys2Proof/Laws/Claims.lean ====
section
/-! SUPPORT. The laws of Units.Kept and the effects that keep them: Units.KeptAs has the reservations apart, as
they stand between two things an event puts out, and Ev.Does.kept brings an effect back to the event. -/

namespace Sys2Proof.Machine

variable {e : Ev}

/-! ### The laws between the units, the reservations apart -/

/-- The laws of Units.Kept with the sides' reservations given apart, as they stand between two things put out. -/
structure Units.KeptAs (u : Units) (n : Side → Nat) : Prop where
  claims : ∀ h side k, (u.head h).state = .claimed side k ↔
    ∃ o, o ∈ (u.orders.get side).queue ∧ o.accept = k ∧ h ∈ o.heads
  accepts : ∀ side, ((u.orders.get side).queue.map OrderRec.accept).Nodup ∧
    ∀ o, o ∈ (u.orders.get side).queue → o.accept < (u.orders.get side).accepts ∧ o.heads.Nodup
  idle : u.active = false → ∀ side, (u.orders.get side).queue = []
  out : ∀ h, (u.head h).state = .out ↔ (u.head h).health = 256
  range : ∀ h, (u.head h).health ≤ 256
  timers : ∀ h k, (u.head h).timer.ofKind k → k.fits (u.head h).state.name
  reserved : ∀ side, n side = (u.orders.get side).queue.length + (u.releases.get side).dumps.length

/-- The laws of Units.Kept, with every counter at 256 at most. -/
abbrev Units.Firm (u : Units) : Prop := u.KeptAs fun side => (u.notices.get side).reservations

theorem Units.firm_iff (u : Units) : u.Firm ∧ u.headCount ≤ 32 ↔ u.Kept ∧ ∀ h, (u.head h).health ≤ 256 :=
  ⟨fun ⟨⟨a, b, c, d, r, e, f⟩, g⟩ => ⟨⟨a, b, c, d, e, f, g⟩, r⟩, fun ⟨⟨a, b, c, d, e, f, g⟩, r⟩ => ⟨⟨a, b, c, d, r, e, f⟩, g⟩⟩

/-- What a queued order claims: its acceptance number and its heads. -/
def OrderRec.claim (o : OrderRec) : Nat × List (Fin 32) := (o.accept, o.heads)

/-- What a head record owes to the laws, but for its order. -/
def Head.sane (x : Head) : Prop :=
  (x.state = .out ↔ x.health = 256) ∧ x.health ≤ 256 ∧ ∀ k, x.timer.ofKind k → k.fits x.state.name

namespace Units.KeptAs

variable {u v : Units} {n n' : Side → Nat}

theorem sane (k : u.KeptAs n) (h : Fin 32) : (u.head h).sane := ⟨k.out h, k.range h, k.timers h⟩

/-- A head that a queued order lists. -/
theorem listed (k : u.KeptAs n) {side : Side} {o : OrderRec} (ho : o ∈ (u.orders.get side).queue) {h : Fin 32}
    (hh : h ∈ o.heads) : (u.head h).state = .claimed side o.accept := (k.claims h side o.accept).2 ⟨o, ho, rfl, hh⟩

/-- The order that claims a head. -/
theorem order (k : u.KeptAs n) {h : Fin 32} {side : Side} {a : Nat} (hs : (u.head h).state = .claimed side a) :
    ∃ o, o ∈ (u.orders.get side).queue ∧ o.accept = a ∧ h ∈ o.heads := (k.claims h side a).1 hs

theorem unclaimed (k : u.KeptAs n) (h : u.active = false) (g : Fin 32) (side : Side) (a : Nat) :
    (u.head g).state ≠ .claimed side a := by
  intro c
  obtain ⟨o, ho, -⟩ := k.order c
  rw [k.idle h side] at ho
  cases ho

/-- A change that leaves the claims of the queues, the numbers of dumps and the claims of heads as they are. -/
theorem heads (k : u.KeptAs n)
    (hq : ∀ s, (v.orders.get s).queue.map OrderRec.claim = (u.orders.get s).queue.map OrderRec.claim ∧
      (v.orders.get s).accepts = (u.orders.get s).accepts)
    (hd : ∀ s, (v.releases.get s).dumps.length = (u.releases.get s).dumps.length)
    (hi : v.active = false → ∀ s, (u.orders.get s).queue = [])
    (hh : ∀ h, (∀ s a, (v.head h).state = .claimed s a ↔ (u.head h).state = .claimed s a) ∧ (v.head h).sane) :
    v.KeptAs n := by
  have mem : ∀ s o, o ∈ (v.orders.get s).queue → ∃ p, p ∈ (u.orders.get s).queue ∧ p.accept = o.accept ∧ p.heads = o.heads := by
    intro s o ho
    have : o.claim ∈ (v.orders.get s).queue.map OrderRec.claim := List.mem_map.2 ⟨o, ho, rfl⟩
    rw [(hq s).1] at this
    obtain ⟨p, hp, e⟩ := List.mem_map.1 this
    exact ⟨p, hp, congrArg Prod.fst e, congrArg Prod.snd e⟩
  have mem' : ∀ s o, o ∈ (u.orders.get s).queue → ∃ p, p ∈ (v.orders.get s).queue ∧ p.accept = o.accept ∧ p.heads = o.heads := by
    intro s o ho
    have : o.claim ∈ (u.orders.get s).queue.map OrderRec.claim := List.mem_map.2 ⟨o, ho, rfl⟩
    rw [← (hq s).1] at this
    obtain ⟨p, hp, e⟩ := List.mem_map.1 this
    exact ⟨p, hp, congrArg Prod.fst e, congrArg Prod.snd e⟩
  have hl : ∀ s, (v.orders.get s).queue.length = (u.orders.get s).queue.length := fun s => by
    have := congrArg List.length (hq s).1
    simpa using this
  refine ⟨fun h s a => ?_, fun s => ⟨?_, fun o ho => ?_⟩, fun hv s => ?_, fun h => (hh h).2.1, fun h => (hh h).2.2.1,
    fun h => (hh h).2.2.2, fun s => ?_⟩
  · rw [(hh h).1, k.claims]
    constructor
    · rintro ⟨o, ho, h1, h2⟩
      obtain ⟨p, hp, e1, e2⟩ := mem' s o ho
      exact ⟨p, hp, e1.trans h1, e2 ▸ h2⟩
    · rintro ⟨o, ho, h1, h2⟩
      obtain ⟨p, hp, e1, e2⟩ := mem s o ho
      exact ⟨p, hp, e1.trans h1, e2 ▸ h2⟩
  · have h1 : (v.orders.get s).queue.map OrderRec.accept = (u.orders.get s).queue.map OrderRec.accept := by
      have := congrArg (List.map Prod.fst) (hq s).1
      rw [List.map_map, List.map_map] at this
      exact this
    rw [h1]
    exact (k.accepts s).1
  · obtain ⟨p, hp, e1, e2⟩ := mem s o ho
    have := (k.accepts s).2 p hp
    rw [(hq s).2, ← e1, ← e2]
    exact this
  · have := hl s
    rw [hi hv s] at this
    exact List.length_eq_zero_iff.1 this
  · rw [hl, hd]; exact k.reserved s

/-- The same units but for pieces that the laws do not speak of. -/
theorem same (k : u.KeptAs n) (hq : v.orders = u.orders) (hd : ∀ s, (v.releases.get s).dumps.length = (u.releases.get s).dumps.length)
    (hi : v.active = u.active) (hh : ∀ h, v.head h = u.head h) : v.KeptAs n :=
  k.heads (fun s => by rw [hq]; exact ⟨rfl, rfl⟩) hd (fun c => k.idle (hi ▸ c)) fun h => by
    rw [hh]; exact ⟨fun _ _ => Iff.rfl, k.sane h⟩

/-- One head's record replaced. -/
theorem setHead (k : u.KeptAs n) (h : Fin 32) (y : Head)
    (hc : ∀ s a, y.state = .claimed s a ↔ (u.head h).state = .claimed s a) (hy : y.sane) : (u.setHead h y).KeptAs n :=
  k.heads (fun _ => ⟨rfl, rfl⟩) (fun _ => rfl) k.idle fun g => by
    rw [Units.head_setHead]
    split
    · rename_i e; subst e; exact ⟨hc, hy⟩
    · exact ⟨fun _ _ => Iff.rfl, k.sane g⟩

/-- An order leaves its queue: the heads that it lists are claimed no more. -/
theorem remove (k : u.KeptAs n) {side : Side} {o : OrderRec} (ho : o ∈ (u.orders.get side).queue)
    (hq : (v.orders.get side).queue = (u.orders.get side).queue.filter fun p => p.accept != o.accept)
    (hq' : ∀ s, s ≠ side → (v.orders.get s).queue = (u.orders.get s).queue)
    (ha : ∀ s, (v.orders.get s).accepts = (u.orders.get s).accepts) (hi : v.active = u.active)
    (hh : ∀ h, (h ∈ o.heads → ∀ s a, (v.head h).state ≠ .claimed s a) ∧
      (h ∉ o.heads → ∀ s a, (v.head h).state = .claimed s a ↔ (u.head h).state = .claimed s a) ∧ (v.head h).sane)
    (hr : ∀ s, n' s = (v.orders.get s).queue.length + (v.releases.get s).dumps.length) : v.KeptAs n' := by
  have sub : ∀ s p, p ∈ (v.orders.get s).queue → p ∈ (u.orders.get s).queue ∧ (s = side → p.accept ≠ o.accept) := by
    intro s p hp
    by_cases hs : s = side
    · subst hs
      rw [hq] at hp
      obtain ⟨h1, h2⟩ := List.mem_filter.1 hp
      exact ⟨h1, fun _ => by simpa using h2⟩
    · rw [hq' s hs] at hp
      exact ⟨hp, fun c => absurd c hs⟩
  have only : ∀ p, p ∈ (u.orders.get side).queue → p.accept = o.accept → p = o := by
    intro p hp e
    have hf := (OrderSide.find_order (k.accepts side).1 ho).1
    have hf' := (OrderSide.find_order (k.accepts side).1 hp).1
    rw [e] at hf'
    rw [hf] at hf'
    cases hf'; rfl
  refine ⟨fun h s a => ?_, fun s => ⟨?_, fun p hp => ?_⟩, fun hv s => ?_, fun h => (hh h).2.2.1, fun h => (hh h).2.2.2.1,
    fun h => (hh h).2.2.2.2, hr⟩
  · by_cases hm : h ∈ o.heads
    · refine ⟨fun c => absurd c ((hh h).1 hm s a), ?_⟩
      rintro ⟨p, hp, rfl, hl⟩
      obtain ⟨h1, h2⟩ := sub s p hp
      have e1 := k.listed h1 hl
      rw [k.listed ho hm] at e1
      injection e1 with e2 e3
      exact absurd e3.symm (h2 e2.symm)
    · rw [(hh h).2.1 hm, k.claims]
      constructor
      · rintro ⟨p, hp, h1, h2⟩
        refine ⟨p, ?_, h1, h2⟩
        by_cases hs : s = side
        · subst hs
          rw [hq]
          refine List.mem_filter.2 ⟨hp, ?_⟩
          simp only [bne_iff_ne, ne_eq]
          intro e
          rw [only p hp e] at h2
          exact hm h2
        · rw [hq' s hs]; exact hp
      · rintro ⟨p, hp, h1, h2⟩
        exact ⟨p, (sub s p hp).1, h1, h2⟩
  · by_cases hs : s = side
    · subst hs
      rw [hq]
      exact (k.accepts s).1.sublist (List.filter_sublist.map _)
    · rw [hq' s hs]; exact (k.accepts s).1
  · rw [ha]; exact (k.accepts s).2 p (sub s p hp).1
  · have : ∀ l : List OrderRec, (∀ p, p ∉ l) → l = [] := fun l h => List.eq_nil_iff_forall_not_mem.2 h
    refine this _ fun p hp => ?_
    have := (sub s p hp).1
    rw [k.idle (hi ▸ hv) s] at this
    cases this

/-- The queue's length without the order. -/
theorem filter_length (k : u.KeptAs n) {side : Side} {o : OrderRec} (ho : o ∈ (u.orders.get side).queue) :
    ((u.orders.get side).queue.filter fun p => p.accept != o.accept).length + 1 = (u.orders.get side).queue.length := by
  obtain ⟨i, hi⟩ := List.getElem?_of_mem ho
  rw [(acceptNumbers_find _ i o hi (k.accepts side).1).2, List.length_eraseIdx]
  have : i < (u.orders.get side).queue.length := by
    rw [List.getElem?_eq_some_iff] at hi
    exact hi.1
  rw [if_pos this]
  omega

end Units.KeptAs

/-! ### Effects that keep the laws -/

/-- An effect keeps the laws, with the reservations that its orders' notices give back. -/
def Effect.Keeps (u : Units) (r : Effect) : Prop :=
  ∀ n, u.KeptAs n → r.1.KeptAs fun side => r.2.foldl (fun n a => a.reserves side n) (n side)

/-- Things put out that touch no reservation. -/
def Act.plain (a : Act) : Prop := ∀ side n, a.reserves side n = n

theorem Act.plain_fold : ∀ (l : List Act), (∀ a, a ∈ l → a.plain) → ∀ side n, l.foldl (fun n a => a.reserves side n) n = n
  | [], _, _, _ => rfl
  | a :: l, h, side, n => by
    rw [List.foldl_cons, h a (by simp) side n]
    exact plain_fold l (fun b hb => h b (by simp [hb])) side n

namespace Effect.Keeps

variable {u : Units} {r : Effect}

theorem nil : Effect.Keeps u (u, []) := fun _ k => k

theorem andThen {f : Units → Effect} (h : Effect.Keeps u r) (g : Effect.Keeps r.1 (f r.1)) : Effect.Keeps u (r.then f) := by
  intro n k
  have := g _ (h n k)
  unfold Effect.then
  simp only [List.foldl_append]
  exact this

theorem plain {l : List Act} {v : Units} (hl : ∀ a, a ∈ l → a.plain) (h : ∀ n, u.KeptAs n → v.KeptAs n) :
    Effect.Keeps u (v, l) := fun n k => by
  have : (fun side => l.foldl (fun n a => a.reserves side n) (n side)) = n := funext fun s => Act.plain_fold l hl s _
  show v.KeptAs _
  rw [this]
  exact h n k

end Effect.Keeps

/-- What an event does keeps the laws when its effect does. -/
theorem Ev.Does.kept {e e' : Ev} {r : Effect} (d : e.Does e' r) (h : Effect.Keeps e.units r) (k : e.units.Firm) :
    e'.units.Firm := by
  have g := h _ k
  rw [d.units]
  have hn : (fun side => ((r.1.withNotices (e.acts r.2).units.notices).notices.get side).reservations) =
      fun side => r.2.foldl (fun n a => a.reserves side n) (e.units.notices.get side).reservations :=
    funext fun side => (Ev.acts_gives side r.2 e).reserved
  unfold Units.Firm
  rw [hn]
  exact g.same rfl (fun _ => rfl) rfl fun _ => rfl

theorem Units.levelActs_plain (u : Units) (h : Fin 32) (v : Nat) (c : HealthCause) : ∀ a, a ∈ u.levelActs h v c → a.plain := by
  intro a ha
  unfold Units.levelActs at ha
  simp only at ha
  split at ha
  · cases ha
  · simp only [List.mem_singleton] at ha
    subst ha
    exact fun _ _ => rfl

theorem Units.trim_keepsLaws (u : Units) (z : Zone) (d : Int) (c : TrimCause) (h : Fin 32) : Effect.Keeps u (u.trim z d c h) := by
  have hs : ∀ x n, u.KeptAs n → (u.setZone z x).KeptAs n := fun x n k => k.same rfl (fun _ => rfl) rfl fun _ => rfl
  unfold Units.trim
  simp only
  split
  · exact .plain (fun a ha => by cases ha) (hs _)
  · refine .plain (fun a ha => ?_) (hs _)
    simp only [List.mem_cons, List.not_mem_nil, or_false] at ha
    rcases ha with rfl | rfl <;> exact fun _ _ => rfl

theorem Units.feed_keepsLaws (u : Units) (h : Fin 32) : Effect.Keeps u (u.feed h) := by
  have hs : ∀ t, ∀ n, u.KeptAs n → (u.setHead h ((u.head h).fed t)).KeptAs n := fun t n k =>
    k.setHead h _ (fun _ _ => Iff.rfl) (k.sane h)
  rcases u.feed_cases h with ⟨-, e⟩ | ⟨ticks, env, z, -, -, -, -, -, e | ⟨d, c, e⟩⟩ <;> rw [e]
  · exact .nil
  · refine .plain (fun a ha => ?_) (hs ticks)
    simp only [List.mem_singleton] at ha
    subst ha; exact fun _ _ => rfl
  · refine Effect.Keeps.andThen (.plain (fun a ha => ?_) (hs ticks)) (Units.trim_keepsLaws _ z d c h)
    simp only [List.mem_singleton] at ha
    subst ha; exact fun _ _ => rfl

/-- The record that a purge leaves owes the laws nothing. -/
theorem Head.purged_sane (x : Head) (r : PurgeReason) (l : Nat) (hx : x.health < 256) : (x.purged r l).sane := by
  refine ⟨by simp [Head.purged]; omega, Nat.le_of_lt hx, fun k c => ?_⟩
  have : TimerKind.gate = k := c
  subst this
  rfl

theorem Head.watched_sane (x : Head) (c : CycleState) (l : Nat) (hc : c.name = .empty ∨ c.name = .ready ∨ c.name = .claimed)
    (hx : x.health < 256) : (x.watched c l).sane := by
  refine ⟨?_, Nat.le_of_lt hx, fun k h => ?_⟩
  · simp only [Head.watched, Nat.ne_of_lt hx, iff_false]
    intro e; rw [e] at hc; simp [CycleState.name] at hc
  · have : TimerKind.silence = k := h
    subst this
    exact hc

theorem Units.purge_keepsLaws (u : Units) (h : Fin 32) (r : PurgeReason) (w : Option Int)
    (hs : ∀ s a, (u.head h).state ≠ .claimed s a) (hx : (u.head h).health < 256) : Effect.Keeps u (u.purge h r w) := by
  unfold Units.purge
  refine .plain (fun a ha => ?_) fun n k => k.setHead h _ (fun s a => ?_) (Head.purged_sane _ _ _ hx)
  · simp only [List.mem_cons, List.not_mem_nil, or_false] at ha
    rcases ha with rfl | rfl <;> exact fun _ _ => rfl
  · constructor
    · intro c; cases c
    · intro c; exact absurd c (hs s a)

theorem Units.count_keepsLaws (u : Units) (h : Fin 32) (v : Nat) (c : HealthCause) (hv : (u.head h).state = .out ↔ v = 256)
    (hr : v ≤ 256) :
    Effect.Keeps u (u.count h v c) :=
  .plain (u.levelActs_plain h v c) fun n k => k.setHead h _ (fun _ _ => Iff.rfl) ⟨hv, hr, k.timers h⟩

theorem foldl_order (side s : Side) (N : Notice) (f : Flag) (l : List Act) (hl : ∀ a, a ∈ l → a.plain) (n : Nat) :
    (.order side N :: .flag side f :: l).foldl (fun n a => Act.reserves s n a) n = if side = s then n - 1 else n := by
  rw [List.foldl_cons, List.foldl_cons, Act.plain_fold l hl]
  rfl

/-- The withdrawal of the order that claims a head, and the head's next record (R17, R113). -/
theorem Units.withdrawn_keepsLaws (u : Units) (n : Side → Nat) (k : u.KeptAs n) (h : Fin 32) (y : Head) (side : Side) (o : OrderRec)
    (ho : o ∈ (u.orders.get side).queue) (hl : h ∈ o.heads) (hy : y.sane) (hyc : ∀ s a, y.state ≠ .claimed s a) :
    ((u.withdrawn side o h).setHead h y).KeptAs fun s => if side = s then n s - 1 else n s := by
  have hq := Units.withdrawn_order u side o h
  have hqo : ∀ s, s ≠ side → (u.withdrawn side o h).orders.get s = u.orders.get s := fun s hs =>
    Units.withdrawn_keeps u side o h (.order s) (by simp [hs]) (by simp)
  have hre : ∀ s, (u.withdrawn side o h).releases.get s = u.releases.get s := fun s =>
    Units.withdrawn_keeps u side o h (.release s) (by simp) (by simp)
  have hac : (u.withdrawn side o h).active = u.active := by
    unfold Units.active
    rw [(Units.withdrawn_keeps u side o h .part (by simp) (by simp)).1]
  have hhd := fun g => Units.withdrawn_head u side o h g
  generalize u.withdrawn side o h = v at hq hqo hre hac hhd
  refine k.remove (side := side) (o := o) ho ?_ (fun s hs => ?_) (fun s => ?_) hac ?_ ?_
  · show (v.orders.get side).queue = _
    rw [hq]
  · show (v.orders.get s).queue = _
    rw [hqo s hs]
  · show (v.orders.get s).accepts = _
    by_cases hs : s = side
    · subst hs; rw [hq]
    · rw [hqo s hs]
  · intro g
    rw [Units.head_setHead]
    by_cases hg : g = h
    · rw [if_pos hg]
      exact ⟨fun _ => hyc, fun c => absurd (hg ▸ hl) c, hy⟩
    · rw [if_neg hg, hhd]
      by_cases hm : g ∈ o.heads
      · rw [if_pos ⟨hm, hg⟩]
        refine ⟨fun _ s a c => (by cases c), fun c => absurd hm c, Head.watched_sane _ _ _ (.inr (.inl rfl)) (Nat.lt_of_le_of_ne (k.range g) fun c => ?_)⟩
        have := (k.out g).2 c
        rw [k.listed ho hm] at this
        cases this
      · rw [if_neg (fun c => hm c.1)]
        exact ⟨fun c => absurd c hm, fun _ _ _ => Iff.rfl, k.sane g⟩
  · intro s
    have hr := k.reserved s
    have hf := k.filter_length ho
    show _ = (v.orders.get s).queue.length + (v.releases.get s).dumps.length
    rw [hre]
    by_cases hs : s = side
    · subst hs
      rw [hq]
      simp only [if_true]
      omega
    · rw [hqo s hs, if_neg (fun c => hs c.symm)]
      exact hr

/-- The BARRED action and the purge of a disturbance (R16, R18). -/
theorem Units.expel_keepsLaws (u : Units) (h : Fin 32) (w : WithdrawReason) (r : PurgeReason) : Effect.Keeps u (u.expel h w r) := by
  intro n k
  have hx : (u.head h).state ≠ .out → (u.head h).health < 256 := fun c =>
    Nat.lt_of_le_of_ne (k.range h) fun e => c ((k.out h).2 e)
  cases hs : (u.head h).state with
  | ready =>
    have he : u.expel h w r = u.purge h r (u.head h).frozen := by unfold Units.expel; simp only [hs]
    rw [he]
    exact u.purge_keepsLaws h r _ (by rw [hs]; intro s a c; cases c) (hx (by rw [hs]; simp)) n k
  | claimed side a =>
    obtain ⟨o, ho, rfl, hl⟩ := k.order hs
    rw [u.expel_claimed h w r side o hs (k.accepts side).1 ho]
    have := u.withdrawn_keepsLaws n k h ((u.head h).purged r (u.params h).gateLimit) side o ho hl
      (Head.purged_sane _ _ _ (hx (by rw [hs]; simp))) (fun s a c => by cases c)
    have hf : (fun s => List.foldl (fun n a => Act.reserves s n a) (n s) [.order side (.orderWithdrawn o.tag w
        (some (h, o.heads.idxOf h + 1)) o.heads o.total), .flag side .orderEnded, .write (u.purgeEntry h r),
        .notice (u.reportingHead h) (.purge h r ((u.head h).gateSeq + 1) (u.head h).frozen)]) =
        fun s => if side = s then n s - 1 else n s := funext fun s => foldl_order side s _ _ _ (by
          intro a ha
          simp only [List.mem_cons, List.not_mem_nil, or_false] at ha
          rcases ha with rfl | rfl <;> exact fun _ _ => rfl) _
    show Units.KeptAs _ _
    rw [hf]
    exact this
  | _ => rw [u.expel_none h w r (by rw [hs]; simp [CycleState.name]) (by rw [hs]; simp [CycleState.name])]; exact k

/-- Entry to OUT of a head that discharges to no side, with the counter's 256 before it (R22, R49, R113). -/
theorem Units.countOut_keepsLaws (u : Units) (h : Fin 32) (c : HealthCause) (hb : ∀ s, (u.head h).state ≠ .discharging (.bag s)) :
    Effect.Keeps u ((u.count h 256 c).then fun v => v.goOut h) := by
  intro n k
  have hlev := u.levelActs_plain h 256 c
  have hsane : ((u.head h).outed).sane := ⟨⟨fun _ => rfl, fun _ => rfl⟩, Nat.le_refl _, fun k c => False.elim c⟩
  have houted : Head.outed { u.head h with health := 256 } = (u.head h).outed := rfl
  have hcnt : (u.count h 256 c).1.head h = { u.head h with health := 256 } := u.count_head h 256 c
  unfold Effect.then
  simp only [List.foldl_append]
  have hf0 : ∀ s, (u.count h 256 c).2.foldl (fun n a => a.reserves s n) (n s) = n s := fun s => Act.plain_fold _ hlev s _
  simp only [hf0]
  by_cases hcl : ∃ side a, (u.head h).state = .claimed side a
  · obtain ⟨side, a, hs⟩ := hcl
    obtain ⟨o, ho, rfl, hl⟩ := k.order hs
    rw [Units.goOut_claimed (u.count h 256 c).1 h side o (by rw [hcnt]; exact hs) (k.accepts side).1 ho, hcnt, houted]
    have hW : ((u.count h 256 c).1.withdrawn side o h).setHead h (u.head h).outed = (u.withdrawn side o h).setHead h (u.head h).outed := by
      show (((u.setHead h { u.head h with health := 256 }).withdrawn side o h).setHead h (u.head h).outed) = _
      rw [Units.setHead_withdrawn]
      exact Units.setHead_twice ..
    rw [hW]
    have := u.withdrawn_keepsLaws n k h (u.head h).outed side o ho hl hsane (fun s a c => by cases c)
    have hf : ∀ (x y : Act), x.plain → y.plain → (fun s => List.foldl (fun n a => Act.reserves s n a) (n s) [.order side (.orderWithdrawn o.tag .headOut
        (some (h, o.heads.idxOf h + 1)) o.heads o.total), .flag side .orderEnded, x, y]) =
        fun s => if side = s then n s - 1 else n s := fun x y hx hy => funext fun s => foldl_order side s _ _ _ (by
          intro a ha
          simp only [List.mem_cons, List.not_mem_nil, or_false] at ha
          rcases ha with rfl | rfl
          · exact hx
          · exact hy) _
    show Units.KeptAs _ _
    rw [hf _ _ (fun _ _ => rfl) (fun _ _ => rfl)]
    exact this
  · have hn : (u.head h).state.name ≠ .claimed := by
      intro e
      cases hs : (u.head h).state with
      | claimed s a => exact hcl ⟨s, a, hs⟩
      | _ => rw [hs] at e; cases e
    rw [Units.goOut_plain (u.count h 256 c).1 h (by rw [hcnt]; exact hn) (by rw [hcnt]; exact hb), hcnt, houted]
    have hW : (u.count h 256 c).1.setHead h (u.head h).outed = u.setHead h (u.head h).outed := Units.setHead_twice ..
    rw [hW]
    refine k.setHead h _ (fun s a => ⟨fun c => (by cases c), fun c => absurd ⟨s, a, c⟩ hcl⟩) hsane

theorem OrderSide.effect_queue (q : OrderSide) : q.effect.queue = q.queue ∧ q.effect.accepts = q.accepts := by
  unfold OrderSide.effect
  split <;> exact ⟨rfl, rfl⟩

/-- The oldest order leaves the queue as the one with its number. -/
theorem tail_filter {o : OrderRec} {rest : List OrderRec} (hn : ((o :: rest).map OrderRec.accept).Nodup) :
    rest = (o :: rest).filter fun p => p.accept != o.accept := by
  rw [List.filter_cons]
  simp only [bne_self_eq_false, Bool.false_eq_true, if_false]
  rw [List.map_cons, List.nodup_cons] at hn
  refine (List.filter_eq_self.2 fun p hp => ?_).symm
  simp only [bne_iff_ne, ne_eq]
  intro e
  exact hn.1 (List.mem_map.2 ⟨p, hp, e⟩)

theorem Units.mapHeads_orders (u : Units) (f : Fin 32 → Head → Head) : (u.mapHeads f).orders = u.orders := by
  unfold Units.mapHeads; rfl
theorem Units.mapHeads_releases (u : Units) (f : Fin 32 → Head → Head) : (u.mapHeads f).releases = u.releases := by
  unfold Units.mapHeads; rfl
theorem Units.mapHeads_part (u : Units) (f : Fin 32 → Head → Head) : (u.mapHeads f).part = u.part := by
  unfold Units.mapHeads; rfl

/-- The oldest order leaves the queue for the dump list, and its heads leave CLAIMED. -/
theorem Units.KeptAs.dumped {u : Units} {n : Side → Nat} (k : u.KeptAs n) (side : Side) (z : Zone) (o : OrderRec) (rest : List OrderRec)
    (hq : (u.orders.get side).queue = o :: rest) (f : Fin 32 → Head → Head) (x : ZoneRec) (q : OrderSide) (r : ReleaseSide)
    (hf : ∀ g x, (g ∈ o.heads → x.health < 256 → (∀ s a, (f g x).state ≠ .claimed s a) ∧ (f g x).sane) ∧
        (g ∉ o.heads → x.sane → (∀ s a, (f g x).state = .claimed s a ↔ x.state = .claimed s a) ∧ (f g x).sane))
    (h1 : q.queue = rest) (h2 : q.accepts = (u.orders.get side).accepts)
    (h3 : r.dumps.length = (u.releases.get side).dumps.length + 1) :
    ((((u.mapHeads f).setZone z x).setOrder side q).setRelease side r).KeptAs n := by
  have ho : o ∈ (u.orders.get side).queue := by rw [hq]; simp
  have g1 := u.mapHeads_head f
  have g2 := u.mapHeads_orders f
  have g3 := u.mapHeads_releases f
  have g4 := u.mapHeads_part f
  generalize u.mapHeads f = w at g1 g2 g3 g4
  have hh : ∀ h, (((w.setZone z x).setOrder side q).setRelease side r).head h = f h (u.head h) := fun h => by
    rw [Units.setRelease_head, Units.setOrder_head, Units.setZone_head, g1]
  have hO : ∀ s, (((w.setZone z x).setOrder side q).setRelease side r).orders.get s =
      if s = side then q else u.orders.get s := fun s => by simp [PerSide.get_set, g2]
  have hR : ∀ s, (((w.setZone z x).setOrder side q).setRelease side r).releases.get s =
      if s = side then r else u.releases.get s := fun s => by simp [PerSide.get_set, g3]
  have hP : (((w.setZone z x).setOrder side q).setRelease side r).active = u.active := by
    show (decide (w.part = .running) || decide (w.part = .draining)) = _
    rw [g4]; rfl
  generalize ((w.setZone z x).setOrder side q).setRelease side r = v at hh hO hR hP
  have hl := k.filter_length ho
  refine k.remove ho ?_ (fun s hs => by rw [hO, if_neg hs]) (fun s => ?_) hP (fun h => ?_) (fun s => ?_)
  · rw [hO, if_pos rfl, h1, hq]
    exact tail_filter (hq ▸ (k.accepts side).1)
  · rw [hO]
    split
    · rename_i e; subst e; exact h2
    · rfl
  · rw [hh]
    by_cases hm : h ∈ o.heads
    · have h256 : (u.head h).health < 256 := Nat.lt_of_le_of_ne (k.range h) fun c => by
        have := (k.out h).2 c
        rw [k.listed ho hm] at this
        cases this
      have := (hf h (u.head h)).1 hm h256
      exact ⟨fun _ => this.1, fun c => absurd hm c, this.2⟩
    · have := (hf h (u.head h)).2 hm (k.sane h)
      exact ⟨fun c => absurd c hm, fun _ => this.1, this.2⟩
  · have hr := k.reserved s
    rw [hO, hR]
    by_cases hs : s = side
    · subst hs
      rw [if_pos rfl, if_pos rfl, h1, h3, hr, hq, List.length_cons]
      omega
    · rw [if_neg hs, if_neg hs, hr]

theorem Units.release_plain (u : Units) (side : Side) (z : Zone) (o : OrderRec) (kept : Fin 32 → Bool) :
    ∀ a, a ∈ (u.release side z o kept).2 → a.plain := by
  intro a ha
  unfold Units.release at ha
  simp only [List.mem_append, List.mem_map] at ha
  rcases ha with (⟨_, _, rfl⟩ | ⟨_, _, rfl⟩) | ⟨g, _, rfl⟩
  · exact fun _ _ => rfl
  · exact fun _ _ => rfl
  · split <;> exact fun _ _ => rfl

/-- A release turns the oldest order into a dump, and its heads from CLAIMED to DISCHARGING (R121). -/
theorem Units.release_keepsLaws (u : Units) (side : Side) (z : Zone) (o : OrderRec) (rest : List OrderRec) (kept : Fin 32 → Bool)
    (hq : (u.orders.get side).queue = o :: rest) : Effect.Keeps u (u.release side z o kept) := by
  have hpl := u.release_plain side z o kept
  unfold Units.release at hpl ⊢
  refine Effect.Keeps.plain hpl fun n k => ?_
  refine k.dumped side z o rest hq _ _ _ _ ?_ ?_ ?_ ?_
  · intro g x
    refine ⟨fun hg hx => ?_, fun hg hx => ?_⟩
    · simp only [if_pos hg]
      refine ⟨fun s a c => (by cases c), ⟨fun c => (by cases c), fun c => absurd c (Nat.ne_of_lt hx)⟩, Nat.le_of_lt hx, fun k c => ?_⟩
      have : TimerKind.gate = k := c
      subst this
      rfl
    · simp only [if_neg hg]
      split
      · rename_i hr
        have h256 : x.health < 256 := Nat.lt_of_le_of_ne hx.2.1 fun c => by have := hx.1.2 c; rw [hr.1] at this; cases this
        split
        · refine ⟨fun s a => ⟨fun c => (by cases c), fun c => ?_⟩, Head.purged_sane _ _ _ h256⟩
          rw [hr.1] at c; cases c
        · exact ⟨fun _ _ => Iff.rfl, hx⟩
      · exact ⟨fun _ _ => Iff.rfl, hx⟩
  · rw [(OrderSide.effect_queue _).1]; simp [hq]
  · rw [(OrderSide.effect_queue _).2]
  · simp

/-- Units that differ in notice units only, with the same reservations, or in what the laws do not speak of. -/
theorem Units.Firm.same {u v : Units} (k : u.Firm) (hq : v.orders = u.orders)
    (hd : ∀ s, (v.releases.get s).dumps.length = (u.releases.get s).dumps.length) (hi : v.active = u.active)
    (hh : ∀ h, v.head h = u.head h) (hn : ∀ s, (v.notices.get s).reservations = (u.notices.get s).reservations) : v.Firm := by
  unfold Units.Firm
  rw [funext hn]
  exact Units.KeptAs.same k hq hd hi hh

/-- The release of a side's oldest order keeps the laws. -/
theorem Ev.doRelease_kept (e : Ev) (side : Side) (k : e.units.Firm) : (e.doRelease side).units.Firm := by
  cases hq : (e.units.orders.get side).queue with
  | nil => unfold Ev.doRelease; rw [hq]; exact k
  | cons o rest =>
    cases hz : e.units.binding side with
    | none => unfold Ev.doRelease; rw [hq, hz]; exact k
    | some z =>
      have hn := ((k.accepts side).2 o (by rw [hq]; simp)).2
      obtain ⟨kept, -, -, d⟩ := Ev.Does.doRelease (e := e) side z o rest hz hq hn
      exact d.kept (Units.release_keepsLaws _ side z o rest kept hq) k

theorem Ev.releaseTest_kept (e : Ev) (side : Side) (k : e.units.Firm) : (e.releaseTest side).units.Firm := by
  unfold Ev.releaseTest
  split
  · split
    · exact e.doRelease_kept side k
    · refine Units.Firm.same k rfl (fun s => ?_) rfl (fun _ => rfl) (fun _ => rfl)
      cases s <;> cases side <;> rfl
  · exact k

theorem Ev.pendingRelease_kept (e : Ev) (side : Side) (k : e.units.Firm) : (e.pendingRelease side).units.Firm := by
  unfold Ev.pendingRelease
  split
  · exact e.doRelease_kept side k
  · refine Units.Firm.same k rfl (fun s => ?_) rfl (fun _ => rfl) (fun _ => rfl)
    cases s <;> cases side <;> rfl

/-- A head that is not OUT is below 256. -/
theorem Units.KeptAs.below {u : Units} {n : Side → Nat} (k : u.KeptAs n) {h : Fin 32} (hs : (u.head h).state ≠ .out) :
    (u.head h).health < 256 := Nat.lt_of_le_of_ne (k.range h) fun c => hs ((k.out h).2 c)

theorem Ev.act_kept (a : Act) (ha : a.plain) (k : e.units.Firm) : (a.take e).units.Firm :=
  (Ev.Does.act a).kept (.plain (fun b hb => by rw [List.mem_singleton.1 hb]; exact ha) fun _ k => k) k

theorem Ev.headNotice_kept (s : Side) (n : Notice) (k : e.units.Firm) : (e.headNotice s n).units.Firm :=
  act_kept (.notice s n) (fun _ _ => rfl) k

theorem Ev.setFlag_kept (s : Side) (f : Flag) (k : e.units.Firm) : (e.setFlag s f).units.Firm :=
  act_kept (.flag s f) (fun _ _ => rfl) k

/-- A head's record changed in nothing that the laws speak of. -/
theorem Ev.modHead_kept (h : Fin 32) (f : Head → Head) (hf : ∀ x, (f x).state = x.state ∧ (f x).health = x.health ∧ (f x).timer = x.timer)
    (k : e.units.Firm) : (e.modHead h f).units.Firm := by
  obtain ⟨h1, h2, h3⟩ := hf (e.units.head h)
  refine k.setHead h _ (fun s a => by rw [h1]) ?_
  unfold Head.sane
  rw [h1, h2, h3]
  exact k.sane h

theorem Ev.setHealth_kept (h : Fin 32) (v : Nat) (c : HealthCause) (hv : (e.units.head h).state = .out ↔ v = 256)
    (hr : v ≤ 256) (k : e.units.Firm) : (e.setHealth h v c).units.Firm :=
  (Ev.Does.setHealth h v c).kept (Units.count_keepsLaws _ h v c hv hr) k

theorem Ev.purge_kept (h : Fin 32) (r : PurgeReason) (w : Option Int) (hs : ∀ s a, (e.units.head h).state ≠ .claimed s a)
    (hx : (e.units.head h).health < 256) (k : e.units.Firm) : (e.purge h r w).units.Firm :=
  (Ev.Does.purge h r w).kept (Units.purge_keepsLaws _ h r w hs hx) k

theorem Ev.feedStop_kept (h : Fin 32) (k : e.units.Firm) : (e.feedStop h).units.Firm :=
  (Ev.Does.feedStop h).kept (.plain (fun a ha => by rw [List.mem_singleton.1 ha]; exact fun _ _ => rfl)
    fun _ k => k.setHead h _ (fun _ _ => Iff.rfl) (k.sane h)) k

theorem Ev.feedIssue_kept (h : Fin 32) (k : e.units.Firm) : (e.feedIssue h).units.Firm :=
  (Ev.Does.feedIssue h).kept (Units.feed_keepsLaws _ h) k

theorem Ev.changeTrim_kept (z : Zone) (d : Int) (c : TrimCause) (h : Fin 32) (k : e.units.Firm) :
    (e.changeTrim z d c h).units.Firm := (Ev.Does.changeTrim z d c h).kept (Units.trim_keepsLaws _ z d c h) k

theorem dumpsAfter_kept {h : Fin 32} {m : Mark} : ∀ l : List Dump,
    (∀ d, (l.find? fun d => d.awaits h) = some d → (d.mark h m).complete = false) → (dumpsAfter h m l).length = l.length
  | [], _ => rfl
  | a :: rest, hc => by
    unfold dumpsAfter
    split
    · rename_i hw
      have := hc a (by rw [List.find?_cons, hw])
      rw [this]
      rfl
    · rename_i hw
      rw [List.length_cons, List.length_cons, dumpsAfter_kept rest fun d hd => hc d (by
        rw [List.find?_cons]; simp only [Bool.not_eq_true] at hw; rw [hw]; exact hd)]

/-- A side's release unit replaced, with the reservations that its dumps hold. -/
theorem Units.KeptAs.setRelease {u : Units} {n n' : Side → Nat} (k : u.KeptAs n) (side : Side) (r : ReleaseSide)
    (hr : ∀ s, n' s = (u.orders.get s).queue.length + (if s = side then r.dumps.length else (u.releases.get s).dumps.length)) :
    (u.setRelease side r).KeptAs n' := by
  refine ⟨k.claims, k.accepts, k.idle, k.out, k.range, k.timers, fun s => ?_⟩
  rw [hr, Units.setRelease_releases, PerSide.get_set]
  split <;> rfl

/-- A head's mark in its open dump gives back the reservation of a dump that it completes (R127, R128, R162). -/
theorem Units.markDump_keepsLaws (u : Units) (side : Side) (h : Fin 32) (m : Mark) : Effect.Keeps u (u.markDump side h m) := by
  intro n k
  unfold Units.markDump
  simp only
  refine k.setRelease side _ fun s => ?_
  have hr := k.reserved s
  cases hd : (u.releases.get side).dumps.find? fun d => d.awaits h with
  | none =>
    simp only [List.foldl_nil]
    rw [dumpsAfter_kept _ (by rw [hd]; nofun)]
    split
    · rename_i e; subst e; exact hr
    · exact hr
  | some d =>
    simp only
    cases hc : (d.mark h m).complete with
    | false =>
      simp only [Bool.false_eq_true, if_false, List.foldl_nil]
      rw [dumpsAfter_kept _ (by rw [hd]; rintro _ ⟨⟩; exact hc)]
      split
      · rename_i e; subst e; exact hr
      · exact hr
    | true =>
      have hl := Ev.Does.dumpsAfter_done _ hd hc
      simp only [if_true, List.foldl_cons, List.foldl_nil]
      show (if side = s then n s - 1 else n s) = _
      by_cases hs : s = side
      · subst hs
        rw [if_pos rfl, if_pos rfl]
        omega
      · rw [if_neg (fun c => hs c.symm), if_neg hs]
        exact hr

theorem Ev.markDump_kept (side : Side) (h : Fin 32) (m : Mark) (k : e.units.Firm) : (e.markDump side h m).units.Firm := by
  rcases Ev.Does.markDump_cases (e := e) side h m with ⟨d, -⟩ | ⟨f, d, hf, -⟩
  · exact d.kept (Units.markDump_keepsLaws _ side h m) k
  · rw [hf]
    exact f.releaseTest_kept side (d.kept (Units.markDump_keepsLaws _ side h m) k)

/-- The record of a head at entry to OUT, before its order or dump hears of it. -/
def Ev.outRecord (x : Head) : Head := { x with state := .out, timer := .stopped, frozen := none, bucket := none }

/-- A head that discharges to a side, with its counter at 256 and OUT. -/
theorem Ev.setOut_kept (h : Fin 32) (c : HealthCause) (hs : (e.units.head h).state.name ≠ .claimed) (k : e.units.Firm) :
    ((e.setHealth h 256 c).modHead h outRecord).units.Firm := by
  have d := (Ev.Does.setHealth (e := e) h 256 c).trans (f := fun u => (u.setHead h (outRecord (u.head h)), [])) (fun _ _ => rfl)
    (Ev.Does.modHead (e := e.setHealth h 256 c) (h := h) outRecord)
  refine d.kept ?_ k
  show Effect.Keeps _ ((((e.units.setHead h { e.units.head h with health := 256 })).setHead h _), e.units.levelActs h 256 c ++ [])
  rw [List.append_nil]
  refine .plain (e.units.levelActs_plain h 256 c) fun n k => ?_
  rw [Units.setHead_twice]
  refine k.setHead h _ (fun s' a => ⟨fun c => (by cases c), fun c => absurd (by rw [c]; rfl) hs⟩) ⟨?_, ?_, fun k c => False.elim c⟩
  · simp [Units.count_head, outRecord]
  · simp [Units.count_head, outRecord]

/-- The counter at 256, and with it entry to OUT (R22, R45, R49). -/
theorem Ev.goOut_kept (h : Fin 32) (c : HealthCause) (k : e.units.Firm) : ((e.setHealth h 256 c).enterOut h).units.Firm := by
  have hd := Ev.setHealth_head (e := e) h 256 c
  by_cases hb : ∃ s, (e.units.head h).state = .discharging (.bag s)
  · obtain ⟨s, hs⟩ := hb
    have hs' : ((e.setHealth h 256 c).units.head h).state = .discharging (.bag s) := by rw [hd]; exact hs
    unfold Ev.enterOut
    rw [hs']
    exact Ev.feedStop_kept h (Ev.setFlag_kept _ _ (Ev.markDump_kept s h _ (Ev.setOut_kept h c (by rw [hs]; nofun) k)))
  · refine ((Ev.Does.setHealth (e := e) h 256 c).trans (f := fun v => v.goOut h) (Units.goOut_blind h) (Ev.Does.enterOut h ?_ ?_)).kept
      (Units.countOut_keepsLaws _ h c fun s hs => hb ⟨s, hs⟩) k
    · rw [hd]
    · intro side hs
      rw [hd] at hs
      exact absurd ⟨side, hs⟩ hb

theorem Ev.raiseHealth_kept (h : Fin 32) (a : Nat) (c : HealthCause) (b : Bool) (k : e.units.Firm) :
    (e.raiseHealth h a c b).units.Firm := by
  unfold Ev.raiseHealth
  simp only
  split
  · exact k
  · rename_i hs
    have hs : (e.units.head h).state ≠ .out := fun c => hs (.inl c)
    split
    · rename_i hv
      rw [hv]
      exact Ev.goOut_kept h c k
    · rename_i hv
      have k1 := Ev.setHealth_kept h _ c ⟨fun x => absurd x hs, fun x => absurd x hv⟩ (Nat.min_le_left ..) k
      split
      · exact (Ev.Does.barredAction h).kept (Units.expel_keepsLaws _ h _ _) k1
      · exact k1

theorem Ev.lowerHealth_kept (h : Fin 32) (c : HealthCause) (hs : (e.units.head h).state ≠ .out) (k : e.units.Firm) :
    (e.lowerHealth h c).units.Firm := by
  unfold Ev.lowerHealth
  simp only
  split
  · exact k
  · have := k.below hs
    exact Ev.setHealth_kept h _ c ⟨fun x => absurd x hs, fun x => by omega⟩ (by omega) k

end Sys2Proof.Machine
end

