-- ==== Sys2Proof/Laws/ClaimsHeads.lean ====
section
/-! SUPPORT. The laws of Units.Kept through the head table's and the order unit's events: reports, expiries,
acceptances. -/

namespace Sys2Proof.Machine

variable {e : Ev}

/-- A purge of a head that is neither CLAIMED nor OUT. -/
theorem Units.purge_keeps_laws (u : Units) (h : Fin 32) (r : PurgeReason) (w : Option Int)
    (hs : (u.head h).state.name ≠ .claimed) (ho : (u.head h).state ≠ .out) : Effect.Keeps u (u.purge h r w) := fun n k =>
  u.purge_keepsLaws h r w (fun s a c => hs (by rw [c]; rfl)) (k.below ho) n k

/-- A raise of the counter of a head that discharges to no side (R44, R45). -/
theorem Units.raise_keepsLaws (u : Units) (h : Fin 32) (a : Nat) (c : HealthCause)
    (hb : ∀ s, (u.head h).state ≠ .discharging (.bag s)) : Effect.Keeps u (u.raise h a c) := by
  unfold Units.raise
  simp only
  split
  · exact .nil
  · rename_i hs
    have hs : (u.head h).state ≠ .out := fun c => hs (.inl c)
    have hc : ∀ v, v ≠ 256 → v ≤ 256 → Effect.Keeps u (u.count h v c) := fun v hv hr =>
      u.count_keepsLaws h v c ⟨fun x => absurd x hs, fun x => absurd x hv⟩ hr
    split
    · rename_i hv
      rw [hv]
      exact u.countOut_keepsLaws h c hb
    · rename_i hv
      split
      · exact (hc _ hv (Nat.min_le_left ..)).andThen (f := fun w => w.expel h .barred .barred) (Units.expel_keepsLaws _ h _ _)
      · exact hc _ hv (Nat.min_le_left ..)

theorem Units.disturb_keepsLaws (u : Units) (h : Fin 32) (hb : ∀ s, (u.head h).state ≠ .discharging (.bag s)) :
    Effect.Keeps u (u.disturb h) := by
  unfold Units.disturb
  refine (u.raise_keepsLaws h 8 .disturbed hb).andThen ?_
  split
  · rename_i hs
    exact Units.purge_keeps_laws _ h _ _ (by rw [hs]; nofun) (by rw [hs]; nofun)
  · exact Units.expel_keepsLaws _ h _ _

theorem Ev.disturb_kept (h : Fin 32) (hb : ∀ s, (e.units.head h).state ≠ .discharging (.bag s)) (k : e.units.Firm) :
    (e.disturb h).units.Firm :=
  (Ev.Does.disturb h fun _ side hs => absurd hs (hb side)).kept (Units.disturb_keepsLaws _ h hb) k

/-- A head's timer restarted as the cycle state asks. -/
theorem Ev.startTimer_kept (h : Fin 32) (t : TimerKind) (ht : t.fits (e.units.head h).state.name) (k : e.units.Firm) :
    (e.startTimer h t).units.Firm :=
  Units.KeptAs.setHead k h _ (fun _ _ => Iff.rfl) ⟨k.out h, k.range h, fun k c => by
    have : t = k := c
    subst this; exact ht⟩

/-- A head that goes from one unclaimed state to another. -/
theorem Ev.moved_kept (h : Fin 32) (f : Head → Head) (h1 : (e.units.head h).state.name ≠ .claimed)
    (h2 : (f (e.units.head h)).state.name ≠ .claimed) (h3 : (f (e.units.head h)).sane) (k : e.units.Firm) :
    (e.modHead h f).units.Firm :=
  Units.KeptAs.setHead k h _ (fun s a => ⟨fun c => absurd (by rw [c]; rfl) h2, fun c => absurd (by rw [c]; rfl) h1⟩) h3

/-- A head that goes to EMPTY or READY from an unclaimed state. -/
theorem Ev.enterWatched_kept (h : Fin 32) (c : CycleState) (hc : c = .empty ∨ c = .ready)
    (h1 : (e.units.head h).state.name ≠ .claimed) (ho : (e.units.head h).state ≠ .out) (k : e.units.Firm) :
    (e.enterWatched h c).units.Firm ∧ ((e.enterWatched h c).units.head h).state = c := by
  have d := Ev.Does.enterWatched (e := e) h c
  constructor
  · refine d.kept (.plain (fun a ha => by cases ha) fun n k => k.setHead h _ (fun s a => ?_) (Head.watched_sane _ _ _ ?_ (k.below ho))) k
    · constructor
      · intro x; rcases hc with rfl | rfl <;> cases x
      · intro x; rw [x] at h1; exact absurd rfl h1
    · rcases hc with rfl | rfl
      · exact .inl rfl
      · exact .inr (.inl rfl)
  · rw [d.units]
    show ((e.units.setHead h _).head h).state = _
    rw [Units.head_setHead, if_pos rfl]
    rfl

theorem Ev.leaveDischarge_kept (h : Fin 32) (hd : (e.units.head h).state.name = .discharging) (k : e.units.Firm) :
    (e.leaveDischarge h).units.Firm ∧ (((e.leaveDischarge h).units.head h).state = .empty ∨
      ((e.leaveDischarge h).units.head h).state = .stopped) := by
  have ho : (e.units.head h).state ≠ .out := fun c => by rw [c] at hd; cases hd
  have hb := k.below ho
  have d := Ev.Does.leaveDischarge (e := e) h
  constructor
  · refine d.kept (.plain (fun a ha => by cases ha) fun n k => k.setHead h _ (fun s a => ?_) ?_) k
    · constructor
      · intro c; split at c <;> cases c
      · intro c; rw [c] at hd; cases hd
    · split
      · exact Head.watched_sane _ _ _ (.inl rfl) hb
      · exact ⟨⟨fun c => (by cases c), fun c => absurd c (Nat.ne_of_lt hb)⟩, Nat.le_of_lt hb, fun k c => False.elim c⟩
  · rw [d.units]
    show ((e.units.setHead h _).head h).state = _ ∨ ((e.units.setHead h _).head h).state = _
    rw [Units.head_setHead, if_pos rfl]
    split
    · exact .inl rfl
    · exact .inr rfl

theorem Ev.gateClosed_kept (h : Fin 32) (echo : BitVec 4) (k : e.units.Firm) : (e.gateClosed h echo).units.Firm := by
  unfold Ev.gateClosed
  simp only
  split
  · rename_i d hd
    split
    · exact k
    · obtain ⟨k1, hs⟩ := Ev.leaveDischarge_kept (e := e) h (by rw [hd]; rfl) k
      have ho : ((e.leaveDischarge h).units.head h).state ≠ .out := by
        rcases hs with c | c <;> rw [c] <;> nofun
      have k2 : (if d = .reject .recover then e.leaveDischarge h else (e.leaveDischarge h).lowerHealth h .confirm).units.Firm := by
        split
        · exact k1
        · exact Ev.lowerHealth_kept h _ ho k1
      split
      · exact Ev.markDump_kept _ h _ k2
      · exact k2
  · exact k

theorem Ev.poolDrop_kept (h : Fin 32) (k : e.units.Firm) : (e.poolDrop h).units.Firm := by
  have hp : ∀ f : Ev, f.units.Firm → (f.modHead h fun x => { x with pool := none }).units.Firm := fun f =>
    Ev.modHead_kept h _ fun _ => ⟨rfl, rfl, rfl⟩
  unfold Ev.poolDrop
  refine Ev.feedIssue_kept h ?_
  cases hs : (e.units.head h).state with
  | empty =>
    simp only
    have hb := k.below (h := h) (by rw [hs]; nofun)
    show ((e.modHead h _).modHead h _).units.Firm
    have hm : ∀ f g : Head → Head, ((e.modHead h f).modHead h g).units = (e.modHead h fun x => g (f x)).units := fun f g => by
      show (e.units.setHead h _).setHead h (g ((e.units.setHead h _).head h)) = _
      rw [Units.head_setHead, if_pos rfl, Units.setHead_twice]
      rfl
    rw [hm]
    refine Ev.moved_kept h _ (by rw [hs]; nofun) nofun ⟨⟨fun c => (by cases c), fun c => absurd c (Nat.ne_of_lt hb)⟩, Nat.le_of_lt hb, fun k c => ?_⟩ k
    have : TimerKind.settle = k := c
    subst this; rfl
  | settling => exact hp _ (Ev.disturb_kept h (by rw [hs]; nofun) k)
  | ready => exact hp _ (Ev.disturb_kept h (by rw [hs]; nofun) k)
  | claimed s a => exact hp _ (Ev.disturb_kept h (by rw [hs]; nofun) k)
  | stopped =>
    simp only
    split
    · exact hp _ k
    · exact Ev.disturb_kept h (by rw [hs]; nofun) k
  | discharging d => exact hp _ k
  | out => exact k
  | disabled => exact k

theorem Ev.trackZero_kept (h : Fin 32) (w : Int) (seq : BitVec 8) (k : e.units.Firm) : (e.trackZero h w seq).units.Firm := by
  unfold Ev.trackZero
  simp only
  split
  · exact Ev.modHead_kept h _ (fun _ => ⟨rfl, rfl, rfl⟩) k
  · exact Ev.raiseHealth_kept h _ _ _ (Ev.headNotice_kept _ _ k)

theorem Head.learn_same (x : Head) (net : Int) :
    (x.learn net).state = x.state ∧ (x.learn net).health = x.health ∧ (x.learn net).timer = x.timer := by
  unfold Head.learn
  split <;> exact ⟨rfl, rfl, rfl⟩

theorem Ev.settle_kept (h : Fin 32) (net : Int) (hs : (e.units.head h).state = .settling) (k : e.units.Firm) :
    (e.settle h net).units.Firm := by
  have k1 : (e.modHead h fun x => x.learn net).units.Firm := Ev.modHead_kept h _ (fun x => x.learn_same net) k
  have s1 : ((e.modHead h fun x => x.learn net).units.head h).state = .settling := by
    show ((e.units.setHead h _).head h).state = _
    rw [Units.head_setHead, if_pos rfl, (Head.learn_same _ net).1, hs]
  have off : ∀ d c r, (e.settlePurge h net d c r).units.Firm := by
    intro d c r
    unfold Ev.settlePurge
    simp only
    split
    · rename_i z hz
      have hh : (((e.modHead h fun x => x.learn net).changeTrim z d c h).units.head h).state = .settling := by
        rw [(Ev.Does.changeTrim z d c h).units]
        show (((Units.trim _ z d c h).1).head h).state = _
        rw [show (Units.trim _ z d c h).1.head h = _ from Units.trim_keeps _ z d c h (.head h) (by simp), s1]
      have k2 := Ev.changeTrim_kept z d c h k1
      exact Ev.purge_kept h r _ (by rw [hh]; nofun) (k2.below (by rw [hh]; nofun)) k2
    · exact Ev.purge_kept h r _ (by rw [s1]; nofun) (k1.below (by rw [s1]; nofun)) k1
  unfold Ev.settle
  simp only
  split
  · exact off _ _ _
  · split
    · exact off _ _ _
    · unfold Ev.settleReady
      simp only
      have k2 := Ev.lowerHealth_kept h .fill (by rw [s1]; nofun) k1
      have s2 : (((e.modHead h fun x => x.learn net).lowerHealth h .fill).units.head h).state = .settling := by
        rw [(Ev.Does.lowerHealth h .fill).units]
        show (((Units.lower _ h .fill).1).head h).state = _
        unfold Units.lower
        rw [Units.count_head]
        exact s1
      generalize (e.modHead h fun x => x.learn net).lowerHealth h .fill = f at k2 s2
      have k3 := Ev.modHead_kept h (fun x => { x with frozen := some net, age := 0 }) (fun _ => ⟨rfl, rfl, rfl⟩) k2
      have s3 : ((f.modHead h fun x => { x with frozen := some net, age := 0 }).units.head h).state = .settling := by
        show ((f.units.setHead h _).head h).state = _
        rw [Units.head_setHead, if_pos rfl, s2]
      have k3 := Ev.enterWatched_kept h .ready (.inr rfl) (by rw [s3]; nofun) (by rw [s3]; nofun) k3
      split
      · exact Ev.purge_kept h _ _ (by rw [k3.2]; nofun) (k3.1.below (by rw [k3.2]; nofun)) k3.1
      · exact k3.1

theorem Ev.useWeight_kept (h : Fin 32) (w : Int) (seq : BitVec 8) (dropped : Bool) (k : e.units.Firm) :
    (e.useWeight h w seq dropped).units.Firm := by
  have k1 := Ev.modHead_kept (e := e) h (fun x => { x with lastStable := some w }) (fun _ => ⟨rfl, rfl, rfl⟩) k
  unfold Ev.useWeight
  simp only
  generalize e.modHead h (fun x => { x with lastStable := some w }) = f at k1
  cases hs : (f.units.head h).state with
  | empty | stopped =>
    simp only
    split
    · exact k1
    · exact Ev.trackZero_kept h _ _ k1
  | settling => exact Ev.settle_kept h _ hs k1
  | ready | claimed s a =>
    simp only
    split
    · exact k1
    · split
      · exact Ev.disturb_kept h (by rw [hs]; nofun) k1
      · exact k1
  | discharging d => exact k1
  | out => exact k1
  | disabled => exact k1

theorem Ev.restartSilence_kept (h : Fin 32) (k : e.units.Firm) : (e.restartSilence h).units.Firm := by
  unfold Ev.restartSilence
  simp only
  split
  · rename_i hc
    simp only [Bool.and_eq_true, Bool.or_eq_true, decide_eq_true_eq] at hc
    exact Ev.startTimer_kept h .silence (or_assoc.1 hc.2) k
  · exact k

/-- Drain complete: nothing is queued, so that no head is CLAIMED (R156). -/
theorem Units.drainEnd_keepsLaws (u : Units) : Effect.Keeps u u.drainEnd := by
  unfold Units.drainEnd
  split
  · rename_i hd
    have hq : ∀ s, (u.orders.get s).queue = [] := by
      have := hd.2
      unfold Units.drained at this
      simp only [Bool.and_eq_true, List.isEmpty_iff] at this
      intro s
      cases s
      · exact this.1.1.1.1
      · exact this.1.1.1.2
    have g1 := u.mapHeads_head fun _ x => if stopsAtDrain x.state.name then x.halted else x
    have g5 : ∃ w, u.mapHeads (fun _ x => if stopsAtDrain x.state.name then x.halted else x) = w := ⟨_, rfl⟩
    obtain ⟨w, hw⟩ := g5
    rw [hw] at g1
    simp only [hw]
    refine .plain (fun a ha => ?_) fun n k => ?_
    · simp only [List.mem_cons, List.not_mem_nil, or_false] at ha
      rcases ha with rfl | rfl | rfl <;> exact fun _ _ => rfl
    · refine k.heads (fun s => ?_) (fun s => ?_) (fun _ => hq) fun h => ?_
      · cases s
        · exact ⟨by rw [show PerSide.get _ Side.a = u.orders.a.effect from rfl, (OrderSide.effect_queue _).1]; rfl, (OrderSide.effect_queue u.orders.a).2⟩
        · exact ⟨by rw [show PerSide.get _ Side.b = u.orders.b.effect from rfl, (OrderSide.effect_queue _).1]; rfl, (OrderSide.effect_queue u.orders.b).2⟩
      · cases s <;> rfl
      · show (∀ s a, (w.head h).state = _ ↔ _) ∧ (w.head h).sane
        rw [g1]
        split
        · rename_i hs
          have hn : (u.head h).state ≠ .out := fun c => by rw [c] at hs; cases hs
          have hb := k.below hn
          refine ⟨fun s a => ⟨fun c => (by cases c), fun c => ?_⟩,
            ⟨fun c => (by cases c), fun c => absurd c (Nat.ne_of_lt hb)⟩, Nat.le_of_lt hb, fun k c => False.elim c⟩
          rw [c] at hs; cases hs
        · exact ⟨fun _ _ => Iff.rfl, k.sane h⟩
  · exact .nil

theorem Ev.drainTest_kept (k : e.units.Firm) : e.drainTest.units.Firm :=
  (Ev.Does.drainTest (e := e)).kept (Units.drainEnd_keepsLaws _) k

theorem Ev.takeReport_kept (r : ReportHeader) (k : e.units.Firm) : (e.takeReport r).units.Firm := by
  have k1 := Ev.modHead_kept (e := e) r.head (fun x => { x with lastSeq := some r.seq }) (fun _ => ⟨rfl, rfl, rfl⟩) k
  unfold Ev.takeReport
  simp only
  refine Ev.drainTest_kept (Ev.restartSilence_kept r.head ?_)
  have k2 : (if r.boardFault = true then (e.modHead r.head fun x => { x with lastSeq := some r.seq }).raiseHealth r.head 32 .boardFault true
      else e.modHead r.head fun x => { x with lastSeq := some r.seq }).units.Firm := by
    split
    · exact Ev.raiseHealth_kept _ _ _ _ k1
    · exact k1
  generalize (if r.boardFault = true then (e.modHead r.head fun x => { x with lastSeq := some r.seq }).raiseHealth r.head 32 .boardFault true
      else e.modHead r.head fun x => { x with lastSeq := some r.seq }) = f at k2
  have k3 : (if r.gateClosed = true then f.gateClosed r.head r.echo else f).units.Firm := by
    split
    · exact Ev.gateClosed_kept _ _ k2
    · exact k2
  generalize (if r.gateClosed = true then f.gateClosed r.head r.echo else f) = f at k3
  have k4 : (if r.poolDrop = true then f.poolDrop r.head else f).units.Firm := by
    split
    · exact Ev.poolDrop_kept _ k3
    · exact k3
  generalize (if r.poolDrop = true then f.poolDrop r.head else f) = f at k4
  split
  · exact Ev.useWeight_kept _ _ _ _ k4
  · exact k4

theorem Ev.setStage_kept (g : Option WriteGroup) (k : e.units.Firm) : (e.units.setStage g).Firm :=
  Units.Firm.same k rfl (fun _ => rfl) rfl (fun _ => rfl) fun _ => rfl

theorem Ev.reportHeaderWrite_kept (slot : Nat) (w : Word) (k : e.units.Firm) : (e.reportHeaderWrite slot w).units.Firm := by
  refine Ev.setStage_kept (e := e.reportOutcome slot (reportHeader w)) none ?_
  unfold Ev.reportOutcome
  split
  · exact Ev.headNotice_kept _ _ k
  · exact Ev.drainTest_kept (Ev.raiseHealth_kept _ _ _ _ (Ev.headNotice_kept _ _ k))
  · exact Ev.headNotice_kept _ _ (Ev.modHead_kept _ _ (fun _ => ⟨rfl, rfl, rfl⟩) k)
  · exact k
  · exact Ev.takeReport_kept _ k

/-- What an accepted order claims: heads that are READY, each listed once, while the part is RUNNING (R104 to R106). -/
theorem judgeOrder_claims {u : Units} {side : Side} {slot : Nat} {w : Word} {position : Nat} {heads : List (Fin 32)} {total : Int}
    (hc : u.headCount ≤ 32) (h : judgeOrder u side slot w = (.accepted position, heads, total)) :
    u.part = .running ∧ heads.Nodup ∧ ∀ g, g ∈ heads → (u.head g).state = .ready := by
  unfold judgeOrder at h
  simp only at h
  split at h
  · cases h
  rename_i hp
  split at h
  · cases h
  split at h
  · cases h
  split at h
  · cases h
  split at h
  · cases h
  split at h
  · rename_i v hv
    cases h
    exact absurd rfl (judgeHeads_ne_accepted _ _ _ _ hv position)
  rename_i hj
  obtain ⟨h1, h2, h3⟩ := (judgeHeads_eq_none _ _ _).1 hj
  simp only [Prod.mk.injEq] at h
  obtain ⟨-, rfl, -⟩ := h
  refine ⟨by simpa using hp, ?_, fun g hg => (h3 g hg).1⟩
  refine List.Nodup.map_on (fun a ha b hb e => ?_) h1
  have ha := (h2 a ha).1
  have hb := (h2 b hb).1
  have : a % 32 = b % 32 := congrArg Fin.val e
  omega

/-- Units in which one more order is queued, its heads CLAIMED (R108, R109). -/
theorem Units.KeptAs.claimed {u v : Units} {n n' : Side → Nat} (k : u.KeptAs n) (side : Side) (o : OrderRec)
    (hn : o.heads.Nodup) (hr : ∀ g, g ∈ o.heads → (u.head g).state = .ready) (ha : u.active = true) (hva : v.active = u.active)
    (hk : o.accept = (u.orders.get side).accepts)
    (hq : (v.orders.get side).queue = (u.orders.get side).queue ++ [o] ∧ (v.orders.get side).accepts = (u.orders.get side).accepts + 1)
    (hq' : ∀ s, s ≠ side → v.orders.get s = u.orders.get s)
    (hh : ∀ g, v.head g = if g ∈ o.heads then (u.head g).watched (.claimed side o.accept) (u.params g).silenceLimit else u.head g)
    (hs : ∀ s, n' s = (v.orders.get s).queue.length + (v.releases.get s).dumps.length) : v.KeptAs n' := by
  have hlt : ∀ p, p ∈ (u.orders.get side).queue → p.accept ≠ o.accept := fun p hp => by
    have := ((k.accepts side).2 p hp).1
    omega
  refine ⟨fun h s a => ?_, fun s => ?_, fun c => (by rw [hva, ha] at c; cases c), fun h => ?_, fun h => ?_, fun h t => ?_, hs⟩
  · rw [hh]
    by_cases hm : h ∈ o.heads
    · rw [if_pos hm]
      constructor
      · intro c
        cases c
        exact ⟨o, by rw [hq.1]; simp, rfl, hm⟩
      · rintro ⟨p, hp, rfl, hl⟩
        by_cases hS : s = side
        · subst hS
          rw [hq.1, List.mem_append, List.mem_singleton] at hp
          rcases hp with hp | rfl
          · have := k.listed hp hl
            rw [hr h hm] at this; cases this
          · rfl
        · rw [hq' s hS] at hp
          have := k.listed hp hl
          rw [hr h hm] at this; cases this
    · rw [if_neg hm, k.claims]
      constructor
      · rintro ⟨p, hp, h1, h2⟩
        refine ⟨p, ?_, h1, h2⟩
        by_cases hS : s = side
        · subst hS; rw [hq.1]; exact List.mem_append_left _ hp
        · rw [hq' s hS]; exact hp
      · rintro ⟨p, hp, h1, h2⟩
        by_cases hS : s = side
        · subst hS
          rw [hq.1, List.mem_append, List.mem_singleton] at hp
          rcases hp with hp | rfl
          · exact ⟨p, hp, h1, h2⟩
          · exact absurd h2 hm
        · rw [hq' s hS] at hp
          exact ⟨p, hp, h1, h2⟩
  · by_cases hS : s = side
    · subst hS
      rw [hq.1, hq.2]
      refine ⟨?_, fun p hp => ?_⟩
      · rw [List.map_append, List.nodup_append]
        refine ⟨(k.accepts s).1, by simp, fun a ha b hb => ?_⟩
        obtain ⟨p, hp, rfl⟩ := List.mem_map.1 ha
        simp only [List.map_cons, List.map_nil, List.mem_singleton] at hb
        subst hb
        exact hlt p hp
      · rw [List.mem_append, List.mem_singleton] at hp
        rcases hp with hp | rfl
        · exact ⟨Nat.lt_succ_of_lt ((k.accepts s).2 p hp).1, ((k.accepts s).2 p hp).2⟩
        · exact ⟨by omega, hn⟩
    · rw [hq' s hS]; exact k.accepts s
  · have hx := k.sane h
    rw [hh]
    split
    · rename_i hm
      exact (Head.watched_sane _ _ _ (.inr (.inr rfl)) (k.below (by rw [hr h hm]; nofun))).1
    · exact hx.1
  · have hx := k.range h
    rw [hh]
    split <;> exact hx
  · rw [hh]
    split
    · rename_i hm
      exact (Head.watched_sane _ _ _ (.inr (.inr rfl)) (k.below (h := h) (by rw [hr h hm]; nofun))).2.2 t
    · exact k.timers h t

theorem Units.released_head (u : Units) (f : Fin 32 → Head → Head) (side : Side) (z : Zone) (x : ZoneRec) (q : OrderSide)
    (r : ReleaseSide) (g : Fin 32) :
    ((((u.mapHeads f).setZone z x).setOrder side q).setRelease side r).head g = f g (u.head g) := by
  rw [Units.setRelease_head, Units.setOrder_head, Units.setZone_head, Units.mapHeads_head]

/-- A release changes no counter. -/
theorem Units.release_health (u : Units) (side : Side) (z : Zone) (o : OrderRec) (kept : Fin 32 → Bool) (g : Fin 32) :
    ((u.release side z o kept).1.head g).health = (u.head g).health := by
  unfold Units.release
  rw [Units.released_head]
  split
  · rfl
  · split
    · split <;> rfl
    · rfl

theorem Ev.accept_kept (s : Side) (tag : BitVec 16) (heads : List (Fin 32)) (total : Int) (hn : heads.Nodup)
    (hr : ∀ g, g ∈ heads → (e.units.head g).state = .ready) (hp : e.units.part = .running) (k : e.units.Firm) :
    (e.accept s tag heads total).units.Firm := by
  unfold Ev.accept
  simp only
  obtain ⟨i1, -, -, -, -, i6, i7, i8, i9, -⟩ :=
    Ev.claimHeads_head e.units (.claimed s (e.units.orders.get s).accepts) heads e fun _ => rfl
  generalize e.eachHead heads (fun h e' => e'.enterWatched h (.claimed s (e.units.orders.get s).accepts)) = f at i1 i6 i7 i8 i9
  have hpart : f.units.part = e.units.part := (i6 .part (by simp)).1
  obtain ⟨o, ho⟩ : ∃ o : OrderRec, o =
    { accept := (f.units.orders.get s).accepts, tag := tag, heads := heads, total := total,
      target := ((e.units.orders.get s).live.map SideBlock.bagTarget).getD 0, hold := .running (((e.units.orders.get s).live.map SideBlock.holdLimit).getD 0) } := ⟨_, rfl⟩
  have k2 : ((f.modOrder s fun q => { q with accepts := q.accepts + 1, queue := q.queue ++
      [{ accept := q.accepts, tag := tag, heads := heads, total := total,
         target := ((e.units.orders.get s).live.map SideBlock.bagTarget).getD 0,
         hold := .running (((e.units.orders.get s).live.map SideBlock.holdLimit).getD 0) }] }).modNotice s
      fun n => { n with reservations := n.reservations + 1 }).units.Firm := by
    refine Units.KeptAs.claimed (n := fun side => (e.units.notices.get side).reservations) k s o ?_ ?_ ?_ ?_ ?_ ⟨?_, ?_⟩ ?_ ?_ ?_
    · rw [ho]; exact hn
    · rw [ho]; exact hr
    · unfold Units.active; rw [hp]; rfl
    · show (decide (f.units.part = .running) || decide (f.units.part = .draining)) = _
      rw [hpart]; rfl
    · rw [ho, i8]
    · simp [ho, i8]
    · simp [i8]
    · intro t ht
      simp [ht, i8]
    · intro g
      have : (((f.modOrder s fun q => { q with accepts := q.accepts + 1, queue := q.queue ++
      [{ accept := q.accepts, tag := tag, heads := heads, total := total,
         target := ((e.units.orders.get s).live.map SideBlock.bagTarget).getD 0,
         hold := .running (((e.units.orders.get s).live.map SideBlock.holdLimit).getD 0) }] }).modNotice s
      fun n => { n with reservations := n.reservations + 1 }).units.head g) = f.units.head g := rfl
      rw [this, i1, ho, i8]
    · intro t
      have := k.reserved t
      by_cases ht : t = s
      · subst ht
        simp [i7, i8, i9]
        omega
      · simp [ht, i7, i8, i9]
        exact this
  split
  · exact Ev.doRelease_kept _ s k2
  · exact k2

/-- A side's order unit changed in nothing that the laws speak of. -/
theorem Ev.modOrder_kept (s : Side) (f : OrderSide → OrderSide) (hf : ∀ q, (f q).queue = q.queue ∧ (f q).accepts = q.accepts)
    (k : e.units.Firm) : (e.modOrder s f).units.Firm := by
  refine Units.KeptAs.heads k (fun t => ?_) (fun _ => rfl) k.idle fun h => ⟨fun _ _ => Iff.rfl, k.sane h⟩
  rw [Ev.modOrder_units, Units.setOrder_orders, PerSide.get_set]
  split
  · rename_i c; subst c
    rw [(hf _).1, (hf _).2]; exact ⟨rfl, rfl⟩
  · exact ⟨rfl, rfl⟩

theorem Ev.commit_kept (s : Side) (slot : Nat) (w : Word) (hc : e.units.headCount ≤ 32) (k : e.units.Firm) :
    (e.commit s slot w).units.Firm := by
  unfold Ev.commit
  refine Ev.modOrder_kept s _ (fun _ => ⟨rfl, rfl⟩) ?_
  split
  · cases hj : judgeOrder e.units s slot w with
    | mk v r =>
      obtain ⟨heads, total⟩ := r
      simp only
      cases v with
      | accepted position =>
        obtain ⟨h1, h2, h3⟩ := judgeOrder_claims hc hj
        exact Ev.accept_kept s _ heads total h2 h3 h1 k
      | refused r p => exact k
  · exact k

theorem Ev.holdExpiry_kept (s : Side) (a : Nat) (k : e.units.Firm) : (e.holdExpiry s a).units.Firm := by
  cases hf : (e.units.orders.get s).queue.find? fun o => o.accept = a with
  | none => unfold Ev.holdExpiry; rw [hf]; exact k
  | some o =>
    refine (Ev.Does.holdExpiry s a o hf).kept (.andThen ?_ (Units.drainEnd_keepsLaws _)) k
    have ho : o ∈ (e.units.orders.get s).queue := List.mem_of_find?_eq_some hf
    have hoa : o.accept = a := by simpa using List.find?_some hf
    subst hoa
    intro n k
    have g1 := e.units.mapHeads_head fun h x => if h ∈ o.heads then x.watched .ready (e.units.params h).silenceLimit else x
    have g2 := e.units.mapHeads_orders fun h x => if h ∈ o.heads then x.watched .ready (e.units.params h).silenceLimit else x
    have g3 := e.units.mapHeads_releases fun h x => if h ∈ o.heads then x.watched .ready (e.units.params h).silenceLimit else x
    have g4 := e.units.mapHeads_part fun h x => if h ∈ o.heads then x.watched .ready (e.units.params h).silenceLimit else x
    obtain ⟨v, hv⟩ : ∃ v, v = e.units.mapHeads fun h x => if h ∈ o.heads then x.watched .ready (e.units.params h).silenceLimit else x := ⟨_, rfl⟩
    rw [← hv] at g1 g2 g3 g4
    rw [← hv]
    have hl := k.filter_length ho
    refine k.remove ho ?_ (fun t ht => ?_) (fun t => ?_) ?_ (fun h => ?_) (fun t => ?_)
    · simp
    · simp [ht, g2]
    · simp only [Units.setOrder_orders, PerSide.get_set]
      split
      · rename_i c; subst c; rfl
      · rw [g2]
    · show (decide (v.part = .running) || decide (v.part = .draining)) = _
      rw [g4]; rfl
    · show (_ → ∀ s a, (v.head h).state ≠ _) ∧ (_ → ∀ s a, (v.head h).state = _ ↔ _) ∧ (v.head h).sane
      rw [g1]
      by_cases hm : h ∈ o.heads
      · rw [if_pos hm]
        exact ⟨fun _ _ _ c => (by cases c), fun c => absurd hm c, Head.watched_sane _ _ _ (.inr (.inl rfl))
          (k.below (by rw [k.listed ho hm]; nofun))⟩
      · rw [if_neg hm]
        exact ⟨fun c => absurd c hm, fun _ _ _ => Iff.rfl, k.sane h⟩
    · have hr := k.reserved t
      show (if s = t then n t - 1 else n t) = _
      by_cases ht : t = s
      · subst ht
        simp only [if_true, Units.setOrder_orders, PerSide.get_set, Units.setOrder_releases, g3]
        omega
      · rw [if_neg (fun c => ht c.symm)]
        simp [ht, g2, g3, hr]

/-- A head after an operation that has an effect. -/
theorem Ev.Does.head {e' : Ev} {r : Effect} (d : e.Does e' r) (g : Fin 32) : e'.units.head g = r.1.head g := by
  rw [d.units, Units.withNotices_head]

theorem Ev.releaseTest_health (s : Side) (k : e.units.Firm) (g : Fin 32) :
    ((e.releaseTest s).units.head g).health = (e.units.head g).health := by
  unfold Ev.releaseTest
  split
  · split
    · cases hq : (e.units.orders.get s).queue with
      | nil => unfold Ev.doRelease; rw [hq]
      | cons o rest =>
        cases hz : e.units.binding s with
        | none => unfold Ev.doRelease; rw [hq, hz]
        | some z =>
          obtain ⟨kept, -, -, d⟩ := Ev.Does.doRelease (e := e) s z o rest hz hq ((k.accepts s).2 o (by rw [hq]; simp)).2
          rw [d.head g]
          exact Units.release_health _ s z o kept g
    · rfl
  · rfl

theorem Ev.markDump_health (s : Side) (h : Fin 32) (m : Mark) (k : e.units.Firm) (g : Fin 32) :
    ((e.markDump s h m).units.head g).health = (e.units.head g).health := by
  have hh : ((e.units.markDump s h m).1.head g) = e.units.head g := Units.markDump_keeps _ s h m (.head g) (by simp)
  rcases Ev.Does.markDump_cases (e := e) s h m with ⟨d, -⟩ | ⟨f, d, hf, -⟩
  · rw [d.head, hh]
  · rw [hf, Ev.releaseTest_health s (d.kept (Units.markDump_keepsLaws _ s h m) k), d.head, hh]

/-- The counter at 256 takes a head OUT. -/
theorem Ev.goOut_state (h : Fin 32) (c : HealthCause) (hs : (e.units.head h).state.name ≠ .claimed) (k : e.units.Firm) :
    (((e.setHealth h 256 c).enterOut h).units.head h).state = .out := by
  refine ((Ev.goOut_kept h c k).out h).2 ?_
  have hd := Ev.setHealth_head (e := e) h 256 c
  by_cases hb : ∃ s, (e.units.head h).state = .discharging (.bag s)
  · obtain ⟨t, ht⟩ := hb
    have k2 := Ev.setOut_kept h c hs k
    have hm := Ev.markDump_health t h .unconfirmed k2 h
    have he : (e.setHealth h 256 c).enterOut h = ((((e.setHealth h 256 c).modHead h outRecord).markDump t h .unconfirmed).setFlag
        ((((e.setHealth h 256 c).modHead h outRecord).markDump t h .unconfirmed).units.reportingHead h) .headOut).feedStop h := by
      unfold Ev.enterOut
      rw [hd, ht]
      rfl
    rw [he]
    generalize ((e.setHealth h 256 c).modHead h outRecord).markDump t h .unconfirmed = f at hm
    rw [(Ev.Does.feedStop h).head, Units.head_setHead, if_pos rfl]
    show (f.units.head h).health = 256
    rw [hm, Ev.modHead_units, Units.head_setHead, if_pos rfl, hd]
    rfl
  · rw [(Ev.Does.enterOut h (by rw [hd]) fun t ht => absurd ⟨t, by rw [hd] at ht; exact ht⟩ hb).head, Units.goOut_head]
    rfl

/-- A raise takes a head that is neither READY nor CLAIMED to OUT or leaves its cycle state. -/
theorem Ev.raiseHealth_state (h : Fin 32) (a : Nat) (c : HealthCause) (b : Bool) (h1 : (e.units.head h).state.name ≠ .ready)
    (h2 : (e.units.head h).state.name ≠ .claimed) (k : e.units.Firm) :
    ((e.raiseHealth h a c b).units.head h).state = .out ∨ ((e.raiseHealth h a c b).units.head h).state = (e.units.head h).state := by
  unfold Ev.raiseHealth
  simp only
  split
  · exact .inr rfl
  · rename_i hs
    split
    · rename_i hv
      rw [hv]
      exact .inl (Ev.goOut_state h c h2 k)
    · have hsame : ((e.setHealth h (min Config.healthOut ((e.units.head h).health + a)) c).units.head h).state = (e.units.head h).state := by
        rw [Ev.setHealth_head]
      right
      split
      · rw [(Ev.Does.barredAction h).head, Units.expel_none _ h _ _ (by rw [hsame]; exact h1) (by rw [hsame]; exact h2)]
        exact hsame
      · exact hsame

theorem Ev.expire_kept (h : Fin 32) (t : TimerKind) (ht : t.fits (e.units.head h).state.name) (k : e.units.Firm) :
    (e.expire h t).units.Firm := by
  unfold Ev.expire
  refine Ev.drainTest_kept ?_
  cases t with
  | settle =>
    have hs : (e.units.head h).state = .settling := by
      have : (e.units.head h).state.name = .settling := ht
      cases c : (e.units.head h).state <;> rw [c] at this <;> first | rfl | cases this
    show (e.settleExpiry h).units.Firm
    unfold Ev.settleExpiry
    simp only
    have k1 := Ev.raiseHealth_kept h 8 .settle true k
    split
    · exact k1
    · rename_i ho
      rcases Ev.raiseHealth_state h 8 .settle true (by rw [hs]; nofun) (by rw [hs]; nofun) k with c | c
      · exact absurd c ho
      · exact Ev.purge_kept h _ _ (by rw [c, hs]; nofun) (k1.below ho) k1
  | silence => exact Ev.raiseHealth_kept h _ _ _ (Ev.startTimer_kept h .silence ht k)
  | gate =>
    show (e.gateExpiry h).units.Firm
    unfold Ev.gateExpiry
    simp only
    split
    · rename_i d hd
      split
      · exact Ev.raiseHealth_kept _ _ _ _ k
      · have k1 := Ev.raiseHealth_kept h 32 .gate true k
        split
        · exact k1
        · rename_i ho
          rcases Ev.raiseHealth_state h 32 .gate true (by rw [hd]; nofun) (by rw [hd]; nofun) k with c | c
          · exact absurd c ho
          · generalize e.raiseHealth h 32 .gate true = f at k1 c
            have k2 := Ev.modHead_kept h (fun x => { x with gateSeq := x.gateSeq + 1, retryUsed := true }) (fun _ => ⟨rfl, rfl, rfl⟩) k1
            refine Ev.startTimer_kept (e := (f.modHead h _).gateCommand h d 0) h .gate ?_ ?_
            rotate_left
            · exact Ev.act_kept (.write ⟨_, _⟩) (fun _ _ => rfl) k2
            show CycleState.name ((f.units.setHead h _).head h).state = _
            rw [Units.head_setHead, if_pos rfl]
            show (f.units.head h).state.name = _
            rw [c, hd]; rfl
    · exact k

end Sys2Proof.Machine
end

