-- ==== Sys2Proof/Laws/ClaimsEvents.lean ====
section
/-! SUPPORT. The laws of Units.Kept through window writes, commands and every other change of the units, with the
head count in force (R149). -/

namespace Sys2Proof.Machine

variable {e : Ev}

/-- One notice unit replaced, its reservations kept. -/
theorem Units.KeptAs.notice {u : Units} (k : u.Firm) (s : Side) (n : NoticeSide)
    (hn : n.reservations = (u.notices.get s).reservations) : (u.setNotice s n).Firm :=
  Units.Firm.same k rfl (fun _ => rfl) rfl (fun _ => rfl) fun t => by
    rw [Units.setNotice_notices, PerSide.get_set]
    split
    · rename_i c; subst c; exact hn
    · rfl

/-- Units in which nothing is queued and no head is CLAIMED. -/
theorem Units.KeptAs.idle_of {v : Units} {n : Side → Nat} (hq : ∀ s, (v.orders.get s).queue = [])
    (hh : ∀ h, (v.head h).state.name ≠ .claimed ∧ (v.head h).sane) (hr : ∀ s, n s = (v.releases.get s).dumps.length) : v.KeptAs n := by
  refine ⟨fun h s a => ⟨fun c => absurd (by rw [c]; rfl) (hh h).1, ?_⟩, fun s => ?_, fun _ => hq, fun h => (hh h).2.1, fun h => (hh h).2.2.1,
    fun h => (hh h).2.2.2, fun s => ?_⟩
  · rintro ⟨o, ho, -⟩
    rw [hq] at ho; cases ho
  · rw [hq]; exact ⟨List.nodup_nil, nofun⟩
  · rw [hq, hr]; simp

theorem Ev.modNotice_kept (s : Side) (f : NoticeSide → NoticeSide) (hf : ∀ n, (f n).reservations = n.reservations) (k : e.units.Firm) :
    (e.modNotice s f).units.Firm := Units.KeptAs.notice k s _ (hf _)

theorem Ev.modZone_kept (z : Zone) (f : ZoneRec → ZoneRec) (k : e.units.Firm) : (e.modZone z f).units.Firm :=
  Units.Firm.same k rfl (fun _ => rfl) rfl (fun _ => rfl) fun _ => rfl

theorem Ev.mirror_kept (o : Nat) (w : Word) (k : e.units.Firm) : (e.mirror o w).units.Firm :=
  Units.Firm.same k rfl (fun _ => rfl) rfl (fun _ => rfl) fun _ => rfl

theorem Ev.refuse_kept (p : Port) (a : Addr) (c : WriteCause) (k : e.units.Firm) : (e.refuse p a c).units.Firm := by
  unfold Ev.refuse
  exact Ev.headNotice_kept _ _ (Ev.setFlag_kept (e := { e with word := none }) _ _ k)

theorem Ev.feedEnvelope_kept (p : Port) (a : Addr) (h : Fin 32) (w : Word) (k : e.units.Firm) : (e.feedEnvelope p a h w).units.Firm := by
  unfold Ev.feedEnvelope
  simp only
  split
  · exact Ev.refuse_kept _ _ _ k
  · split
    · exact Ev.refuse_kept _ _ _ k
    · exact Ev.modHead_kept h (fun x => { x with envelope := some (envelopeOf w) }) (fun _ => ⟨rfl, rfl, rfl⟩) k

theorem Ev.topEnvelope_kept (p : Port) (a : Addr) (z : Zone) (w : Word) (k : e.units.Firm) : (e.topEnvelope p a z w).units.Firm := by
  unfold Ev.topEnvelope
  simp only
  split
  · exact Ev.refuse_kept _ _ _ k
  · split
    · exact Ev.refuse_kept _ _ _ k
    · exact Ev.modZone_kept z (fun r => { r with top := (e.units.zones.get z).top.write (topEnvelopeOf w) }) k

theorem Ev.ringWrite_kept (s : Side) (number : BitVec 16) (n : Notice) (k : e.units.Firm) : (e.ringWrite s number n).units.Firm := by
  unfold Ev.ringWrite
  simp only
  refine Ev.modNotice_kept s _ (fun r => ?_) k
  split <;> rfl

theorem Ev.moveHeld_kept (s : Side) : ∀ (l : List (BitVec 16 × Notice)) (e : Ev), e.units.Firm → (e.moveHeld s l).units.Firm
  | [], _, k => k
  | (number, n) :: rest, e, k => by
    unfold Ev.moveHeld
    split
    · exact moveHeld_kept s rest _ (Ev.ringWrite_kept s number n (Ev.modNotice_kept s (fun r => { r with holding := rest }) (fun _ => rfl) k))
    · exact k

theorem Ev.consume_kept (p : Port) (a : Addr) (o : Nat) (s : Side) (w : Word) (k : e.units.Firm) : (e.consume p a o s w).units.Firm := by
  unfold Ev.consume
  simp only
  split
  · exact Ev.refuse_kept _ _ _ k
  · exact Ev.moveHeld_kept s _ _ (Ev.modNotice_kept s (fun r => { r with consumeIx := w.toNat }) (fun _ => rfl)
      (Ev.mirror_kept (e := { e with word := some w }) o w k))

/-! ### Commands -/

theorem Ev.partChange_kept (k : e.units.Firm) : e.partChange.units.Firm :=
  (Ev.Does.partChange (e := e)).kept (.plain (fun a ha => by
    simp only [List.mem_cons, List.not_mem_nil, or_false] at ha
    rcases ha with rfl | rfl | rfl <;> exact fun _ _ => rfl)
    fun _ k => k.same rfl (fun _ => rfl) rfl fun _ => rfl) k

theorem Ev.loadedHead_owes (zs : PerZone ZoneRec) (z : Option Zone) : (loadedHead zs z).state.name ≠ .claimed ∧ (loadedHead zs z).sane := by
  unfold loadedHead
  cases z with
  | none => exact ⟨nofun, ⟨fun c => (by cases c), fun c => (by cases c)⟩, Nat.zero_le _, fun k c => False.elim c⟩
  | some z => exact ⟨nofun, ⟨fun c => (by cases c), fun c => (by cases c)⟩, Nat.zero_le _, fun k c => False.elim c⟩

theorem Ev.cmdLoad_kept (k : e.units.Firm) : e.cmdLoad.1.units.Firm := by
  unfold Ev.cmdLoad
  split
  · exact k
  · split
    · exact k
    · refine Ev.partChange_kept (e := e.mod Units.loaded) ?_
      show Units.KeptAs e.units.loaded fun s => (e.units.loaded.notices.get s).reservations
      refine Units.KeptAs.idle_of (fun s => by rw [Units.loaded_orders]; cases s <;> rfl) (fun h => ?_)
        (fun s => by rw [Units.loaded_releases, Units.loaded_notices]; cases s <;> rfl)
      rw [Units.loaded_head]
      exact loadedHead_owes _ _

theorem Ev.cmdUnload_kept (k : e.units.Firm) : e.cmdUnload.1.units.Firm := by
  unfold Ev.cmdUnload
  split
  · exact k
  · refine Ev.partChange_kept (e := e.mod fun u => { u.unloaded with part := .transparent }) ?_
    refine Units.KeptAs.idle_of (fun s => by cases s <;> rfl) (fun h => ?_) (fun s => by cases s <;> rfl)
    have : (e.mod fun u => { u.unloaded with part := .transparent }).units.head h = Head.cleared := by
      show (Vector.replicate 32 Head.cleared)[h.val] = _
      rw [Vector.getElem_replicate]
    rw [this]
    exact ⟨nofun, ⟨fun c => (by cases c), fun c => (by cases c)⟩, Nat.zero_le _, fun k c => False.elim c⟩

theorem Ev.startHead_kept (h : Fin 32) (hq : ∀ s, (e.units.orders.get s).queue = []) (k : e.units.Firm) :
    (e.startHead h).units.Firm ∧ ∀ s, ((e.startHead h).units.orders.get s).queue = [] := by
  constructor
  · have hc : ∀ s a, (e.units.head h).state ≠ .claimed s a := fun s a c => by
      obtain ⟨o, ho, -⟩ := k.order c
      rw [hq] at ho; cases ho
    have hn : (e.units.head h).state.name ≠ .claimed := fun c => by
      cases hs : (e.units.head h).state with
      | claimed s a => exact hc s a hs
      | _ => rw [hs] at c; cases c
    rw [Ev.startHead_eq]
    split
    · exact k
    · rename_i hs
      have ho : (e.units.head h).state ≠ .out := fun c => hs (.inr c)
      refine Ev.feedIssue_kept h ?_
      split
      · exact Ev.purge_kept h _ _ hc (k.below ho) k
      · exact (Ev.enterWatched_kept h .empty (.inl rfl) hn ho k).1
  · intro s
    have m : e.Moves (fun p => ∀ s, p ≠ .order s) (e.startHead h) := Ev.Moves.startHead_of e h (by simp) (by simp) (by simp)
    have := m.frame (.order s) (by simp)
    rw [show (e.startHead h).units.orders.get s = _ from this, hq]

/-- Units in which nothing is queued any more, no head is CLAIMED, and each side's reservations are its dumps'. -/
theorem Units.KeptAs.withdrawnAll {u v : Units} {n n' : Side → Nat} (k : u.KeptAs n) (hq : ∀ s, (v.orders.get s).queue = [])
    (hh : ∀ h, (v.head h).state.name ≠ .claimed ∧ (v.head h).sane) (hd : ∀ s, (v.releases.get s).dumps.length = (u.releases.get s).dumps.length)
    (hn : ∀ s, n' s = n s - (u.orders.get s).queue.length) : v.KeptAs n' :=
  Units.KeptAs.idle_of hq hh fun s => by rw [hn, k.reserved, hd]; omega

theorem haltActs_fold (u : Units) (side s : Side) (l : List Act) (n : Nat) :
    (u.haltActs side ++ l).foldl (fun n a => a.reserves s n) n =
      l.foldl (fun n a => a.reserves s n) (if side = s then n - (u.orders.get side).queue.length else n) := by
  unfold Units.haltActs
  generalize (u.orders.get side).queue = q
  rw [List.foldl_append]
  congr 1
  induction q generalizing n with
  | nil => simp
  | cons o rest ih =>
    rw [List.flatMap_cons, List.foldl_append, ih]
    show (if side = s then (if side = s then n - 1 else n) - _ else (if side = s then n - 1 else n)) = _
    split <;> simp
    omega

theorem Ev.cmdStart_kept (k : e.units.Firm) : e.cmdStart.1.units.Firm := by
  unfold Ev.cmdStart
  simp only
  split
  · exact k
  · rename_i hp
    have hp : e.units.part = .stopped := by simpa using hp
    split
    · exact k
    · exact k
    · exact k
    · refine Ev.partChange_kept ?_
      have ha : e.units.active = false := by unfold Units.active; rw [hp]; rfl
      have hq : ∀ s, ((e.mod fun u => u.setPart .running).units.orders.get s).queue = [] := k.idle ha
      have k1 : (e.mod fun u => u.setPart .running).units.Firm :=
        Units.KeptAs.heads k (fun _ => ⟨rfl, rfl⟩) (fun _ => rfl) (fun _ => hq) fun h => ⟨fun _ _ => Iff.rfl, k.sane h⟩
      generalize (e.mod fun u => u.setPart .running) = f at hq k1
      have : ∀ (l : List (Fin 32)) (f : Ev), f.units.Firm → (∀ s, (f.units.orders.get s).queue = []) →
          (f.eachHead l fun h e => e.startHead h).units.Firm := by
        intro l
        induction l with
        | nil => intro f k _; exact k
        | cons a rest ih =>
          intro f k hq
          obtain ⟨k2, q2⟩ := Ev.startHead_kept a hq k
          exact ih _ k2 q2
      exact this allHeads f k1 hq

theorem Ev.cmdStop_kept (k : e.units.Firm) : e.cmdStop.1.units.Firm := by
  unfold Ev.cmdStop
  simp only
  split
  · exact k
  · rename_i hp
    have hp : e.units.part = .running := by simpa using hp
    have k1 : (e.mod fun u => u.setPart .draining).units.Firm :=
      Units.Firm.same k rfl (fun _ => rfl) (by unfold Units.active; rw [hp]; rfl) (fun _ => rfl) fun _ => rfl
    split
    · rename_i hd
      have := Ev.drainTest_kept k1
      unfold Ev.drainTest at this
      rw [if_pos (by rw [hd]; rfl)] at this
      exact this
    · exact Ev.partChange_kept k1

theorem Ev.cmdHalt_kept (k : e.units.Firm) : e.cmdHalt.1.units.Firm := by
  by_cases ha : e.units.active = true
  · obtain ⟨e', he, d⟩ := Ev.Does.halt ha
    rw [he]
    refine d.kept (fun n k => ?_) k
    simp only [List.append_assoc]
    have hpl : ∀ s m, (((allHeads.filter fun h => feedsAtHalt (e.units.head h).state.name).map fun h =>
          Act.write (e.units.feedEntry h 0 0 ((e.units.head h).feedSeq + 1))) ++
        [Act.write (e.units.statusEntry .stopped), .flag .a .partState, .flag .b .partState]).foldl (fun n a => a.reserves s n) m = m :=
      fun s m => Act.plain_fold _ (fun a ha => by
        simp only [List.mem_append, List.mem_map, List.mem_cons, List.not_mem_nil, or_false] at ha
        rcases ha with ⟨_, _, rfl⟩ | rfl | rfl | rfl <;> exact fun _ _ => rfl) s m
    simp only [haltActs_fold, hpl]
    obtain ⟨w, hw⟩ : ∃ w, w = ((e.units.setOrder .a { e.units.orders.get .a with queue := [] }).setOrder .b
        { e.units.orders.get .b with queue := [] }).mapHeads fun _ x =>
          let y := if feedsAtHalt x.state.name then x.unfed else x
          if stopsAtHalt x.state.name then y.halted else y := ⟨_, rfl⟩
    have g1 : ∀ h, w.head h = (fun x : Head =>
          let y := if feedsAtHalt x.state.name then x.unfed else x
          if stopsAtHalt x.state.name then y.halted else y) (e.units.head h) := fun h => by rw [hw, Units.mapHeads_head]; rfl
    have g2 := congrArg Units.orders hw
    rw [Units.mapHeads_orders] at g2
    have g3 := congrArg Units.releases hw
    rw [Units.mapHeads_releases] at g3
    rw [← hw]
    refine k.withdrawnAll (fun s => ?_) (fun h => ?_) (fun s => ?_) fun s => by cases s <;> rfl
    · show (OrderSide.queue (PerSide.get ⟨w.orders.a.effect, w.orders.b.effect⟩ s)) = []
      cases s
      · exact (OrderSide.effect_queue _).1.trans (by rw [g2]; rfl)
      · exact (OrderSide.effect_queue _).1.trans (by rw [g2]; rfl)
    · show (w.head h).state.name ≠ _ ∧ (w.head h).sane
      rw [g1]
      have hx := k.sane h
      generalize e.units.head h = x at hx
      simp only
      split
      · rename_i hs
        have hn : x.state ≠ .out := fun c => by rw [c] at hs; cases hs
        have hb : x.health < 256 := Nat.lt_of_le_of_ne hx.2.1 fun c => hn (hx.1.2 c)
        have hh : ∀ y : Head, y.health = x.health → y.halted.state.name ≠ .claimed ∧ y.halted.sane := fun y hy =>
          ⟨nofun, ⟨fun c => (by cases c), fun c => absurd (hy.symm.trans c) (Nat.ne_of_lt hb)⟩, hy ▸ hx.2.1, fun k c => False.elim c⟩
        refine hh _ ?_
        split <;> rfl
      · rename_i hs
        have hn : x.state.name ≠ .claimed := fun c => hs (by rw [c]; rfl)
        split
        · exact ⟨hn, hx⟩
        · exact ⟨hn, hx⟩
    · show (ReleaseSide.dumps (PerSide.get ⟨_, _⟩ s)).length = _
      cases s
      · show w.releases.a.dumps.length = _; rw [g3]; rfl
      · show w.releases.b.dumps.length = _; rw [g3]; rfl
  · have hc : e.cmdHalt = e.refused .state 0 := by
      unfold Ev.cmdHalt
      simp only [Bool.not_eq_true] at ha
      rw [ha]; rfl
    rw [hc]; exact k

/-! ### Head commands -/

theorem Ev.headCommand_kept (arg : BitVec 8) (rule : Fin 32 → Taken) (hr : ∀ h, (rule h).1.units.Firm) (k : e.units.Firm) :
    (e.headCommand arg rule).1.units.Firm := by
  unfold Ev.headCommand
  split
  · exact k
  · split
    · exact k
    · exact hr _

theorem Ev.cmdHeadDisable_kept (arg : BitVec 8) (k : e.units.Firm) : (e.cmdHeadDisable arg).1.units.Firm := by
  refine Ev.headCommand_kept arg _ (fun h => ?_) k
  have key : (e.units.head h).state.name ≠ .claimed → ((e.feedStop h).modHead h fun x =>
        { x with state := .disabled, timer := .stopped, bucket := none, frozen := none, health := 0, present := false }).units.Firm := by
    intro hn
    have k1 := Ev.feedStop_kept h k
    refine k1.setHead h _ (fun s a => ⟨fun c => (by cases c), fun c => absurd ?_ hn⟩)
      ⟨⟨fun c => (by cases c), fun c => (by cases c)⟩, Nat.zero_le _, fun k c => False.elim c⟩
    rw [(Ev.Does.feedStop h).head, Units.head_setHead, if_pos rfl] at c
    have : (e.units.head h).state = .claimed s a := c
    rw [this]; rfl
  cases hs : (e.units.head h).state with
  | claimed s a => exact k
  | discharging d => exact k
  | disabled => exact Ev.modHead_kept h _ (fun _ => ⟨rfl, rfl, rfl⟩) k
  | _ => exact key (by rw [hs]; nofun)

theorem Ev.cmdHeadEnable_kept (arg : BitVec 8) (k : e.units.Firm) : (e.cmdHeadEnable arg).1.units.Firm := by
  refine Ev.headCommand_kept arg _ (fun h => ?_) k
  simp only
  split
  · exact k
  · split
    · exact k
    · rename_i hd
      have hd : (e.units.head h).state = .disabled := by simpa using hd
      split
      · exact k
      · have hx := k.sane h
        have k1 : (e.modHead h fun x => x.enabled (e.units.params h).initialYield).units.Firm := by
          refine k.setHead h _ (fun s a => ⟨fun c => ?_, fun c => ?_⟩) ⟨⟨fun c => ?_, fun c => (by cases c)⟩, Nat.zero_le _, hx.2.2⟩
          · exact c
          · exact c
          · have : (e.units.head h).state = .out := c
            rw [hd] at this; cases this
        have hst : ((e.modHead h fun x => x.enabled (e.units.params h).initialYield).units.head h).state = .disabled := by
          rw [Ev.modHead_units, Units.head_setHead, if_pos rfl]; exact hd
        generalize (e.modHead h fun x => x.enabled (e.units.params h).initialYield) = f at k1 hst
        split
        · exact Ev.feedIssue_kept h (Ev.purge_kept h _ _ (by rw [hst]; nofun) (k1.below (by rw [hst]; nofun)) k1)
        · have hf := k1.sane h
          refine Ev.moved_kept h (fun x => { x with state := .stopped }) (by rw [hst]; nofun) nofun ⟨⟨fun c => (by cases c), fun c => ?_⟩, hf.2.1, fun t c => ?_⟩ k1
          · have := hf.1.2 c
            rw [hst] at this; cases this
          · have := hf.2.2 t c
            rw [hst] at this
            cases t <;> simp [TimerKind.fits, CycleState.name] at this

theorem Ev.cmdRecover_kept (arg : BitVec 8) (k : e.units.Firm) : (e.cmdRecover arg).1.units.Firm := by
  refine Ev.headCommand_kept arg _ (fun h => ?_) k
  simp only
  split
  · exact k
  · rename_i hc
    have hs : (e.units.head h).state = .out := by
      by_contra c; exact hc (.inr c)
    have hx := k.sane h
    have d := Ev.Does.setHealth (e := e) h 128 .recover
    have hlev := e.units.levelActs_plain h 128 .recover
    have ht : ∀ t, ¬ (e.units.head h).timer.ofKind t := fun t c => by
      have := hx.2.2 t c
      rw [hs] at this
      cases t <;> simp [TimerKind.fits, CycleState.name] at this
    have key : ∀ (y : Head), y.state.name ≠ .claimed → y.sane → ((e.units.count h 128 .recover).1.setHead h y) = e.units.setHead h y →
        ∀ n, e.units.KeptAs n → ((e.units.count h 128 .recover).1.setHead h y).KeptAs n := fun y h1 h2 h3 n k => by
      rw [h3]
      exact k.setHead h y (fun s a => ⟨fun c => absurd (by rw [c]; rfl) h1, fun c => by rw [hs] at c; cases c⟩) h2
    split
    · refine Ev.feedIssue_kept h ?_
      refine (d.trans (Units.purge_blind h .recover none) (Ev.Does.purge h .recover none)).kept ?_ k
      intro n k
      unfold Effect.then
      have hp : ∀ a, a ∈ (e.units.count h 128 .recover).2 ++ ((e.units.count h 128 .recover).1.purge h .recover none).2 → a.plain := by
        intro a ha
        rw [List.mem_append] at ha
        rcases ha with ha | ha
        · exact hlev a ha
        · unfold Units.purge at ha
          simp only [List.mem_cons, List.not_mem_nil, or_false] at ha
          rcases ha with rfl | rfl <;> exact fun _ _ => rfl
      simp only [fun s => Act.plain_fold _ hp s]
      refine key _ ?_ (Head.purged_sane _ _ _ ?_) (Units.setHead_twice ..) n k
      · exact fun c => by cases c
      · rw [Units.count_head]; show 128 < 256; decide
    · have d2 : e.Does ((e.setHealth h 128 .recover).modHead h fun x => { x with state := .stopped })
          (e.units.setHead h { e.units.head h with state := .stopped, health := 128 }, e.units.levelActs h 128 .recover) :=
        (d.trans (f := fun u => (u.setHead h { u.head h with state := .stopped }, [])) (fun _ _ => rfl)
          (Ev.Does.modHead (e := e.setHealth h 128 .recover) (h := h) fun x => { x with state := .stopped })).congr
          (Prod.ext (by
            unfold Effect.then
            simp only
            rw [Units.count_head]
            exact Units.setHead_twice ..) (List.append_nil _))
      refine d2.kept (.plain hlev fun n k => ?_) k
      refine k.setHead h _ (fun s a => ⟨fun c => (by cases c), fun c => by rw [hs] at c; cases c⟩)
        ⟨⟨fun c => (by cases c), fun c => (by cases c)⟩, show 128 ≤ 256 by decide, fun t c => absurd c (ht t)⟩

theorem Ev.cmdHeadPurge_kept (arg : BitVec 8) (k : e.units.Firm) : (e.cmdHeadPurge arg).1.units.Firm := by
  refine Ev.headCommand_kept arg _ (fun h => ?_) k
  simp only
  split
  · exact k
  · cases hs : (e.units.head h).state with
    | claimed s a => exact k
    | discharging d => exact k
    | empty | settling | ready =>
      exact Ev.purge_kept h _ _ (by rw [hs]; nofun) (k.below (by rw [hs]; nofun)) k
    | _ => exact k

theorem Ev.cmdZeroSet_kept (arg : BitVec 8) (k : e.units.Firm) : (e.cmdZeroSet arg).1.units.Firm := by
  refine Ev.headCommand_kept arg _ (fun h => ?_) k
  simp only
  split
  · exact k
  · split
    · exact Ev.modHead_kept h _ (fun _ => ⟨rfl, rfl, rfl⟩) k
    · exact k

theorem Ev.sideEffect_kept (s : Side) (k : e.units.Firm) : (e.sideEffect s).units.Firm :=
  Ev.modOrder_kept s _ OrderSide.effect_queue k

theorem Ev.zoneEffect_kept (z : Zone) (k : e.units.Firm) : (e.zoneEffect z).units.Firm := Ev.modZone_kept z _ k

theorem Ev.cmdApplySide_kept (arg : BitVec 8) (k : e.units.Firm) : (e.cmdApplySide arg).1.units.Firm := by
  unfold Ev.cmdApplySide
  split
  · exact k
  · split
    · exact k
    · rename_i s _
      simp only
      split
      · exact k
      · split
        · exact k
        · have k1 := Ev.modOrder_kept s (fun o => { o with staged := some (sideBlockOf fun i => e.units.mirrorWord (sideBlockOffset s + i)) })
            (fun _ => ⟨rfl, rfl⟩) k
          split
          · exact Ev.sideEffect_kept s k1
          · exact k1

theorem Ev.cmdApplyZone_kept (arg : BitVec 8) (k : e.units.Firm) : (e.cmdApplyZone arg).1.units.Firm := by
  unfold Ev.cmdApplyZone
  split
  · exact k
  · split
    · exact k
    · rename_i z _
      simp only
      split
      · exact k
      · split
        · exact k
        · have k1 := Ev.modZone_kept z (fun o => { o with staged := some (zoneBlockOf fun i => e.units.mirrorWord (zoneBlockOffset z + i)) }) k
          split
          · exact Ev.zoneEffect_kept z k1
          · exact k1

theorem Ev.cmdNoteAck_kept (s : Side) (k : e.units.Firm) : (e.cmdNoteAck s).1.units.Firm := by
  unfold Ev.cmdNoteAck
  split
  · exact k
  · exact Ev.modNotice_kept s _ (fun _ => rfl) k

theorem Ev.take_kept (s : Side) (c : Command) (arg : BitVec 8) (k : e.units.Firm) : (e.take s c arg).1.units.Firm := by
  cases c with
  | load => exact cmdLoad_kept k
  | unload => exact cmdUnload_kept k
  | start => exact cmdStart_kept k
  | stop => exact cmdStop_kept k
  | halt => exact cmdHalt_kept k
  | headEnable => exact cmdHeadEnable_kept arg k
  | headDisable => exact cmdHeadDisable_kept arg k
  | recover => exact cmdRecover_kept arg k
  | headPurge => exact cmdHeadPurge_kept arg k
  | zeroSet => exact cmdZeroSet_kept arg k
  | applySide => exact cmdApplySide_kept arg k
  | applyZone => exact cmdApplyZone_kept arg k
  | noteAck => exact cmdNoteAck_kept s k

theorem Ev.command_kept (s : Side) (w : Word) (k : e.units.Firm) : (e.command s w).units.Firm := by
  unfold Ev.command
  cases Command.ofCode (commandCode w) with
  | none => exact Ev.mirror_kept _ _ k
  | some c => exact Ev.mirror_kept (e := { (e.take s c (commandArg w)).1 with word := _ }) _ _ (take_kept s c _ k)

theorem Ev.orderWord_kept (s : Side) (slot off : Nat) (w : Word) (k : e.units.Firm) : (e.orderWord s slot off w).units.Firm :=
  Ev.modOrder_kept (e := { e with word := some w }) s _ (fun _ => ⟨rfl, rfl⟩) k

theorem Ev.write_kept (p : Port) (a : Addr) (st : BitVec 4) (w : Word) (hc : e.units.headCount ≤ 32) (k : e.units.Firm) :
    (Ev.write p a st w e).units.Firm := by
  unfold Ev.write
  split
  · exact k
  · exact Ev.refuse_kept _ _ _ k
  · exact Ev.reportHeaderWrite_kept _ _ k
  · exact Ev.setStage_kept _ k
  · exact Ev.orderWord_kept _ _ _ _ k
  · exact Ev.commit_kept _ _ _ hc k
  · exact Ev.feedEnvelope_kept _ _ _ _ k
  · exact Ev.topEnvelope_kept _ _ _ _ k
  · exact Ev.command_kept _ _ k
  · exact Ev.modNotice_kept _ _ (fun _ => rfl) (Ev.mirror_kept (e := { e with word := some w }) _ _ k)
  · exact Ev.modNotice_kept _ _ (fun _ => rfl) (Ev.mirror_kept (e := { e with word := some w }) _ _ k)
  · exact Ev.consume_kept _ _ _ _ _ k
  · exact Ev.mirror_kept (e := { e with word := some w }) _ _ k

theorem Ev.modRelease_kept (s : Side) (f : ReleaseSide → ReleaseSide) (hf : ∀ r, (f r).dumps = r.dumps) (k : e.units.Firm) :
    (e.modRelease s f).units.Firm := by
  refine Units.Firm.same k rfl (fun t => ?_) rfl (fun _ => rfl) fun _ => rfl
  rw [Ev.modRelease_units, Units.setRelease_releases, PerSide.get_set]
  split
  · rename_i c; subst c; rw [hf]
  · rfl

theorem Ev.doubleRequest_kept (s : Side) (k : e.units.Firm) : (e.doubleRequest s).units.Firm :=
  Ev.modRelease_kept s _ (fun _ => rfl) (Ev.setFlag_kept s _ k)

theorem Ev.closeSide_kept (before : Units) (s : Side) (k : e.units.Firm) : (e.closeSide before s).units.Firm := by
  unfold Ev.closeSide
  simp only
  have k1 := Ev.modNotice_kept s (fun n => { n with notePending := n.notePending || flagRises (before.notices.get s) n }) (fun _ => rfl) k
  split
  · exact k1
  · exact Ev.modNotice_kept s (fun n => { n with lastFlagWord := n.flagWord }) (fun _ => rfl) k1

theorem Owner.body_kept (o : Owner) (e : Ev) (k : e.units.Firm) : (o.body e).units.Firm := by
  cases o with
  | port _ => exact k
  | headTimer h =>
    unfold Owner.body
    simp only
    split
    · exact k
    · rename_i t n ht
      exact Ev.expire_kept h t (k.timers h t (by rw [ht]; rfl)) k
    · rename_i t ht
      exact Ev.expire_kept h t (k.timers h t (by rw [ht]; rfl)) k
  | hold s a => exact Ev.holdExpiry_kept s a k
  | release s => exact Ev.pendingRelease_kept e s k
  | double s => exact Ev.doubleRequest_kept s k

theorem Body.kept {u : Units} {body : Ev → Ev} (hb : Body u body) (e : Ev) (he : e.units = u) (hc : u.headCount ≤ 32)
    (k : u.Firm) : (body e).units.Firm := by
  subst he
  cases hb with
  | write p a st w => exact Ev.write_kept p a st w hc k
  | owner o => exact o.body_kept e k
  | edge s => exact Ev.releaseTest_kept _ s (Ev.modRelease_kept s _ (fun _ => rfl) k)
  | test s => exact Ev.releaseTest_kept e s k
  | expire h t n ht => exact Ev.expire_kept h t (k.timers h t (by rw [ht]; rfl)) k
  | hold s a => exact Ev.holdExpiry_kept s a k
  | double s => exact Ev.doubleRequest_kept s k

/-! ### The head count in force (R149) -/

theorem Ev.Moves.headCount {T : Piece → Prop} {e e' : Ev} (m : e.Moves T e') : e'.units.headCount = e.units.headCount := by
  unfold Units.headCount
  rw [m.config]

theorem loadFailure_headCount {u : Units} (h : loadFailure u = none) : u.loaded.headCount ≤ 32 := by
  unfold loadFailure at h
  simp only [Option.orElse_eq_or, Option.or_eq_none_iff] at h
  have := Ev.Moves.firstFailing_none (by simpa using h.1) (decide (1 ≤ (u.mirrorWord 0).toNat) && decide ((u.mirrorWord 0).toNat ≤ 32))
    (by simp [recordChecks])
  unfold Units.headCount
  rw [Units.loaded_config]
  simp only [Option.map_some, Option.getD_some, Bool.and_eq_true, decide_eq_true_eq] at this ⊢
  exact this.2

theorem Ev.take_headCount (e : Ev) (s : Side) (c : Command) (arg : BitVec 8) (h : e.units.headCount ≤ 32) :
    (e.take s c arg).1.units.headCount ≤ 32 := by
  have hC := anyPiece_commanded
  cases c
  case load =>
    show e.cmdLoad.1.units.headCount ≤ 32
    unfold Ev.cmdLoad Ev.refused
    split
    · exact h
    · split
      · exact h
      · rename_i hl
        rw [(Ev.Moves.partChange (T := anyPiece) (e := e.mod Units.loaded) trivial fun _ => trivial).headCount]
        exact loadFailure_headCount hl
  case unload =>
    show e.cmdUnload.1.units.headCount ≤ 32
    unfold Ev.cmdUnload Ev.refused
    split
    · exact h
    · rw [(Ev.Moves.partChange (T := anyPiece) (e := e.mod fun u => { u.unloaded with part := .transparent }) trivial
        fun _ => trivial).headCount]
      exact Nat.zero_le _
  case start => exact Eq.trans_le (Ev.Moves.cmdStart hC).headCount h
  case stop => exact Eq.trans_le (Ev.Moves.cmdStop hC).headCount h
  case halt => exact Eq.trans_le (Ev.Moves.cmdHalt hC).headCount h
  case headEnable => exact Eq.trans_le (Ev.Moves.cmdHeadEnable hC.2).headCount h
  case headDisable => exact Eq.trans_le (Ev.Moves.cmdHeadDisable (T := anyPiece) fun _ => trivial).headCount h
  case recover => exact Eq.trans_le (Ev.Moves.cmdRecover hC.2).headCount h
  case headPurge => exact Eq.trans_le (Ev.Moves.cmdHeadPurge (T := anyPiece) (fun _ => trivial) fun _ => trivial).headCount h
  case zeroSet => exact Eq.trans_le (Ev.Moves.cmdZeroSet (T := anyPiece) fun _ => trivial).headCount h
  case applySide => exact Eq.trans_le (Ev.Moves.cmdApplySide (T := anyPiece) fun _ => trivial).headCount h
  case applyZone => exact Eq.trans_le (Ev.Moves.cmdApplyZone (T := anyPiece) fun _ => trivial).headCount h
  case noteAck => exact Eq.trans_le (Ev.Moves.cmdNoteAck (T := anyPiece) trivial).headCount h

theorem Ev.write_headCount (p : Port) (a : Addr) (st : BitVec 4) (w : Word) (e : Ev) (g : e.units.Lawful) (h : e.units.headCount ≤ 32) :
    (Ev.write p a st w e).units.headCount ≤ 32 := by
  have hC := anyPiece_commanded
  unfold Ev.write
  split
  · exact h
  · exact Eq.trans_le (Ev.Moves.refuse (T := anyPiece) trivial).headCount h
  · exact Eq.trans_le (Ev.Moves.reportHeaderWrite hC.1 trivial hC.2).headCount h
  · exact Eq.trans_le (Ev.Moves.reportSampleWrite (T := anyPiece) trivial).headCount h
  · exact Eq.trans_le (Ev.Moves.orderWord (T := anyPiece) trivial).headCount h
  · exact Eq.trans_le (Ev.Moves.commit hC.2).headCount h
  · exact Eq.trans_le (Ev.Moves.feedEnvelope (T := anyPiece) trivial trivial).headCount h
  · exact Eq.trans_le (Ev.Moves.topEnvelope (T := anyPiece) trivial trivial).headCount h
  · unfold Ev.command
    cases Command.ofCode (commandCode w) with
    | none => exact h
    | some c => exact Ev.take_headCount e _ c _ h
  · exact h
  · exact h
  · exact Eq.trans_le (Ev.Moves.consume (T := anyPiece) trivial trivial trivial (g.queues _).2.2).headCount h
  · exact h

theorem Body.headCount {u : Units} {body : Ev → Ev} (hb : Body u body) (e : Ev) (g : e.units.Lawful) (h : e.units.headCount ≤ 32) :
    (body e).units.headCount ≤ 32 := by
  have hC := anyPiece_commanded
  cases hb with
  | write p a st w => exact Ev.write_headCount p a st w e g h
  | owner o =>
    cases o
    case port => exact h
    case headTimer =>
      unfold Owner.body
      simp only
      split
      · exact h
      · exact Eq.trans_le (Ev.Moves.expire hC.1 hC.2).headCount h
      · exact Eq.trans_le (Ev.Moves.expire hC.1 hC.2).headCount h
    case hold => exact Eq.trans_le (Ev.Moves.holdExpiry hC.1 hC.2).headCount h
    case release => exact Eq.trans_le (Ev.Moves.pendingRelease hC.2).headCount h
    case double => exact Eq.trans_le (Ev.Moves.doubleRequest (T := anyPiece) trivial trivial).headCount h
  | edge s => exact Eq.trans_le (Ev.Moves.requestEdge hC.2).headCount h
  | test s => exact Eq.trans_le (Ev.Moves.releaseTest hC.2).headCount h
  | expire h' t n ht => exact Eq.trans_le (Ev.Moves.expire hC.1 hC.2).headCount h
  | hold s a => exact Eq.trans_le (Ev.Moves.holdExpiry hC.1 hC.2).headCount h
  | double s => exact Eq.trans_le (Ev.Moves.doubleRequest (T := anyPiece) trivial trivial).headCount h

/-! ### Every change of the units -/

theorem Units.initial_firm (c : BitVec 4) (o : Bool) : (Units.initial c o).Firm := by
  refine Units.KeptAs.idle_of (fun s => by cases s <;> rfl) (fun h => ?_) (fun s => by cases s <;> rfl)
  have : (Units.initial c o).head h = Head.cleared := by simp [Units.head, Units.initial]
  rw [this]
  exact ⟨nofun, ⟨fun c => (by cases c), fun c => (by cases c)⟩, Nat.zero_le _, fun k c => False.elim c⟩

/-- A head's timer replaced by one of the same kind. -/
theorem HeadTimer.tick_kind (t : HeadTimer) (k : TimerKind) : t.tick.ofKind k ↔ t.ofKind k := by cases t <;> rfl

theorem OrderSide.tick_claims (q : OrderSide) : q.tick.queue.map OrderRec.claim = q.queue.map OrderRec.claim ∧ q.tick.accepts = q.accepts := by
  refine ⟨?_, rfl⟩
  unfold OrderSide.tick
  rw [List.map_map]
  rfl

theorem Units.tick_firm {u : Units} (k : u.Firm) : u.tick.Firm := by
  have hn : ∀ s, (u.tick.notices.get s).reservations = (u.notices.get s).reservations := fun s => by rw [Units.tick_notices]
  unfold Units.Firm
  rw [funext hn]
  have hq : ∀ s, (u.tick.orders.get s).queue.map OrderRec.claim = (u.orders.get s).queue.map OrderRec.claim ∧
      (u.tick.orders.get s).accepts = (u.orders.get s).accepts := fun s => by
    have ho : u.tick.orders = ⟨u.orders.a.tick, u.orders.b.tick⟩ := by unfold Units.tick; rfl
    rw [ho]
    cases s
    · exact OrderSide.tick_claims u.orders.a
    · exact OrderSide.tick_claims u.orders.b
  have hr : u.tick.releases = ⟨u.releases.a.tick, u.releases.b.tick⟩ := by unfold Units.tick; rfl
  refine Units.KeptAs.heads k hq (fun s => by rw [hr]; cases s <;> rfl) (fun h => ?_) fun h => ?_
  · refine k.idle ?_
    unfold Units.active at h ⊢
    rw [Units.tick_part] at h
    exact h
  · rw [Units.tick_head]
    have := k.sane h
    exact ⟨fun _ _ => Iff.rfl, this.1, this.2.1, fun t c => this.2.2 t ((HeadTimer.tick_kind _ _).1 c)⟩

theorem Units.markPending_firm {u : Units} (o : Owner) (k : u.Firm) : (u.markPending o).Firm := by
  unfold Units.markPending
  split
  · exact k
  · rename_i h
    split
    · rename_i t n ht
      have := k.sane h
      refine k.setHead h _ (fun _ _ => Iff.rfl) ⟨this.1, this.2.1, fun t' c => this.2.2 t' ?_⟩
      rw [ht]; exact c
    · exact k
  · rename_i s a
    simp only
    refine Units.KeptAs.heads k (fun t => ?_) (fun _ => rfl) k.idle fun h => ⟨fun _ _ => Iff.rfl, k.sane h⟩
    rw [Units.setOrder_orders, PerSide.get_set]
    split
    · rename_i c; subst c
      refine ⟨?_, rfl⟩
      rw [List.map_map]
      refine List.map_congr_left fun o _ => ?_
      show (if o.accept = a then { o with hold := .expired } else o).claim = o.claim
      split <;> rfl
    · exact ⟨rfl, rfl⟩
  · exact Ev.modRelease_kept (e := .begin u false 0) _ (fun r => { r with releasePending := true }) (fun _ => rfl) k
  · exact Ev.modRelease_kept (e := .begin u false 0) _ (fun r => { r with doublePending := true }) (fun _ => rfl) k

theorem UnitsMove.kept {u v : Units} (m : UnitsMove u v) (g : u.Lawful) (hc : u.headCount ≤ 32) (k : u.Firm) :
    v.Firm ∧ v.headCount ≤ 32 := by
  cases m with
  | event hb r n =>
    refine ⟨Ev.closeSide_kept _ _ (Ev.closeSide_kept _ _ (hb.kept _ rfl hc k)), ?_⟩
    exact Eq.trans_le (Ev.Moves.close (T := anyPiece) (e := _) fun _ => trivial).headCount (hb.headCount _ g hc)
  | wait s n => exact ⟨Units.KeptAs.notice k s _ rfl, hc⟩
  | mark o =>
    refine ⟨Units.markPending_firm o k, ?_⟩
    have : (u.markPending o).headCount = u.headCount := by
      unfold Units.markPending
      split
      · rfl
      · split <;> rfl
      · rfl
      · rfl
      · rfl
    rw [this]; exact hc
  | tick =>
    refine ⟨Units.tick_firm k, ?_⟩
    unfold Units.headCount
    rw [Units.tick_config]; exact hc
  | latch s => exact ⟨Units.Firm.same k rfl (fun _ => rfl) rfl (fun _ => rfl) fun _ => rfl, hc⟩
  | pulse s => exact ⟨Ev.modRelease_kept (e := .begin u false 0) s (fun r => { r with disch := none }) (fun _ => rfl) k, hc⟩
  | initial c o => exact ⟨Units.initial_firm c o, Nat.zero_le _⟩

end Sys2Proof.Machine
end

