-- ==== Sys2Proof/Laws/Taken.lean ====
section
/-! SUPPORT. A taken report whole: the use of its stable weight, and its flags and weight one behind the other. -/

namespace Sys2Proof.Machine

/-! ### The effects do not look at the notice units -/

theorem Units.trackZero_blind (h : Fin 32) (w : Int) (seq : BitVec 8) : Blind fun u => u.trackZero h w seq := by
  intro u n
  unfold Units.trackZero
  have hp : (u.withNotices n).params h = u.params h := rfl
  simp only [hp, Units.withNotices_head]
  split
  · rfl
  · exact Effect.then_blind (f := fun u : Units => (u, [.notice (u.reportingHead h) (.zeroDrift h seq w (u.head h).zero)]))
      (fun _ _ => rfl) (Units.raise_blind h 16 .zeroDrift) u n

theorem Units.useWeight_blind (h : Fin 32) (w : Int) (seq : BitVec 8) (dropped : Bool) :
    Blind fun u => u.useWeight h w seq dropped := by
  intro u n
  have hp : (u.withNotices n).params h = u.params h := rfl
  unfold Units.useWeight
  simp only [hp, Units.withNotices_head]
  cases (u.head h).state with
  | empty | stopped =>
    simp only
    split
    · rfl
    · exact Units.trackZero_blind h w seq u n
  | settling => exact Units.settle_blind h _ u n
  | ready | claimed _ _ =>
    simp only
    cases (u.head h).frozen with
    | none => rfl
    | some f =>
      simp only
      split
      · exact Units.disturb_blind h u n
      · rfl
  | _ => rfl

theorem Units.weigh_blind (h : Fin 32) (w : Int) (seq : BitVec 8) (dropped : Bool) :
    Blind fun u => u.weigh h w seq dropped :=
  Effect.then_blind (Units.weighed_blind h w) (Units.useWeight_blind h w seq dropped)

theorem Units.faulted_blind (r : ReportHeader) {f : Units → Effect} (hf : Blind f) : Blind fun u => u.faulted r f := by
  intro u n
  unfold Units.faulted
  split
  · exact hf u n
  · rfl

theorem Units.confirmed_blind (r : ReportHeader) {f : Units → Effect} (hf : Blind f) : Blind fun u => u.confirmed r f := by
  intro u n
  unfold Units.confirmed
  simp only [Units.withNotices_head]
  by_cases c : r.gateClosed = true ∧ (u.head r.head).gateSeq = r.echo
  · simp only [c, and_self, if_true]; exact hf u n
  · simp only [c, if_false]

theorem Units.dropped_blind (r : ReportHeader) : Blind fun u => u.dropped r := by
  intro u n
  unfold Units.dropped
  split
  · exact Units.dropPool_blind r.head u n
  · rfl

theorem Units.weighAny_blind (r : ReportHeader) (w : Option Int) : Blind fun u => u.weighAny r w := by
  intro u n
  cases w with
  | none => rfl
  | some w => exact Units.weigh_blind r.head w r.seq r.poolDrop u n

theorem Units.reported_blind (r : ReportHeader) (weight : Option Int) {fault confirm : Units → Effect} (hf : Blind fault)
    (hc : Blind confirm) : Blind fun u => u.reported r weight fault confirm :=
  Effect.then_blind (Effect.then_blind (Effect.then_blind (Units.faulted_blind r hf) (Units.confirmed_blind r hc))
    (Units.dropped_blind r)) (Units.weighAny_blind r weight)

/-! ### Effects in turn -/

/-- What two effects in turn leave, and what they put out. -/
theorem Effect.then_fst (a : Effect) (f : Units → Effect) : (a.then f).1 = (f a.1).1 := rfl
theorem Effect.then_snd (a : Effect) (f : Units → Effect) : (a.then f).2 = a.2 ++ (f a.1).2 := rfl

/-- Effects in turn, grouped either way. -/
theorem Effect.then_assoc (a : Effect) (f g : Units → Effect) : (a.then f).then g = a.then fun v => (f v).then g := by
  unfold Effect.then
  simp only [List.append_assoc]

/-- The parts of a report without BOARD-FAULT, behind GATE-CLOSED. -/
theorem Units.reported_unfaulted (u : Units) (r : ReportHeader) (weight : Option Int) (fault confirm : Units → Effect)
    (hb : r.boardFault = false) :
    u.reported r weight fault confirm =
      ((u.confirmed r confirm).then fun v => v.dropped r).then fun v => v.weighAny r weight := by
  unfold Units.reported
  have : u.faulted r fault = (u, []) := by
    unfold Units.faulted
    rw [hb]
    rfl
  rw [this, Effect.then_nil]

/-- A confirmation of a head that does not discharge does nothing (R38). -/
theorem Units.confirm_idle (u : Units) (h : Fin 32) (hs : (u.head h).state.name ≠ .discharging) : u.confirm h = (u, []) := by
  unfold Units.confirm
  simp only
  cases hx : (u.head h).state with
  | discharging d => rw [hx] at hs; exact absurd rfl hs
  | _ => rfl

/-! ### What becomes of a head that discharges to a side -/

/-- A raise that leaves a head discharging to a side found it so, and is a plain count below 256 (R44, R45). -/
theorem Units.raise_bag {u : Units} {h : Fin 32} {k : Nat} {c : HealthCause} {side : Side}
    (hs : ((u.raise h k c).1.head h).state = .discharging (.bag side)) :
    (u.head h).state = .discharging (.bag side) ∧ (u.head h).health + k < 256 ∧
      u.raise h k c = u.count h ((u.head h).health + k) c := by
  by_cases h1 : (u.head h).state = .out ∨ (u.head h).state = .disabled
  · rw [Units.raise_none u h k c h1] at hs
    rcases h1 with h1 | h1 <;> rw [h1] at hs <;> cases hs
  by_cases h2 : min 256 ((u.head h).health + k) = 256
  · rw [Units.raise_out u h k c h1 h2] at hs
    rw [Effect.then_fst, Units.goOut_head] at hs
    simp [Head.outed] at hs
  have hm : min 256 ((u.head h).health + k) = (u.head h).health + k := by omega
  by_cases h3 : (u.head h).health < 128 ∧ 128 ≤ min 256 ((u.head h).health + k) ∧ c ≠ .disturbed
  · rw [Units.raise_barred u h k c h1 h2 h3, hm] at hs
    have hc : (u.count h ((u.head h).health + k) c).1.head h = _ := Units.count_head ..
    by_cases hr : (u.head h).state.name = .ready ∨ (u.head h).state.name = .claimed
    · have he : ((u.count h ((u.head h).health + k) c).then fun w => w.expel h .barred .barred).1.head h = _ :=
        Units.expel_head (u.count h ((u.head h).health + k) c).1 h .barred .barred (by rw [hc]; exact hr)
      have hs := (congrArg Head.state he).symm.trans hs
      simp [Head.purged] at hs
    · have hb := Units.raise_below u h k c (fun c => h1 (.inl c)) (fun c => h1 (.inr c)) (by omega) (.inl (not_or.1 hr))
      have hs' := hs
      rw [← hm, ← Units.raise_barred u h k c h1 h2 h3, hb, hc] at hs'
      exact ⟨hs', by omega, hb⟩
  · rw [Units.raise_count u h k c h1 h2 h3, hm] at hs ⊢
    rw [Units.count_head] at hs
    exact ⟨hs, by omega, rfl⟩

/-- A release leaves a head that it does not list, and that is not READY, as it is. -/
theorem Units.release_head_not (u : Units) (h : Fin 32) (side : Side) (z : Zone) (o : OrderRec) (kept : Fin 32 → Bool)
    (h1 : h ∉ o.heads) (h2 : (u.head h).state ≠ .ready) : (u.release side z o kept).1.head h = u.head h := by
  unfold Units.release
  simp only
  generalize hm : Units.mapHeads u _ = m
  have hh : m.head h = u.head h := by
    rw [← hm, Units.mapHeads_head, if_neg h1, if_neg (fun c => h2 c.1)]
  rw [← hh]
  cases side <;> cases z <;> rfl

/-- An entry to OUT with a release leaves its head OUT. -/
theorem Units.outReleasing_head (u : Units) (h : Fin 32) (side : Side) (z : Zone) (o : OrderRec) (kept : Fin 32 → Bool)
    (h1 : h ∉ o.heads) : (u.outReleasing h side z o kept).1.head h = (u.head h).outed := by
  have hm : ((u.setHead h (u.head h).outed).markDump side h .unconfirmed).1.head h = (u.head h).outed :=
    Eq.trans (Units.markDump_keeps _ _ _ _ (.head h) (by simp)) (by simp)
  unfold Units.outReleasing Effect.then
  simp only
  rw [Units.release_head_not _ _ _ _ _ _ h1 (by rw [hm]; simp [Head.outed]), hm]

/-- No release follows a mark, seen from units that agree in what the rule reads. -/
theorem Units.unreleased.of {u v : Units} {side : Side} {h : Fin 32} {m : Mark} (k : u.unreleased side h m)
    (hr : v.releases = u.releases) (ha : v.active = u.active) (ho : v.orders = u.orders) : v.unreleased side h m := by
  unfold Units.unreleased at *
  rw [hr, ha, ho]
  exact k

/-! ### The operations have the effects -/

namespace Ev.Does

variable {e : Ev}

/-- Zero tracking (R41, R42), of a head that is no bag's discharge. -/
theorem trackZero (h : Fin 32) (w : Int) (seq : BitVec 8) (hs : (e.units.head h).state.name ≠ .discharging) :
    e.Does (e.trackZero h w seq) (e.units.trackZero h w seq) := by
  unfold Ev.trackZero Units.trackZero
  simp only
  by_cases hn : ((w - (e.units.head h).zero).natAbs : Int) ≤ (e.units.params h).zeroBand
  · rw [if_pos hn, if_pos (by omega)]
    exact modHead _
  · rw [if_neg hn, if_neg (by omega)]
    refine (act (.notice (e.units.reportingHead h) (.zeroDrift h seq w (e.units.head h).zero))).trans
      (Units.raise_blind h 16 .zeroDrift) (raiseHealth h 16 .zeroDrift true (by simp) ?_)
    intro _ side c
    refine absurd ?_ hs
    have hh : ((Act.notice (e.units.reportingHead h) (.zeroDrift h seq w (e.units.head h).zero)).take e).units.head h =
        e.units.head h := (act _ : e.Does _ _).piece (.head h) (by simp)
    rw [← hh, c]
    rfl

/-- The use of a stable weight (R24). -/
theorem useWeight (h : Fin 32) (w : Int) (seq : BitVec 8) (dropped : Bool) :
    e.Does (e.useWeight h w seq dropped) (e.units.weigh h w seq dropped) := by
  have d1 : e.Does (e.modHead h fun x => { x with lastStable := some w }) (e.units.weighed h w, []) := modHead _
  refine d1.trans (Units.useWeight_blind h w seq dropped) ?_
  unfold Ev.useWeight Units.useWeight
  simp only
  generalize (e.modHead h fun x => { x with lastStable := some w }) = f
  have hst : ∀ c, (f.units.head h).state = c → (f.units.head h).state.name = c.name := fun c hc => by rw [hc]
  cases hs : (f.units.head h).state with
  | empty | stopped =>
    simp only
    by_cases hd : dropped = true
    · rw [if_pos hd, if_pos hd]
      exact refl
    · rw [if_neg hd, if_neg hd]
      exact trackZero h w seq (by rw [hs]; simp [CycleState.name])
  | settling => exact settle h _
  | ready | claimed _ _ =>
    simp only
    cases (f.units.head h).frozen with
    | none => exact refl
    | some g =>
      simp only
      by_cases hb : (f.units.params h).disturbBand < ((w - (f.units.head h).zero - g).natAbs : Int)
      · rw [if_pos hb, if_pos (by omega)]
        exact disturb h fun _ side c => by rw [hs] at c; cases c
      · rw [if_neg hb, if_neg (by omega)]
        exact refl
  | _ => exact refl

/-- GATE-CLOSED whose mark completes a dump with a request latched and an order queued: the release follows (R21, R128). -/
theorem gateClosed_release (h : Fin 32) (echo : BitVec 4) (side : Side) (z : Zone) (o : OrderRec)
    (hst : (e.units.head h).state = .discharging (.bag side)) (he : (e.units.head h).gateSeq = echo)
    (hr : e.units.releaseFollows side h .confirmed z o) (hp : (e.units.releases.get side).releasePending = false)
    (hy : e.release = true) :
    ∃ kept, e.Does (e.gateClosed h echo) ((e.units.confirm h).then fun u => u.release side z o kept) := by
  have d1 := (leaveDischarge (e := e) h).trans (Units.lower_blind h .confirm) (lowerHealth h .confirm)
  obtain ⟨f, hf⟩ : ∃ f, f = (e.leaveDischarge h).lowerHealth h .confirm := ⟨_, rfl⟩
  rw [← hf] at d1
  have hu : f.units = _ := d1.units
  obtain ⟨kept, d2⟩ := markDump_release (e := f) side h .confirmed z o (by rw [hu]; exact hr) (by rw [hu]; exact hp)
    (d1.release.trans hy)
  refine ⟨kept, ?_⟩
  have hM : e.gateClosed h echo = f.markDump side h .confirmed := by
    unfold Ev.gateClosed
    simp only [hst]
    rw [if_neg (fun c => c he), if_neg (by simp), hf]
  rw [hM]
  refine (d1.trans (Effect.then_blind (Units.markDump_blind side h .confirmed) (Units.release_blind side z o kept)) d2).congr ?_
  unfold Units.confirm
  simp only [hst]
  rw [← Effect.then_assoc]
  rfl

/-- The parts of a taken report, what BOARD-FAULT and a confirmation do given (R34). -/
theorem reportParts (r : ReportHeader) (weight : Option (Int × Bool)) {fault confirm : Units → Effect}
    (hc : Blind confirm)
    (df : r.boardFault = true → e.Does (e.raiseHealth r.head 32 .boardFault true) (fault e.units))
    (dc : r.gateClosed = true → ∀ f : Ev, f = (if r.boardFault then e.raiseHealth r.head 32 .boardFault true else e) →
      (f.units.head r.head).gateSeq = r.echo → f.Does (f.gateClosed r.head r.echo) (confirm f.units)) :
    e.Does (e.reportParts r weight)
      (e.units.reported r (weight.bind fun x => if x.2 then some x.1 else none) fault confirm) := by
  have d1 : e.Does (if r.boardFault then e.raiseHealth r.head 32 .boardFault true else e) (e.units.faulted r fault) := by
    unfold Units.faulted
    split
    · exact df (by assumption)
    · exact refl
  obtain ⟨f, hfe⟩ : ∃ f, f = if r.boardFault then e.raiseHealth r.head 32 .boardFault true else e := ⟨_, rfl⟩
  rw [← hfe] at d1
  have d2 := d1.trans (e'' := if r.gateClosed then f.gateClosed r.head r.echo else f) (Units.confirmed_blind r hc) (by
    unfold Units.confirmed
    by_cases hg : r.gateClosed = true
    · rw [if_pos hg]
      by_cases he : (f.units.head r.head).gateSeq = r.echo
      · rw [if_pos ⟨hg, he⟩]
        exact dc hg f hfe he
      · rw [if_neg (fun c => he c.2)]
        have : f.gateClosed r.head r.echo = f := by
          unfold Ev.gateClosed
          simp only
          cases (f.units.head r.head).state with
          | discharging d => simp only; rw [if_pos he]
          | _ => rfl
        rw [this]
        exact refl
    · rw [if_neg hg, if_neg (fun c => hg c.1)]
      exact refl)
  obtain ⟨g, hge⟩ : ∃ g, g = if r.gateClosed then f.gateClosed r.head r.echo else f := ⟨_, rfl⟩
  rw [← hge] at d2
  have d3 := d2.trans (e'' := if r.poolDrop then g.poolDrop r.head else g) (Units.dropped_blind r) (by
    unfold Units.dropped
    split
    · exact poolDrop r.head
    · exact refl)
  have fin : e.reportParts r weight = match weight with
      | some (w, true) => (if r.poolDrop then g.poolDrop r.head else g).useWeight r.head w r.seq r.poolDrop
      | _ => if r.poolDrop then g.poolDrop r.head else g := by
    rw [hge, hfe]
    rfl
  rw [fin]
  refine d3.trans (Units.weighAny_blind r _) ?_
  rcases weight with _ | ⟨w, _ | _⟩
  · exact refl
  · exact refl
  · exact useWeight r.head w r.seq r.poolDrop

end Ev.Does

end Sys2Proof.Machine
end

