-- ==== Sys2Proof/Laws/Held.lean ====
section
/-! SUPPORT. A held event alone in the held list: what its writes need, and what a test of it makes of the state (R143 to
R145). -/

namespace Sys2Proof.Machine

/-! ### Operations that ask for no entry beside their writes (R122) -/

section Required

variable (e : Ev)

theorem Ev.headNotice_required (s : Side) (n : Notice) : (e.headNotice s n).required = e.required := by
  unfold Ev.headNotice
  simp only
  split
  · exact Ev.place_required _ s n
  · rfl

theorem Ev.orderNotice_required (s : Side) (n : Notice) : (e.orderNotice s n).required = e.required :=
  Ev.place_required (e.takeNumber s) s n

theorem Ev.setHealth_required (h : Fin 32) (v : Nat) (c : HealthCause) : (e.setHealth h v c).required = e.required := by
  unfold Ev.setHealth
  simp only
  split
  · rfl
  · exact Ev.headNotice_required _ _ _

theorem Ev.purge_required (h : Fin 32) (r : PurgeReason) (w : Option Int) : (e.purge h r w).required = e.required :=
  Ev.headNotice_required _ _ _

theorem Ev.withdraw_required (s : Side) (o : OrderRec) (r : WithdrawReason) (h : Option (Fin 32)) :
    (e.withdraw s o r h).required = e.required := by
  cases h with
  | none => exact Ev.orderNotice_required _ _ _
  | some g =>
    exact (Ev.orderNotice_required _ _ _).trans
      (Ev.eachHead_required (fun g e => e.returnHead g) (fun _ _ => rfl) _ _)

theorem Ev.withdrawClaim_required (s : Side) (k : Nat) (r : WithdrawReason) (h : Fin 32) :
    (e.withdrawClaim s k r h).required = e.required := by
  unfold Ev.withdrawClaim
  split
  · rfl
  · exact Ev.withdraw_required _ _ _ _ _

theorem Ev.barredAction_required (h : Fin 32) : (e.barredAction h).required = e.required := by
  unfold Ev.barredAction
  simp only
  split
  · exact Ev.purge_required _ _ _ _
  · exact (Ev.purge_required _ _ _ _).trans (Ev.withdrawClaim_required _ _ _ _ _)
  · rfl

/-- A mark that no release follows. -/
theorem Ev.markDump_required (s : Side) (h : Fin 32) (m : Mark) (hr : e.units.unreleased s h m) :
    (e.markDump s h m).required = e.required := by
  rcases (Ev.Does.markDump_plain (e := e) s h m hr).2 with hd | hq
  · unfold Ev.markDump
    simp only
    cases hi : (e.units.releases.get s).dumps.findIdx? fun d => d.awaits h with
    | none => rfl
    | some i =>
      simp only
      cases hg : (e.units.releases.get s).dumps[i]? with
      | none => rfl
      | some d =>
        simp only
        rw [if_neg]
        · rfl
        · rw [hd d]
          · simp
          · rw [List.find?_eq_bind_findIdx?_getElem?, hi]
            exact hg
  · exact hq

theorem Ev.enterOut_required (h : Fin 32)
    (hr : ∀ side, (e.units.head h).state = .discharging (.bag side) → e.units.unreleased side h .unconfirmed) :
    (e.enterOut h).required = e.required := by
  unfold Ev.enterOut
  simp only
  show (match (e.units.head h).state with
    | .claimed s k => _
    | .discharging (.bag s) => _
    | _ => _ : Ev).required = e.required
  split
  · exact Ev.withdrawClaim_required _ _ _ _ _
  · rename_i s hs
    exact Ev.markDump_required _ _ _ _ (hr s hs)
  · rfl

theorem Ev.raiseHealth_required (h : Fin 32) (k : Nat) (c : HealthCause) (b : Bool)
    (hr : 256 ≤ (e.units.head h).health + k → ∀ side, (e.units.head h).state = .discharging (.bag side) →
      e.units.unreleased side h .unconfirmed) : (e.raiseHealth h k c b).required = e.required := by
  have ho : Config.healthOut = 256 := rfl
  have d := Ev.Does.setHealth (e := e) h (min Config.healthOut ((e.units.head h).health + k)) c
  unfold Ev.raiseHealth
  simp only
  split
  · rfl
  · split
    · rename_i h2
      refine (Ev.enterOut_required _ _ fun side hs => ?_).trans (Ev.setHealth_required _ _ _ _)
      rw [Ev.setHealth_head] at hs
      refine (hr (by omega) side hs).of ?_ ?_ ?_ <;> rw [d.units] <;> rfl
    · split
      · exact (Ev.barredAction_required _ _).trans (Ev.setHealth_required _ _ _ _)
      · exact Ev.setHealth_required _ _ _ _

theorem Ev.partChange_required : e.partChange.required = e.required := by
  unfold Ev.partChange Ev.setFlag
  rfl

theorem Ev.clearLatches_required : e.clearLatches.required = e.required := rfl

theorem Ev.allEffects_required : e.allEffects.required = e.required := by
  unfold Ev.allEffects
  have side : ∀ (f : Ev) (s : Side), (f.sideEffect s).required = f.required := fun _ _ => rfl
  have zone : ∀ (f : Ev) (z : Zone), (f.zoneEffect z).required = f.required := fun _ _ => rfl
  rw [zone, zone, side, side]

theorem Ev.drainTest_required : e.drainTest.required = e.required := by
  unfold Ev.drainTest
  split
  · unfold Ev.drainComplete
    simp only
    rw [Ev.partChange_required, Ev.allEffects_required, Ev.clearLatches_required]
    exact Ev.eachHead_required (fun h e => e.stopHead h) (fun _ _ => rfl) _ _
  · rfl

theorem Ev.expire_required (h : Fin 32) (k : TimerKind)
    (hr : k ≠ .gate ∨ (e.units.head h).retryUsed = true ∨ 256 ≤ (e.units.head h).health + 32 →
      ∀ side, (e.units.head h).state = .discharging (.bag side) → e.units.unreleased side h .unconfirmed) :
    (e.expire h k).required = e.required := by
  unfold Ev.expire
  rw [Ev.drainTest_required]
  cases k with
  | settle =>
    unfold Ev.settleExpiry
    simp only
    have := Ev.raiseHealth_required e h 8 .settle true fun _ => hr (.inl (by simp))
    split
    · exact this
    · exact (Ev.purge_required _ _ _ _).trans this
  | silence =>
    refine Ev.raiseHealth_required (e.startTimer h .silence) h 8 .silence true fun _ side hs => ?_
    refine hr (.inl (by simp)) side ?_
    rw [← hs]
    unfold Ev.startTimer
    simp
  | gate =>
    unfold Ev.gateExpiry
    simp only
    split
    · split
      · exact Ev.raiseHealth_required e h _ _ _ fun _ => hr (.inr (.inl (by assumption)))
      · have := Ev.raiseHealth_required e h 32 .gate true fun c => hr (.inr (.inr c))
        split
        · exact this
        · exact this
    · rfl

theorem Ev.holdExpiry_required (s : Side) (k : Nat) : (e.holdExpiry s k).required = e.required := by
  unfold Ev.holdExpiry
  split
  · rfl
  · simp only
    rw [Ev.drainTest_required]
    exact (Ev.orderNotice_required _ _ _).trans (Ev.eachHead_required (fun g e => e.returnHead g) (fun _ _ => rfl) _ _)

end Required

/-! ### What an event with an effect needs (R143) -/

theorem Ev.Does.cbase {e e' : Ev} {r : Effect} (d : e.Does e' r) : e'.units.cbase = e.units.cbase := by
  rw [d.units]; exact d.steady.loaded.2.2.1

/-- The notice unit of a side that nothing put out concerns. -/
theorem Ev.Does.other {e e' : Ev} {r : Effect} (d : e.Does e' r) (x : Side) (hx : ∀ a, a ∈ r.2 → a.on x = false) :
    e'.units.notices.get x = e.units.notices.get x := by
  rw [d.units]; exact (Ev.acts_gives x _ e).other hx

/-- An event with an effect that asks for no entry beside its writes needs its writes and its flag words. -/
theorem Ev.Does.need {u : Units} {b : Bool} {k : Nat} {body : Ev → Ev} {r : Effect}
    (d : (Ev.begin u b k).Does (body (.begin u b k)) r) (hr : (body (.begin u b k)).required = ⟨false, false⟩) :
    (runEvent b k body u).need = (u.writes r).length := by
  obtain ⟨c1, c2⟩ := Units.puts_congr (u := u) (e := Ev.begin u b k) rfl rfl r.2
  have hc : (body (.begin u b k)).units.cbase = u.cbase := d.cbase
  have hn : ∀ side, (body (.begin u b k)).units.notices.get side = (u.puts r.2).units.notices.get side := fun side => by
    rw [d.units, ← c1]; rfl
  have hf : ∀ side, flagEntry (body (.begin u b k)).units side (u.notices.get side)
      ((body (.begin u b k)).units.notices.get side) = u.flagQueued side ((u.puts r.2).units.notices.get side) := fun side =>
    flagEntry_eq _ _ _ _ hc (d.noteKept side).1 _ (by rw [hn])
  have hq : ((body (.begin u b k)).close u).required = ⟨false, false⟩ := by rw [Ev.close_eq]; exact hr
  have ha : ∀ (f : Ev) (side : Side), f.required = ⟨false, false⟩ → f.unsent side = 0 := fun f side h => by
    unfold Ev.unsent
    rw [h]
    cases side <;> rfl
  unfold runEvent Ev.need
  rw [ha _ .a hq, ha _ .b hq, Ev.close_eq, hf .a, hf .b]
  unfold Units.writes
  simp only
  rw [← c2, ← d.out]
  rfl

/-- An event of that kind is tested by its writes alone (R143 to R145). -/
theorem attempt_does {u : Units} {body : Ev → Ev} {r : Effect}
    (d : ∀ b k, (Ev.begin u b k).Does (body (.begin u b k)) r)
    (hr : ∀ b k, (body (.begin u b k)).required = ⟨false, false⟩) (n : Nat) :
    attempt n body u = if min 64 (u.writes r).length ≤ n then .ok (runEvent true (n - (u.writes r).length) body u)
      else .error (u.writes r).length := by
  unfold attempt fits
  simp only
  rw [Ev.Does.need (d true 0) (hr true 0), Ev.Does.need (d false 0) (hr false 0)]
  have : Config.queueDepth = 64 := rfl
  rw [this, Nat.min_comm]
  by_cases h : min 64 (u.writes r).length ≤ n
  · rw [if_pos (by simpa using h), if_pos h]
  · rw [if_neg (by simpa using h), if_neg (by simpa using h), if_neg h]

/-! ### Tests leave memory, front ends, arbiter and commands alone -/

theorem State.Inside.trans {s t r : State} (h : s.Inside t) (g : t.Inside r) : s.Inside r :=
  ⟨g.1.trans h.1, g.2.1.trans h.2.1, g.2.2.1.trans h.2.2.1, g.2.2.2.trans h.2.2.2⟩

theorem State.scan_inside (s : State) (ahead rest : List Held) : s.Inside (s.scan ahead rest).1 := by
  induction rest generalizing ahead with
  | nil => exact ⟨rfl, rfl, rfl, rfl⟩
  | cons x rest ih =>
    unfold State.scan
    split
    · exact ⟨rfl, rfl, rfl, rfl⟩
    · exact ih _

theorem State.retest_inside (fuel place : Nat) (s : State) : s.Inside (State.retest fuel place s) := by
  induction fuel generalizing place s with
  | zero => exact ⟨rfl, rfl, rfl, rfl⟩
  | succ fuel ih =>
    unfold State.retest
    simp only
    split
    · exact (State.scan_inside ..).trans (ih ..)
    · exact State.scan_inside ..

theorem State.afterEvent_inside (before : List Held) (s : State) : s.Inside (s.afterEvent before) := by
  unfold State.afterEvent
  simp only
  split
  · exact State.retest_inside ..
  · exact ⟨rfl, rfl, rfl, rfl⟩

theorem State.retestOwner_inside (s : State) (o : Owner) : s.Inside (s.retestOwner o) := by
  unfold State.retestOwner
  split
  · exact ⟨rfl, rfl, rfl, rfl⟩
  · split
    · exact ⟨rfl, rfl, rfl, rfl⟩
    · split
      · exact State.Inside.trans ⟨rfl, rfl, rfl, rfl⟩ (State.afterEvent_inside ..)
      · exact ⟨rfl, rfl, rfl, rfl⟩

/-! ### A held event alone in the held list (R144) -/

/-- What a test of the one held event answers: taken where it fits, and otherwise held with its need as it is now. -/
def State.Answers (s t : State) (o : Owner) : Prop :=
  match attempt s.free o.body s.units with
  | .ok e => ((s.setHeld []).commit e).held = [] → t = (s.setHeld []).commit e
  | .error n => t = s.setHeld [⟨o, n⟩]

theorem State.test_one (s : State) (o : Owner) (need : Nat) (ho : ∀ p, o ≠ .port p) :
    s.test [] ⟨o, need⟩ = match attempt s.free o.body s.units with
      | .ok e => .ok e
      | .error n => .error ⟨o, n⟩ := by
  unfold State.test
  cases o with
  | port p => exact absurd rfl (ho p)
  | headTimer | hold | release | double =>
    show (match attempt (s.available []) _ s.units with
      | .ok e => Except.ok e
      | .error n => .error _) = _
    rw [State.available_nil]

theorem State.retest_answers {s : State} {o : Owner} {need : Nat} (hh : s.held = [⟨o, need⟩]) (ho : ∀ p, o ≠ .port p)
    (fuel : Nat) : s.Answers (State.retest (fuel + 1) 0 s) o := by
  unfold State.Answers State.retest
  rw [hh]
  simp only [List.take_zero, List.drop_zero]
  unfold State.scan
  rw [State.test_one s o need ho]
  cases ha : attempt s.free o.body s.units with
  | ok e =>
    simp only [if_true, List.append_nil]
    intro hc
    rw [State.retest_nil _ _ _ hc]
  | error n =>
    simp only [Bool.false_eq_true, if_false, State.scan]
    rfl

theorem State.retestOwner_answers {s : State} {o : Owner} {need : Nat} (hh : s.held = [⟨o, need⟩]) (ho : ∀ p, o ≠ .port p) :
    s.Answers (s.retestOwner o) o := by
  unfold State.Answers State.retestOwner
  rw [hh]
  simp only [List.findIdx?_cons, decide_true, if_true, List.getElem?_cons_zero, List.take_zero, List.eraseIdx_zero,
    List.tail_cons, List.set_cons_zero]
  rw [State.test_one s o need ho]
  cases ha : attempt s.free o.body s.units with
  | ok e =>
    intro hc
    simp only
    unfold State.afterEvent
    simp only
    split
    · exact State.retest_nil _ _ _ hc
    · rfl
  | error n => rfl

theorem State.free_waiting (s : State) : s.free = 64 - s.waitingWrites.length := by
  unfold State.free State.waitingWrites
  rw [List.length_append]
  exact Nat.sub_sub ..

/-- A test of an event with an effect: taken where its writes fit, and otherwise held with their number. -/
theorem State.Answers.does {s t : State} {o : Owner} {r : Effect} (h : s.Answers t o)
    (d : ∀ b k, (Ev.begin s.units b k).Does (o.body (.begin s.units b k)) r)
    (hr : ∀ b k, (o.body (.begin s.units b k)).required = ⟨false, false⟩)
    (hp : ∀ side, (r.1.releases.get side).releasePending = false) :
    (min 64 (s.units.writes r).length ≤ 64 - s.waitingWrites.length → { s with held := [] }.Makes t r) ∧
      (64 - s.waitingWrites.length < min 64 (s.units.writes r).length →
        t = { s with held := [⟨o, (s.units.writes r).length⟩] }) := by
  unfold State.Answers at h
  rw [attempt_does d hr, State.free_waiting] at h
  refine ⟨fun c => ?_, fun c => ?_⟩
  · rw [if_pos c] at h
    simp only at h
    have hd := d true (64 - s.waitingWrites.length - (s.units.writes r).length)
    have hpe : ∀ side, ((o.body (.begin s.units true
        (64 - s.waitingWrites.length - (s.units.writes r).length))).units.releases.get side).releasePending = false := fun side => by
      rw [hd.units]; exact hp side
    have hc := State.commit_held (s.setHeld []) _ rfl hpe
    rw [h hc]
    exact (State.commit_leaves (s := s.setHeld []) rfl _).makes_of hd rfl rfl hp
  · rw [if_neg (by omega)] at h
    exact h

/-- The pending events that are no release do what the rules say of them. -/
theorem Owner.body_does {u : Units} {o : Owner} {r : Effect} (hr : u.pendingEffect o = some r) (hu : u.pendingUnreleased o)
    (b : Bool) (k : Nat) : (Ev.begin u b k).Does (o.body (.begin u b k)) r ∧
      (o.body (.begin u b k)).required = ⟨false, false⟩ := by
  cases o with
  | port | release => cases hr
  | headTimer h =>
    have hu1 : ∀ kind, (u.head h).timer = .expired kind →
        kind ≠ .gate ∨ (u.head h).retryUsed = true ∨ 256 ≤ (u.head h).health + 32 →
        ∀ side, (u.head h).state = .discharging (.bag side) → u.unreleased side h .unconfirmed := by
      intro kind ht hc side hs
      rcases hu h side rfl hs with c | c
      · rw [ht] at c
        obtain ⟨c1, c2, c3⟩ := c
        cases c1
        rcases hc with hc | hc | hc
        · exact absurd rfl hc
        · rw [c2] at hc; cases hc
        · omega
      · exact c
    unfold Units.pendingEffect at hr
    simp only at hr
    cases ht : (u.head h).timer with
    | stopped => rw [ht] at hr; cases hr
    | running => rw [ht] at hr; cases hr
    | expired kind =>
      rw [ht] at hr
      cases hr
      have hb : (Owner.headTimer h).body (.begin u b k) = (Ev.begin u b k).expire h kind := by
        unfold Owner.body
        show (match (u.head h).timer with
          | .stopped => _
          | .running k _ => _
          | .expired k => _ : Ev) = _
        rw [ht]
      rw [hb]
      exact ⟨Ev.Does.expire h kind (hu1 kind ht), Ev.expire_required _ h kind (hu1 kind ht)⟩
  | hold side accept =>
    unfold Units.pendingEffect at hr
    simp only [Option.map_eq_some_iff] at hr
    obtain ⟨q, hf, rfl⟩ := hr
    have hq : q.accept = accept := by simpa using List.find?_some hf
    subst hq
    exact ⟨Ev.Does.holdExpiry side q.accept q hf, Ev.holdExpiry_required _ side q.accept⟩
  | double side =>
    cases hr
    refine ⟨?_, rfl⟩
    have d1 : (Ev.begin u b k).Does ((Ev.begin u b k).setFlag side .doubleRequest) _ := Ev.Does.setFlag side .doubleRequest
    have d2 := d1.trans (f := fun v => (v.setRelease side { v.releases.get side with doublePending := false }, []))
      (fun _ _ => rfl) (Ev.Does.modRelease (s := side) (fun x => { x with doublePending := false }) fun c => c)
    exact d2.congr rfl

/-- A held event that is no release and no port's write, tested (R143 to R145). -/
theorem State.Answers.pending {s t : State} {o : Owner} (h : s.Answers t o)
    (hp : ∀ side, (s.units.releases.get side).releasePending = false) {r : Effect} (hr : s.units.pendingEffect o = some r)
    (hu : s.units.pendingUnreleased o) :
    (min 64 (s.units.writes r).length ≤ 64 - s.waitingWrites.length → { s with held := [] }.Makes t r) ∧
      (64 - s.waitingWrites.length < min 64 (s.units.writes r).length →
        t = { s with held := [⟨o, (s.units.writes r).length⟩] }) := by
  refine h.does (fun b k => (Owner.body_does hr hu b k).1) (fun b k => (Owner.body_does hr hu b k).2) fun side => ?_
  have := (Owner.body_does hr hu true 0).1.steady.pending side
  cases hb : (r.1.releases.get side).releasePending
  · rfl
  · exact absurd ((this hb).symm.trans (hp side)) (by simp)

/-! ### A pending release (R120 to R122) -/

/-- A release puts out nothing that concerns the side that does not report its zone, and nothing at all but writes where no
head is purged. -/
theorem Units.release_on (u : Units) (side : Side) (z : Zone) (o : OrderRec) (kept : Fin 32 → Bool) (x : Side)
    (hx : (u.setZone z (u.zones.get z).effect).staleAt z o.heads = [] ∨ x ≠ u.reporting z) :
    ∀ a, a ∈ (u.release side z o kept).2 → a.on x = false := by
  intro a ha
  unfold Units.release at ha
  simp only [List.mem_append, List.mem_map] at ha
  rcases ha with (⟨_, _, rfl⟩ | ⟨_, _, rfl⟩) | ⟨h, hm, rfl⟩
  · rfl
  · rfl
  · rcases hx with hx | hx
    · rw [hx] at hm; cases hm
    · split <;> simpa [Act.on] using fun c => hx c.symm

theorem Units.release_pending (u : Units) (side : Side) (z : Zone) (o : OrderRec) (kept : Fin 32 → Bool) :
    ((u.release side z o kept).1.releases.get side).releasePending = false := by
  unfold Units.release
  simp only
  rw [Units.setRelease_releases, PerSide.get_set, if_pos rfl]

/-- A release on its own, with no entries left for its notices: its gate commands, those of its purges, and one flag word
where it purges a head (R122). -/
theorem Units.release_need {u : Units} {b : Bool} {side : Side} {z : Zone} {o : OrderRec} {rest : List OrderRec}
    (hz : u.binding side = some z) (hq : (u.orders.get side).queue = o :: rest) (hn : o.heads.Nodup)
    (ha : ∀ h x, (u.purgeEntry h .stale).addr ≠ u.flagAddr x) :
    (runEvent b 0 (fun e => e.doRelease side) u).need =
      o.heads.length + ((u.setZone z (u.zones.get z).effect).staleAt z o.heads).length +
        if (u.setZone z (u.zones.get z).effect).staleAt z o.heads = [] then 0 else 1 := by
  obtain ⟨kept, -, h0, d⟩ := Ev.Does.doRelease (e := Ev.begin u b 0) side z o rest hz hq hn
  obtain ⟨hl, hr, hg⟩ := h0 rfl
  have hnot : ∀ x, (u.setZone z (u.zones.get z).effect).staleAt z o.heads = [] ∨ x ≠ u.reporting z →
      ((Ev.begin u b 0).doRelease side).units.notices.get x = u.notices.get x := fun x hx =>
    d.other x (u.release_on side z o kept x hx)
  have hc : ((Ev.begin u b 0).doRelease side).units.cbase = u.cbase := d.cbase
  have hfa : ∀ (v : Units) x, v.cbase = u.cbase → v.flagAddr x = u.flagAddr x := fun v x h => by
    unfold Units.flagAddr Units.controlBase; rw [h]
  change ((Ev.begin u b 0).doRelease side).out.length =
    0 + o.heads.length + ((u.setZone z (u.zones.get z).effect).staleAt z o.heads).length at hl
  rw [Nat.zero_add] at hl
  change ((Ev.begin u b 0).doRelease side).required = (if (u.setZone z (u.zones.get z).effect).staleAt z o.heads = [] then _ else
    PerSide.set ⟨false, false⟩ (u.reporting z) true) at hr
  unfold runEvent Ev.need
  obtain ⟨e, he⟩ : ∃ e, e = (Ev.begin u b 0).doRelease side := ⟨_, rfl⟩
  simp only
  rw [← he] at hl hr hg hnot hc ⊢
  obtain ⟨l, hll⟩ : ∃ l : Side → List QueueEntry, ∀ x, l x = flagEntry e.units x (u.notices.get x) (e.units.notices.get x) :=
    ⟨fun x => flagEntry e.units x (u.notices.get x) (e.units.notices.get x), fun _ => rfl⟩
  have hout : (e.close u).out = e.out ++ l .a ++ l .b := by rw [Ev.close_eq, hll, hll]
  have hreq : (e.close u).required = e.required := by rw [Ev.close_eq]
  have hcl : ∀ x, (e.close u).units.flagAddr x = u.flagAddr x := fun x => hfa _ x (by rw [Ev.close_cbase, hc])
  -- no write of the release itself stands at a flag word
  have hno : ∀ x y, y ∈ e.out → y.addr ≠ u.flagAddr x := fun x y hy => by
    rcases hg y hy with c | ⟨h, c⟩
    · cases c
    · rw [c]; exact ha h x
  have hla : ∀ x, (∀ y, y ∈ l x → y.addr = u.flagAddr x) ∧ (l x).length ≤ 1 := fun x => by
    rw [hll]
    unfold flagEntry
    split
    · simp
    · exact ⟨fun y hy => by rw [List.mem_singleton.1 hy]; exact hfa _ x hc, Nat.le_refl _⟩
  have hl0 : ∀ x, (u.setZone z (u.zones.get z).effect).staleAt z o.heads = [] ∨ x ≠ u.reporting z → l x = [] := fun x hx => by
    rw [hll, hnot x hx, flagEntry_same]
  have hne : u.flagAddr .a ≠ u.flagAddr .b := by
    unfold Units.flagAddr Units.controlBase Side.number
    have := u.cbase.isLt
    intro c
    have := congrArg BitVec.toNat c
    simp only [BitVec.toNat_ofNat] at this
    omega
  have huns : ∀ x, (l x).length + (e.close u).unsent x = if e.required.get x = true then 1 else 0 := fun x => by
    unfold Ev.unsent
    rw [hreq, hcl, hout]
    by_cases hrx : e.required.get x = true
    · rw [if_pos hrx]
      by_cases hx : l x = []
      · rw [hx, if_pos]
        · rfl
        · refine ⟨hrx, fun c => ?_⟩
          obtain ⟨y, hy, hya⟩ := List.any_eq_true.1 c
          have hya : y.addr = u.flagAddr x := by simpa using hya
          rw [List.mem_append, List.mem_append] at hy
          rcases hy with (hy | hy) | hy
          · exact hno x y hy hya
          · cases x with
            | a => rw [hx] at hy; cases hy
            | b => exact hne (((hla .a).1 y hy).symm.trans hya)
          · cases x with
            | a => exact hne (hya.symm.trans ((hla .b).1 y hy))
            | b => rw [hx] at hy; cases hy
      · obtain ⟨y, hy⟩ := List.exists_mem_of_ne_nil _ hx
        have h1 : (l x).length = 1 := by
          have := (hla x).2
          have := List.length_pos_of_mem hy
          omega
        rw [h1, if_neg]
        rintro ⟨-, c⟩
        refine c (List.any_eq_true.2 ⟨y, ?_, by simpa using (hla x).1 y hy⟩)
        rw [List.mem_append, List.mem_append]
        cases x with
        | a => exact .inl (.inr hy)
        | b => exact .inr hy
    · rw [if_neg hrx, if_neg (fun c => hrx c.1)]
      have : l x = [] := hl0 x (by
        rw [hr] at hrx
        split at hrx
        · exact .inl (by assumption)
        · refine .inr fun c => hrx ?_
          rw [c, PerSide.get_set, if_pos rfl])
      rw [this]; rfl
  have hsum : ∀ x : Side, x = .a ∨ x = .b := fun x => by cases x <;> simp
  rw [hout]
  simp only [List.length_append]
  have ua := huns .a
  have ub := huns .b
  rw [hr] at ua ub
  by_cases hst : (u.setZone z (u.zones.get z).effect).staleAt z o.heads = []
  · rw [if_pos hst] at ua ub ⊢
    change _ = (if false = true then 1 else 0) at ua
    change _ = (if false = true then 1 else 0) at ub
    simp only [Bool.false_eq_true, if_false] at ua ub
    omega
  · rw [if_neg hst] at ua ub ⊢
    rw [PerSide.get_set] at ua ub
    cases hrep : u.reporting z <;> rw [hrep] at ua ub <;>
      simp only [if_true, if_false, reduceCtorEq, PerSide.get, Bool.false_eq_true] at ua ub <;> omega

/-- A pending release, tested in its place (R120, R122). -/
theorem State.Answers.release {s t : State} {side : Side} (h : s.Answers t (.release side))
    (hx : ∀ x, x ≠ side → (s.units.releases.get x).releasePending = false) :
    let u := s.units
    let old := u.releases.get side
    let free := 64 - s.waitingWrites.length
    let fails := u.active = false ∨ old.latch = false ∨ (u.orders.get side).queue = [] ∨ 2 ≤ old.dumps.length
    (fails → { s with held := [] }.Makes t (u.setRelease side { old with releasePending := false }, [])) ∧
      ∀ z first rest, ¬ fails → u.binding side = some z → (u.orders.get side).queue = first :: rest → first.heads.Nodup →
        (∀ h x, (u.purgeEntry h .stale).addr ≠ u.flagAddr x) →
        let stale := (u.setZone z (u.zones.get z).effect).staleAt z first.heads
        let need := first.heads.length + stale.length + if stale = [] then 0 else 1
        (min 64 need ≤ free → ∃ kept, (need + 4 * stale.length ≤ free → ∀ h, kept h = true) ∧
          { s with held := [] }.Makes t (u.release side z first kept)) ∧
        (free < min 64 need → t = { s with held := [⟨.release side, need⟩] }) := by
  intro u old free fails
  have hrel : u.releasable side = true ↔ ¬ fails := by
    unfold Units.releasable
    have : Config.dumpDepth = 2 := rfl
    simp only [this, Bool.and_eq_true, decide_eq_true_eq, Bool.not_eq_true', List.isEmpty_eq_false_iff, fails, old, not_or,
      Bool.not_eq_false, Nat.not_le]
    tauto
  constructor
  · intro hf
    have hno : u.releasable side = false := by
      cases hb : u.releasable side
      · rfl
      · exact absurd hf (hrel.1 hb)
    have hb : ∀ b k, (Owner.release side).body (.begin u b k) =
        (Ev.begin u b k).modRelease side fun r => { r with releasePending := false } := fun b k => by
      show (Ev.begin u b k).pendingRelease side = _
      unfold Ev.pendingRelease
      rw [show (Ev.begin u b k).units.releasable side = false from hno]
      rfl
    have g := h.does (r := (u.setRelease side { old with releasePending := false }, []))
      (fun b k => by rw [hb]; exact Ev.Does.modRelease (s := side) (fun r => { r with releasePending := false }) fun c => by cases c)
      (fun b k => by rw [hb]; rfl)
      (fun x => by
        rw [Units.setRelease_releases, PerSide.get_set]
        split
        · rfl
        · exact hx x (by assumption))
    refine g.1 ?_
    have : (s.units.writes (u.setRelease side { old with releasePending := false }, [])).length = 0 := by
      unfold Units.writes Units.puts Units.flagQueued
      simp [Ev.begin]
    rw [this]
    omega
  · intro z first rest hf hz hq hn ha stale need
    have hyes : u.releasable side = true := hrel.2 hf
    have hb : ∀ b k, (Owner.release side).body (.begin u b k) = (Ev.begin u b k).doRelease side := fun b k => by
      show (Ev.begin u b k).pendingRelease side = _
      unfold Ev.pendingRelease
      rw [show (Ev.begin u b k).units.releasable side = true from hyes]
      rfl
    have hneed : ∀ b, (runEvent b 0 (Owner.release side).body u).need = need := fun b => by
      have : runEvent b 0 (Owner.release side).body u = runEvent b 0 (fun e => e.doRelease side) u := by
        unfold runEvent; rw [hb]
      rw [this]
      exact Units.release_need hz hq hn ha
    have hat : attempt free (Owner.release side).body u =
        if min 64 need ≤ free then .ok (runEvent true (free - need) (Owner.release side).body u) else .error need := by
      unfold attempt fits
      simp only [hneed]
      have : Config.queueDepth = 64 := rfl
      rw [this, Nat.min_comm]
      by_cases c : min 64 need ≤ free
      · rw [if_pos (by simpa using c), if_pos c]
      · rw [if_neg (by simpa using c), if_neg (by simpa using c), if_neg c]
    unfold State.Answers at h
    rw [State.free_waiting, hat] at h
    refine ⟨fun c => ?_, fun c => ?_⟩
    · rw [if_pos c] at h
      simp only at h
      obtain ⟨kept, hk, -, d⟩ := Ev.Does.doRelease (e := Ev.begin u true (free - need)) side z first rest hz hq hn
      refine ⟨kept, fun c2 => hk (by
        show 4 * stale.length ≤ free - need
        omega), ?_⟩
      have hp : ∀ x, ((u.release side z first kept).1.releases.get x).releasePending = false := fun x => by
        by_cases c3 : x = side
        · rw [c3]; exact u.release_pending side z first kept
        · have := d.steady.pending x
          cases hb : ((u.release side z first kept).1.releases.get x).releasePending
          · rfl
          · exact absurd ((this hb).symm.trans (hx x c3)) (by simp)
      have hrun : runEvent true (free - need) (Owner.release side).body u =
          ((Ev.begin u true (free - need)).doRelease side).close u := by unfold runEvent; rw [hb]
      rw [hrun] at h
      have hc := State.commit_held (s.setHeld []) ((Ev.begin u true (free - need)).doRelease side) rfl fun x => by
        rw [d.units]; exact hp x
      rw [h hc]
      exact (State.commit_leaves (s := s.setHeld []) rfl _).makes_of d rfl rfl hp
    · rw [if_neg (by omega)] at h
      exact h

/-- The held event alone in the held list has been tested (R143 to R145). -/
theorem State.Answers.tested {s t : State} {o : Owner} (h : s.Answers t o)
    (hx : ∀ side, (s.units.releases.get side).releasePending = true → o = .release side) : s.Tested t o := by
  have off : ∀ side, o ≠ .release side → (s.units.releases.get side).releasePending = false := fun side c => by
    cases hb : (s.units.releases.get side).releasePending
    · rfl
    · exact absurd (hx side hb) c
  refine ⟨fun r hr hu => h.pending (fun side => off side ?_) hr hu, ?_⟩
  · rintro rfl
    cases hr
  · rintro side rfl
    exact h.release fun x c => off x fun e => c (by cases e; rfl)

/-! ### The issue queue's turn (R141, R142) -/

/-- The oldest entry written, and nothing else. -/
theorem State.writeEntry_written {s : State} (hm : s.mem.wf = true) {x : QueueEntry} {rest : List QueueEntry}
    (hw : s.waitingWrites = x :: rest) : s.EntryWritten s.writeEntry x rest := by
  have hw' : s.queue ++ s.startTail = x :: rest := hw
  unfold State.writeEntry
  rw [hw']
  simp only
  obtain ⟨h1, h2⟩ := Memory.wrote s.mem x.addr x.data hm
  refine ⟨h1, h2, ?_, rfl, rfl, rfl, rfl, rfl, fun side => ?_, fun q hq => ?_⟩
  · unfold State.waitingWrites State.setGranted State.setUnits State.setWrites
    simp
  · show (s.units.entryWritten x).notices.get side = _
    unfold Units.entryWritten NoticeSide.flagWritten
    cases side <;> simp only [Units.setNotice, PerSide.set, PerSide.get] <;> split <;> rfl
  · show s.units.keeps (s.units.entryWritten x) q
    unfold Units.entryWritten
    cases q <;> simp [Units.keeps] at hq ⊢ <;> first | rfl | (rename_i y; cases y <;> simp at hq)

theorem State.writeEntry_releases (s : State) (x : Side) : s.writeEntry.units.releases.get x = s.units.releases.get x := by
  unfold State.writeEntry
  split <;> rfl

/-- With no port waiting the queue's turn is one grant to it. -/
theorem State.Quiet.drain_grant {s : State} (h : s.Quiet) (hq : s.queue ≠ []) : s.drain = s.grantQueue := by
  have hne : s.queue.isEmpty = false := by cases h : s.queue <;> simp_all
  have hc : s.choice = some .queue := by
    unfold State.choice
    split
    · rfl
    · have hw : ∀ q, s.waits (.port q) = false := fun q => by simp [State.waits, (h q).1]
      have hqw : s.waits .queue = true := by simp [State.waits, hne]
      cases s.lastGranted with
      | port x => cases x <;> simp [cyclicAfter, hw, hqw]
      | queue => simp [cyclicAfter, hw, hqw]
  have hf : s.grantFuel = (1023 + s.startTail.length) + 1 := by simp [State.grantFuel]; omega
  unfold State.drain
  rw [hne, hf]
  unfold State.until
  rw [hc]
  simp only [Bool.false_eq_true, if_false, if_true]
  show (s.grantQueue).settlePorts = _
  refine State.Quiet.settlePorts fun q => ?_
  have := h q
  have hp : s.grantQueue.ports = s.ports := by
    unfold State.grantQueue
    rw [hne]
    exact (State.retest_inside _ _ s.writeEntry).2.1.trans (State.writeEntry_ports s)
  simp only [State.front, hp] at *
  exact this

end Sys2Proof.Machine
end

