-- ==== Sys2Proof/WellFormed.lean ====
section
/-! DEFINITION. Well-formed commands: where a row's name fixes fields of the word it writes, the operand agrees
with it (R103, R152). The part executes an ill-formed command too, as the access it is: its classifier reads the
address and the word, not the row's name (R134). -/

namespace Sys2Proof

/-- The status field of a commit word (R171). -/
def commitStatus (w : Word) : BitVec 2 := w.extractLsb' 30 2

/-- The status field of a command word (R176). -/
def commandStatus (w : Word) : BitVec 2 := w.extractLsb' 30 2

/-- The offsets 102h to 107h: clear, enable and consume words, which have rows of their own (R174). -/
def isNoticeOffset (o : BitVec 9) : Bool := 0x102 ≤ o.toNat && o.toNat ≤ 0x107

/-- The offsets 100h and 101h of the command slots (R174). -/
def isSlotOffset (o : BitVec 9) : Bool := o.toNat == 0x100 || o.toNat == 0x101

/-- A command agrees with the row it stands for: ORDER_SUBMIT carries status SUBMIT and COMMIT_CLEAR another one
(R103); CONTROL_BLOCK_WRITE is not a whole write of a clear, enable or consume word and not a command (R148). -/
def Instr.wellFormed : Instr → Bool
  | .orderSubmit _ _ w => commitStatus w == 1
  | .commitClear _ _ w => commitStatus w != 1
  | .controlBlockWrite _ o st w =>
      !(st == 15 && isNoticeOffset o) && !(st == 15 && isSlotOffset o && commandStatus w == 1)
  | .load .. | .unload .. | .start .. | .stop .. | .halt .. | .headEnable .. | .headDisable .. | .recover ..
  | .headPurge .. | .zeroSet .. | .applySide .. | .applyZone .. | .noteAck .. => true
  | .reportHeaderWrite .. | .reportSampleWrite .. | .candidateHeaderRead .. | .candidateEntryRead ..
  | .orderWordWrite .. | .feedEnvelopeWrite .. | .topEnvelopeWrite .. | .consumeWordWrite .. | .clearWordWrite ..
  | .enableWordWrite .. | .refusedPortWrite .. => true
  | .bagRequest .. | .doubleRequestSetting .. | .release .. | .settleExpiry .. | .silenceExpiry ..
  | .gateExpiry .. | .holdExpiry .. | .dischPulseEnd .. | .issueQueueWrite | .resetInput .. => true

end Sys2Proof
end

