-- ==== Sys2Proof/Laws/PerInstr.lean ====
section
/-! SUPPORT. What holds of every command as syntax, one lemma for each constructor: a command that the well-formedness
check refuses carries a data word, so that the part can still execute it as the write it is. -/

namespace Sys2Proof.Laws.Shape

open Sys2Proof

/-- The data word that a command's write carries (R133). -/
def dataWord : Instr → Option Word
  | .reportHeaderWrite _ w => some w
  | .reportSampleWrite _ w => some w
  | .orderWordWrite _ _ w => some w
  | .orderSubmit _ _ w => some w
  | .commitClear _ _ w => some w
  | .feedEnvelopeWrite _ _ w => some w
  | .topEnvelopeWrite _ _ w => some w
  | .consumeWordWrite _ _ w => some w
  | .clearWordWrite _ _ w => some w
  | .enableWordWrite _ _ w => some w
  | .controlBlockWrite _ _ _ w => some w
  | .refusedPortWrite _ _ _ w => some w
  | _ => none

/-- The command is well-formed or carries a data word. -/
def Statement (i : Instr) : Prop := i.wellFormed = true ∨ (dataWord i).isSome = true

theorem load (port : Port) (slot : Side) (arg : BitVec 8) : Statement (.load port slot arg) := .inl rfl

theorem unload (port : Port) (slot : Side) (arg : BitVec 8) : Statement (.unload port slot arg) := .inl rfl

theorem start (port : Port) (slot : Side) (arg : BitVec 8) : Statement (.start port slot arg) := .inl rfl

theorem stop (port : Port) (slot : Side) (arg : BitVec 8) : Statement (.stop port slot arg) := .inl rfl

theorem halt (port : Port) (slot : Side) (arg : BitVec 8) : Statement (.halt port slot arg) := .inl rfl

theorem headEnable (port : Port) (slot : Side) (arg : BitVec 8) : Statement (.headEnable port slot arg) := .inl rfl

theorem headDisable (port : Port) (slot : Side) (arg : BitVec 8) : Statement (.headDisable port slot arg) := .inl rfl

theorem recover (port : Port) (slot : Side) (arg : BitVec 8) : Statement (.recover port slot arg) := .inl rfl

theorem headPurge (port : Port) (slot : Side) (arg : BitVec 8) : Statement (.headPurge port slot arg) := .inl rfl

theorem zeroSet (port : Port) (slot : Side) (arg : BitVec 8) : Statement (.zeroSet port slot arg) := .inl rfl

theorem applySide (port : Port) (slot : Side) (arg : BitVec 8) : Statement (.applySide port slot arg) := .inl rfl

theorem applyZone (port : Port) (slot : Side) (arg : BitVec 8) : Statement (.applyZone port slot arg) := .inl rfl

theorem noteAck (port : Port) (slot : Side) (arg : BitVec 8) : Statement (.noteAck port slot arg) := .inl rfl

theorem reportHeaderWrite (addr : Addr) (word : Word) : Statement (.reportHeaderWrite addr word) := .inl rfl

theorem reportSampleWrite (addr : Addr) (word : Word) : Statement (.reportSampleWrite addr word) := .inl rfl

theorem candidateHeaderRead (port : Port) (addr : Addr) (strobes : BitVec 4) : Statement (.candidateHeaderRead port addr strobes) := .inl rfl

theorem candidateEntryRead (port : Port) (addr : Addr) (strobes : BitVec 4) : Statement (.candidateEntryRead port addr strobes) := .inl rfl

theorem orderWordWrite (port : Port) (addr : Addr) (word : Word) : Statement (.orderWordWrite port addr word) := .inl rfl

theorem orderSubmit (port : Port) (addr : Addr) (word : Word) : Statement (.orderSubmit port addr word) := .inr rfl

theorem commitClear (port : Port) (addr : Addr) (word : Word) : Statement (.commitClear port addr word) := .inr rfl

theorem feedEnvelopeWrite (port : Port) (addr : Addr) (word : Word) : Statement (.feedEnvelopeWrite port addr word) := .inl rfl

theorem topEnvelopeWrite (port : Port) (addr : Addr) (word : Word) : Statement (.topEnvelopeWrite port addr word) := .inl rfl

theorem consumeWordWrite (port : Port) (side : Side) (word : Word) : Statement (.consumeWordWrite port side word) := .inl rfl

theorem clearWordWrite (port : Port) (side : Side) (word : Word) : Statement (.clearWordWrite port side word) := .inl rfl

theorem enableWordWrite (port : Port) (side : Side) (word : Word) : Statement (.enableWordWrite port side word) := .inl rfl

theorem controlBlockWrite (port : Port) (offset : BitVec 9) (strobes : BitVec 4) (word : Word) : Statement (.controlBlockWrite port offset strobes word) := .inr rfl

theorem refusedPortWrite (port : Port) (addr : Addr) (strobes : BitVec 4) (word : Word) : Statement (.refusedPortWrite port addr strobes word) := .inl rfl

theorem bagRequest (side : Side) : Statement (.bagRequest side) := .inl rfl

theorem doubleRequestSetting (side : Side) : Statement (.doubleRequestSetting side) := .inl rfl

theorem release (side : Side) : Statement (.release side) := .inl rfl

theorem settleExpiry (head : Fin 32) : Statement (.settleExpiry head) := .inl rfl

theorem silenceExpiry (head : Fin 32) : Statement (.silenceExpiry head) := .inl rfl

theorem gateExpiry (head : Fin 32) : Statement (.gateExpiry head) := .inl rfl

theorem holdExpiry (side : Side) (place : Fin 2) : Statement (.holdExpiry side place) := .inl rfl

theorem dischPulseEnd (side : Side) : Statement (.dischPulseEnd side) := .inl rfl

theorem issueQueueWrite : Statement (.issueQueueWrite) := .inl rfl

theorem resetInput (cbase : BitVec 4) (oneck : Bool) : Statement (.resetInput cbase oneck) := .inl rfl

end Sys2Proof.Laws.Shape
end

