-- ==== Sys2Proof/Tests/Slice0.lean ====
section
/-! SUPPORT. Small tests: an ill-formed command for each check of WellFormed, one step of commands on a small state, and
for every statement that has hypotheses a state and operands that meet them, at the ends of their ranges. -/

namespace Sys2Proof.Tests

set_option maxRecDepth 100000
set_option Elab.async false

open Sys2Proof Sys2Proof.Machine

/-! ### Well-formedness -/

theorem test_wellFormed_submit : Instr.wellFormed (.orderSubmit .ca 0x43000 0x40000002) = true ∧
    Instr.wellFormed (.orderSubmit .ca 0x43000 0x80000002) = false := by decide

theorem test_wellFormed_clear : Instr.wellFormed (.commitClear .ca 0x43000 0) = true ∧
    Instr.wellFormed (.commitClear .ca 0x43000 0x40000002) = false := by decide

theorem test_wellFormed_control : Instr.wellFormed (.controlBlockWrite .ca 0x107 7 0) = true ∧
    Instr.wellFormed (.controlBlockWrite .ca 0x107 15 0) = false ∧
    Instr.wellFormed (.controlBlockWrite .ca 0x102 15 0) = false ∧
    Instr.wellFormed (.controlBlockWrite .ca 0x108 15 0) = true ∧
    Instr.wellFormed (.controlBlockWrite .ca 0x100 15 0x80000001) = true ∧
    Instr.wellFormed (.controlBlockWrite .ca 0x100 15 0x40000001) = false ∧
    Instr.wellFormed (.controlBlockWrite .cb 0x101 15 0x40000001) = false := by decide

theorem test_noWordSpellsACommand : decodeTableWord 32 0x40000001 = none := by decide

/-! ### The bench: five heads, zone 0 with heads 0 to 2 and side A, zone 1 with heads 3 and 4 and side B -/

def windows : List WindowRow :=
  [⟨.report, 0x40000, 64⟩, ⟨.candidate .a, 0x41000, 65⟩, ⟨.candidate .b, 0x42000, 65⟩, ⟨.order .a, 0x43000, 8⟩,
   ⟨.order .b, 0x44000, 8⟩, ⟨.feed, 0x45000, 34⟩, ⟨.gate, 0x46000, 32⟩, ⟨.notice .a, 0x47000, 64⟩,
   ⟨.notice .b, 0x48000, 64⟩]

def config : Loaded :=
  { headCount := 5, zoneCount := 2, split := 3, binding := ⟨some .z0, some .z1⟩, clockKHz := 20000, reportSlots := 16,
    orderSlots := ⟨2, 2⟩, ringSize := ⟨16, 16⟩, windows := windows }

def zone : ZoneBlock :=
  { share := 5000, spread := [0], offer := [.ab], staleAge := 2, purgeAge := 3, stabilityBand := 10, zeroBand := 50,
    emptyBand := 100, minFill := 4000, ceiling := 6000, disturbBand := 30, settleLimit := 300, gateLimit := 800,
    silenceLimit := 250, stagger := 4, initialYield := 1600 }

def side : SideBlock :=
  { bagMin := 9000, bagTarget := 10000, bagMax := 11000, minHeads := 2, maxHeads := 4, holdLimit := 2000, intake := true }

/-- A STOPPED head with an envelope. -/
def idle : Head := { Head.cleared with state := .stopped, yield := 1600, envelope := some ⟨50, 10, 90⟩ }

/-- A head in a cycle state with its timer. -/
def inState (c : CycleState) (k : TimerKind) : Head := { idle with state := c, timer := .running k 5 }

/-- A READY or CLAIMED head with a frozen net weight. -/
def filled (c : CycleState) : Head := { inState c .silence with frozen := some 5000, lastStable := some 5000 }

def zoneRec : ZoneRec :=
  { live := some zone, staged := none, rotation := 0,
    top := { envelope := some ⟨50, 40, 60⟩, trim := 0, applied := some 50, seq := 0 } }

def orderUnit : OrderSide := { OrderSide.cleared with live := some side }

/-- The units in a part state, every head below the head count the same. -/
def bench (part : PartState) (x : Head) : Units :=
  { Units.initial 0 false with
    part := part, config := some config, clock := some 20000, heads := Vector.ofFn fun h => if h.val < 5 then x else .cleared,
    zones := ⟨zoneRec, zoneRec⟩, orders := ⟨orderUnit, orderUnit⟩ }

/-- The machine around given units, with nothing waiting. -/
def around (u : Units) : State := { State.reset with units := u }

/-- A queued order of heads 0 and 1 for side A. -/
def order : OrderRec :=
  { accept := 0, tag := 7, heads := [0, 1], total := 10000, target := 10000, hold := .running 5 }

def withOrder (u : Units) : Units := u.setOrder .a { orderUnit with queue := [order], accepts := 1 }

theorem quiet_around (u : Units) : (around u).Quiet := fun p => by cases p <;> exact ⟨rfl, rfl⟩

theorem clear_around (u : Units) (ha : u.releases.a.releasePending = false) (hb : u.releases.b.releasePending = false)
    (hm : Cells.wf u.mirror = true) : (around u).Clear :=
  ⟨⟨quiet_around u, rfl, rfl, fun x => by cases x <;> assumption, rfl, hm⟩, rfl⟩

theorem turn_around (u : Units) (p : Port) (ha : u.releases.a.releasePending = false)
    (hb : u.releases.b.releasePending = false) (hm : Cells.wf u.mirror = true) : (around u).Turn p :=
  ⟨(clear_around u ha hb hm).1, .inl rfl⟩

/-- Every head of the bench below the head count is the given record. -/
theorem head_bench (part : PartState) (x : Head) (h : Fin 32) (hh : h.val < 5) : (bench part x).head h = x := by
  show (Vector.ofFn fun g : Fin 32 => if g.val < 5 then x else Head.cleared)[h.val] = x
  simp [hh]

theorem count_bench (part : PartState) (x : Head) : (bench part x).headCount = 5 := rfl

/-- The state after a command; the state itself if the command stops. -/
def after (i : Instr) (s : State) : State :=
  match exec i s with
  | .next t => t
  | _ => s

/-! ### One step each -/

/-- The mirror of the bench's configuration. -/
def record : List (Nat × Int) :=
  [(0, 5), (1, 2), (2, 3), (3, 49), (4, 20000), (5, 16), (6, 2), (7, 2), (8, 16), (9, 16)] ++
    [(0x0A, 0x40000), (0x0B, 64), (0x0C, 0x41000), (0x0D, 65), (0x0E, 0x42000), (0x0F, 65), (0x10, 0x43000), (0x11, 8),
     (0x12, 0x44000), (0x13, 8), (0x14, 0x45000), (0x15, 34), (0x16, 0x46000), (0x17, 32), (0x18, 0x47000), (0x19, 64),
     (0x1A, 0x48000), (0x1B, 64)]

def sideWords (base : Nat) : List (Nat × Int) :=
  [(base, 9000), (base + 1, 10000), (base + 2, 11000), (base + 3, 2), (base + 4, 4), (base + 5, 2000), (base + 6, 1)]

def zoneWords (base : Nat) : List (Nat × Int) :=
  [(base, 5000), (base + 1, 1), (base + 0x12, 1), (base + 0x13, 3)] ++
    ([2, 3, 10, 50, 100, 4000, 6000, 30, 300, 800, 250, 4, 1600].zipIdx.map fun x => (base + 0x23 + x.2, x.1))

/-- The units in TRANSPARENT with that configuration in the mirror, but for one word. -/
def fresh (offset : Nat) (v : Int) : Units :=
  (record ++ sideWords 0x20 ++ sideWords 0x28 ++ zoneWords 0x40 ++ zoneWords 0x80 ++ [(offset, v)]).foldl
    (fun u x => u.setMirror x.1 (BitVec.ofInt 32 x.2)) (.initial 0 false)

/-- LOAD of that configuration: STOPPED, the verdict in memory and in the slot's mirror word, heads below the head count
STOPPED with the initial yield, and the status and flag words queued (R151, R158, R165). -/
theorem test_load :
    let t := after (.load .ca .a 0) (around (fresh 0 5))
    t.units.part = .stopped ∧ t.mem.word 0x100 = 0x82000000 ∧ t.units.mirrorWord 0x100 = 0x82000000 ∧
      (t.units.head 4).state = .stopped ∧ (t.units.head 4).yield = 1600 ∧ (t.units.head 5).state = .disabled ∧
      t.queue = [⟨0x10A, 0x00010001⟩, ⟨0x108, 0x00000080⟩, ⟨0x109, 0x00000080⟩] := by decide +kernel

/-- A LOAD whose record fails check 1, zone 1 check 19, or an overlap of window 3 with window 2 (R150). -/
theorem test_load_check :
    (after (.load .hl .b 0) (around (fresh 0 33))).mem.word 0x101 = 0xC3084000 ∧
      (after (.load .hl .b 0) (around (fresh 0xAF 15))).mem.word 0x101 = 0xC334C000 ∧
      (after (.load .hl .b 0) (around (fresh 0x0E 0x41040))).mem.word 0x101 = 0xC310CC00 := by decide +kernel

/-- UNLOAD empties the part; TRANSPARENT stands in the status word with a count of 1 (R153, R158). -/
theorem test_unload :
    let t := after (.unload .cb .b 0) (around (bench .stopped idle))
    t.units.part = .transparent ∧ t.units.config = none ∧ t.units.head 0 = .cleared ∧ t.mem.word 0x101 = 0x84000000 ∧
      t.queue.head? = some ⟨0x10A, 0x00010000⟩ := by decide +kernel

/-- START of five STOPPED heads, head 2 with product left: EMPTY, or purged; a feed each, rounded up to 50 ticks; the
status word follows the heads' writes (R13, R59, R154). -/
theorem test_start :
    let u := bench .stopped idle
    let u := u.setHead 2 { idle with lastStable := some 101 }
    let t := after (.start .ca .a 0) (around u)
    t.units.part = .running ∧ (t.units.head 0).state = .empty ∧ (t.units.head 0).pool = some ⟨50, 1⟩ ∧
      (t.units.head 2).state = .discharging (.reject .start) ∧ (t.units.head 2).gateSeq = 1 ∧
      t.queue[0]? = some ⟨0x45000, 0x00013232⟩ ∧ t.queue[2]? = some ⟨0x46002, 0x00010003⟩ := by decide +kernel

/-- STOP with an order queued, and with nothing left (R155). -/
theorem test_stop :
    (after (.stop .ca .a 0) (around (withOrder (bench .running idle)))).mem.word 0x100 = 0x88000300 ∧
      (after (.stop .ca .a 0) (around (bench .running (filled .ready)))).mem.word 0x100 = 0x88000400 ∧
      ((after (.stop .ca .a 0) (around (bench .running (filled .ready)))).units.head 1).state = .stopped := by
  decide +kernel

/-- HALT withdraws the order, and its CLAIMED heads are STOPPED with their feed stopped (R114, R157). -/
theorem test_halt :
    let t := after (.halt .ca .a 0) (around (withOrder (bench .running (filled (.claimed .a 0)))))
    t.units.part = .stopped ∧ t.units.orders.a.queue = [] ∧ (t.units.head 0).state = .stopped ∧
      (t.units.head 0).frozen = none ∧ (t.units.head 0).feedSeq = 1 ∧ t.units.notices.a.has .orderEnded = true ∧
      t.queue[0]? = some ⟨0x47000, 0x94020001⟩ := by decide +kernel

theorem test_headEnable :
    let t := after (.headEnable .ca .a 4) (around (bench .stopped { idle with state := .disabled, health := 9 }))
    (t.units.head 4).state = .stopped ∧ (t.units.head 4).health = 0 ∧ t.mem.word 0x100 = 0x8C000004 := by decide +kernel

theorem test_headDisable :
    let t := after (.headDisable .ca .a 4) (around (bench .running (filled .ready)))
    (t.units.head 4).state = .disabled ∧ (t.units.head 4).timer = .stopped ∧ t.queue = [⟨0x45004, 0x00010000⟩] := by
  decide +kernel

theorem test_recover :
    let t := after (.recover .ca .a 4) (around (bench .stopped { idle with state := .out, health := 256 }))
    (t.units.head 4).state = .stopped ∧ (t.units.head 4).health = 128 ∧ t.units.notices.b.number = 1 := by decide +kernel

theorem test_headPurge :
    let t := after (.headPurge .ca .a 4) (around (bench .running (filled .ready)))
    (t.units.head 4).state = .discharging (.reject .command) ∧ t.queue.head? = some ⟨0x46004, 0x00010003⟩ ∧
      t.queue[1]? = some ⟨0x48000, 0x17040001⟩ ∧ t.queue[2]? = some ⟨0x48001, 0x00000101⟩ := by decide +kernel

theorem test_zeroSet :
    ((after (.zeroSet .ca .a 4) (around (bench .running { inState .empty .silence with lastStable := some (-7) }))).units.head
        4).zero = -7 := by decide +kernel

/-- APPLY-SIDE while an order is queued is staged; while none is, it takes effect (R116). -/
theorem test_applySide :
    let u : Units := { bench .running idle with mirror := (fresh 0x26 0).mirror }
    ((after (.applySide .ca .a 0) (around u)).units.orders.a.live.map SideBlock.intake) = some false ∧
      ((after (.applySide .ca .a 0) (around (withOrder u))).units.orders.a.staged.map SideBlock.intake) = some false := by
  decide +kernel

theorem test_applyZone :
    let u : Units := { bench .running idle with mirror := (fresh 0xAE 9).mirror }
    (after (.applyZone .ca .a 1) (around u)).mem.word 0x100 = 0x98000101 ∧
      ((after (.applyZone .ca .a 1) (around u)).units.zones.z1.live.map ZoneBlock.stagger) = some 9 := by decide +kernel

theorem test_noteAck :
    let u := (bench .running idle).setNotice .b { NoticeSide.cleared with notePending := true }
    (after (.noteAck .ca .b 0) (around u)).units.notices.b.notePending = false := by decide +kernel

/-- A report of one still sample settles a SETTLING head: net weight frozen, yield 1600 moved an eighth of the way to
5000 x 16 / 49 = 1632 (R15, R62). -/
theorem test_report :
    let x := { inState .settling .settle with bucket := some 49 }
    let t := after (.reportSampleWrite 0x40005 5000) (around (bench .running x))
    let t := after (.reportHeaderWrite 0x40004 0x09030110) t
    (t.units.head 3).state = .ready ∧ (t.units.head 3).frozen = some 5000 ∧ (t.units.head 3).yield = 1604 ∧
      (t.units.head 3).lastSeq = some 9 ∧ t.units.stage = none := by decide +kernel

/-- The three reductions: a mean rounded down, and a middle value (R36). -/
theorem test_samples : reduceSamples [-3, -4] false 1 = some (-4, true) ∧
    reduceSamples [9, 2, 5] true 6 = some (5, false) ∧ learnedYield 2452 9200 59 = 2457 := by decide +kernel

/-- A candidate header read latches three offered heads; an entry and a deviation word are served from it (R92, R96). -/
theorem test_candidates :
    let t := after (.candidateHeaderRead .cb 0x41000 15) (around (bench .running { filled .ready with age := 2 }))
    t.ports.cb.answer = .data 0x00010203 ∧
      (after (.candidateEntryRead .ca 0x41003 15) t).ports.ca.answer = .data 0x98401388 ∧
      (after (.candidateEntryRead .ca 0x41023 15) t).ports.ca.answer = .data 0x02000000 := by decide +kernel

/-- An order of heads 0 and 1 accepted with position 1, and the same heads refused a second time as CLAIMED (R108). -/
theorem test_order :
    let t := after (.orderWordWrite .ca 0x43001 0x00000100) (around (bench .running (filled .ready)))
    let t := after (.orderWordWrite .ca 0x43003 10000) t
    let t := after (.orderSubmit .ca 0x43000 0x40000072) t
    t.mem.word 0x43000 = 0x80400072 ∧ (t.units.head 1).state = .claimed .a 0 ∧ t.units.notices.a.reservations = 1 := by
  decide +kernel

theorem test_order_refused :
    let t := after (.orderWordWrite .ca 0x43001 0x00000101) (around (bench .running (filled .ready)))
    let t := after (.orderWordWrite .ca 0x43003 10000) t
    (after (.orderSubmit .ca 0x43000 0x40000072) t).mem.word 0x43000 = 0xD8800072 ∧
      (after (.commitClear .ca 0x43000 0x00000072) t).units.orders.a.stage = none := by decide +kernel

theorem test_envelopes :
    let t := after (.feedEnvelopeWrite .ca 0x45003 0x00643C28) (around (bench .running idle))
    let t := after (.topEnvelopeWrite .cb 0x45021 0x00463C41) t
    (t.units.head 3).envelope = some ⟨40, 60, 100⟩ ∧ t.mem.word 0x45003 = 0x00000028 ∧
      t.units.zones.z1.top.applied = some 65 ∧ t.mem.word 0x45021 = 0x00010041 := by decide +kernel

/-- A held notice moves into the ring when the consume index makes room (R164). -/
theorem test_consume :
    let n := { NoticeSide.cleared with writeIx := 3, consumeIx := 4, holding := [(9, .headPresent 2 7)] }
    let t := after (.consumeWordWrite .ca .a 6) (around ((bench .running idle).setNotice .a n))
    t.units.notices.a.writeIx = 4 ∧ t.units.notices.a.holding = [] ∧ t.units.notices.a.has .ringHigh = true ∧
      t.queue.head? = some ⟨0x4700C, 0x40020009⟩ := by decide +kernel

theorem test_clear_enable :
    let n := { NoticeSide.cleared with flags := 0x30, enables := 0x20, notePending := true }
    let u := (bench .running idle).setNotice .a n
    (after (.clearWordWrite .ca .a 0x20) (around u)).units.notices.a.notePending = false ∧
      (after (.enableWordWrite .ca .a 0x10) (around u)).units.notices.a.notePending = true ∧
      (after (.enableWordWrite .ca .a 0x10) (around u)).queue = [⟨0x108, 0x00000530⟩] := by decide +kernel

/-- A partial write into the control block: mirrored in TRANSPARENT, refused of a loaded part (R138, R140). -/
theorem test_partialWrite :
    (after (.controlBlockWrite .hl 0x20 1 0xFFFF) (around (.initial 0 false))).units.mirrorWord 0x20 = 0xFF ∧
      (after (.controlBlockWrite .ca 0x20 1 0xFFFF) (around (bench .running idle))).queue[2]? = some ⟨0x47002, 0x20⟩ := by
  decide +kernel

theorem test_refused :
    let t := after (.refusedPortWrite .cb 0x46000 15 1) (around (bench .running idle))
    t.mem = [] ∧ t.units.notices.b.has .writeRefused = true ∧ t.queue[0]? = some ⟨0x48000, 0x61000001⟩ ∧
      t.queue[1]? = some ⟨0x48001, 2⟩ := by decide +kernel

/-- A request edge releases the queued order: gate commands with a stagger of 4 units, and the heads of the zone left
READY grow older (R84, R121, R123). -/
theorem test_bagRequest :
    let u := withOrder ((bench .running (filled .ready)).setHead 2 { filled .ready with age := 2 })
    let t := after (.bagRequest .a) (around u)
    t.queue.take 3 = [⟨0x46000, 0x00010001⟩, ⟨0x46001, 0x00010401⟩, ⟨0x46002, 0x00010003⟩] ∧
      t.units.releases.a.disch = some 20 ∧ t.units.releases.a.latch = false ∧ (t.units.head 2).age = 3 := by
  decide +kernel

theorem test_pulseEnd :
    let u := (bench .running idle).setRelease .a { ReleaseSide.cleared with disch := some 3 }
    (after (.dischPulseEnd .a) (around u)).units.releases.a.disch = none := by decide +kernel

/-- The three timers' expiries, and a hold expiry (R51 to R53, R111). -/
theorem test_expiries :
    ((after (.settleExpiry 1) (around (bench .running (inState .settling .settle)))).units.head 1).state =
        .discharging (.reject .unsettled) ∧
      ((after (.silenceExpiry 1) (around (bench .running (inState .empty .silence)))).units.head 1).health = 8 ∧
      (after (.gateExpiry 1) (around (bench .running (inState (.discharging (.bag .a)) .gate)))).queue =
        [⟨0x46001, 0x00010001⟩] ∧
      ((after (.holdExpiry .a 0) (around (withOrder (bench .running (filled (.claimed .a 0)))))).units.head 1).state =
        .ready := by decide +kernel

/-- The second GATE expiry takes the head OUT; a head whose timer is no SILENCE timer has no SILENCE expiry (R50, R53). -/
theorem test_expiry_out :
    let x := { inState (.discharging (.reject .over)) .gate with retryUsed := true }
    let t := after (.gateExpiry 4) (around (bench .running x))
    t.units.head 4 = x.outed ∧ t.units.notices.b.has .headOut = true ∧
      after (.silenceExpiry 4) (around (bench .running x)) = around (bench .running x) := by decide +kernel

theorem test_issueQueueWrite :
    let s := { around (bench .running idle) with queue := [⟨0x45000, 0x01020304⟩, ⟨0x45001, 2⟩] }
    (after .issueQueueWrite s).mem.word 0x45000 = 0x01020304 ∧ (after .issueQueueWrite s).queue = [⟨0x45001, 2⟩] := by
  decide +kernel

/-- A START of full buckets that needs more entries than are free is held with its port (R143, R144). -/
def busy : State :=
  { around (bench .stopped { idle with lastStable := some 5000 }) with
    queue := List.replicate 40 ⟨0x45000, 1⟩, lastGranted := .port .ca }

theorem test_held :
    let t := after (.start .cb .b 0) busy
    t.held = [⟨.port .cb, 33⟩] ∧ t.units.part = .stopped ∧ t.ports.cb.current.isSome = true ∧
      (after .issueQueueWrite t).queue.length = 39 := by decide +kernel

theorem test_reset_input :
    after (.resetInput 3 true) (around (bench .running idle)) = around (.initial 3 true) := by decide +kernel

/-- With nothing waiting a millisecond passes; the timer that reaches its limit expires (log entries 2 and 3). -/
theorem test_millisecond :
    let s := around ((bench .running idle).setHead 1 { inState .settling .settle with timer := .running .settle 1 })
    (match step s with
      | .next t => (t.units.head 1).state
      | _ => .disabled) = .discharging (.reject .unsettled) := by decide +kernel

/-! ### The hypotheses of the statements are met -/

theorem test_witness_ResetInputInitializes : (around (bench .running idle)).Quiet := quiet_around _

theorem test_witness_StepsKeepMemoryAndQueue :
    { around (bench .stopped idle) with pending := [.start .ca .a 0] }.Sound ∧
      ∃ t, step { around (bench .stopped idle) with pending := [.start .ca .a 0] } = .next t :=
  ⟨⟨rfl, by decide, fun h => absurd rfl h⟩, _, rfl⟩

theorem test_witness_StepsKeepUnitsLawful : (bench .running (filled .ready)).Lawful ∧
    ∃ t, step { around (bench .running (filled .ready)) with pending := [.bagRequest .a] } = .next t := by
  have hh : ∀ h, ((bench .running (filled .ready)).head h).inRange := by
    unfold Head.inRange
    decide +kernel
  refine ⟨⟨⟨hh, fun z b hb => ?_⟩, fun z => ?_, fun x => ?_, fun x hx => ?_, rfl⟩, _, rfl⟩
  · have : b = zone := by cases z <;> rcases hb with h | h <;> cases h <;> rfl
    subst this
    exact ⟨by decide, by decide⟩
  · cases z <;> exact ⟨by decide, by decide, rfl⟩
  · cases x <;> exact ⟨by decide, by decide, by decide⟩
  · cases x <;> exact absurd rfl hx

/-- The table's two clauses: STATE in TRANSPARENT and in RUNNING, and ARG at the head count. -/
theorem test_witness_TableRefusesCommand :
    ((around (.initial 0 false)).Turn .hl ∧ (around (.initial 0 false)).mayCommand .hl ∧
        Command.refusedIn .noteAck .transparent = true) ∧
      (around (bench .running idle)).Turn .cb ∧ (around (bench .running idle)).mayCommand .cb ∧
        Command.refusedIn .load (bench .running idle).part = true ∧ (bench .running idle).part ≠ .transparent ∧
        Command.ofHead .zeroSet = true ∧ (bench .running idle).headCount ≤ (5#8).toNat :=
  ⟨⟨turn_around _ _ rfl rfl rfl, .inl rfl, rfl⟩, turn_around _ _ rfl rfl rfl, .inr (by decide), rfl, by decide, rfl,
    by decide⟩

theorem fresh_clear (o : Nat) (v : Int) (hm : Cells.wf (fresh o v).mirror = true) (hr : (fresh o v).releases = ⟨.cleared, .cleared⟩) :
    (around (fresh o v)).Clear :=
  clear_around _ (by rw [hr]; rfl) (by rw [hr]; rfl) hm

theorem test_witness_CheckRefusesLoadAndStart_load : (around (fresh 0 33)).Turn .hl ∧ (around (fresh 0 33)).mayCommand .hl ∧
    (fresh 0 33).active = false ∧ loadFailure (fresh 0 33) = some (detailLoad .record 1 0) :=
  ⟨⟨(fresh_clear _ _ (by decide +kernel) (by decide +kernel)).1, .inl rfl⟩, .inl (by decide +kernel), by decide +kernel,
    by decide +kernel⟩

theorem test_witness_LoadTakesConfiguration : (around (fresh 0 5)).Clear ∧ (around (fresh 0 5)).mayCommand .hl ∧
    (fresh 0 5).active = false ∧ loadFailure (fresh 0 5) = none :=
  ⟨fresh_clear _ _ (by decide +kernel) (by decide +kernel), .inl (by decide +kernel), by decide +kernel, by decide +kernel⟩

/-- START's three refusals: head 4 DISCHARGING, head 4 bare, zone 1 bare. -/
theorem test_witness_CheckRefusesLoadAndStart_start :
    let x := (bench .stopped idle).setHead 4 (inState (.discharging (.reject .over)) .gate)
    let y := (bench .stopped idle).setHead 4 { idle with envelope := none }
    let z := (bench .stopped idle).setZone .z1 { zoneRec with top := .cleared }
    ((around x).Turn .ca ∧ x.part = .stopped ∧ x.dischargingHead = some 4) ∧
      ((around y).Turn .ca ∧ y.part = .stopped ∧ y.dischargingHead = none ∧ y.bareHead = some 4) ∧
        (around z).Turn .ca ∧ z.part = .stopped ∧ z.dischargingHead = none ∧ z.bareHead = none ∧ z.bareZone = some .z1 :=
  ⟨⟨turn_around _ _ rfl rfl rfl, by decide +kernel⟩, ⟨turn_around _ _ rfl rfl rfl, by decide +kernel⟩,
    turn_around _ _ rfl rfl rfl, by decide +kernel⟩

/-- The checks of the record pass; a window overlaps another, or none fails. -/
theorem test_witness_ConfigurationChecks :
    firstFailing (recordChecks (fresh 0 5).mirrorWord) = none ∧
      firstFailingWindow (windowChecks (loadedOf (fresh 0 5).mirrorWord) 0) = none ∧
      firstFailing (recordChecks (fresh 0x0E 0x41040).mirrorWord) = none ∧
      firstFailingWindow (windowChecks (loadedOf (fresh 0x0E 0x41040).mirrorWord) 0) = some (3, 3) := by decide +kernel

theorem test_witness_StartRuns : (around (bench .stopped idle)).Clear ∧ (bench .stopped idle).part = .stopped ∧
    (bench .stopped idle).dischargingHead = none ∧ (bench .stopped idle).bareHead = none ∧
    (bench .stopped idle).bareZone = none :=
  ⟨clear_around _ rfl rfl rfl, by decide +kernel⟩

/-- UNLOAD, APPLY and NOTE-ACK ask for a part state only; STOP has both cases, and HALT both part states. -/
theorem test_witness_parts : (around (bench .stopped idle)).Clear ∧ (around (bench .running idle)).Clear ∧
    (around (withOrder (bench .running idle))).Clear ∧ (bench .running idle).drained = true ∧
    (withOrder (bench .running idle)).drained = false ∧ (around (bench .draining idle)).Clear ∧
    (bench .running idle).active = true ∧ (bench .draining idle).active = true ∧ (around (bench .draining idle)).Turn .cb :=
  ⟨clear_around _ rfl rfl rfl, clear_around _ rfl rfl rfl, clear_around _ rfl rfl rfl, by decide +kernel, by decide +kernel,
    clear_around _ rfl rfl rfl, by decide +kernel, by decide +kernel, turn_around _ _ rfl rfl rfl⟩

theorem test_witness_HeadEnableTaken_stopped : (around (bench .stopped { idle with state := .disabled })).Turn .ca ∧
    (4#8).toNat = (4 : Fin 32).val ∧ (4 : Fin 32).val < (bench .stopped { idle with state := .disabled }).headCount ∧
    ((bench .stopped { idle with state := .disabled }).head 4).state = .disabled :=
  ⟨turn_around _ _ rfl rfl rfl, by decide +kernel⟩

theorem test_witness_HeadEnableTaken_running : (around (bench .running { idle with state := .disabled })).Clear ∧
    (bench .running { idle with state := .disabled }).zoneOf (4 : Fin 32).val = some .z1 ∧
    ((bench .running { idle with state := .disabled }).head 4).state = .disabled ∧
    ((bench .running { idle with state := .disabled }).head 4).envelope.isSome = true :=
  ⟨clear_around _ rfl rfl rfl, by decide +kernel⟩

/-- Each clause of the head commands' refusals by the head's state, at head 4, the last below the head count. -/
theorem test_witness_HeadStateRefusesCommand :
    (∀ x, (around (bench .running x)).Turn .ca ∧ (around (bench .draining x)).Turn .ca ∧
      (around (bench .stopped x)).Turn .ca) ∧
      (4#8).toNat = (4 : Fin 32).val ∧ (∀ part x, (4 : Fin 32).val < (bench part x).headCount) ∧
      (∀ part x, ((bench part x).head 4).state = x.state ∧ ((bench part x).head 4).envelope = x.envelope) ∧
      idle.state ≠ .disabled ∧ idle.state ≠ .out ∧ Head.cleared.state = .disabled ∧ Head.cleared.envelope = none ∧
      (filled (.claimed .a 0)).state.name = .claimed ∧
      (inState (.discharging (.bag .b)) .gate).state.name = .discharging :=
  ⟨fun x => ⟨turn_around _ _ rfl rfl rfl, turn_around _ _ rfl rfl rfl, turn_around _ _ rfl rfl rfl⟩, by decide,
    fun p x => by rw [count_bench p x]; decide, fun p x => by rw [head_bench p x 4 (by decide)]; exact ⟨rfl, rfl⟩, by decide,
    by decide, by decide, by decide, by decide, by decide⟩

theorem test_witness_HeadDisableTakenOrRefused : (∀ part x, (around (bench part x)).Clear) ∧
    (4#8).toNat = (4 : Fin 32).val ∧ (∀ part x, (4 : Fin 32).val < (bench part x).headCount) ∧
    (bench .transparent idle).part = .transparent ∧ ((bench .running idle).head 4).state.name = .stopped ∧
    ((bench .draining (filled (.claimed .b 1))).head 4).state.name = .claimed ∧
    ((bench .stopped { idle with state := .disabled }).head 4).state = .disabled :=
  ⟨fun _ _ => clear_around _ rfl rfl rfl, by decide, fun p x => by rw [count_bench p x]; decide, by decide +kernel⟩

theorem test_witness_RecoverTaken : (∀ part x, (around (bench part x)).Clear) ∧
    ((bench .stopped { idle with state := .out, health := 256 }).head 4).state = .out ∧
    ((bench .running { idle with state := .out, health := 256 }).head 4).health = 256 ∧
    (bench .running { idle with state := .out, health := 256 }).zoneOf (4 : Fin 32).val = some .z1 :=
  ⟨fun _ _ => clear_around _ rfl rfl rfl, by decide +kernel⟩

theorem test_witness_HeadPurgeTaken : (around (bench .draining (filled .ready))).Clear ∧
    (bench .draining (filled .ready)).active = true ∧ ((bench .draining (filled .ready)).head 4).state = .ready ∧
    ((bench .running (inState .empty .silence)).head 4).state = .empty ∧
    ((bench .running (inState .settling .settle)).head 4).state = .settling :=
  ⟨clear_around _ rfl rfl rfl, by decide +kernel⟩

/-- ZERO-SET's clauses: arguments 5 and 4 against a head count of 5, with and without a last stable weight. -/
theorem test_witness_ZeroSetTakenOrRefused : (∀ x, (around (bench .running x)).Turn .ca) ∧
    (∀ x, (bench .running x).headCount ≤ (5#8).toNat ∧ (4#8).toNat < (bench .running x).headCount) ∧
    ((bench .running { idle with lastStable := some 3 }).head 4).lastStable = some 3 ∧
    ((bench .running idle).head 4).lastStable = none ∧ ((bench .running (filled .ready)).head 4).state = .ready :=
  ⟨fun _ => turn_around _ _ rfl rfl rfl, fun x => by rw [count_bench _ x]; decide,
    by decide +kernel⟩

/-- The bench with the configuration's blocks in the mirror but for one word, with or without an order queued. -/
def blocks (offset : Nat) (v : Int) (queued : Bool) : Units :=
  let u := bench .running (if queued then filled (.claimed .a 0) else idle)
  { (if queued then withOrder u else u) with mirror := (fresh offset v).mirror }

theorem test_witness_ApplyTaken_side :
    (around (blocks 0x26 1 true)).Turn .ca ∧ (around (blocks 0x26 1 false)).Turn .ca ∧
      (0#8).toNat = Side.a.number ∧ (blocks 0x26 1 true).enabled .a = true ∧
      firstFailing (sideChecks fun i => (blocks 0x26 1 true).mirrorWord (sideBlockOffset .a + i)) = none ∧
      firstFailing (sideChecks fun i => (blocks 0x26 1 false).mirrorWord (sideBlockOffset .a + i)) = none ∧
      ((blocks 0x26 1 true).orders.get .a).queue ≠ [] ∧ ((blocks 0x26 1 false).orders.get .a).queue = [] :=
  ⟨turn_around _ _ rfl rfl (by decide +kernel), turn_around _ _ rfl rfl (by decide +kernel), by decide +kernel⟩

theorem test_witness_ApplyTaken_zone :
    (around (blocks 0x6E 1 true)).Turn .ca ∧ (around (blocks 0x6E 1 false)).Turn .ca ∧
      (1#8).toNat = Zone.z1.number ∧ Zone.z1.number < (blocks 0x6E 1 true).zoneCount ∧
      firstFailing (zoneChecks fun i => (blocks 0x6E 1 true).mirrorWord (zoneBlockOffset .z0 + i)) = none ∧
      firstFailing (zoneChecks fun i => (blocks 0x6E 1 false).mirrorWord (zoneBlockOffset .z1 + i)) = none ∧
      (blocks 0x6E 1 true).claimedIn .z0 = true ∧ (blocks 0x6E 1 false).claimedIn .z1 = false :=
  ⟨turn_around _ _ rfl rfl (by decide +kernel), turn_around _ _ rfl rfl (by decide +kernel), by decide +kernel⟩

/-- APPLY's four refusals: arguments 2 and 1 that name no side and no zone in force, and the last check of each block. -/
theorem test_witness_ApplyRefused :
    let one : Units := { blocks 0x26 2 false with config := some { config with zoneCount := 1, binding := ⟨some .z0, none⟩ } }
    (around one).Turn .cb ∧ (∀ x : Side, (1#8).toNat = x.number → one.enabled x = false) ∧
      (∀ x : Side, (2#8).toNat = x.number → one.enabled x = false) ∧
      (∀ z : Zone, (1#8).toNat = z.number → one.zoneCount ≤ z.number) ∧
      firstFailing (sideChecks fun i => one.mirrorWord (sideBlockOffset .a + i)) = some 7 ∧ one.enabled .a = true ∧
      (around (blocks 0x6F 15 false)).Turn .cb ∧
      firstFailing (zoneChecks fun i => (blocks 0x6F 15 false).mirrorWord (zoneBlockOffset .z0 + i)) = some 19 :=
  ⟨turn_around _ _ rfl rfl (by decide +kernel), fun x => by cases x <;> decide, fun x => by cases x <;> decide,
    fun z => by cases z <;> decide, by decide +kernel, by decide +kernel, turn_around _ _ rfl rfl (by decide +kernel),
    by decide +kernel⟩

/-! Reports. -/

/-- The bench of a part state and a head record, with a sample of slot 1 in the stage. -/
def staged (part : PartState) (x : Head) (sample : Int) : Units :=
  (bench part x).setStage (some { slot := 1, w1 := some (BitVec.ofInt 32 sample), w2 := none, w3 := none })

theorem window_header (part : PartState) (x : Head) (sample : Int) : (staged part x sample).inWindow 0x40004 .report (4 * 1) := by
  have hc : (staged part x sample).config = some config := rfl
  have hb : (staged part x sample).cbase = 0 := rfl
  unfold Units.inWindow Units.controlOffset Units.controlBase Units.windowAt
  rw [hc, hb]
  decide +kernel

theorem staged_passes (part : PartState) (x : Head) (sample : Int) (w : Word) (hn : (reportHeader w).count ≤ 1)
    (hh : (reportHeader w).head.val < 5) (hx : x.state ≠ .disabled) (hs : x.lastSeq = none)
    (hr : -200000 ≤ (BitVec.ofInt 32 sample).toInt ∧ (BitVec.ofInt 32 sample).toInt ≤ 2000000) :
    (staged part x sample).reportPasses 1 (reportHeader w) := by
  have hx' : (staged part x sample).head (reportHeader w).head = x :=
    head_bench part x _ hh
  refine ⟨by omega, fun o h1 h2 => ?_, hh, by rw [hx']; exact hx, fun o v h1 h2 hv => ?_, by rw [hx', hs]; nofun⟩
  · have : o = 1 := by omega
    subst this
    rfl
  · have : o = 1 := by omega
    subst this
    cases hv
    exact hr

/-- A report without samples passes where its head is enabled and its sequence new. -/
theorem empty_passes (u : Units) (slot : Nat) (r : ReportHeader) (hn : r.count = 0) (hh : r.head.val < u.headCount)
    (hx : (u.head r.head).state ≠ .disabled) (hs : (u.head r.head).lastSeq ≠ some r.seq) : u.reportPasses slot r :=
  ⟨by omega, fun o h1 h2 => absurd h2 (by omega), hh, hx, fun o _ h1 h2 _ => absurd h2 (by omega), hs⟩

theorem empty_weight (u : Units) (r : ReportHeader) (hn : r.count = 0) : u.reportWeight r = none := by
  unfold Units.reportWeight
  rw [hn]
  cases u.stage <;> rfl

/-- Side A with a queued order of heads 0 and 1, CLAIMED, and head 2 in its dump. -/
def relay (latch : Bool) (x : Head) (marks : List (Fin 32 × Mark)) : Units :=
  (withOrder ((((bench .running (filled .ready)).setHead 0 (filled (.claimed .a 0))).setHead 1
    (filled (.claimed .a 0))).setHead 2 x)).setRelease .a
      { ReleaseSide.cleared with
        latch := latch, dumps := [{ tag := 3, heads := marks, total := 9500, target := 10000 }] }

/-- Head 2 as a bag's last head. -/
def lastOfBag (health : Nat) : Head := { inState (.discharging (.bag .a)) .gate with health := health }

theorem clear_relay (latch : Bool) (x : Head) (marks : List (Fin 32 × Mark)) : (around (relay latch x marks)).Clear :=
  clear_around _ rfl rfl rfl

theorem relay_window : (relay true (lastOfBag 0) [(2, .pending)]).inWindow 0x40004 .report (4 * 1) :=
  ⟨by decide +kernel, by decide +kernel⟩

/-- A release follows the mark of head 2, and none where the latch is CLEAR. -/
theorem relay_releases (health : Nat) (m : Mark) (hm : m ≠ .pending) :
    (relay true (lastOfBag health) [(2, .pending)]).releaseFollows .a 2 m .z0 order ∧
      (relay false (lastOfBag health) [(2, .pending)]).unreleased .a 2 m :=
  ⟨⟨rfl, rfl, rfl, rfl, by decide, show 1 ≤ 2 by decide,
    { tag := 3, heads := [(2, .pending)], total := 9500, target := 10000 }, rfl, by cases m <;> first | rfl | exact absurd rfl hm⟩,
    .inr (.inl rfl)⟩

/-- Sample writes at the first and the last offset of the last slot but for the words of a stage. -/
theorem test_witness_SampleStaged : (around (staged .running idle 1)).Turn .hl ∧
    (staged .running idle 1).inWindow 0x40005 .report (4 * 1 + 1) ∧
    (staged .running idle 1).inWindow 0x4003F .report (4 * 15 + 3) :=
  ⟨turn_around _ _ rfl rfl rfl, ⟨by decide +kernel, by decide +kernel⟩, by decide +kernel, by decide +kernel⟩

/-- The three refusals: four samples, two where one is staged, head 5 against a head count of 5. -/
theorem test_witness_ReportRefused : (around (staged .running idle 1)).Clear ∧
    (staged .running idle 1).inWindow 0x40004 .report (4 * 1) ∧ 3 < (reportHeader 0x00000040).count ∧
    (reportHeader 0x00000020).count ≤ 3 ∧
    ¬ (staged .running idle 1).reportComplete 1 (reportHeader 0x00000020).count ∧
    (staged .running idle 1).reportComplete 1 (reportHeader 0x00050010).count ∧
    (staged .running idle 1).headCount ≤ (reportHeader 0x00050010).head.val := by
  refine ⟨clear_around _ rfl rfl rfl, window_header _ _ _, by decide, by decide, fun h => ?_, fun o h1 h2 => ?_, by decide⟩
  · exact absurd (h 2 (by decide) (by decide)) (by decide)
  · have : o = 1 := by
      have : o ≤ 1 := h2
      omega
    subst this
    rfl

/-- Check 5 at both ends, of the first sample and of the last; the counter's last value below BARRED, and its first at
which a head goes OUT without and with a release. -/
theorem test_witness_ReportRefused_range :
    (∀ w : Int, w = -200001 ∨ w = 2000001 → (around (staged .running idle w)).Clear ∧
      stagedWord (staged .running idle w).stage 1 1 = some (BitVec.ofInt 32 w) ∧
      ((BitVec.ofInt 32 w).toInt < -200000 ∨ 2000000 < (BitVec.ofInt 32 w).toInt)) ∧
      119 + 8 < 128 ∧ 256 ≤ 248 + 8 ∧
      let u : Units := { relay true (lastOfBag 248) [(2, .pending)] with
        stage := some { slot := 1, w1 := some 0, w2 := some 2000000, w3 := some 0x7FFFFFFF } }
      let r := reportHeader 0x01020030
      (around u).Clear ∧ r.count = 3 ∧ stagedWord u.stage 1 3 = some 0x7FFFFFFF ∧ (u.head r.head).state = .discharging (.bag .a) ∧
        u.releaseFollows .a r.head .unconfirmed .z0 order :=
  ⟨fun w hw => ⟨clear_around _ rfl rfl rfl, rfl, by rcases hw with rfl | rfl <;> decide⟩, by decide, by decide,
    clear_around _ rfl rfl rfl, by decide, by decide, by decide +kernel, (relay_releases 248 .unconfirmed (by decide)).1⟩

/-- A HELLO of a DISABLED head, a report of a DISABLED head that is none, and a duplicate. -/
theorem test_witness_ReportIgnored :
    (∀ x, (around (staged .running x 1)).Clear) ∧ (reportHeader 0x00040810).hello = true ∧
      (staged .running { idle with state := .disabled } 1).reportComplete 1 1 ∧
      ((staged .running { idle with state := .disabled } 1).head 4).state = .disabled ∧
      (reportHeader 0x00040010).hello = false ∧
      (staged .running { idle with lastSeq := some 9 } 1).samplesInRange 1 1 ∧
      ((staged .running { idle with lastSeq := some 9 } 1).head 4).lastSeq = some (reportHeader 0x09040010).seq := by
  refine ⟨fun _ => clear_around _ rfl rfl rfl, by decide, fun o h1 h2 => ?_, rfl, by decide, fun o v h1 h2 hv => ?_, rfl⟩
  · have : o = 1 := by omega
    subst this
    rfl
  · have : o = 1 := by omega
    subst this
    cases hv
    decide

/-- A settle outcome at the ends of the fill range, on a head whose counter is the last below BARRED, and the first
BARRED. -/
theorem test_witness_ReportSettlesReady :
    ∀ health : Nat, health = 127 ∨ health = 128 →
    let x := { inState .settling .settle with health := health }
    let r := reportHeader 0x01040110
    (∀ w : Int, w = 4000 ∨ w = 6000 → (around (staged .running x w)).Clear ∧ (staged .running x w).reportPasses 1 r ∧
      (staged .running x w).reportWeight r = some (w, true)) ∧
      r.boardFault = false ∧ r.poolDrop = false ∧ (staged .running x 0).undrained ∧
      ((staged .running x 0).params r.head).minFill ≤ 4000 - x.zero ∧
      (6000 : Int) - x.zero ≤ ((staged .running x 0).params r.head).ceiling ∧ (staged .running x 0).active = true := by
  rintro health (rfl | rfl) <;>
    refine ⟨fun w hw => ?_, by decide, by decide, nofun, by decide +kernel, by decide +kernel, by decide +kernel⟩ <;>
    refine ⟨clear_around _ rfl rfl rfl, staged_passes _ _ _ _ (by decide) (by decide) (by decide) rfl ?_, ?_⟩ <;>
    rcases hw with rfl | rfl <;> decide +kernel

/-- A settle outcome one milligram above the ceiling and one below the minimum fill. -/
theorem test_witness_ReportPurgesOutOfRange :
    let x := inState .settling .settle
    let r := reportHeader 0x01040110
    (∀ w : Int, w = 3999 ∨ w = 6001 → (around (staged .running x w)).Clear ∧ (staged .running x w).reportPasses 1 r ∧
      (staged .running x w).reportWeight r = some (w, true)) ∧
      r.boardFault = false ∧ r.poolDrop = false ∧ (staged .running x 0).zoneOf r.head.val = some .z1 ∧
      ((staged .running x 0).params r.head).ceiling < 6001 - x.zero ∧
      (3999 : Int) - x.zero < ((staged .running x 0).params r.head).minFill := by
  refine ⟨fun w hw => ?_, by decide +kernel⟩
  refine ⟨clear_around _ rfl rfl rfl, staged_passes _ _ _ _ (by decide) (by decide) (by decide) rfl ?_, ?_⟩ <;>
    rcases hw with rfl | rfl <;> decide +kernel

/-- Weights at the end of the zero band and beyond it, of an EMPTY and of a STOPPED head, at the counter's values on
both sides of OUT. -/
theorem test_witness_ReportTracksZero :
    let r := reportHeader 0x01040110
    (∀ x ∈ [{ inState .empty .silence with health := 239 }, { idle with health := 240 }], ∀ w : Int, w = -50 ∨ w = 51 →
      (around (staged .running x w)).Clear ∧ (staged .running x w).undrained ∧ (staged .running x w).reportPasses 1 r ∧
        (staged .running x w).reportWeight r = some (w, true) ∧ (x.state = .empty ∨ x.state = .stopped) ∧
        ((staged .running x w).params r.head).zeroBand = 50 ∧ x.zero = 0) ∧
      r.boardFault = false ∧ r.poolDrop = false := by
  refine ⟨fun x hx w hw => ?_, by decide⟩
  simp only [List.mem_cons, List.not_mem_nil, or_false] at hx
  refine ⟨clear_around _ rfl rfl rfl, nofun, ?_⟩
  rcases hx with rfl | rfl <;> rcases hw with rfl | rfl <;>
    exact ⟨staged_passes _ _ _ _ (by decide) (by decide) (by decide) rfl (by decide), by decide +kernel⟩

/-- BOARD-FAULT without a weight: below BARRED, a CLAIMED head that becomes BARRED, entry to OUT, and the release that it
brings. -/
theorem test_witness_ReportBoardFault :
    let r := reportHeader 0x01021000
    (∀ latch x, x ∈ [filled .ready, { filled (.claimed .a 0) with health := 96 }, { idle with state := .out, health := 256 },
        { idle with health := 224 }, lastOfBag 224] →
      (around (relay latch x [(2, .pending)])).Clear ∧ (relay latch x [(2, .pending)]).reportPasses 1 r ∧
        (relay latch x [(2, .pending)]).reportWeight r = none ∧ (relay latch x [(2, .pending)]).part ≠ .draining) ∧
      r.boardFault = true ∧ r.poolDrop = false ∧ r.gateClosed = false ∧
      (relay true (lastOfBag 224) [(2, .pending)]).releaseFollows .a r.head .unconfirmed .z0 order ∧
      (relay false (lastOfBag 224) [(2, .pending)]).unreleased .a r.head .unconfirmed := by
  refine ⟨fun latch x hx => ⟨clear_relay _ _ _, ?_, empty_weight _ _ (by decide), nofun⟩, by decide, by decide, by decide,
    relay_releases 224 .unconfirmed (by decide)⟩
  simp only [List.mem_cons, List.not_mem_nil, or_false] at hx
  rcases hx with rfl | rfl | rfl | rfl | rfl <;> cases latch <;>
    exact empty_passes _ _ _ (by decide) (by decide +kernel) (by decide +kernel) (by decide +kernel)

/-- A READY and a CLAIMED head one milligram beyond the disturbance band on either side, and POOL-DROP of a SETTLING and of
a STOPPED head, at the counter's values on both sides of OUT. -/
theorem test_witness_ReportDisturbs :
    let r := reportHeader 0x01040110
    let d := reportHeader 0x01040200
    (∀ x ∈ [{ filled .ready with health := 247 }, { filled (.claimed .b 0) with health := 248 }], ∀ w : Int, w = 4969 ∨ w = 5031 →
      (around (staged .running x w)).Clear ∧ (staged .running x w).reportPasses 1 r ∧
        (staged .running x w).reportWeight r = some (w, true) ∧ (x.state.name = .ready ∨ x.state.name = .claimed) ∧
        x.frozen = some 5000 ∧ x.zero = 0 ∧ ((staged .running x w).params r.head).disturbBand = 30) ∧
      r.boardFault = false ∧ r.poolDrop = false ∧ d.boardFault = false ∧ d.poolDrop = true ∧
      ∀ x ∈ [inState .settling .settle, idle], (staged .running x 0).reportPasses 1 d ∧
        (staged .running x 0).reportWeight d = none ∧ (x.state.name = .settling ∨ (x.state = .stopped ∧ x.pool = none)) := by
  refine ⟨fun x hx w hw => ⟨clear_around _ rfl rfl rfl, ?_⟩, by decide, by decide, by decide, by decide, fun x hx => ?_⟩ <;>
    simp only [List.mem_cons, List.not_mem_nil, or_false] at hx
  · rcases hx with rfl | rfl <;> rcases hw with rfl | rfl <;>
      exact ⟨staged_passes _ _ _ _ (by decide) (by decide) (by decide) rfl (by decide), by decide +kernel⟩
  · rcases hx with rfl | rfl <;>
      exact ⟨staged_passes _ _ _ _ (by decide) (by decide) (by decide) rfl (by decide), by decide +kernel⟩

/-- The order of a CLAIMED head that leaves it, in the queue under its number. -/
theorem test_witness_withdrawals :
    let u := relay false (lastOfBag 0) [(2, .pending)]
    u.part ≠ .draining ∧ (u.head 1).state = .claimed .a 0 ∧ order ∈ (u.orders.get .a).queue ∧ order.accept = 0 ∧
      ((u.orders.get .a).queue.map OrderRec.accept).Nodup ∧ (u.head 1).timer = .running .silence 5 ∧
      (0 : Fin 32) ∈ order.heads ∧ (0 : Fin 32) ≠ 1 := by decide +kernel

/-- All flags together at a bag's last head, where no release follows its mark, and where one follows in the place of
BOARD-FAULT, from the least counter value of an entry to OUT, and of GATE-CLOSED, at the last value below it. -/
theorem test_witness_ReportTakenWhole :
    let r := reportHeader 0x01021600
    let u (latch : Bool) (health : Nat) := relay latch (lastOfBag health) [(2, .pending)]
    (r.boardFault = true ∧ r.gateClosed = true ∧ r.poolDrop = true ∧ (lastOfBag 224).gateSeq = r.echo) ∧
      (∀ latch, ∀ health ∈ [223, 224], (around (u latch health)).Clear ∧ (u latch health).reportPasses 1 r ∧
        (u latch health).stableWeight r = none) ∧
      (u false 224).unreleased .a r.head .unconfirmed ∧ (u false 223).unreleased .a r.head .confirmed ∧
      (u true 224).releaseFollows .a r.head .unconfirmed .z0 order ∧ (u true 223).releaseFollows .a r.head .confirmed .z0 order ∧
      r.head ∉ order.heads := by
  refine ⟨by decide, fun latch health hx => ⟨clear_relay _ _ _, ?_, ?_⟩, (relay_releases 224 .unconfirmed (by decide)).2,
    (relay_releases 223 .confirmed (by decide)).2, (relay_releases 224 .unconfirmed (by decide)).1,
    (relay_releases 223 .confirmed (by decide)).1, by decide⟩
  · simp only [List.mem_cons, List.not_mem_nil, or_false] at hx
    rcases hx with rfl | rfl <;> cases latch <;>
      exact empty_passes _ _ _ (by decide) (by decide +kernel) (by decide +kernel) (by decide +kernel)
  · unfold Units.stableWeight
    rw [empty_weight _ _ (by decide)]
    rfl

/-- Reports that ask for nothing: a weight at either end of the disturbance band of a READY and of a CLAIMED head, one in
DISCHARGING and in OUT, and one of a SETTLING head that is not stable. -/
theorem test_witness_ReportTakenWhole_quiet :
    let r := reportHeader 0x01040110
    (∀ x ∈ [filled .ready, filled (.claimed .b 0), inState (.discharging (.reject .over)) .gate,
        { idle with state := .out, health := 256 }], ∀ w : Int, w = 4970 ∨ w = 5030 →
      (around (staged .running x w)).Clear ∧ (staged .running x w).undrained ∧ (staged .running x w).reportPasses 1 r ∧
        (staged .running x w).stableWeight r = some w ∧ ((staged .running x w).params r.head).disturbBand = 30 ∧
        x.zero = 0) ∧
      (r.boardFault = false ∧ r.poolDrop = false ∧ r.gateClosed = false) ∧
      (staged .running (inState .settling .settle) 5000).reportPasses 1 (reportHeader 0x01040010) ∧
      (staged .running (inState .settling .settle) 5000).stableWeight (reportHeader 0x01040010) = none := by
  refine ⟨fun x hx w hw => ⟨clear_around _ rfl rfl rfl, nofun, ?_⟩, by decide,
    staged_passes _ _ _ _ (by decide) (by decide) (by decide) rfl (by decide), by decide +kernel⟩
  simp only [List.mem_cons, List.not_mem_nil, or_false] at hx
  rcases hx with rfl | rfl | rfl | rfl <;> rcases hw with rfl | rfl <;>
    exact ⟨staged_passes _ _ _ _ (by decide) (by decide) (by decide) rfl (by decide), by decide +kernel⟩

/-- POOL-DROP of an EMPTY head, and behind the confirmation of a purge and of a bag's head. -/
theorem test_witness_ReportTakenWhole_drops :
    let r := reportHeader 0x01040600
    (∀ x ∈ [{ inState .empty .silence with pool := some ⟨40, 2⟩ }, inState (.discharging (.reject .over)) .gate,
        inState (.discharging (.reject .recover)) .gate, inState (.discharging (.bag .b)) .gate],
      (around (staged .running x 1)).Clear ∧ (staged .running x 1).reportPasses 1 r ∧
        (staged .running x 1).stableWeight r = none ∧ (staged .running x 1).zoneOf r.head.val = some .z1 ∧
        x.gateSeq = r.echo ∧ (staged .running x 1).unreleased .b r.head .confirmed) ∧
      r.boardFault = false ∧ r.poolDrop = true ∧ r.gateClosed = true := by
  refine ⟨fun x hx => ?_, by decide⟩
  simp only [List.mem_cons, List.not_mem_nil, or_false] at hx
  rcases hx with rfl | rfl | rfl | rfl <;>
    exact ⟨clear_around _ rfl rfl rfl, staged_passes _ _ _ _ (by decide) (by decide) (by decide) rfl (by decide),
      by decide +kernel, by decide +kernel, by decide, .inr (.inl rfl)⟩

/-- GATE-CLOSED with the echo that matches, and with another one. -/
theorem test_witness_ReportConfirmsPurge :
    let x := inState (.discharging (.reject .over)) .gate
    ∀ w : Word, w = 0x01040400 ∨ w = 0x0104040F → (around (staged .running x 1)).Clear ∧
      (staged .running x 1).reportPasses 1 (reportHeader w) ∧ (reportHeader w).boardFault = false ∧
      (reportHeader w).poolDrop = false ∧ (reportHeader w).gateClosed = true ∧
      (staged .running x 1).reportWeight (reportHeader w) = none ∧
      (x.gateSeq = (reportHeader w).echo ↔ w = 0x01040400) := by
  rintro x w (rfl | rfl) <;>
    exact ⟨clear_around _ rfl rfl rfl, staged_passes _ _ _ _ (by decide) (by decide) (by decide) rfl (by decide),
      by decide +kernel⟩

/-- A confirmation that completes a dump, where the level changes on the dump's own side and where it does not, one that
leaves a head pending, and one that a release follows. -/
theorem test_witness_ConfirmationCompletesDump :
    let r := reportHeader 0x01020400
    (∀ latch x marks, x ∈ [lastOfBag 95, lastOfBag 96, lastOfBag 0] → (around (relay latch x marks)).Clear ∧
      (relay latch x marks).reportPasses 1 r ∧ (relay latch x marks).reportWeight r = none ∧
      (relay latch x marks).part = .running ∧ x.state = .discharging (.bag .a) ∧ x.gateSeq = r.echo) ∧
      r.boardFault = false ∧ r.poolDrop = false ∧ r.gateClosed = true ∧
      (levelOf 96 ≠ levelOf 95 ∧ (relay false (lastOfBag 96) [(2, .pending)]).reportingHead r.head = .a) ∧
      levelOf 95 = levelOf 94 ∧
      (let d (marks) : Dump := { tag := 3, heads := marks, total := 9500, target := 10000 }
       (d [(1, .unconfirmed), (2, .pending)]).awaits 2 = true ∧
        ((d [(1, .unconfirmed), (2, .pending)]).mark 2 .confirmed).complete = true ∧
        ((d [(1, .pending), (2, .pending)]).mark 2 .confirmed).complete = false) ∧
      (relay true (lastOfBag 0) [(2, .pending)]).releaseFollows .a r.head .confirmed .z0 order ∧
      (relay false (lastOfBag 0) [(2, .pending)]).unreleased .a r.head .confirmed := by
  refine ⟨fun latch x marks hx => ?_, by decide, by decide, by decide, by decide +kernel, by decide, by decide,
    relay_releases 0 .confirmed (by decide)⟩
  simp only [List.mem_cons, List.not_mem_nil, or_false] at hx
  rcases hx with rfl | rfl | rfl <;>
    exact ⟨clear_relay _ _ _, empty_passes _ _ _ (by decide) (show 2 < 5 by decide) nofun nofun,
      empty_weight _ _ (by decide), rfl, rfl, by decide⟩

/-! Accesses. -/

theorem test_witness_Candidates : ((around (bench .running idle)).front .cb).current = none ∧
    ((around (bench .running idle)).front .cb).upstream = [] ∧
    (bench .running idle).windowAt 0x41000 = some (.candidate .a, 0) ∧
    (bench .running idle).windowAt 0x41020 = some (.candidate .a, 1 + (31 : Fin 32).val) ∧
    (bench .running idle).windowAt 0x42040 = some (.candidate .b, 33 + (31 : Fin 32).val) := by decide +kernel

/-- A plain read, of HL in a candidate window too, and a plain write beside the last word of a window and at the end of memory. -/
theorem test_witness_PlainAccessesPass : (around (bench .running idle)).Turn .ca ∧
    (around (bench .running idle)).Turn .hl ∧ (∀ side off, (bench .running idle).windowAt 0x41041 ≠ some (.candidate side, off)) ∧
    (bench .running idle).controlOffset 0x41041 = none ∧ (bench .running idle).windowAt 0x41041 = none ∧
    (bench .running idle).controlOffset 0xFFFFF = none ∧ (bench .running idle).windowAt 0xFFFFF = none := by
  have h : (bench .running idle).windowAt 0x41041 = none := by decide +kernel
  exact ⟨turn_around _ _ rfl rfl rfl, turn_around _ _ rfl rfl rfl, fun _ _ => by rw [h]; nofun, by decide +kernel, h, by decide +kernel, by decide +kernel⟩

/-- Every test that refuses a write, at the ends of its range. -/
theorem test_witness_WriteRefused :
    let u := bench .running idle
    (around u).Clear ∧ u.refuses .ca 0x1FF 7 0 .partialWrite ∧ u.refuses .ca 0x43000 0 0 .partialWrite ∧
      u.refuses .hl 0 15 0 .permission ∧ u.refuses .ca 0x10A 15 0 .permission ∧ u.refuses .cb 0x4003F 15 0 .permission ∧
      u.refuses .cb 0x43000 15 0 .permission ∧ u.refuses .hl 0x45000 15 0 .permission ∧
      u.refuses .ca 0x46000 15 0 .permission ∧ u.refuses .ca 0x45005 15 0 .range ∧
      ({ u with config := some { config with zoneCount := 1 } } : Units).refuses .ca 0x45021 15 0 .range ∧
      u.refuses .ca 0x106 15 16 .range ∧ u.refuses .cb 0x107 15 1 .range ∧ u.refuses .ca 0x45004 15 0x00020165 .value ∧
      u.refuses .ca 0x45004 15 0x00010000 .value ∧ u.refuses .ca 0x45021 15 0x00323433 .value := by
  intro u
  have hp : u.part ≠ .transparent := by decide
  refine ⟨clear_around _ rfl rfl rfl, ⟨.inl ⟨hp, 0x1FF, by decide +kernel⟩, by decide⟩,
    ⟨.inr ⟨.order .a, 0, by decide +kernel, by decide +kernel⟩, by decide⟩, ⟨.inl ⟨hp, 0, by decide +kernel, .inl rfl⟩, rfl⟩,
    ⟨.inl ⟨hp, 0x10A, by decide +kernel, by decide⟩, rfl⟩,
    ⟨.inr ⟨.report, 0x3F, ⟨by decide +kernel, by decide +kernel⟩, by decide⟩, rfl⟩,
    ⟨.inr ⟨.order .a, 0, ⟨by decide +kernel, by decide +kernel⟩, by decide⟩, rfl⟩,
    ⟨.inr ⟨.feed, 0, ⟨by decide +kernel, by decide +kernel⟩, rfl⟩, rfl⟩,
    ⟨.inr ⟨.gate, 0, ⟨by decide +kernel, by decide +kernel⟩, trivial⟩, rfl⟩,
    ⟨by decide, rfl, .inl ⟨5, ⟨by decide +kernel, by decide +kernel⟩, by decide, by decide⟩⟩,
    ⟨by decide, rfl, .inr (.inl ⟨.z1, ⟨by decide +kernel, by decide +kernel⟩, by decide⟩)⟩,
    ⟨by decide, rfl, .inr (.inr ⟨.a, hp, by decide +kernel, .inl (by decide)⟩)⟩,
    ⟨by decide, rfl, .inr (.inr ⟨.b, hp, by decide +kernel, .inr (by decide)⟩)⟩,
    ⟨by decide, rfl, .inl ⟨4, ⟨by decide +kernel, by decide +kernel⟩, by decide, by decide, by decide⟩⟩,
    ⟨by decide, rfl, .inl ⟨4, ⟨by decide +kernel, by decide +kernel⟩, by decide, by decide, by decide⟩⟩,
    ⟨by decide, rfl, .inr ⟨.z1, ⟨by decide +kernel, by decide +kernel⟩, by decide, by decide⟩⟩⟩

theorem test_witness_WriteHeld : busy.Turn .cb ∧
    ∃ n, attempt busy.free (Ev.write .cb 0x101 15 (issueWord .start 0)) busy.units = .error n :=
  ⟨⟨⟨fun p => by cases p <;> exact ⟨rfl, rfl⟩, rfl, rfl, fun x => by cases x <;> rfl, rfl, rfl⟩,
    .inr ⟨by decide, by decide⟩⟩, 33, by
    have h : (match attempt busy.free (Ev.write .cb 0x101 15 (issueWord .start 0)) busy.units with
        | .error n => n
        | .ok _ => 0) = 33 := by decide +kernel
    cases ha : attempt busy.free (Ev.write .cb 0x101 15 (issueWord .start 0)) busy.units with
    | error n => rw [ha] at h; exact congrArg _ h
    | ok e => rw [ha] at h; cases h⟩

/-! Orders, feeds, releases. -/

/-- Heads 0 and 1 listed in slot 1 of side A's stage. -/
def listed (u : Units) : Units :=
  u.setOrder .a { orderUnit with stage := some { slot := 1, w1 := some 0x00000100, w2 := none, w3 := some 10000 } }

theorem test_witness_OrderWordStaged : (around (listed (bench .running idle))).Turn .ca ∧
    (listed (bench .running idle)).inWindow 0x43005 (.order .a) (4 * 1 + 1) ∧
    (listed (bench .running idle)).inWindow 0x43007 (.order .a) (4 * 1 + 3) ∧
    .ca = (listed (bench .running idle)).owner .a ∧ .cb = (listed (bench .running idle)).owner .b :=
  ⟨turn_around _ _ rfl rfl rfl, ⟨by decide +kernel, by decide +kernel⟩, ⟨by decide +kernel, by decide +kernel⟩, rfl, rfl⟩

theorem test_witness_OrderAccepted :
    let u := listed (bench .running (filled .ready))
    (around u).Turn .ca ∧ u.inWindow 0x43004 (.order .a) (4 * 1) ∧ isSubmit 0x40000072 = true ∧
      judgeOrder u .a 1 0x40000072 = (.accepted 1, [0, 1], 10000) ∧ (u.orders.get .a).live = some side ∧
      (u.releases.get .a).latch = false :=
  ⟨turn_around _ _ rfl rfl rfl, ⟨by decide +kernel, by decide +kernel⟩, by decide +kernel⟩

/-- The acceptance with the latch SET: the order is the oldest of its queue, and its side bound. -/
theorem test_witness_OrderAccepted_release :
    let u := (listed (bench .running (filled .ready))).setRelease .a { ReleaseSide.cleared with latch := true }
    (around u).Clear ∧ judgeOrder u .a 1 0x40000072 = (.accepted 1, [0, 1], 10000) ∧ u.binding .a = some .z0 ∧
      (u.releases.get .a).latch = true ∧ (u.releases.get .a).dumps.length < 2 ∧ (u.orders.get .a).queue = [] ∧
      [(0 : Fin 32), 1].Nodup :=
  ⟨clear_around _ rfl rfl rfl, by decide +kernel⟩

/-- Something at every place of a list of two. -/
theorem both (P : Nat → Nat → Prop) (a b : Nat) (h0 : P 0 a) (h1 : P 1 b) : ∀ i m, [a, b][i]? = some m → P i m := by
  rintro (_ | _ | i) m h
  · cases h; exact h0
  · cases h; exact h1
  · simp at h

/-- The first check and the last one of a head list: NOT-RUNNING without a position, and head 0 named twice at position 2. -/
theorem test_witness_CommitPassesOrRefused :
    let u := listed (bench .running (filled .ready))
    let v := u.setOrder .a { orderUnit with stage := some { slot := 1, w1 := some 0, w2 := none, w3 := some 10000 } }
    (around u).Turn .ca ∧ (around v).Turn .ca ∧ u.inWindow 0x43004 (.order .a) (4 * 1) ∧ isSubmit 0x80000072 = false ∧
      isSubmit 0x40000072 = true ∧ (listed (bench .stopped idle)).submitRefuses .a 1 0x40000072 .notRunning 0 ∧
      v.submitRefuses .a 1 0x40000072 .duplicate 2 ∧ (judgeOrder u .a 1 0x40000071).1 = .refused .count 0 ∧
      (judgeOrder u .a 1 0x40000072).1 = .accepted 1 := by
  intro u v
  refine ⟨turn_around _ _ rfl rfl rfl, turn_around _ _ rfl rfl rfl, ⟨by decide +kernel, by decide +kernel⟩, by decide, by decide,
    ⟨1, .inl ⟨nofun, rfl⟩, rfl, .inr ⟨.inl (by decide), rfl⟩⟩, ⟨6, ?_, rfl, .inl ⟨_, by decide, rfl, ?_⟩⟩, by decide +kernel,
    by decide +kernel⟩
  · have hl : v.submitted .a 1 0x40000072 = [0, 0] := by decide +kernel
    have later {p : Prop} {l : List Prop} {k : Nat} (h : p) (g : FirstFails l (some k)) : FirstFails (p :: l) (some (k + 1)) :=
      .inr ⟨h, some k, g, rfl⟩
    have live : ∀ b, (v.orders.get .a).live = some b → b = side := fun b h => by cases h; rfl
    unfold Units.submitTests Units.headTests
    simp only [hl]
    refine later rfl (later ⟨rfl, rfl, fun b h => by rw [live b h]; rfl⟩ (later ⟨rfl, rfl, by decide⟩ (later
      (fun b h => by rw [live b h]; decide) (later (both _ 0 0 ?_ ?_) (.inl ⟨fun h => ?_, rfl⟩)))))
    · decide +kernel
    · decide +kernel
    · exact h 1 0 rfl (by decide)
  · have hl : v.submitted .a 1 0x40000072 = [0, 0] := by decide +kernel
    rw [hl]
    exact .inr ⟨by decide, some 1, .inl ⟨by decide, rfl⟩, rfl⟩

theorem test_witness_HoldExpiryReturnsHeads :
    let u := withOrder (bench .running (filled (.claimed .a 0)))
    (around u).Clear ∧ u.part = .running ∧ (u.orders.get .a).queue[(0 : Fin 2).val]? = some order ∧
      order.hold = .running 5 ∧ ((u.orders.get .a).queue.map OrderRec.accept).Nodup :=
  ⟨clear_around _ rfl rfl rfl, by decide +kernel⟩

/-- The ends of the ranges: a spread of one entry and the lowest fill target, the least yield and the largest one. -/
theorem test_witness_WeightAndFeedArithmetic :
    let u := bench .running idle
    u.config = some config ∧ u.zoneOf (3 : Fin 32).val = some .z1 ∧ u.zoneOf (2 : Fin 32).val = some .z0 ∧
      (u.zones.get .z1).live = some zone ∧ zone.spread ≠ [] ∧ u.fillTarget 3 = 5000 ∧
      (ticksFor 500 1048575 = 1 ∧ ticksFor 500 16 = 500) ∧ learnedYield 16 (-5) 1 = 16 ∧
      learnedYield 1048575 2000000 1 = 1048575 := by decide +kernel

/-- Envelopes at the ends of their ranges. -/
theorem test_witness_Envelopes : (around (bench .running idle)).Turn .cb ∧
    (bench .running idle).inWindow 0x45004 .feed (4 : Fin 32).val ∧ (4 : Fin 32).val < (bench .running idle).headCount ∧
    (bits 0x00FF0164 0 7 ≤ 100 ∧ 1 ≤ bits 0x00FF0164 8 8 ∧ bits 0x00FF0164 8 8 ≤ bits 0x00FF0164 16 8) ∧
    (bench .running idle).inWindow 0x45021 .feed (32 + Zone.z1.number) ∧
    Zone.z1.number < (bench .running idle).zoneCount ∧
    (bits 0x00646464 0 7 ≤ 100 ∧ bits 0x00646464 8 7 ≤ bits 0x00646464 0 7 ∧
      bits 0x00646464 0 7 ≤ bits 0x00646464 16 7 ∧ bits 0x00646464 16 7 ≤ 100) :=
  ⟨turn_around _ _ rfl rfl rfl, ⟨by decide +kernel, by decide +kernel⟩, by decide, by decide +kernel,
    ⟨by decide +kernel, by decide +kernel⟩, by decide, by decide +kernel⟩

/-- A request edge that nothing takes, one with the latch SET with and without the flag, and one that sets the latch. -/
theorem test_witness_RequestsLatched_edge :
    let u := bench .running idle
    let v := u.setRelease .a { ReleaseSide.cleared with latch := true }
    (around u).Clear ∧ (around v).Clear ∧ u.active = true ∧ u.enabled .a = true ∧ (u.releases.get .a).latch = false ∧
      (v.releases.get .a).latch = true ∧ (v.notices.get .a).has .doubleRequest = false ∧
      (around (v.setNotice .a { NoticeSide.cleared with flags := 16 })).Clear ∧
      (bench .stopped idle).active = false ∧ (around (bench .stopped idle)).Clear :=
  ⟨clear_around _ rfl rfl rfl, clear_around _ rfl rfl rfl, by decide +kernel, by decide +kernel, by decide +kernel,
    by decide +kernel, by decide +kernel, clear_around _ rfl rfl rfl, by decide +kernel, clear_around _ rfl rfl rfl⟩

theorem test_witness_RequestsLatched_setting :
    let u := (bench .running idle).setRelease .a { ReleaseSide.cleared with latch := true, doublePending := true }
    let s := { around u with held := [⟨.double .a, 1⟩] }
    s.Quiet ∧ s.queue = [] ∧ s.startTail = [] ∧ (∀ x, (u.releases.get x).releasePending = false) ∧
      (u.releases.get .a).doublePending = true ∧ (u.releases.get .b).doublePending = false :=
  ⟨fun p => by cases p <;> exact ⟨rfl, rfl⟩, rfl, rfl, fun x => by cases x <;> rfl, rfl, rfl⟩

/-- The two ways to a release. -/
theorem test_witness_ReleaseTaken :
    let u := withOrder ((bench .running (filled .ready)).setHead 0 (filled (.claimed .a 0)) |>.setHead 1 (filled (.claimed .a 0)))
    let v := u.setRelease .a { ReleaseSide.cleared with latch := true }
    (around u).Clear ∧ (around v).Clear ∧ u.active = true ∧ u.binding .a = some .z0 ∧
      (u.orders.get .a).queue = [order] ∧ (u.releases.get .a).dumps.length < Config.dumpDepth ∧ order.heads.Nodup ∧
      (∀ h, h ∈ order.heads → ∃ k, (u.head h).state = .claimed .a k) ∧ (v.releases.get .a).latch = true ∧
      (u.releases.get .a).latch = false := by
  refine ⟨clear_around _ rfl rfl rfl, clear_around _ rfl rfl rfl, by decide +kernel, by decide +kernel, by decide +kernel,
    by decide +kernel, by decide, fun h hh => ⟨0, ?_⟩, rfl, rfl⟩
  have : h = 0 ∨ h = 1 := by simpa [order] using hh
  rcases this with rfl | rfl <;> decide +kernel

/-- Given units with one event held and so many entries that wait for memory. -/
def holding (u : Units) (o : Owner) (waiting : Nat) : State :=
  { around u with held := [⟨o, 9⟩], queue := (List.replicate waiting ⟨0x45000, 1⟩).take 64,
                  startTail := (List.replicate waiting ⟨0x45000, 1⟩).drop 64 }

theorem holding_meets (u : Units) (o : Owner) (n : Nat) :
    (holding u o (n + 1)).Quiet ∧ (holding u o (n + 1)).mem.wf = true ∧ (holding u o (n + 1)).queue ≠ [] ∧
      (holding u o (n + 1)).waitingWrites = ⟨0x45000, 1⟩ :: List.replicate n ⟨0x45000, 1⟩ :=
  ⟨fun p => by cases p <;> exact ⟨rfl, rfl⟩, rfl, by simp [holding, List.replicate_succ],
    (List.take_append_drop 64 _).trans List.replicate_succ⟩

/-- A pending release with its latch SET, of two heads and one STALE purge, and one that fails its test with the latch
CLEAR. -/
theorem test_witness_ReleaseTaken_pending :
    let u := (withOrder (((bench .running (filled .ready)).setHead 0 (filled (.claimed .a 0))).setHead 1
      (filled (.claimed .a 0)))).setHead 2 { filled .ready with age := 2 }
    let v (latch : Bool) := u.setRelease .a { ReleaseSide.cleared with latch := latch, releasePending := true }
    (∀ latch n, (holding (v latch) (.release .a) n).held = [⟨.release .a, 9⟩] ∧
      ((v latch).releases.get .a).releasePending = true ∧ ((v latch).releases.get .b).releasePending = false) ∧
      ((v false).releases.get .a).latch = false ∧
      ((v true).active = true ∧ ((v true).releases.get .a).latch = true ∧ ((v true).orders.get .a).queue = [order] ∧
        ((v true).releases.get .a).dumps.length < 2 ∧ (v true).binding .a = some .z0 ∧ order.heads.Nodup) ∧
      (∀ h x, ((v true).purgeEntry h .stale).addr ≠ (v true).flagAddr x) ∧
      ((v true).setZone .z0 ((v true).zones.get .z0).effect).staleAt .z0 order.heads = [2] := by
  refine ⟨fun latch n => ⟨rfl, rfl, rfl⟩, rfl, by decide +kernel, fun h x => ?_, by decide +kernel⟩
  cases x <;> revert h <;> decide +kernel

/-- A machine with a queued order of two CLAIMED heads keeps the laws, and a release of it is a next state. -/
theorem test_witness_StepsKeepClaims :
    let u := (withOrder (((bench .running idle).setHead 0 (filled (.claimed .a 0))).setHead 1
      (filled (.claimed .a 0)))).setNotice .a { NoticeSide.cleared with reservations := 1 }
    u.Kept ∧ ∃ t, step { around u with pending := [.bagRequest .a] } = .next t := by
  intro u
  have hs : ∀ h : Fin 32, (u.head h).state = if h = 0 ∨ h = 1 then .claimed .a 0 else if h.val < 5 then .stopped else .disabled := by
    decide +kernel
  have ht : ∀ h : Fin 32, (u.head h).timer = if h = 0 ∨ h = 1 then .running .silence 5 else .stopped := by decide +kernel
  have hq : u.orders = ⟨{ orderUnit with queue := [order], accepts := 1 }, orderUnit⟩ := rfl
  refine ⟨⟨fun h side k => ?_, fun side => ?_, nofun, ?_, fun h k => ?_, ?_, by decide +kernel⟩, _, rfl⟩
  · rw [hs, hq]
    cases side
    · show _ ↔ ∃ o, o ∈ [order] ∧ o.accept = k ∧ h ∈ o.heads
      simp only [List.mem_singleton, exists_eq_left]
      show _ ↔ 0 = k ∧ h ∈ [(0 : Fin 32), 1]
      by_cases hh : h = 0 ∨ h = 1
      · simp [hh, eq_comm]
      · simp [hh]
        split <;> nofun
    · show _ ↔ ∃ o, o ∈ [] ∧ _
      by_cases hh : h = 0 ∨ h = 1
      · simp [hh]
      · simp [hh]
        split <;> nofun
  · rw [hq]
    cases side
    · exact ⟨by decide, by decide⟩
    · exact ⟨by decide, nofun⟩
  · decide +kernel
  · rw [ht, hs]
    by_cases hh : h = 0 ∨ h = 1
    · simp only [hh, if_true]
      rintro rfl
      exact .inr (.inr rfl)
    · simp only [hh, if_false]
      exact nofun
  · intro side
    cases side <;> rfl

/-! Expiries and time. -/

/-- The last counter values that leave a head below OUT, and below BARRED for a READY head's SILENCE expiry, and the first
at which a CLAIMED head's makes it BARRED. -/
theorem test_witness_Expiries :
    (∀ part x, (around (bench part x)).Clear ∧ (bench part x).head 4 = x) ∧ (∀ x, (bench .running x).undrained) ∧
      ({ inState .settling .settle with health := 247 }.timer = .running .settle 5 ∧ 247 + 8 < 256) ∧
      ((inState .empty .silence).timer = .running .silence 5 ∧ 247 + 8 < 256) ∧
      ((filled .ready).timer = .running .silence 5 ∧ (filled .ready).state.name = .ready ∧ 119 + 8 < 128) ∧
      ((filled (.claimed .a 0)).timer = .running .silence 5 ∧ (filled (.claimed .a 0)).state ≠ .empty ∧ 128 ≤ 120 + 8) ∧
      ((inState (.discharging (.bag .b)) .gate).retryUsed = false ∧ 223 + 32 < 256) :=
  ⟨fun _ _ => ⟨clear_around _ rfl rfl rfl, head_bench _ _ _ (by decide)⟩, fun _ => nofun, by decide, by decide, by decide, by decide, by decide⟩

/-- An expiry that takes a head OUT, from the least counter value of each kind. -/
theorem test_witness_ExpiryTakesOut :
    (∀ x, (around (bench .stopped x)).Clear ∧ (bench .stopped x).part ≠ .draining ∧ (bench .stopped x).head 4 = x) ∧
      { inState .settling .settle with health := 248 }.state = .settling ∧
      { filled .ready with health := 248 }.timer = .running .silence 5 ∧
      { inState (.discharging (.reject .over)) .gate with health := 224 }.timer = .running .gate 5 ∧
      { inState (.discharging (.reject .over)) .gate with retryUsed := true }.retryUsed = true :=
  ⟨fun _ => ⟨clear_around _ rfl rfl rfl, nofun, head_bench _ _ _ (by decide)⟩, by decide, by decide, by decide, by decide⟩

/-- The heads of ExpiryTakesOut that leave an order and a dump, with and without the release that follows. -/
theorem test_witness_ExpiryTakesOut_leaves :
    (around (relay true (lastOfBag 224) [(2, .pending)])).Clear ∧ (lastOfBag 224).timer = .running .gate 5 ∧
      (relay true (lastOfBag 224) [(2, .pending)]).releaseFollows .a 2 .unconfirmed .z0 order ∧ (2 : Fin 32) ∉ order.heads ∧
      (relay false (lastOfBag 224) [(2, .pending)]).unreleased .a 2 .unconfirmed ∧
      (Dump.awaits { tag := 3, heads := [(2, .pending)], total := 9500, target := 10000 } 2) = true ∧
      { filled (.claimed .a 0) with health := 248 }.state.name = .claimed :=
  ⟨clear_relay _ _ _, rfl, (relay_releases 224 .unconfirmed (by decide)).1, by decide,
    (relay_releases 224 .unconfirmed (by decide)).2, by decide, rfl⟩

theorem test_witness_MillisecondPasses :
    let x := { inState .settling .settle with timer := .running .settle 2 }
    (around (.initial 0 false)).Clear ∧ (Units.initial 0 false).clock = none ∧ (around (bench .running x)).Clear ∧
      (bench .running x).clock.isSome = true ∧
      (∀ h k n, ((bench .running x).head h).timer = .running k n → 2 ≤ n) ∧
      ∀ s o n, o ∈ ((bench .running x).orders.get s).queue → o.hold = .running n → 2 ≤ n := by
  refine ⟨clear_around _ rfl rfl rfl, rfl, clear_around _ rfl rfl rfl, rfl, fun h k n hx => ?_, fun s o n ho => ?_⟩
  · have hh : ∀ h : Fin 32, ((bench .running { inState .settling .settle with timer := .running .settle 2 }).head h).timer =
        .running .settle 2 ∨
        ((bench .running { inState .settling .settle with timer := .running .settle 2 }).head h).timer = .stopped := by
      decide +kernel
    rcases hh h with e | e <;> rw [e] at hx <;> cases hx
    decide
  · cases s <;> cases ho

/-! Notices and the issue queue. -/

/-- Room at its last notice: ring full but for nothing and eight held; a ring with one free entry; a full ring. -/
theorem test_witness_HeadNoticePlaced :
    let free : NoticeSide := { NoticeSide.cleared with writeIx := 14, reservations := 8 }
    let full : NoticeSide := { NoticeSide.cleared with writeIx := 15, reservations := 7 }
    (free.reservations < free.ringFree 16 + (8 - free.holding.length) ∧ free.holding = [] ∧ 0 < free.ringFree 16) ∧
      (full.reservations < full.ringFree 16 + (8 - full.holding.length) ∧ full.ringFree 16 = 0 ∧ full.holding.length < 8) ∧
      ¬ { full with reservations := 8 }.reservations < full.ringFree 16 + (8 - full.holding.length) := by decide +kernel

/-- A consume word at the write index, and one that does not move, with a held notice behind a full ring. -/
theorem test_witness_ConsumeTaken :
    let n := { NoticeSide.cleared with writeIx := 3, consumeIx := 4, holding := [(9, .headPresent 2 7)] }
    let u := (bench .running idle).setNotice .a n
    (around u).Clear ∧ u.part ≠ .transparent ∧ n.writeIx < u.ringSize .a ∧ n.consumeIx < u.ringSize .a ∧
      ((3 : Word).toNat + u.ringSize .a - n.consumeIx) % u.ringSize .a ≤ n.unread (u.ringSize .a) ∧
      ((4 : Word).toNat + u.ringSize .a - n.consumeIx) % u.ringSize .a ≤ n.unread (u.ringSize .a) :=
  ⟨clear_around _ rfl rfl rfl, by decide +kernel⟩

/-- A partial write in TRANSPARENT, a whole one by HL to a clear word there, and whole writes of a loaded part at the
ends of the words that pass. -/
theorem test_witness_ControlWordMirrored : (around (.initial 0 false)).Turn .hl ∧ (around (bench .running idle)).Turn .cb ∧
    (∀ o : BitVec 9, o = 0x0FF ∨ o = 0x10B ∨ o = 0x1FF →
      ¬ ((15 : BitVec 4) = 15 ∧ (o.toNat = 0x100 ∨ o.toNat = 0x101) ∧ isIssue 0x40000000 = true) ∧
        ¬ (0x102 ≤ o.toNat ∧ o.toNat ≤ 0x10A)) ∧
    isIssue 0x80000000 = false :=
  ⟨turn_around _ _ rfl rfl rfl, turn_around _ _ rfl rfl rfl, by rintro o (rfl | rfl | rfl) <;> decide, by decide⟩

/-- Clear words that take the enabled flag and that leave it, enable words that raise a bit of a set flag and that do not. -/
theorem test_witness_ClearAndEnableWords :
    let n := { NoticeSide.cleared with flags := 0x30, enables := 0x20, notePending := true }
    (around ((bench .running idle).setNotice .a n)).Clear ∧ (around ((bench .running idle).setNotice .b n)).Clear ∧
      (n.flags &&& ~~~0x20 &&& n.enables = 0 ∧ n.flags &&& ~~~0x10 &&& n.enables ≠ 0) ∧
      (0x10 &&& ~~~n.enables &&& n.flags ≠ 0 ∧ 0x20 &&& ~~~n.enables &&& n.flags = 0) :=
  ⟨clear_around _ rfl rfl rfl, clear_around _ rfl rfl rfl, by decide, by decide⟩

theorem test_witness_OldestEntryWritten :
    let s := { around (bench .running idle) with queue := [⟨0x108, 1⟩] }
    s.Quiet ∧ s.held = [] ∧ s.mem.wf = true ∧ s.waitingWrites = ⟨0x108, 1⟩ :: [] ∧ s.queue ≠ [] :=
  ⟨fun p => by cases p <;> exact ⟨rfl, rfl⟩, rfl, rfl, rfl, by decide⟩

/-- A SILENCE expiry pending that makes an EMPTY head BARRED. -/
def late : Head := { inState .empty .silence with health := 120, timer := .expired .silence }

/-- An expiry, a hold expiry and a setting pending, alone in the held list of any number of waiting entries (holding_meets):
five writes behind 59 entries that wait and behind 60. -/
theorem test_witness_OldestEntryWritten_held :
    let u := (bench .running idle).setHead 4 late
    let v := (withOrder (bench .running (filled (.claimed .a 0)))).setOrder .a
      { orderUnit with queue := [{ order with hold := .expired }], accepts := 1 }
    let w := (bench .running idle).setRelease .a { ReleaseSide.cleared with latch := true, doublePending := true }
    (∀ x ∈ [u, v, w], ∀ side, (x.releases.get side).releasePending = false) ∧
      (∃ r, u.pendingEffect (.headTimer 4) = some r ∧ (u.writes r).length = 5) ∧ u.pendingUnreleased (.headTimer 4) ∧
      (u.head 4).timer = .expired .silence ∧
      (∃ r, v.pendingEffect (.hold .a 0) = some r ∧ (v.writes r).length = 5) ∧
      (∃ r, w.pendingEffect (.double .a) = some r ∧ (w.writes r).length = 1) ∧
      (∀ x o n, (holding x o n).held = [⟨o, 9⟩]) ∧ min 64 5 ≤ 64 - 59 ∧ 64 - 60 < min 64 5 := by
  intro u v w
  refine ⟨fun x hx side => ?_, ⟨_, rfl, by decide +kernel⟩, fun h side hh hs => ?_, by decide +kernel, ⟨_, rfl, by decide +kernel⟩,
    ⟨_, rfl, by decide +kernel⟩, fun _ _ _ => rfl, by decide⟩
  · simp only [List.mem_cons, List.not_mem_nil, or_false] at hx
    rcases hx with rfl | rfl | rfl <;> cases side <;> rfl
  · cases hh
    have : (u.head 4).state = .empty := by decide +kernel
    rw [this] at hs
    cases hs

/-- A START that its port holds, behind 47 entries and behind 48. -/
theorem test_witness_OldestEntryWritten_port (waiting : Nat) (h : waiting = 47 ∨ waiting = 48) :
    let f : FrontEnd := { current := some (.write 0x101 15 (issueWord .start 0)), upstream := [], answer := .none }
    let s : State := { holding (bench .stopped { idle with lastStable := some 5000 }) (.port .cb) (waiting + 1) with
      ports := State.reset.ports.set .cb f, lastGranted := .port .cb }
    (s.front .cb).current = some (.write 0x101 15 (issueWord .start 0)) ∧ (s.front .cb).upstream = [] ∧
      (∀ q, q ≠ .cb → (s.front q).current = none ∧ (s.front q).upstream = []) ∧ s.held = [⟨.port .cb, 9⟩] ∧
      s.mem.wf = true ∧ s.queue ≠ [] ∧ s.waitingWrites = ⟨0x45000, 1⟩ :: List.replicate waiting ⟨0x45000, 1⟩ ∧
      .cb ∉ portsFirst s.lastGranted := by
  refine ⟨rfl, rfl, fun q hq => ?_, rfl, rfl, ?_, ?_, show Port.cb ∉ portsFirst (.port .cb) by decide⟩
  · cases q
    · exact ⟨rfl, rfl⟩
    · exact absurd rfl hq
    · exact ⟨rfl, rfl⟩
  · rcases h with rfl | rfl <;> decide
  · rcases h with rfl | rfl <;> decide

end Sys2Proof.Tests
end

namespace Sys2Proof.Machine

/-! ### What every step keeps (O5, O48) -/

/-- What every change of the units keeps, every step keeps: a step is a chain of the named updates. -/
theorem step_keeps_units {P : Units → Prop} (hu : ∀ u v, UnitsMove u v → P u → P v) {s t : State}
    (hs : step s = .next t) (h : P s.units) : P t.units := by
  obtain ⟨t', ht, moves⟩ := step_moves s
  obtain rfl : t' = t := by simpa using ht.symm.trans hs
  exact moves.keeps_units hu h

/-- Settles O5 (R4 to R6, R67, R110, R126, R161). -/
theorem stepsKeepUnitsLawful : Obligations.StepsKeepUnitsLawful := fun _ _ lawful hs =>
  step_keeps_units (fun _ _ => UnitsMove.good) hs lawful

/-- Settles O48 (R3, R8, R44, R110, R149, R162). The laws are kept only together with the ranges of Units.Lawful: at a
counter above 256 a head would not be OUT at 256, and the window tests read the mirror in its canonical form. -/
theorem stepsKeepClaims : Obligations.StepsKeepClaims := by
  intro s t lawful kept hs
  have health : ∀ h, (s.units.head h).health ≤ 256 := fun h => (lawful.heads.1 h).1
  obtain ⟨firm, counted⟩ := (Units.firm_iff s.units).2 ⟨kept, health⟩
  have all : t.units.Lawful ∧ t.units.Firm ∧ t.units.headCount ≤ 32 :=
    step_keeps_units (P := fun u => u.Lawful ∧ u.Firm ∧ u.headCount ≤ 32)
      (fun u v move ⟨good, firm, counted⟩ => ⟨move.good good, move.kept good counted firm⟩) hs ⟨lawful, firm, counted⟩
  exact ((Units.firm_iff t.units).1 all.2).1

end Sys2Proof.Machine

namespace Sys2Proof.Machine

/-! ### Head commands (O14, O16, O17) -/

/-- The execution of a command word's row is the command at its port. -/
theorem Command.exec_instr (c : Command) (p : Port) (slot : Side) (arg : BitVec 8) (s : State) :
    exec (c.instr p slot arg) s = .next (s.command c p slot arg) := by cases c <;> rfl

theorem CycleState.name_eq_claimed {c : CycleState} (h : c.name = .claimed) : ∃ side k, c = .claimed side k := by
  cases c with
  | claimed side k => exact ⟨side, k, rfl⟩
  | _ => cases h

theorem CycleState.name_eq_discharging {c : CycleState} (h : c.name = .discharging) : ∃ d, c = .discharging d := by
  cases c with
  | discharging d => exact ⟨d, rfl⟩
  | _ => cases h

/-- A command that is refused where it is taken leaves nothing behind but its word with the verdict (R152). -/
theorem State.Turn.exec_refused {s : State} {p : Port} (turn : s.Turn p) (hp : p ≠ .hl) (slot : Side) (c : Command)
    (arg : BitVec 8) (why : CommandReason) (detail : BitVec 14)
    (take : ∀ e : Ev, e.units = s.units → e.take slot c arg = e.refused why detail) :
    ∃ t, exec (c.instr p slot arg) s = .next t ∧ s.CommandRefused t p slot c arg why detail :=
  ⟨_, c.exec_instr p slot arg s, turn.command_refused (.inr hp) slot c arg why detail fun _ => take _ rfl⟩

section
variable {e : Ev} {arg : BitVec 8} {h : Fin 32}

/-- HEAD-ENABLE refused with STATE (R11). -/
theorem Ev.cmdHeadEnable_state (ht : e.units.part ≠ .transparent) (ha : arg.toNat = h.val) (hh : h.val < e.units.headCount)
    (hs : e.units.part = .draining ∨ (e.units.head h).state ≠ .disabled) : e.cmdHeadEnable arg = e.refused .state 0 := by
  unfold Ev.cmdHeadEnable
  rw [Ev.headCommand_eq e arg _ h ht ha hh]
  simp only
  by_cases hd : e.units.part = .draining
  · rw [if_pos hd]
  · rw [if_neg hd, if_pos (hs.resolve_left hd)]

/-- HEAD-ENABLE refused with CHECK for want of an envelope (R11). -/
theorem Ev.cmdHeadEnable_check (hr : e.units.part = .running) (ha : arg.toNat = h.val) (hh : h.val < e.units.headCount)
    (hs : (e.units.head h).state = .disabled) (hv : (e.units.head h).envelope = none) :
    e.cmdHeadEnable arg = e.refused .check 0 := by
  unfold Ev.cmdHeadEnable
  rw [Ev.headCommand_eq e arg _ h (by simp [hr]) ha hh]
  simp [hr, hs, hv]

/-- RECOVER refused with STATE (R48). -/
theorem Ev.cmdRecover_state (ht : e.units.part ≠ .transparent) (ha : arg.toNat = h.val) (hh : h.val < e.units.headCount)
    (hs : e.units.part = .draining ∨ (e.units.head h).state ≠ .out) : e.cmdRecover arg = e.refused .state 0 := by
  unfold Ev.cmdRecover
  rw [Ev.headCommand_eq e arg _ h ht ha hh, if_pos hs]

/-- HEAD-PURGE refused with STATE (R130). -/
theorem Ev.cmdHeadPurge_state (ht : e.units.part ≠ .transparent) (ha : arg.toNat = h.val) (hh : h.val < e.units.headCount)
    (hs : e.units.part = .stopped ∨ (e.units.head h).state = .disabled ∨ (e.units.head h).state = .stopped ∨
      (e.units.head h).state = .out) : e.cmdHeadPurge arg = e.refused .state 0 := by
  unfold Ev.cmdHeadPurge
  rw [Ev.headCommand_eq e arg _ h ht ha hh]
  simp only
  by_cases hp : e.units.part = .stopped
  · rw [if_pos hp]
  · rw [if_neg hp]
    rcases hs.resolve_left hp with hs | hs | hs <;> rw [hs]

/-- HEAD-PURGE refused with BUSY (R130). -/
theorem Ev.cmdHeadPurge_busy (ht : e.units.part ≠ .transparent) (ha : arg.toNat = h.val) (hh : h.val < e.units.headCount)
    (hp : e.units.part ≠ .stopped)
    (hs : (e.units.head h).state.name = .claimed ∨ (e.units.head h).state.name = .discharging) :
    e.cmdHeadPurge arg = e.refused .busy (detailHead h) := by
  unfold Ev.cmdHeadPurge
  rw [Ev.headCommand_eq e arg _ h ht ha hh]
  simp only
  rw [if_neg hp]
  rcases hs with hs | hs
  · obtain ⟨side, k, hs⟩ := CycleState.name_eq_claimed hs
    rw [hs]
  · obtain ⟨d, hs⟩ := CycleState.name_eq_discharging hs
    rw [hs]

/-- HEAD-DISABLE refused with BUSY (R12). -/
theorem Ev.cmdHeadDisable_busy (ht : e.units.part ≠ .transparent) (ha : arg.toNat = h.val) (hh : h.val < e.units.headCount)
    (hs : (e.units.head h).state.name = .claimed ∨ (e.units.head h).state.name = .discharging) :
    e.cmdHeadDisable arg = e.refused .busy (detailHead h) := by
  unfold Ev.cmdHeadDisable
  rw [Ev.headCommand_eq e arg _ h ht ha hh]
  rcases hs with hs | hs
  · obtain ⟨side, k, hs⟩ := CycleState.name_eq_claimed hs
    rw [hs]
  · obtain ⟨d, hs⟩ := CycleState.name_eq_discharging hs
    rw [hs]

end

/-- Settles O16 (R11, R48, R130, R152): one refusal for each clause, each shown at the command's own rule. -/
theorem headStateRefusesCommand : Obligations.HeadStateRefusesCommand := by
  intro s p slot c arg h why detail turn hp ht ha hh x clause
  refine turn.exec_refused hp slot c arg why detail fun e he => ?_
  rw [← he] at ht hh
  have hx : x = e.units.head h := by rw [he]
  rw [hx, ← he] at clause
  rcases clause with ⟨rfl, rfl, rfl, hs⟩ | ⟨rfl, rfl, rfl, hr, hs, hv⟩ | ⟨rfl, rfl, rfl, hs⟩ | ⟨rfl, rfl, rfl, hs⟩ |
    ⟨rfl, rfl, rfl, hd, hs⟩
  · exact Ev.cmdHeadEnable_state ht ha hh hs
  · exact Ev.cmdHeadEnable_check hr ha hh hs hv
  · exact Ev.cmdRecover_state ht ha hh hs
  · exact Ev.cmdHeadPurge_state ht ha hh hs
  · exact Ev.cmdHeadPurge_busy ht ha hh hd hs

/-- HEAD-DISABLE refused with STATE in TRANSPARENT (R152). -/
theorem Ev.cmdHeadDisable_transparent {e : Ev} (arg : BitVec 8) (ht : e.units.part = .transparent) :
    e.cmdHeadDisable arg = e.refused .state 0 := if_pos ht

/-- A head record that HEAD-DISABLE leaves (R12). -/
def Head.switchedOff (x : Head) : Head :=
  if x.state = .disabled then { x with present := false }
  else { x.unfed with
    state := .disabled, timer := .stopped, bucket := none, frozen := none, health := 0, present := false }

/-- The feed stop of HEAD-DISABLE; none for a head that is DISABLED already (R12, R61). -/
def Units.disableWrites (u : Units) (h : Fin 32) : List QueueEntry :=
  if (u.head h).state = .disabled then [] else [u.feedEntry h 0 0 ((u.head h).feedSeq + 1)]

/-- HEAD-DISABLE taken: the record and the feed stop (R12). -/
theorem Ev.cmdHeadDisable_taken {e : Ev} {arg : BitVec 8} {h : Fin 32} (ht : e.units.part ≠ .transparent)
    (ha : arg.toNat = h.val) (hh : h.val < e.units.headCount)
    (hs : ¬ ((e.units.head h).state.name = .claimed ∨ (e.units.head h).state.name = .discharging)) :
    ∃ e', e.cmdHeadDisable arg = (e', .done 0) ∧
      e.Does e' (e.units.setHead h (e.units.head h).switchedOff, (e.units.disableWrites h).map .write) := by
  have hstop : (e.units.head h).state ≠ .disabled → e.Does
      ((e.feedStop h).modHead h fun x =>
        { x with state := .disabled, timer := .stopped, bucket := none, frozen := none, health := 0, present := false })
      (e.units.setHead h (e.units.head h).switchedOff, (e.units.disableWrites h).map .write) := fun hd => by
    unfold Head.switchedOff Units.disableWrites
    rw [if_neg hd, if_neg hd]
    refine ((Ev.Does.feedStop h).trans (f := fun u => (u.setHead h { u.head h with
      state := .disabled, timer := .stopped, bucket := none, frozen := none, health := 0, present := false }, []))
      (fun _ _ => rfl) (Ev.Does.modHead _)).congr ?_
    simp [Effect.then]
  unfold Ev.cmdHeadDisable
  rw [Ev.headCommand_eq e arg _ h ht ha hh]
  cases hx : (e.units.head h).state with
  | claimed side k => exact absurd (.inl (by rw [hx]; rfl)) hs
  | discharging d => exact absurd (.inr (by rw [hx]; rfl)) hs
  | disabled =>
    refine ⟨_, rfl, (Ev.Does.modHead _).congr ?_⟩
    simp [Head.switchedOff, Units.disableWrites, hx]
  | stopped | empty | settling | ready | out => exact ⟨_, rfl, hstop (by rw [hx]; simp)⟩

/-- Writes put out concern no side's notice unit, and are what the event queues. -/
theorem Units.puts_writes (u : Units) (l : List QueueEntry) : (u.puts (l.map .write)).out = l := by
  have acts : ∀ (l : List QueueEntry) (e : Ev), (e.acts (l.map .write)).out = e.out ++ l := by
    intro l
    induction l with
    | nil => intro e; simp
    | cons x rest ih =>
      intro e
      rw [List.map_cons, Ev.acts_cons, ih]
      simp [Act.take]
  simpa [Units.puts_eq] using acts l (.begin u false 0)

/-- A command whose effect is one head's record, and writes: nothing else changes beside its word in the mirror. -/
theorem State.CommandMakes.one_head {s t : State} {slot : Side} {h : Fin 32} {x : Head} {l : List QueueEntry}
    (m : s.CommandMakes t slot (s.units.setHead h x, l.map .write)) :
    t.units.head h = x ∧ s.units.onlyChanges t.units [.mirror (slotOffset slot), .head h] ∧ s.Queued t l := by
  refine ⟨?_, fun q hq => ?_, ?_⟩
  · exact Eq.trans (m.1 (.head h) (by simp)) ((Units.head_setHead ..).trans (if_pos rfl))
  · simp only [List.mem_cons, List.not_mem_nil, or_false, not_or] at hq
    refine m.keeps hq.1 (fun _ => Units.setHead_keeps _ _ _ _ hq.2) fun _ _ a ha => ?_
    obtain ⟨y, -, rfl⟩ := List.mem_map.1 ha
    rfl
  · have queued := m.2.2
    rwa [Units.puts_writes] at queued

/-- Settles O17 (R12, R152). -/
theorem headDisableTakenOrRefused : Obligations.HeadDisableTakenOrRefused := by
  intro s p slot arg h clear hp ha hcount x claimed
  have turn := clear.turn p
  refine ⟨_, Command.exec_instr .headDisable p slot arg s, fun ht => ?_, fun ht hs => ?_, fun ht hs => ?_⟩
  · exact turn.command_refused (.inr hp) slot _ arg .state 0 fun k =>
      Ev.cmdHeadDisable_transparent (e := .begin s.units true k) arg ht
  · exact turn.command_refused (.inr hp) slot _ arg .busy _ fun k =>
      Ev.cmdHeadDisable_busy (e := .begin s.units true k) ht ha (hcount ht) hs
  · obtain ⟨commanded, makes⟩ := clear.command_makes (.inr hp) slot .headDisable arg (v := 0)
      (r := (s.units.setHead h x.switchedOff, (s.units.disableWrites h).map .write)) fun k =>
        Ev.cmdHeadDisable_taken (e := .begin s.units true k) ht ha (hcount ht) hs
    exact ⟨commanded, makes.one_head⟩

/-- A command that needs no entry and changes one head's record, taken when the port's turn comes (R152). -/
theorem State.Turn.command_head {s : State} {p : Port} (turn : s.Turn p) (hp : p ≠ .hl) (slot : Side) (c : Command)
    (arg : BitVec 8) (detail : BitVec 14) (h : Fin 32) (x : Head)
    (take : ∀ k, (Ev.begin s.units true k).take slot c arg =
      ({ Ev.begin s.units true k with units := s.units.setHead h x }, .done detail)) :
    ∃ t, exec (c.instr p slot arg) s = .next t ∧ s.Commanded t p slot c arg detail ∧ t.units.head h = x ∧
      s.units.onlyChanges t.units [.mirror (slotOffset slot), .head h] ∧ s.NoWrites t := by
  obtain ⟨k, leaves⟩ := turn.command_silent (.inr hp) slot c arg _ take (fun _ => ⟨rfl, rfl⟩) (fun _ _ => rfl)
    fun _ => turn.1.2.2.2.2.2
  refine ⟨_, c.exec_instr p slot arg s, ⟨leaves.wrote, leaves.mirror⟩, ?_, fun q hq => ?_, ?_, ?_⟩
  · exact Eq.trans (leaves.piece (.head h) (by simp) (by simp)) ((Units.head_setHead ..).trans (if_pos rfl))
  · simp only [List.mem_cons, List.not_mem_nil, or_false, not_or] at hq
    exact leaves.frame q hq.1 (Units.setHead_keeps _ _ _ _ hq.2)
  · exact leaves.silent rfl fun _ => rfl
  · exact leaves.held turn.1.2.2.2.1

/-- HEAD-ENABLE taken while STOPPED (R11). -/
theorem Ev.cmdHeadEnable_stopped {e : Ev} {arg : BitVec 8} {h : Fin 32} (hs : e.units.part = .stopped)
    (ha : arg.toNat = h.val) (hh : h.val < e.units.headCount) (hd : (e.units.head h).state = .disabled) :
    let x := (e.units.head h).enabled (e.units.params h).initialYield
    e.cmdHeadEnable arg = ({ e with units := e.units.setHead h { x with state := .stopped } }, .done 0) := by
  unfold Ev.cmdHeadEnable
  rw [Ev.headCommand_eq e arg _ h (by simp [hs]) ha hh]
  simp [hs, hd, Ev.modHead]

/-- HEAD-ENABLE taken while RUNNING: the fresh record, the purge with reason START, the feed (R11). -/
theorem Ev.cmdHeadEnable_running {e : Ev} {arg : BitVec 8} {h : Fin 32} (hr : e.units.part = .running)
    (ha : arg.toNat = h.val) (hh : h.val < e.units.headCount) (hd : (e.units.head h).state = .disabled)
    (hv : (e.units.head h).envelope.isSome = true) :
    let x := (e.units.head h).enabled (e.units.params h).initialYield
    ∃ e', e.cmdHeadEnable arg = (e', .done 0) ∧
      e.Does e' (((e.units.setHead h x).purge h .start x.bucketWeight).then fun v => v.feed h) := by
  intro x
  have purge : Ev.Does (e.modHead h fun x => x.enabled (e.units.params h).initialYield) _
      ((e.units.setHead h x).purge h .start x.bucketWeight) :=
    (Ev.Does.purge h .start x.bucketWeight).congr rfl
  have fed := ((Ev.Does.modHead (e := e) fun x => x.enabled (e.units.params h).initialYield).trans
    (Units.purge_blind h .start x.bucketWeight) purge).trans (Units.feed_blind h) (Ev.Does.feedIssue h)
  refine ⟨_, ?_, fed.congr rfl⟩
  unfold Ev.cmdHeadEnable
  rw [Ev.headCommand_eq e arg _ h (by simp [hr]) ha hh]
  have envelope : (e.units.head h).envelope.isNone = false := by simpa using hv
  simp [hr, hd, envelope, x]

/-- A head whose zone is known reports to the zone's reporting side (R163). -/
theorem Units.reportingHead_zone {u : Units} {h : Fin 32} {z : Zone} (hz : u.zoneOf h.val = some z) :
    u.reportingHead h = u.reporting z := by
  unfold Units.reportingHead
  rw [hz]
  rfl

theorem Units.zoneOf_lt {u : Units} {h : Fin 32} {z : Zone} (hz : u.zoneOf h.val = some z) : h.val < u.headCount := by
  unfold Units.zoneOf at hz
  unfold Units.headCount
  cases hc : u.config with
  | none => rw [hc] at hz; cases hz
  | some c =>
    rw [hc] at hz
    simp only at hz
    split at hz
    · assumption
    · cases hz

/-- A head with an envelope and a zone, and without a pool feed record, has a feed to be issued (R58, R59). -/
theorem Units.issueTicks_some {u : Units} {h : Fin 32} {z : Zone} (hp : (u.head h).pool = none)
    (hv : (u.head h).envelope.isSome = true) (hz : u.zoneOf h.val = some z) : ∃ ticks, u.issueTicks h = some ticks := by
  obtain ⟨env, henv⟩ := Option.isSome_iff_exists.1 hv
  unfold Units.issueTicks
  rw [hp, henv, hz]
  exact ⟨_, rfl⟩

/-- A purge leaves the feed that is to be issued at a head as it was. -/
theorem Units.purge_issueTicks (u : Units) (h : Fin 32) (r : PurgeReason) (w : Option Int) :
    (u.purge h r w).1.issueTicks h = u.issueTicks h := by
  have hx := Units.purge_head u h r w
  exact Units.issueTicks_congr h rfl (fun _ => rfl) (by rw [hx]; rfl) (by rw [hx]; rfl) (by rw [hx]; rfl)

/-- A purge and the feed behind it touch the head's record, and its zone's for a change of the top trim. -/
theorem Units.purge_feed_keeps (u : Units) (h : Fin 32) (r : PurgeReason) (w : Option Int) (z : Zone)
    (hz : u.zoneOf h.val = some z) (q : Piece) (hh : q ≠ .head h) (hq : q ≠ .zone z) :
    u.keeps ((u.purge h r w).then fun v => v.feed h).1 q := by
  refine Ev.Moves.keeps_trans (Units.purge_keeps u h r w q hh) (Units.feed_keeps _ h q hh fun y hy => ?_)
  have : some z = some y := hz.symm.trans hy
  rwa [← Option.some.inj this]

/-- What they put out concerns the zone's reporting side. -/
theorem Units.purge_feed_on (u : Units) (h : Fin 32) (r : PurgeReason) (w : Option Int) (z : Zone)
    (hz : u.zoneOf h.val = some z) (side : Side) (hs : side ≠ u.reporting z) :
    ∀ a, a ∈ ((u.purge h r w).then fun v => v.feed h).2 → a.on side = false := by
  refine Act.on_append (Units.purge_on u h r w side (by rwa [Units.reportingHead_zone hz])) ?_
  refine Units.feed_on _ h side fun y hy => ?_
  have : some z = some y := hz.symm.trans hy
  rwa [← Option.some.inj this]

/-- Settles O14 (R11, R20, R58 to R60). -/
theorem headEnableTaken : Obligations.HeadEnableTaken := by
  refine ⟨fun s p slot arg h turn hp hs ha hh hd => ?_, fun s p slot arg h z clear hp hr ha hz hd hv => ?_⟩
  · exact turn.command_head hp slot .headEnable arg 0 h _ fun k =>
      Ev.cmdHeadEnable_stopped (e := .begin s.units true k) hs ha hh hd
  · intro x u
    obtain ⟨commanded, makes⟩ := clear.command_makes (.inr hp) slot .headEnable arg (v := 0)
      (r := (u.purge h .start x.bucketWeight).then fun v => v.feed h) fun k =>
        Ev.cmdHeadEnable_running (e := .begin s.units true k) hr ha (Units.zoneOf_lt hz) hd hv
    have hx : u.head h = x := (Units.head_setHead ..).trans (if_pos rfl)
    obtain ⟨ticks, hticks⟩ := Units.issueTicks_some (u := u) (by rw [hx]; rfl) (by rw [hx]; exact hv) hz
    refine ⟨_, Command.exec_instr .headEnable p slot arg s, commanded, ⟨ticks, hticks, ?_⟩, fun q hq => ?_, makes⟩
    · have fed := Units.feed_head (u.purge h .start x.bucketWeight).1 h hr (by rw [Units.purge_head]; simp [Head.purged])
      rw [Units.purge_issueTicks, hticks, Units.purge_head, hx] at fed
      exact (makes.1 (.head h) (by simp)).trans fed
    · simp only [List.mem_cons, List.not_mem_nil, or_false, not_or] at hq
      obtain ⟨hm, hh, hzone, hn⟩ := hq
      refine makes.keeps hm (fun _ => ?_) fun side hside => ?_
      · exact Ev.Moves.keeps_trans (Units.setHead_keeps _ _ _ _ hh) (Units.purge_feed_keeps u h _ _ z hz q hh hzone)
      · exact Units.purge_feed_on u h _ _ z hz side fun c => hn (by rw [hside, c]; rfl)

end Sys2Proof.Machine

namespace Sys2Proof.Machine

/-! ### Taken reports that weigh a head (O15, O29) -/

/-- A report that passes its checks has the effect of its parts, or any effect that agrees with it on the units as they
stand behind the new last report sequence (R34). -/
theorem State.Clear.report_effect {s : State} (clear : s.Clear) {a : Addr} {w : Word} {slot : Nat}
    (hw : s.units.inWindow a .report (4 * slot)) {r : ReportHeader} (hr : reportHeader w = r)
    (passes : s.units.reportPasses slot r) {f : Units → Effect} (blind : Blind f)
    (parts : ∀ e : Ev, e.units.head r.head = { s.units.head r.head with lastSeq := some r.seq } →
      e.Does (e.reportParts r (s.units.reportWeight r)) (f e.units)) {g : Units → Effect}
    (hg : let v := s.units.setHead r.head { s.units.head r.head with lastSeq := some r.seq }
      f v = g v) :
    ∃ t, exec (.reportHeaderWrite a w) s = .next t ∧ s.Wrote t .hl a w ∧ t.units.stage = none ∧
      s.Makes t (s.units.taken r g) := by
  subst hr
  obtain ⟨t, done, wrote, stage, makes⟩ := clear.report_makes hw passes blind fun e he =>
    parts e (by rw [he, Units.head_setHead, if_pos rfl])
  have : s.units.taken (reportHeader w) f = s.units.taken (reportHeader w) g := by
    unfold Units.taken
    rw [hg]
  exact ⟨t, done, wrote, stage, this ▸ makes⟩

/-- The record of a head whose report is taken with a stable weight, as the weight is used (R5, R34). -/
def Head.weighedBy (x : Head) (r : ReportHeader) (weight : Int) : Head :=
  { x with lastSeq := some r.seq, lastStable := some weight }

theorem Units.weighed_sequenced (u : Units) (r : ReportHeader) (weight : Int) :
    (u.setHead r.head { u.head r.head with lastSeq := some r.seq }).weighed r.head weight =
      u.setHead r.head ((u.head r.head).weighedBy r weight) := by
  unfold Units.weighed
  simp only [Units.head_setHead, if_true, Units.setHead_twice]
  rfl

/-- The use of a stable weight at a SETTLING head is the settle outcome of the net weight (R24). -/
theorem Units.useWeight_settling (u : Units) (h : Fin 32) (w : Int) (seq : BitVec 8)
    (hs : (u.head h).state = .settling) : u.useWeight h w seq false = u.settle h (w - (u.head h).zero) := by
  unfold Units.useWeight
  simp only [hs]

/-- The use of a stable weight beyond the disturbance band at a READY or CLAIMED head is a disturbance (R18, R24). -/
theorem Units.useWeight_disturbs (u : Units) (h : Fin 32) (w f : Int) (seq : BitVec 8)
    (hs : (u.head h).state.name = .ready ∨ (u.head h).state.name = .claimed) (hf : (u.head h).frozen = some f)
    (band : (u.params h).disturbBand < w - (u.head h).zero - f ∨ (u.params h).disturbBand < f - (w - (u.head h).zero)) :
    u.useWeight h w seq false = u.disturb h := by
  unfold Units.useWeight
  cases hx : (u.head h).state with
  | ready | claimed => simp only [hx, hf, if_pos band]
  | _ => rw [hx] at hs; rcases hs with c | c <;> cases c

/-- A taken report with a stable weight and no flag that acts is the use of the weight in the head's state (R24, R34). -/
theorem State.Clear.report_weighs {s : State} (clear : s.Clear) {a : Addr} {w : Word} {slot : Nat}
    (hw : s.units.inWindow a .report (4 * slot)) {r : ReportHeader} (hr : reportHeader w = r)
    (passes : s.units.reportPasses slot r) (hb : r.boardFault = false) (hp : r.poolDrop = false) {weight : Int}
    (stable : s.units.reportWeight r = some (weight, true)) (hd : (s.units.head r.head).state.name ≠ .discharging)
    {g : Units → Effect}
    (weighs : let v := s.units.setHead r.head ((s.units.head r.head).weighedBy r weight)
      v.useWeight r.head weight r.seq false = g v) :
    ∃ t, exec (.reportHeaderWrite a w) s = .next t ∧ s.Wrote t .hl a w ∧ t.units.stage = none ∧
      s.Makes t (s.units.taken r fun v => g (v.weighed r.head weight)) := by
  refine clear.report_effect hw hr passes (Units.weigh_blind r.head weight r.seq false) (fun e he => ?_) ?_
  · rw [stable, e.reportParts_weight r weight hb hp (by rw [he]; exact hd)]
    exact Ev.Does.useWeight r.head weight r.seq false
  · unfold Units.weigh
    simp only
    rw [Units.weighed_sequenced]
    exact weighs

/-! ### What OVER and UNDER leave (R15, R69) -/

/-- A zone's top feeder after a change of its trim (R69, R70). -/
def TopFeeder.trimmed (top : TopFeeder) (delta : Int) : TopFeeder :=
  let trim := max (-20) (min 20 (top.trim + delta))
  match top.envelope with
  | none => { top with trim := trim }
  | some env =>
    if top.applied = some (env.apply trim) then { top with trim := trim }
    else { top with trim := trim, applied := some (env.apply trim), seq := top.seq + 1 }

theorem Units.trim_zone_self (u : Units) (z : Zone) (d : Int) (c : TrimCause) (h : Fin 32) :
    (u.trim z d c h).1.zones.get z = { u.zones.get z with top := (u.zones.get z).top.trimmed d } := by
  unfold Units.trim TopFeeder.trimmed
  simp only
  cases henv : (u.zones.get z).top.envelope with
  | none => simp
  | some env =>
    by_cases hs : (u.zones.get z).top.applied = some (env.apply (max (-20) (min 20 ((u.zones.get z).top.trim + d))))
    · simp [hs]
    · simp [hs, Ne.symm hs]

section
variable (u : Units) (h : Fin 32) (net d : Int) (c : TrimCause) (r : PurgeReason) {z : Zone} (hz : u.zoneOf h.val = some z)
include hz

theorem Units.settleOff_eq : u.settleOff h net d c r =
    ((u.learned h net).trim z d c h).then fun v => v.purge h r (some net) := by
  unfold Units.settleOff
  rw [hz]

theorem Units.settleOff_head : (u.settleOff h net d c r).1.head h =
    ((u.learned h net).head h).purged r (u.params h).gateLimit := by
  have hx : ((u.learned h net).trim z d c h).1.head h = (u.learned h net).head h :=
    Units.trim_keeps _ z d c h (.head h) (by simp)
  have hp : ((u.learned h net).trim z d c h).1.params h = u.params h :=
    Units.params_congr h (Units.trim_keeps _ z d c h .loaded (by simp)).1 fun y => (Units.trim_zone _ z y d c h).1
  rw [Units.settleOff_eq u h net d c r hz, Effect.then_fst, Units.purge_head, hx, hp]

theorem Units.settleOff_zone : (u.settleOff h net d c r).1.zones.get z =
    { u.zones.get z with top := (u.zones.get z).top.trimmed d } := by
  rw [Units.settleOff_eq u h net d c r hz]
  exact Units.trim_zone_self (u.learned h net) z d c h

theorem Units.settleOff_keeps (q : Piece) (hh : q ≠ .head h) (hq : q ≠ .zone z) :
    u.keeps (u.settleOff h net d c r).1 q := by
  rw [Units.settleOff_eq u h net d c r hz]
  exact Ev.Moves.keeps_trans (Ev.Moves.keeps_trans (Units.setHead_keeps _ _ _ _ hh) (Units.trim_keeps _ z d c h q hq))
    (Units.purge_keeps _ h r (some net) q hh)

theorem Units.settleOff_on (side : Side) (hs : side ≠ u.reporting z) :
    ∀ a, a ∈ (u.settleOff h net d c r).2 → a.on side = false := by
  rw [Units.settleOff_eq u h net d c r hz]
  have loaded := Units.trim_keeps (u.learned h net) z d c h .loaded (by simp)
  refine Act.on_append (Units.trim_on _ z d c h side hs) (Units.purge_on _ h r (some net) side ?_)
  have hz' : ((u.learned h net).trim z d c h).1.zoneOf h.val = some z := by
    rw [← hz]; unfold Units.zoneOf; rw [loaded.1]; rfl
  rw [Units.reportingHead_zone hz']
  unfold Units.reporting Units.binding
  rw [loaded.1]
  exact hs

end

theorem Units.learned_head (u : Units) (h : Fin 32) (net : Int) : (u.learned h net).head h = { u.head h with
    yield := match (u.head h).bucket with
      | none => (u.head h).yield
      | some ticks => learnedYield (u.head h).yield net ticks
    bucket := none } := (Units.head_setHead ..).trans (if_pos rfl)

/-- The SILENCE timer of a head that discharges is not started, and the drain condition does not hold (R34, R156). -/
theorem Units.heardFrom_discharging {u : Units} {h : Fin 32} (hd : (u.head h).state.name = .discharging) :
    (u.heardFrom h).head h = u.head h ∧ (u.heardFrom h).drained = false := by
  have hx : (u.heardFrom h).head h = u.head h := by
    rw [Units.heardFrom_head, hd]
    simp
  exact ⟨hx, Units.drained_discharging (by rwa [hx])⟩

/-- The effect of a taken report, where drain complete does not follow (R34). -/
theorem Units.taken_of (u : Units) (r : ReportHeader) {f : Units → Effect} {e : Effect}
    (hf : f (u.setHead r.head { u.head r.head with lastSeq := some r.seq }) = e)
    (hd : e.1.part ≠ .draining ∨ (e.1.heardFrom r.head).drained = false) :
    u.taken r f = ((e.1.heardFrom r.head).setStage none, e.2) := by
  rw [Units.taken_idle]
  · simp only [hf]
  · simp only [hf]
    exact hd

/-- The same for the use of a stable weight. -/
theorem Units.taken_weighed (u : Units) (r : ReportHeader) (weight : Int) {g : Units → Effect} {e : Effect}
    (hg : g (u.setHead r.head ((u.head r.head).weighedBy r weight)) = e)
    (hd : e.1.part ≠ .draining ∨ (e.1.heardFrom r.head).drained = false) :
    u.taken r (fun v => g (v.weighed r.head weight)) = ((e.1.heardFrom r.head).setStage none, e.2) :=
  u.taken_of r (by rw [Units.weighed_sequenced, hg]) hd

/-- What such a report leaves of a piece other than the stage and the head's record. -/
theorem State.Makes.heard_keeps {s t : State} {v : Units} {h : Fin 32} {l : List Act}
    (makes : s.Makes t ((v.heardFrom h).setStage none, l)) {q : Piece} (hs : q ≠ .stage) (hh : q ≠ .head h)
    (hq : (∀ side, q ≠ .notice side) → s.units.keeps v q)
    (hn : ∀ side, q = .notice side → ∀ a, a ∈ l → a.on side = false) : s.units.keeps t.units q :=
  makes.keeps (fun n => Ev.Moves.keeps_trans (Ev.Moves.keeps_trans (hq n) (Units.heardFrom_keeps v h q hh))
    (Units.setStage_keeps _ none q hs)) hn

/-- What an event leaves of the head records is what its effect says. -/
theorem State.Makes.head {s t : State} {e : Effect} (makes : s.Makes t e) (h : Fin 32) : t.units.head h = e.1.head h :=
  makes.1 (.head h) (by simp)

/-- Settles O15 (R15, R62, R69, R70). -/
theorem reportPurgesOutOfRange : Obligations.ReportPurgesOutOfRange := by
  intro s a w slot weight z heavy clear hw r h x b net top trim passes hb hp stable hs hz range
  obtain ⟨v, hv⟩ : ∃ v, v = s.units.setHead h (x.weighedBy r weight) := ⟨_, rfl⟩
  have hx : v.head h = x.weighedBy r weight := by rw [hv, Units.head_setHead, if_pos rfl]
  have hs' : (v.head h).state = .settling := by rw [hx]; exact hs
  have hz' : v.zoneOf h.val = some z := by rw [hv]; exact hz
  have hb' : v.params h = b := by rw [hv]; rfl
  obtain ⟨d, hd⟩ : ∃ d : Int, d = if heavy then -1 else 1 := ⟨_, rfl⟩
  obtain ⟨why, hwhy⟩ : ∃ why : PurgeReason, why = if heavy then .over else .under := ⟨_, rfl⟩
  obtain ⟨c, hc⟩ : ∃ c : TrimCause, c = if heavy then .over else .under := ⟨_, rfl⟩
  have settled : v.settle h net = v.settleOff h net d c why := by
    rw [hd, hwhy, hc]
    unfold Units.settle
    simp only [hb']
    cases heavy with
    | true => exact if_pos range
    | false => exact (if_neg (not_lt.2 range.2)).trans (if_pos range.1)
  obtain ⟨t, done, wrote, stage, makes⟩ := clear.report_weighs hw rfl passes hb hp stable
    (by rw [hs]; simp [CycleState.name])
    (g := fun v => v.settle h net) (hv ▸ (Units.useWeight_settling v h weight r.seq hs').trans (by rw [hx]; rfl))
  have purged := Units.settleOff_head v h net d c why hz'
  obtain ⟨quiet, undrained⟩ := Units.heardFrom_discharging (u := (v.settleOff h net d c why).1) (h := h) (by
    rw [purged]; rfl)
  have eff := Units.taken_weighed s.units r weight (g := fun v => v.settle h net) (e := v.settleOff h net d c why)
    (by rw [← settled, hv]) (.inr undrained)
  refine ⟨t, done, wrote, stage, ?_, ?_, fun q hq => ?_, makes⟩
  · rw [makes.head, eff]
    refine Eq.trans quiet ?_
    rw [purged, Units.learned_head, hx, hb', hwhy]
    rfl
  · refine Eq.trans (makes.1 (.zone z) (by simp)) ?_
    rw [eff]
    refine Eq.trans (Units.heardFrom_keeps _ h (.zone z) (by simp)) ?_
    rw [Units.settleOff_zone v h net d c why hz', hv, hd]
    rfl
  · simp only [List.mem_cons, List.not_mem_nil, or_false, not_or] at hq
    obtain ⟨hstage, hh, hzone, hn⟩ := hq
    rw [eff] at makes
    refine makes.heard_keeps hstage hh (fun _ => ?_) fun side hside => ?_
    · exact Ev.Moves.keeps_trans (hv ▸ Units.setHead_keeps _ _ _ _ hh)
        (Units.settleOff_keeps v h net d c why hz' q hh hzone)
    · refine Units.settleOff_on v h net d c why hz' side fun e => hn ?_
      rw [hside, e, hv]
      rfl

/-! ### What the settle outcome READY leaves (R15, R16) -/

/-- A head that settles READY with a net weight: the yield learned, the counter lowered, the weight frozen (R15, R46,
R62). -/
def Head.settled (x : Head) (net : Int) (limit : Nat) : Head :=
  { x with
    frozen := some net, age := 0, health := x.health - 1
    yield := match x.bucket with
      | none => x.yield
      | some ticks => learnedYield x.yield net ticks
    bucket := none, state := .ready, timer := .running .silence limit }

/-- The counter's notice depends on the counter and on the configuration. -/
theorem Units.levelActs_congr {u v : Units} (h : Fin 32) (n : Nat) (c : HealthCause)
    (hh : (v.head h).health = (u.head h).health) (hc : v.config = u.config) : v.levelActs h n c = u.levelActs h n c := by
  unfold Units.levelActs Units.reportingHead Units.zoneOf Units.reporting Units.binding
  rw [hh, hc]

theorem Units.settleReady_eq (u : Units) (h : Fin 32) (net : Int) : u.settleReady h net =
    (u.setHead h ((u.head h).settled net (u.params h).silenceLimit),
      u.levelActs h ((u.head h).health - 1) .fill) := by
  have counter : ((u.learned h net).head h).health = (u.head h).health := by rw [Units.learned_head]
  have acts : (u.learned h net).levelActs h (((u.learned h net).head h).health - 1) .fill =
      u.levelActs h ((u.head h).health - 1) .fill := by
    rw [Units.levelActs_congr (u := u) h _ _ counter rfl, counter]
  unfold Units.settleReady Units.lower Units.count Effect.then
  simp only [Units.head_setHead, if_true, Units.setHead_twice, List.append_nil]
  refine Prod.ext ?_ acts
  simp only [Units.learned_head]
  exact Units.setHead_twice ..

/-- What a settle outcome inside the fill range puts out: the counter's notice, and the purge of a head that was BARRED. -/
def Units.readyActs (u : Units) (h : Fin 32) (net : Int) : List Act :=
  u.levelActs h ((u.head h).health - 1) .fill ++
    if (u.head h).health < 128 then []
    else [.write (u.purgeEntry h .barred),
      .notice (u.reportingHead h) (.purge h .barred ((u.head h).gateSeq + 1) (some net))]

/-- The record of a head behind such an outcome. -/
def Units.readyHead (u : Units) (h : Fin 32) (net : Int) : Head :=
  let y := (u.head h).settled net (u.params h).silenceLimit
  if (u.head h).health < 128 then y else y.purged .barred (u.params h).gateLimit

theorem levelOf_barred_iff {n : Nat} (h : n < 256) : levelOf n = .barred ↔ ¬ n < 128 := by
  unfold levelOf
  split
  · simp; omega
  · split
    · simp; omega
    · simp; omega

/-- The settle outcome of a net weight in the fill range (R15, R16). -/
theorem Units.settle_ready (u : Units) (h : Fin 32) (net : Int) (hmin : (u.params h).minFill ≤ net)
    (hmax : net ≤ (u.params h).ceiling) (below : (u.head h).health < 256) :
    u.settle h net = (u.setHead h (u.readyHead h net), u.readyActs h net) := by
  unfold Units.settle Units.readyHead Units.readyActs
  simp only [levelOf_barred_iff below]
  rw [if_neg (not_lt.2 hmax), if_neg (not_lt.2 hmin), Units.settleReady_eq]
  by_cases hb : (u.head h).health < 128
  · simp only [hb, not_true, if_false, if_true, List.append_nil]
  · simp only [hb, not_false_eq_true, if_true, if_false]
    have entry : (u.setHead h ((u.head h).settled net (u.params h).silenceLimit)).purgeEntry h .barred =
        u.purgeEntry h .barred := Units.purgeEntry_congr h _ rfl (by rw [Units.head_setHead, if_pos rfl]; rfl)
    unfold Effect.then Units.purge
    simp only [Units.head_setHead, if_true, Units.setHead_twice, entry]
    rfl

theorem Units.readyActs_on (u : Units) (h : Fin 32) (net : Int) (side : Side) (hs : side ≠ u.reportingHead h) :
    ∀ a, a ∈ u.readyActs h net → a.on side = false := by
  refine Act.on_append (Units.levelActs_on u h _ _ side hs) ?_
  split
  · simp
  · exact Units.purge_on u h .barred (some net) side hs

/-- Behind a report that leaves a head READY or DISCHARGING the drain condition is as it was, or does not hold (R156). -/
theorem Units.heardFrom_undrained {u : Units} {h : Fin 32} {x : Head} (undrained : u.undrained)
    (hs : (u.head h).state.name ≠ .discharging) :
    (u.setHead h x).part ≠ .draining ∨ ((u.setHead h x).heardFrom h).drained = false := by
  by_cases hp : u.part = .draining
  · right
    by_cases hx : x.state.name = .discharging
    · exact (Units.heardFrom_discharging (by rw [Units.head_setHead, if_pos rfl]; exact hx)).2
    · rw [← undrained hp]
      refine Units.drained_congr (fun side => ?_) (fun side => ?_) fun g => ?_
      · rw [show ((u.setHead h x).heardFrom h).orders.get side = (u.setHead h x).orders.get side from
          Units.heardFrom_keeps _ h (.order side) (by simp)]
        rfl
      · rw [show ((u.setHead h x).heardFrom h).releases.get side = (u.setHead h x).releases.get side from
          Units.heardFrom_keeps _ h (.release side) (by simp)]
        rfl
      · by_cases hg : g = h
        · subst hg
          rw [Units.heardFrom_head, Units.head_setHead, if_pos rfl]
          exact iff_of_false hx hs
        · rw [show ((u.setHead h x).heardFrom h).head g = (u.setHead h x).head g from
            Units.heardFrom_keeps _ h (.head g) (by simpa using hg), Units.head_setHead, if_neg hg]
  · exact .inl hp

/-- A head READY or DISCHARGING by a settle outcome keeps its timer as the report ends. -/
theorem Units.readyHead_heard (u v : Units) (h : Fin 32) (net : Int) (hp : v.params h = u.params h) :
    ((v.setHead h (u.readyHead h net)).heardFrom h).head h = u.readyHead h net := by
  rw [Units.heardFrom_head, Units.head_setHead, if_pos rfl]
  unfold Units.readyHead
  simp only [Units.setHead_params, hp]
  split
  · unfold Head.settled
    simp only [ite_self]
  · simp [Head.purged, CycleState.name]

/-- Settles O29 (R15, R16, R34, R46, R62). -/
theorem reportSettlesReady : Obligations.ReportSettlesReady := by
  intro s a w slot weight clear hw r h x b net y passes hb hp stable hs below undrained hmin hmax
  obtain ⟨v, hv⟩ : ∃ v, v = s.units.setHead h (x.weighedBy r weight) := ⟨_, rfl⟩
  have hx : v.head h = x.weighedBy r weight := by rw [hv, Units.head_setHead, if_pos rfl]
  have hb' : v.params h = b := by rw [hv]; rfl
  have settled : v.settle h net = (s.units.setHead h (v.readyHead h net), v.readyActs h net) := by
    rw [Units.settle_ready v h net (by rwa [hb']) (by rwa [hb']) (by rw [hx]; exact below), hv, Units.setHead_twice]
  obtain ⟨t, done, wrote, stage, makes⟩ := clear.report_weighs hw rfl passes hb hp stable
    (by rw [hs]; simp [CycleState.name]) (g := fun v => v.settle h net)
    (hv ▸ (Units.useWeight_settling v h weight r.seq (by rw [hx]; exact hs)).trans (by rw [hx]; rfl))
  have idle := Units.heardFrom_undrained (h := h) (x := v.readyHead h net) undrained (by
    show x.state.name ≠ _
    rw [hs]; simp [CycleState.name])
  have eff := Units.taken_weighed s.units r weight (g := fun v => v.settle h net)
    (e := (s.units.setHead h (v.readyHead h net), v.readyActs h net)) (by rw [← settled, hv]) idle
  rw [eff] at makes
  have record : v.readyHead h net = if x.health < 128 then y else y.purged .barred b.gateLimit := by
    unfold Units.readyHead
    rw [hx, hb']
    rfl
  have acts : v.readyActs h net = s.units.levelActs h (x.health - 1) .fill ++
      if x.health < 128 then []
      else [.write (s.units.purgeEntry h .barred),
        .notice (s.units.reportingHead h) (.purge h .barred (x.gateSeq + 1) (some net))] := by
    unfold Units.readyActs
    rw [Units.levelActs_congr (u := s.units) h _ _ (by rw [hx]; rfl) (by rw [hv]; rfl),
      Units.purgeEntry_congr (u := s.units) h .barred (by rw [hv]; rfl) (by rw [hx]; rfl), hx, hv]
    rfl
  rw [acts] at makes
  refine ⟨t, done, wrote, stage, ?_, fun q hq => ?_, makes.2⟩
  · rw [makes.head, ← record]
    exact Units.readyHead_heard v s.units h net hb'.symm
  · simp only [List.mem_cons, List.not_mem_nil, or_false, not_or] at hq
    obtain ⟨hstage, hh, hn⟩ := hq
    refine makes.heard_keeps hstage hh (fun _ => Units.setHead_keeps _ _ _ _ hh) fun side hside => ?_
    rw [← acts]
    refine Units.readyActs_on v h net side fun e => hn ?_
    rw [hside, e, hv]
    rfl

end Sys2Proof.Machine

namespace Sys2Proof.Machine

/-! ### Confirmed purges (O31) -/

/-- A head whose purge is confirmed: EMPTY with its SILENCE timer while RUNNING, otherwise STOPPED; the counter is one lower
unless the purge was RECOVER's (R21, R46). -/
def Head.confirmed (x : Head) (part : PartState) (limit : Nat) (why : PurgeReason) : Head :=
  { x with
    state := if part = .running then .empty else .stopped, frozen := none, retryUsed := false
    timer := if part = .running then .running .silence limit else .stopped
    health := if why = .recover then x.health else x.health - 1 }

/-- A change of a head's record that keeps the counter, then a lower counter. -/
theorem Units.setHead_lower (u : Units) (h : Fin 32) (x : Head) (c : HealthCause) (hx : x.health = (u.head h).health) :
    (u.setHead h x).lower h c = (u.setHead h { x with health := x.health - 1 }, u.levelActs h (x.health - 1) c) := by
  have acts := Units.levelActs_congr (u := u) (v := u.setHead h x) h (x.health - 1) c
    (by rw [Units.head_setHead, if_pos rfl, hx]) rfl
  unfold Units.lower Units.count
  simp only [Units.head_setHead, if_true, Units.setHead_twice, acts]

theorem Units.confirm_reject (u : Units) (h : Fin 32) (why : PurgeReason)
    (hs : (u.head h).state = .discharging (.reject why)) :
    u.confirm h = (u.setHead h ((u.head h).confirmed u.part (u.params h).silenceLimit why),
      if why = .recover then [] else u.levelActs h ((u.head h).health - 1) .confirm) := by
  have lowered := fun x => Units.setHead_lower u h x .confirm
  unfold Units.confirm Head.confirmed Head.watched
  cases why with
  | recover => simp only [hs, if_true]; split <;> rfl
  | _ =>
    simp only [hs, reduceCtorEq, if_false]
    split <;> exact lowered _ rfl

theorem Units.confirm_if_blind (h : Fin 32) (b : Prop) [Decidable b] :
    Blind fun u => if b then u.confirm h else (u, []) := by
  by_cases hb : b
  · simp only [hb, if_true]
    exact Units.confirm_blind h
  · simp only [hb, if_false]
    exact fun _ _ => rfl

/-- Drain complete leaves a head alone that it does not stop (R23, R156). -/
theorem Units.drainEnd_head (u : Units) (h : Fin 32)
    (hs : u.part = .draining → stopsAtDrain (u.head h).state.name = false) :
    u.drainEnd.1.head h = u.head h := by
  by_cases hd : u.part = .draining ∧ u.drained = true
  · unfold Units.drainEnd
    rw [if_pos hd]
    refine Eq.trans (Units.mapHeads_head u _ h) ?_
    rw [hs hd.1]
    rfl
  · rw [Units.drainEnd_idle u (by by_contra c; exact hd (by simpa using c))]

/-- The record that a taken report leaves of its head, where drain complete does not stop it (R34, R156). -/
theorem Units.taken_head (u : Units) (r : ReportHeader) {f : Units → Effect} {e : Effect}
    (hf : f (u.setHead r.head { u.head r.head with lastSeq := some r.seq }) = e) (hp : e.1.part = u.part)
    (hs : u.part = .draining → stopsAtDrain (e.1.head r.head).state.name = false) :
    (u.taken r f).1.head r.head = (e.1.heardFrom r.head).head r.head := by
  have heard : (u.taken r f).1.head r.head = (e.1.heardFrom r.head).drainEnd.1.head r.head := by rw [← hf]; rfl
  rw [heard]
  refine Units.drainEnd_head _ _ fun hd => ?_
  have part : (e.1.heardFrom r.head).part = u.part :=
    (Units.heardFrom_keeps e.1 r.head .part (by simp)).1.trans hp
  rw [Units.heardFrom_head]
  exact hs (part.symm.trans hd)

/-- The record of a confirmed head is as it was when the report ends: its SILENCE timer runs already, or it is STOPPED. -/
theorem Units.confirmed_heard (u : Units) (h : Fin 32) (x : Head) (why : PurgeReason) :
    let z := x.confirmed u.part (u.params h).silenceLimit why
    ((u.setHead h z).heardFrom h).head h = z := by
  intro z
  rw [Units.heardFrom_head, Units.head_setHead, if_pos rfl]
  by_cases hr : u.part = .running
  · simp [z, Head.confirmed, hr, Units.setHead_params]
  · simp [z, Head.confirmed, hr, CycleState.name]

/-- Settles O31 (R21, R38, R46). -/
theorem reportConfirmsPurge : Obligations.ReportConfirmsPurge := by
  intro s a w slot why clear hw r h x y passes hb hp hg unstable hs
  obtain ⟨z, hz⟩ : ∃ z, z = if x.gateSeq = r.echo then
      y.confirmed s.units.part (s.units.params h).silenceLimit why else y := ⟨_, rfl⟩
  obtain ⟨acts, hacts⟩ : ∃ l, l = if x.gateSeq = r.echo ∧ why ≠ .recover then
      s.units.levelActs h (x.health - 1) .confirm else [] := ⟨_, rfl⟩
  have effect : (if x.gateSeq = r.echo then (s.units.setHead h y).confirm h else (s.units.setHead h y, [])) =
      (s.units.setHead h z, acts) := by
    have hy : (s.units.setHead h y).head h = y := (Units.head_setHead ..).trans (if_pos rfl)
    have level := Units.levelActs_congr (u := s.units) (v := s.units.setHead h y) h (y.health - 1) .confirm (by rw [hy]) rfl
    rw [hz, hacts]
    by_cases echo : x.gateSeq = r.echo
    · rw [if_pos echo, Units.confirm_reject _ h why (by rw [hy]; exact hs), hy, Units.setHead_twice, level]
      by_cases hr : why = .recover
      · simp only [echo, hr, ne_eq, not_true, and_false, if_true, if_false]
        rfl
      · simp only [echo, hr, ne_eq, not_false_eq_true, and_true, if_true, if_false]
        rfl
    · simp only [echo, if_false, false_and]
  obtain ⟨t, done, wrote, stage, makes⟩ := clear.report_effect hw rfl passes
    (Units.confirm_if_blind h (x.gateSeq = r.echo)) (fun f hf => by
      rw [f.reportParts_gate r _ hb hp hg unstable]
      split
      · refine Ev.Does.gateClosed h r.echo (by rw [hf]; assumption) fun side c => ?_
        rw [hf] at c
        exact absurd (hs.symm.trans c) (by simp)
      · exact Ev.Does.gateClosed_other h r.echo (.inl (by rw [hf]; assumption)))
    (g := fun v => if x.gateSeq = r.echo then v.confirm h else (v, [])) rfl
  have idle : s.units.part = .draining → stopsAtDrain z.state.name = false := fun hd => by
    rw [hz]
    split
    · simp [Head.confirmed, hd, CycleState.name, stopsAtDrain]
    · show stopsAtDrain x.state.name = false
      rw [hs]
      rfl
  have hz' : (s.units.setHead h z).head h = z := (Units.head_setHead ..).trans (if_pos rfl)
  have heard : ((s.units.setHead h z).heardFrom h).head h = z := by
    by_cases echo : x.gateSeq = r.echo
    · rw [hz, if_pos echo]
      exact Units.confirmed_heard s.units h y why
    · rw [(Units.heardFrom_discharging (by rw [hz', hz, if_neg echo]; exact congrArg CycleState.name hs)).1, hz']
  refine ⟨t, done, wrote, stage, ?_, fun hd => ?_, makes⟩
  · rw [makes.head, Units.taken_head s.units r effect rfl (fun hd => by rw [hz']; exact idle hd)]
    refine heard.trans ?_
    rw [hz]
    rfl
  · have eff := Units.taken_of s.units r (f := fun v => if x.gateSeq = r.echo then v.confirm h else (v, []))
      (e := (s.units.setHead h z, acts)) effect (.inl hd)
    rw [eff] at makes
    refine ⟨fun q hq => ?_, hacts ▸ makes.2⟩
    simp only [List.mem_cons, List.not_mem_nil, or_false, not_or] at hq
    obtain ⟨hstage, hh, hn⟩ := hq
    refine makes.heard_keeps hstage hh (fun _ => Units.setHead_keeps _ _ _ _ hh) fun side hside => ?_
    rw [hacts]
    split
    · exact Units.levelActs_on s.units h _ _ side fun c => hn (by rw [hside, c])
    · simp

end Sys2Proof.Machine

namespace Sys2Proof.Machine

/-! ### Disturbances (O37) -/

/-- An effect that comes to what another one has done at a head, in all that a disturbance is about: the head's state and
counter, the other heads, the orders, the part state; it puts out nothing more that touches a reservation. -/
structure Effect.Trails (d e : Effect) (h : Fin 32) : Prop where
  part : e.1.part = d.1.part
  orders : ∀ side, e.1.orders.get side = d.1.orders.get side
  others : ∀ g, g ≠ h → e.1.head g = d.1.head g
  state : (e.1.head h).state = (d.1.head h).state
  health : (e.1.head h).health = (d.1.head h).health
  acts : ∃ l, e.2 = d.2 ++ l ∧ ∀ a, a ∈ l → a.plain

namespace Effect.Trails

variable {d e : Effect} {h : Fin 32}

theorem refl : d.Trails d h := ⟨rfl, fun _ => rfl, fun _ _ => rfl, rfl, rfl, [], by simp, by simp⟩

/-- An effect behind another one, where it trails the units that it begins with. -/
theorem andThen {f : Units → Effect} (t : d.Trails e h) (ht : Effect.Trails (e.1, []) (f e.1) h) :
    d.Trails (e.then f) h := by
  obtain ⟨l, hl, plain⟩ := t.acts
  obtain ⟨m, hm, plain'⟩ := ht.acts
  refine ⟨ht.part.trans t.part, fun side => (ht.orders side).trans (t.orders side),
    fun g hg => (ht.others g hg).trans (t.others g hg), ht.state.trans t.state, ht.health.trans t.health, l ++ m, ?_, ?_⟩
  · rw [Effect.then_snd, hl, hm, List.nil_append, List.append_assoc]
  · exact fun a ha => (List.mem_append.1 ha).elim (plain a) (plain' a)

/-- A head's record with the same state and counter, and writes or notices that touch no reservation. -/
theorem of_setHead {u : Units} {x : Head} {l : List Act} (hs : x.state = (u.head h).state)
    (hh : x.health = (u.head h).health) (hl : ∀ a, a ∈ l → a.plain) : Effect.Trails (u, []) (u.setHead h x, l) h := by
  have self : (u.setHead h x).head h = x := (Units.head_setHead ..).trans (if_pos rfl)
  exact ⟨rfl, fun _ => rfl, fun g hg => (Units.head_setHead ..).trans (if_neg hg), by rw [self, hs],
    by rw [self, hh], l, rfl, hl⟩

theorem emptyPool (u : Units) : Effect.Trails (u, []) (u.emptyPool h) h := of_setHead rfl rfl (by simp)

theorem trim (u : Units) (z : Zone) (delta : Int) (c : TrimCause) : Effect.Trails (u, []) (u.trim z delta c h) h := by
  have keeps := Units.trim_keeps u z delta c h
  have heads : ∀ g, (u.trim z delta c h).1.head g = u.head g := fun g => keeps (.head g) (by simp)
  refine ⟨(keeps .part (by simp)).1, fun side => keeps (.order side) (by simp), fun g _ => heads g, by rw [heads],
    by rw [heads], _, rfl, fun a ha => ?_⟩
  unfold Units.trim at ha
  simp only at ha
  split at ha
  · cases ha
  · simp only [List.mem_cons, List.not_mem_nil, or_false] at ha
    rcases ha with rfl | rfl <;> exact fun _ _ => rfl

theorem feed (u : Units) : Effect.Trails (u, []) (u.feed h) h := by
  have order : ∀ x : QueueEntry, ∀ a, a ∈ [Act.write x] → a.plain := by
    intro x a ha
    rw [List.mem_singleton.1 ha]
    exact fun _ _ => rfl
  rcases u.feed_cases h with ⟨-, e⟩ | ⟨ticks, env, z, -, -, -, -, -, e | ⟨delta, c, e⟩⟩ <;> rw [e]
  · exact refl
  · exact of_setHead rfl rfl (order _)
  · exact (of_setHead (x := (u.head h).fed ticks) rfl rfl (order _)).andThen (f := fun v => v.trim z delta c h)
      (trim _ z delta c)

/-- POOL-DROP in SETTLING, READY and CLAIMED, and in STOPPED without a pool feed record, is a disturbance, and what
follows it touches the head's feeds alone (R14). -/
theorem dropPool (u : Units) (hs : (u.head h).state.name = .settling ∨ (u.head h).state.name = .ready ∨
    (u.head h).state.name = .claimed ∨ ((u.head h).state = .stopped ∧ (u.head h).pool = none)) :
    (u.disturb h).Trails (u.dropPool h) h := by
  have emptied : (u.disturb h).Trails ((u.disturb h).then fun v => v.emptyPool h) h := refl.andThen (emptyPool _)
  unfold Units.dropPool
  refine andThen ?_ (feed _)
  unfold Units.dropIn
  cases hx : (u.head h).state with
  | settling | ready | claimed => exact emptied
  | stopped =>
    have hp : (u.head h).pool = none := by
      rw [hx] at hs
      rcases hs with c | c | c | c
      · cases c
      · cases c
      · cases c
      · exact c.2
    simp only [hp, Option.isSome_none, Bool.false_eq_true, if_false]
    exact refl
  | _ => rw [hx] at hs; rcases hs with c | c | c | ⟨c, -⟩ <;> cases c

end Effect.Trails

theorem Units.expel_part (u : Units) (h : Fin 32) (w : WithdrawReason) (r : PurgeReason) :
    (u.expel h w r).1.part = u.part := by
  unfold Units.expel
  simp only
  split
  · rfl
  · exact (Units.withdraw_keeps u _ _ w h .part (by simp) (by simp)).1
  · rfl

theorem Units.disturb_part (u : Units) (h : Fin 32) (h0 : (u.head h).state ≠ .out) (h1 : (u.head h).state ≠ .disabled) :
    (u.disturb h).1.part = u.part := by
  by_cases hb : 256 ≤ (u.head h).health + 8
  · rw [Units.disturb_top u h h0 h1 hb]
    exact (Units.goOut_keeps (u.count h 256 .disturbed).1 h .part (by simp) (by simp) (by simp)).1
  · rw [Units.disturb_below u h h0 h1 (by omega), Effect.then_fst]
    split
    · rfl
    · exact Units.expel_part _ h _ _

theorem foldl_reserves (side : Side) : ∀ (l : List Act), (∀ a n, a ∈ l → a.reserves side n = n) → ∀ n,
    l.foldl (fun n a => a.reserves side n) n = n
  | [], _, _ => rfl
  | a :: l, h, n => by
    rw [List.foldl_cons, h a n (by simp)]
    exact foldl_reserves side l (fun b n hb => h b n (by simp [hb])) n

/-- The cycle states in which a report's POOL-DROP or weight disturbs a head (R14, R18). -/
def CycleState.disturbable (c : CycleState) : Prop :=
  c.name = .settling ∨ c.name = .ready ∨ c.name = .claimed ∨ c = .stopped

theorem CycleState.disturbable.enabled {c : CycleState} (hc : c.disturbable) : c ≠ .out ∧ c ≠ .disabled := by
  constructor
  · rintro rfl
    rcases hc with c | c | c | c <;> cases c
  · rintro rfl
    rcases hc with c | c | c | c <;> cases c

theorem CycleState.disturbable.not_discharging {c : CycleState} (hc : c.disturbable) : c.name ≠ .discharging := by
  rcases hc with h | h | h | h <;> rw [h] <;> simp [CycleState.name]

/-- A taken report whose effect is, at its head, a disturbance of the record x. -/
structure State.Disturbed (s t : State) (r : ReportHeader) (f : Units → Effect) (x : Head) (e : Effect) : Prop where
  makes : s.Makes t (s.units.taken r f)
  effect : f (s.units.setHead r.head { s.units.head r.head with lastSeq := some r.seq }) = e
  trails : ((s.units.setHead r.head x).disturb r.head).Trails e r.head
  disturbable : x.state.disturbable

namespace State.Disturbed

variable {s t : State} {r : ReportHeader} {f : Units → Effect} {x : Head} {e : Effect}

theorem part (d : s.Disturbed t r f x e) : e.1.part = s.units.part := by
  obtain ⟨h0, h1⟩ := d.disturbable.enabled
  have hx : (s.units.setHead r.head x).head r.head = x := (Units.head_setHead ..).trans (if_pos rfl)
  exact d.trails.part.trans (Units.disturb_part _ r.head (by rwa [hx]) (by rwa [hx]))

/-- The head behind the disturbance: OUT at 256, otherwise 8 higher and purged, or STOPPED as before (R18). -/
theorem result (d : s.Disturbed t r f x e) :
    (256 ≤ x.health + 8 → (e.1.head r.head).health = 256 ∧ (e.1.head r.head).state = .out) ∧
      (x.health + 8 < 256 → (e.1.head r.head).health = x.health + 8 ∧
        (x.state ≠ .stopped → (e.1.head r.head).state = .discharging (.reject .disturbed)) ∧
        (x.state = .stopped → (e.1.head r.head).state = .stopped)) := by
  obtain ⟨h0, h1⟩ := d.disturbable.enabled
  have hx : (s.units.setHead r.head x).head r.head = x := (Units.head_setHead ..).trans (if_pos rfl)
  obtain ⟨top, below⟩ := Units.disturb_head (s.units.setHead r.head x) r.head (by rwa [hx]) (by rwa [hx])
  rw [hx] at top below
  rw [d.trails.state, d.trails.health]
  refine ⟨top, fun hb => ⟨(below hb).1, fun hs => ?_, fun hs => ?_⟩⟩
  · rw [(below hb).2, if_pos]
    rcases d.disturbable with c | c | c | c
    · exact .inl c
    · exact .inr (.inl c)
    · exact .inr (.inr c)
    · exact absurd c hs
  · rw [(below hb).2, hs]
    rfl

/-- Drain complete stops no disturbed head. -/
theorem stays (d : s.Disturbed t r f x e) : stopsAtDrain (e.1.head r.head).state.name = false := by
  obtain ⟨top, below⟩ := d.result
  by_cases hb : x.health + 8 < 256
  · obtain ⟨-, purged, stopped⟩ := below hb
    by_cases hs : x.state = .stopped
    · rw [stopped hs]; rfl
    · rw [purged hs]; rfl
  · rw [(top (by omega)).2]; rfl

/-- Its counter and cycle state are what the disturbance leaves. -/
theorem head (d : s.Disturbed t r f x e) : (t.units.head r.head).health = (e.1.head r.head).health ∧
    (t.units.head r.head).state = (e.1.head r.head).state := by
  rw [d.makes.head, Units.taken_head s.units r d.effect d.part fun _ => d.stays, Units.heardFrom_head]
  exact ⟨rfl, rfl⟩

/-- The order that claimed the head is withdrawn: it leaves the queue, its other heads are READY again, its reservation is
given back, and ORDER-ENDED is set (R17, R113). -/
theorem claim (d : s.Disturbed t r f x e) {side : Side} {o : OrderRec} (running : s.units.part ≠ .draining)
    (hs : x.state = .claimed side o.accept) (ho : o ∈ (s.units.orders.get side).queue)
    (hn : ((s.units.orders.get side).queue.map OrderRec.accept).Nodup) :
    (t.units.orders.get side).queue = (s.units.orders.get side).queue.filter (· ≠ o) ∧
      (∀ g, g ∈ o.heads → g ≠ r.head → t.units.head g =
        (s.units.head g).watched .ready (s.units.params g).silenceLimit) ∧
      (t.units.notices.get side).reservations = (s.units.notices.get side).reservations - 1 ∧
      (t.units.notices.get side).has .orderEnded = true := by
  have hx : (s.units.setHead r.head x).head r.head = x := (Units.head_setHead ..).trans (if_pos rfl)
  obtain ⟨y, l, m, why, disturbed, plain⟩ :=
    Units.disturb_claimed (s.units.setHead r.head x) r.head side o (by rw [hx, hs]) hn ho
  have trails := d.trails
  rw [disturbed] at trails
  obtain ⟨k, acts, plain'⟩ := trails.acts
  have makes := d.makes
  rw [Units.taken_of s.units r d.effect (.inl (by rw [d.part]; exact running))] at makes
  obtain ⟨-, -, -, -, reservations, flags, -⟩ := makes.2.1 side
  have gives := s.units.puts_gives e.2 side
  refine ⟨?_, fun g hg hne => ?_, ?_, ?_⟩
  · have order : t.units.orders.get side = e.1.orders.get side :=
      Eq.trans (makes.1 (.order side) (by simp)) (Units.heardFrom_keeps e.1 r.head (.order side) (by simp))
    rw [order, trails.orders side, ← (OrderSide.find_order hn ho).2]
    exact congrArg OrderSide.queue (Units.withdrawn_order (s.units.setHead r.head x) side o r.head)
  · have other : t.units.head g = e.1.head g :=
      (makes.head g).trans (Units.heardFrom_keeps e.1 r.head (.head g) (by simpa using hne))
    rw [other, trails.others g hne, Units.head_setHead, if_neg hne, Units.withdrawn_head, if_pos ⟨hg, hne⟩,
      Units.head_setHead, if_neg hne]
    rfl
  · rw [reservations, gives.reserved, acts, List.foldl_append, Act.plain_fold k plain', List.foldl_append,
      foldl_reserves side l fun a n ha => plain a n (by simp [ha]), List.foldl_cons, List.foldl_cons,
      foldl_reserves side m fun a n ha => plain a n (by simp [ha])]
    simp [Act.reserves]
  · exact NoticeSide.has_of_flags (gives.flag .orderEnded (by rw [acts]; simp)) flags

end State.Disturbed

/-- What the disturbance of a taken report leaves, as R18 and R113 say it of the head's record before. -/
theorem State.Disturbed.concludes {s t : State} {r : ReportHeader} {f : Units → Effect} {x : Head} {e : Effect}
    (d : s.Disturbed t r f x e) :
    (x.health + 8 < 256 → (t.units.head r.head).health = x.health + 8 ∧
        (x.state ≠ .stopped → (t.units.head r.head).state = .discharging (.reject .disturbed)) ∧
        (x.state = .stopped → (t.units.head r.head).state = .stopped)) ∧
      (256 ≤ x.health + 8 → (t.units.head r.head).health = 256 ∧ (t.units.head r.head).state = .out) ∧
      ∀ side k o, s.units.part ≠ .draining → x.state = .claimed side k → o ∈ (s.units.orders.get side).queue →
        o.accept = k → ((s.units.orders.get side).queue.map OrderRec.accept).Nodup →
        (t.units.orders.get side).queue = (s.units.orders.get side).queue.filter (· ≠ o) ∧
          (∀ g, g ∈ o.heads → g ≠ r.head → t.units.head g =
            (s.units.head g).watched .ready (s.units.params g).silenceLimit) ∧
          (t.units.notices.get side).reservations = (s.units.notices.get side).reservations - 1 ∧
          (t.units.notices.get side).has .orderEnded = true := by
  obtain ⟨health, state⟩ := d.head
  rw [health, state]
  refine ⟨d.result.2, d.result.1, fun side k o running hs ho hk hn => ?_⟩
  subst hk
  exact d.claim running hs ho hn

/-- A taken report without BOARD-FAULT and without a stable weight, with POOL-DROP, at a head that does not discharge
(R14, R34). -/
theorem Ev.reportParts_drop (e : Ev) (r : ReportHeader) (weight : Option (Int × Bool)) (hb : r.boardFault = false)
    (hp : r.poolDrop = true) (hw : ∀ w, weight ≠ some (w, true))
    (hd : (e.units.head r.head).state.name ≠ .discharging) : e.reportParts r weight = e.poolDrop r.head := by
  have gate : (if r.gateClosed = true then e.gateClosed r.head r.echo else e) = e := by
    split
    · exact e.gateClosed_idle _ _ hd
    · rfl
  unfold Ev.reportParts
  rcases weight with _ | ⟨w, _ | _⟩
  · simp only [hb, hp, Bool.false_eq_true, if_false, if_true, gate]
  · simp only [hb, hp, Bool.false_eq_true, if_false, if_true, gate]
  · exact absurd rfl (hw w)

/-- Settles O37 (R14, R18, R34, R40, R113). -/
theorem reportDisturbs : Obligations.ReportDisturbs := by
  intro s a w slot dropped clear hw r h x b passes hb hp cause
  cases dropped with
  | true =>
    obtain ⟨unstable, hs⟩ : (∀ weight, s.units.reportWeight r ≠ some (weight, true)) ∧ (x.state.name = .settling ∨
      x.state.name = .ready ∨ x.state.name = .claimed ∨ (x.state = .stopped ∧ x.pool = none)) := cause
    have disturbable : x.state.disturbable := hs.imp_right fun hs => hs.imp_right fun hs => hs.imp_right And.left
    obtain ⟨y, hy⟩ : ∃ y : Head, y = { x with lastSeq := some r.seq } := ⟨_, rfl⟩
    obtain ⟨t, done, wrote, stage, makes⟩ := clear.report_effect hw rfl passes (Units.dropPool_blind h) (fun e he => by
      rw [e.reportParts_drop r _ hb hp unstable (by rw [he]; exact disturbable.not_discharging)]
      exact Ev.Does.poolDrop h) (g := fun v => v.dropPool h) rfl
    have d : s.Disturbed t r (fun v => v.dropPool h) y ((s.units.setHead h y).dropPool h) := by
      refine ⟨makes, by rw [hy], Effect.Trails.dropPool _ ?_, by rw [hy]; exact disturbable⟩
      rw [Units.head_setHead, if_pos rfl, hy]
      exact hs
    obtain ⟨below, top, claim⟩ := d.concludes
    rw [hy] at below top claim
    exact ⟨t, done, wrote, stage, below, top, claim, fun _ => makes, fun _ c => by cases c⟩
  | false =>
    obtain ⟨hs, weight, g, stable, frozen, band⟩ : (x.state.name = .ready ∨ x.state.name = .claimed) ∧
      ∃ weight f, s.units.reportWeight r = some (weight, true) ∧ x.frozen = some f ∧
        (b.disturbBand < weight - x.zero - f ∨ b.disturbBand < f - (weight - x.zero)) := cause
    have disturbable : x.state.disturbable := .inr (hs.imp_right .inl)
    obtain ⟨v, hv⟩ : ∃ v, v = s.units.setHead h (x.weighedBy r weight) := ⟨_, rfl⟩
    have hx : v.head h = x.weighedBy r weight := by rw [hv, Units.head_setHead, if_pos rfl]
    obtain ⟨t, done, wrote, stage, makes⟩ := clear.report_weighs hw rfl passes hb hp stable disturbable.not_discharging
      (g := fun v => v.disturb h) (hv ▸ Units.useWeight_disturbs v h weight g r.seq (by rw [hx]; exact hs)
        (by rw [hx]; exact frozen) (by rw [hx, hv]; exact band))
    have d : s.Disturbed t r (fun v => (v.weighed h weight).disturb h) (x.weighedBy r weight) (v.disturb h) :=
      ⟨makes, by rw [hv, Units.weighed_sequenced], by rw [← hv]; exact .refl, disturbable⟩
    obtain ⟨below, top, claim⟩ := d.concludes
    refine ⟨t, done, wrote, stage, below, top, claim, fun c => (by cases c), fun weight' _ stable' => ?_⟩
    obtain rfl : weight = weight' := congrArg Prod.fst (Option.some.inj (stable.symm.trans stable'))
    exact makes

end Sys2Proof.Machine

namespace Sys2Proof.Machine

/-! ### The millisecond (O55) -/

/-- With everything clear no source waits for MP (R141). -/
theorem State.Clear.choice {s : State} (clear : s.Clear) : s.choice = none := by
  cases hc : s.choice with
  | none => rfl
  | some source =>
    cases source with
    | port p => exact absurd hc (clear.1.1.choice p)
    | queue =>
      unfold State.choice at hc
      rw [if_neg (by simp [clear.2, Config.queueUrgent])] at hc
      have waits := List.find?_some hc
      simp [State.waits, clear.2] at waits

/-- A list of timers of which none is due leaves the state as it is. -/
theorem State.takeDue_none (s : State) (l : List Owner) (h : ∀ o, o ∈ l → s.units.due o = false) :
    l.foldl State.takeDue s = s := by
  induction l with
  | nil => rfl
  | cons o rest ih =>
    have hold : s.takeDue o = s := by
      unfold State.takeDue
      rw [h o (by simp)]
      rfl
    rw [List.foldl_cons, hold]
    exact ih fun o ho => h o (by simp [ho])

/-- A timer with two milliseconds left or more is not due after one (R8, R111). -/
theorem Units.tick_due {u : Units} (heads : ∀ h k n, (u.head h).timer = .running k n → 2 ≤ n)
    (holds : ∀ x o n, o ∈ (u.orders.get x).queue → o.hold = .running n → 2 ≤ n) (owner : Owner) :
    u.tick.due owner = false := by
  cases owner with
  | headTimer h =>
    simp only [Units.due, Units.tick_head]
    cases ht : (u.head h).timer with
    | running k n =>
      obtain ⟨m, rfl⟩ := Nat.exists_eq_add_of_le' (heads h k n ht)
      rfl
    | _ => rfl
  | hold side accept =>
    have order : u.tick.orders.get side = (u.orders.get side).tick := by cases side <;> rfl
    simp only [Units.due, order, List.any_eq_false]
    intro o' ho'
    obtain ⟨o, ho, rfl⟩ := List.mem_map.1 ho'
    cases hh : o.hold with
    | running n =>
      have := holds side o n ho hh
      simp only [HoldTimer.tick, Bool.and_eq_true, decide_eq_true_eq, HoldTimer.running.injEq]
      omega
    | expired => simp [HoldTimer.tick]
  | port | release | double => rfl

/-- A millisecond leaves every piece alone but head timers, hold timers and pulses (R146). -/
theorem Units.tick_keeps (u : Units) (q : Piece) :
    u.keeps u.tick q ∨ (∃ h, q = .head h) ∨ (∃ x, q = .order x) ∨ ∃ x, q = .release x := by
  cases q with
  | head h => exact .inr (.inl ⟨h, rfl⟩)
  | order x => exact .inr (.inr (.inl ⟨x, rfl⟩))
  | release x => exact .inr (.inr (.inr ⟨x, rfl⟩))
  | part => exact .inl ⟨Units.tick_part u, Units.tick_changeCount u⟩
  | loaded => exact .inl ⟨Units.tick_config u, Units.tick_clock u, Units.tick_cbase u, Units.tick_oneck u⟩
  | mirror o => exact .inl (congrArg (Cells.read · o) (Units.tick_mirror u))
  | stage => exact .inl (Units.tick_stage u)
  | zone z => exact .inl (congrArg (PerZone.get · z) (Units.tick_zones u))
  | notice x => exact .inl (congrArg (PerSide.get · x) (Units.tick_notices u))
  | view x => exact .inl (congrArg (PerSide.get · x) (Units.tick_views u))

/-- A step of a part with nothing waiting is a millisecond (log entry 2). -/
theorem State.Clear.step_millisecond {s : State} (clear : s.Clear) (hp : s.pending = []) : step s = .next s.millisecond := by
  unfold step State.idle
  rw [hp, clear.choice]

/-- A change of the units alone leaves memory, front ends, arbiter and the writes that wait as they were. -/
theorem State.setUnits_inside (s : State) (u : Units) : s.Inside (s.setUnits u) ∧ s.NoWrites (s.setUnits u) :=
  ⟨⟨rfl, rfl, rfl, rfl⟩, ⟨rfl, rfl⟩⟩

/-- Settles O55 (R8, R111, R125, R146; log entry 2). -/
theorem millisecondPasses : Obligations.MillisecondPasses := by
  intro s clear hp
  rw [clear.step_millisecond hp]
  refine ⟨fun stopped => ?_, fun based heads holds => ?_⟩
  · unfold State.millisecond
    rw [stopped]
    rfl
  · have passed : s.millisecond = s.setUnits s.units.tick := by
      unfold State.millisecond
      rw [if_neg (by simpa using Option.isSome_iff_ne_none.1 based)]
      exact State.takeDue_none (s.setUnits s.units.tick) s.units.tick.timerOwners fun o _ =>
        Units.tick_due heads holds o
    refine ⟨_, rfl, ?_⟩
    rw [passed]
    obtain ⟨inside, silent⟩ := s.setUnits_inside s.units.tick
    refine ⟨inside, silent, Units.tick_head s.units, fun x => ?_, fun x => ?_, Units.tick_keeps s.units⟩
    · cases x <;> rfl
    · cases x <;> rfl

end Sys2Proof.Machine

namespace Sys2Proof.Machine

/-! ### The arithmetic of weights and feeds (O33) -/

/-- The mean of two samples is rounded toward minus infinity, and both lie within the band of each other (R36). -/
theorem reduceSamples_two (x y : Int) (still : Bool) (band : Int) :
    ∃ m stable, reduceSamples [x, y] still band = some (m, stable) ∧ 2 * m ≤ x + y ∧ x + y < 2 * m + 2 ∧
      (stable = true ↔ x - y ≤ band ∧ y - x ≤ band) := by
  refine ⟨_, _, rfl, ?_, ?_, ?_⟩
  · rw [Int.fdiv_eq_ediv_of_nonneg _ (by omega)]
    omega
  · rw [Int.fdiv_eq_ediv_of_nonneg _ (by omega)]
    omega
  · rw [decide_eq_true_iff]
    omega

/-- The weight of three samples is the one that lies between the other two (R36). -/
theorem median_between (x y z : Int) :
    (median x y z = x ∧ ((y ≤ x ∧ x ≤ z) ∨ (z ≤ x ∧ x ≤ y))) ∨ (median x y z = y ∧ ((x ≤ y ∧ y ≤ z) ∨ (z ≤ y ∧ y ≤ x))) ∨
      (median x y z = z ∧ ((x ≤ z ∧ z ≤ y) ∨ (y ≤ z ∧ z ≤ x))) := by
  unfold median
  omega

/-- The spread of three samples lies within the band when that of each two of them does (R36). -/
theorem spread_le_iff (x y z band : Int) : max x (max y z) - min x (min y z) ≤ band ↔
    x - y ≤ band ∧ y - x ≤ band ∧ x - z ≤ band ∧ z - x ≤ band ∧ y - z ≤ band ∧ z - y ≤ band := by
  omega

/-- The fill target of a head of a zone with live parameters (R57). -/
theorem Units.fillTarget_live {u : Units} {h : Fin 32} {c : Loaded} {z : Zone} {b : ZoneBlock} (hc : u.config = some c)
    (hz : u.zoneOf h.val = some z) (hb : (u.zones.get z).live = some b) (hs : b.spread ≠ []) :
    ∃ offset, b.spread[(h.val - if z = .z0 then 0 else c.split) % b.spread.length]? = some offset ∧
      u.fillTarget h = max 500 (b.share + offset) := by
  have first : u.firstHead z = if z = .z0 then 0 else c.split := by
    cases z with
    | z0 => rfl
    | z1 =>
      unfold Units.firstHead
      rw [hc]
      rfl
  have inside := Nat.mod_lt (h.val - u.firstHead z) (List.length_pos_iff.2 hs)
  rw [← first]
  refine ⟨_, List.getElem?_eq_getElem inside, ?_⟩
  have live : u.zoneParams z = b := by
    unfold Units.zoneParams
    rw [hb]
    rfl
  unfold Units.fillTarget
  rw [hz]
  simp only [live, List.getD_eq_getElem?_getD, List.getElem?_eq_getElem inside]
  rfl

/-- The ticks of a target are the least whose yield reaches it (R59). -/
theorem ticksFor_least {target : Int} {yield : Nat} (ht : 500 ≤ target) (hy : 1 ≤ yield) :
    1 ≤ ticksFor target yield ∧ target * 16 ≤ ticksFor target yield * yield ∧
      (ticksFor target yield - 1 : Int) * yield < target * 16 := by
  obtain ⟨q, hq⟩ : ∃ q : Int, q = (target * 16 + (yield : Int) - 1) / (yield : Int) := ⟨_, rfl⟩
  have positive : (0 : Int) < yield := by omega
  have above : q * yield ≤ target * 16 + yield - 1 := hq ▸ Int.ediv_mul_le _ (by omega)
  have below : target * 16 + yield - 1 < (q + 1) * yield := hq ▸ Int.lt_ediv_add_one_mul_self _ positive
  have one : 1 ≤ q := hq ▸ (Int.le_ediv_iff_mul_le positive).2 (by omega)
  have ticks : ((ticksFor target yield : Nat) : Int) = q := by
    unfold ticksFor
    rw [← hq]
    omega
  rw [Int.add_mul, Int.one_mul] at below
  rw [ticks, Int.sub_mul, Int.one_mul]
  omega

/-- The learned yield, without the cut at 0 that the range makes needless (R62). -/
theorem learnedYield_eq {yield : Nat} (net : Int) (ticks : Nat) (hmin : 16 ≤ yield) :
    (learnedYield yield net ticks : Int) = yield + (measuredYield net ticks - yield).tdiv 8 := by
  have measured : 16 ≤ measuredYield net ticks := by
    unfold measuredYield Config.yieldMin
    omega
  unfold learnedYield
  generalize measuredYield net ticks = m at measured ⊢
  have eighth : 0 ≤ (yield : Int) + (m - yield).tdiv 8 := by
    rcases le_total (yield : Int) m with c | c
    · have := Int.tdiv_nonneg (show 0 ≤ m - yield by omega) (show (0 : Int) ≤ 8 by omega)
      omega
    · have := Int.neg_tdiv (yield - m : Int) 8
      rw [Int.tdiv_eq_ediv_of_nonneg (show 0 ≤ (yield : Int) - m by omega)] at this
      rw [show m - (yield : Int) = -(yield - m) by omega, this]
      omega
  exact Int.toNat_of_nonneg eighth

/-- Settles O33 (R36, R57, R59, R62). -/
theorem weightAndFeedArithmetic : Obligations.WeightAndFeedArithmetic := by
  refine ⟨fun x y z still band => ⟨rfl, rfl, reduceSamples_two x y still band, ?_⟩, ?_, ?_, ?_⟩
  · exact ⟨_, _, rfl, median_between x y z, decide_eq_true_iff.trans (spread_le_iff x y z band)⟩
  · exact fun u h c z b hc hz hb hs => Units.fillTarget_live hc hz hb hs
  · exact fun target yield ht hy => ticksFor_least ht hy
  · exact fun yield net ticks hmin _ _ => learnedYield_eq net ticks hmin

end Sys2Proof.Machine

namespace Sys2Proof.Machine

/-! ### Sample writes (O26) -/

/-- A word kept at an offset 1 to 3 of a group stands there, and the group's other words and its slot stay (R28). -/
theorem WriteGroup.keep_spec (g : WriteGroup) {off : Nat} (w : Word) (h1 : 1 ≤ off) (h3 : off ≤ 3) :
    (g.keep off w).slot = g.slot ∧ (g.keep off w).at off = some w ∧ ∀ o, o ≠ off → (g.keep off w).at o = g.at o := by
  obtain rfl | rfl | rfl : off = 1 ∨ off = 2 ∨ off = 3 := by omega
  all_goals
    refine ⟨rfl, rfl, fun o ho => ?_⟩
    match o with
    | 0 | 1 | 2 | 3 | _ + 4 => simp_all [WriteGroup.keep, WriteGroup.at]

/-- The stage behind a sample write: of the slot, with the word at its offset, and the words that it held of the same
slot beside it (R28). -/
theorem stageWord_spec (stage : Option WriteGroup) (slot : Nat) {off : Nat} (w : Word) (h1 : 1 ≤ off) (h3 : off ≤ 3) :
    ∃ g, stageWord stage slot off w = some g ∧ g.slot = slot ∧ g.at off = some w ∧
      ∀ o, o ≠ off → g.at o = stagedWord stage slot o := by
  have fresh : ∀ o, WriteGroup.at { slot := slot, w1 := none, w2 := none, w3 := none } o = none := fun o => by
    match o with
    | 0 | 1 | 2 | 3 | _ + 4 => rfl
  unfold stageWord stagedWord
  cases stage with
  | none =>
    obtain ⟨same, kept, others⟩ := WriteGroup.keep_spec { slot := slot, w1 := none, w2 := none, w3 := none } w h1 h3
    exact ⟨_, rfl, same, kept, fun o ho => (others o ho).trans (fresh o)⟩
  | some g =>
    simp only [Option.bind_some]
    by_cases hs : g.slot = slot
    · obtain ⟨same, kept, others⟩ := g.keep_spec w h1 h3
      rw [if_pos hs]
      exact ⟨_, rfl, same.trans hs, kept, fun o ho => (others o ho).trans (if_pos hs).symm⟩
    · obtain ⟨same, kept, others⟩ := WriteGroup.keep_spec { slot := slot, w1 := none, w2 := none, w3 := none } w h1 h3
      rw [if_neg hs]
      exact ⟨_, rfl, same, kept, fun o ho => (others o ho).trans ((fresh o).trans (if_neg hs).symm)⟩

/-- The class of a write at an offset 1 to 3 of a report slot by HL (R25, R137). -/
theorem classWrite_sample {u : Units} {a : Addr} {slot off : Nat} (w : Word)
    (hw : u.inWindow a .report (4 * slot + off)) (h1 : 1 ≤ off) (h3 : off ≤ 3) :
    classWrite u .hl a allStrobes w = .reportSample slot off := by
  have word : (4 * slot + off) % 4 = off := by omega
  have group : (4 * slot + off) / 4 = slot := by omega
  rw [classWrite_window hw]
  unfold classWindow
  simp only [ne_eq, not_true, if_false, word, group, show off ≠ 0 by omega]

/-- Settles O26 (R28). -/
theorem sampleStaged : Obligations.SampleStaged := by
  intro s a w slot off turn hw h1 h3
  obtain ⟨k, leaves⟩ := turn.write a allStrobes w
    (fun k => { (Ev.begin s.units true k).reportSampleWrite slot off w with word := some w })
    (fun k => by
      unfold Ev.write
      rw [classWrite_sample w (u := (Ev.begin s.units true k).units) hw h1 h3])
    ⟨rfl, rfl⟩ fun _ => rfl
  obtain ⟨-, -, -, released, mem, -⟩ := turn.1
  obtain ⟨g, stage, group⟩ := stageWord_spec s.units.stage slot w h1 h3
  refine ⟨_, rfl, leaves.wrote rfl mem, ⟨g, leaves.stage.trans stage, group⟩, fun q hq => ?_, ?_, leaves.held released⟩
  · exact leaves.frame q (Units.setStage_keeps _ _ q (by simpa using hq))
  · exact leaves.silent rfl fun _ => rfl

end Sys2Proof.Machine

namespace Sys2Proof.Machine

/-! ### Header writes (R29, R30) -/

/-- With everything clear no release is pending, and memory is in its canonical form. -/
theorem State.Clear.unpending {s : State} (clear : s.Clear) (side : Side) :
    (s.units.releases.get side).releasePending = false := by
  obtain ⟨⟨-, -, -, unpending, -⟩, -⟩ := clear
  exact unpending side

theorem State.Clear.mem_wf {s : State} (clear : s.Clear) : s.mem.wf = true := by
  obtain ⟨⟨-, -, -, -, mem, -⟩, -⟩ := clear
  exact mem

section
variable {s : State} {a : Addr} {w : Word} {slot : Nat}

/-- A header write with everything clear is taken: its word is in memory and the stage is empty (R29, R139). -/
theorem State.Clear.header_taken (clear : s.Clear) (hw : s.units.inWindow a .report (4 * slot)) :
    exec (.reportHeaderWrite a w) s = .next (s.access .hl (.write a allStrobes w)) ∧
      s.Wrote (s.access .hl (.write a allStrobes w)) .hl a w ∧
      (s.access .hl (.write a allStrobes w)).units.stage = none := by
  obtain ⟨k, leaves⟩ := clear.header (w := w) hw
  exact ⟨rfl, leaves.wrote rfl clear.mem_wf, leaves.stage⟩

/-- What its outcome does is all that it does, but for the stage (R30). -/
theorem State.Clear.header_makes_some (clear : s.Clear) (hw : s.units.inWindow a .report (4 * slot)) {P : Effect → Prop}
    (d : ∀ e : Ev, e.units = s.units → e.release = true →
      ∃ r, P r ∧ e.Does (e.reportOutcome slot (reportHeader w)) r) :
    ∃ r, P r ∧ s.Makes (s.access .hl (.write a allStrobes w)) (r.then fun u => (u.setStage none, [])) := by
  obtain ⟨k, leaves⟩ := clear.header (w := w) hw
  obtain ⟨r, hP, does⟩ := d (.begin s.units true k) rfl rfl
  exact ⟨r, hP, leaves.makes ((does.trans Units.setStage_blind Ev.Does.emptyStage).aside (w := some w)) rfl rfl
    clear.unpending⟩

theorem State.Clear.header_makes (clear : s.Clear) (hw : s.units.inWindow a .report (4 * slot)) {r : Effect}
    (d : ∀ e : Ev, e.units = s.units → e.Does (e.reportOutcome slot (reportHeader w)) r) :
    s.Makes (s.access .hl (.write a allStrobes w)) (r.1.setStage none, r.2) := by
  obtain ⟨_, rfl, makes⟩ := clear.header_makes_some hw (P := fun r' => r' = r) fun e he _ => ⟨r, rfl, d e he⟩
  rwa [Effect.then, List.append_nil] at makes

end

/-! ### The six checks, one by one (R30) -/

section
variable {u : Units} {slot : Nat} {r : ReportHeader}

theorem judgeReport_length (h : 3 < r.count) : judgeReport u slot r = .refused .length := if_pos h

theorem judgeReport_incomplete (h : r.count ≤ 3) (hc : ¬ u.reportComplete slot r.count) :
    judgeReport u slot r = .refused .incomplete := by
  have group : groupComplete u.stage slot r.count = false := by
    rw [← Bool.not_eq_true, groupComplete_iff]
    exact hc
  unfold judgeReport
  rw [if_neg (not_lt.2 h), group]
  rfl

/-- The first two checks passed. -/
theorem judgeReport_complete (h : r.count ≤ 3) (hc : u.reportComplete slot r.count) :
    judgeReport u slot r =
      if u.headCount ≤ r.head.val then .refused .range
      else if (u.head r.head).state = .disabled then
        (if r.hello = true ∧ (u.head r.head).present = false then .hello else .ignored)
      else (((samplesOf u.stage r.count).findIdx? fun v => !sampleOk v).map fun i => .sampleRange (i + 1)).getD
        (if (u.head r.head).lastSeq = some r.seq then .ignored else .taken) := by
  have group : groupComplete u.stage slot r.count = true := (groupComplete_iff ..).2 hc
  unfold judgeReport
  simp only [not_lt.2 h, group, Bool.not_true, Bool.false_eq_true, if_false, Bool.and_eq_true, Bool.not_eq_true']
  cases (samplesOf u.stage r.count).findIdx? fun v => !sampleOk v <;> rfl

theorem judgeReport_range (h : r.count ≤ 3) (hc : u.reportComplete slot r.count) (hh : u.headCount ≤ r.head.val) :
    judgeReport u slot r = .refused .range := by
  rw [judgeReport_complete h hc, if_pos hh]

theorem judgeReport_disabled (h : r.count ≤ 3) (hc : u.reportComplete slot r.count) (hh : r.head.val < u.headCount)
    (hs : (u.head r.head).state = .disabled) :
    judgeReport u slot r = if r.hello = true ∧ (u.head r.head).present = false then .hello else .ignored := by
  rw [judgeReport_complete h hc, if_neg (not_le.2 hh), if_pos hs]

theorem judgeReport_duplicate (h : r.count ≤ 3) (hc : u.reportComplete slot r.count) (hh : r.head.val < u.headCount)
    (hs : (u.head r.head).state ≠ .disabled) (hr : u.samplesInRange slot r.count)
    (hd : (u.head r.head).lastSeq = some r.seq) : judgeReport u slot r = .ignored := by
  have samples : (samplesOf u.stage r.count).findIdx? (fun v => !sampleOk v) = none :=
    (samplesOf_all hc sampleOk).2 fun o v h1 h2 hv => (sampleOk_iff _).2 (hr o v h1 h2 hv)
  rw [judgeReport_complete h hc, if_neg (not_le.2 hh), if_neg hs, samples, if_pos hd]
  rfl

/-- The samples of a complete report are the words staged at its sample offsets (R29). -/
theorem samplesOf_complete {n : Nat} (hc : u.reportComplete slot n) :
    samplesOf u.stage n = (List.range n).map fun i => ((stagedWord u.stage slot (i + 1)).getD 0).toInt := by
  unfold Units.reportComplete at hc
  unfold samplesOf
  cases n with
  | zero => cases u.stage <;> rfl
  | succ n =>
    cases hst : u.stage with
    | none => simpa [hst, stagedWord] using hc 1 le_rfl (by omega)
    | some g =>
      have same : g.slot = slot := by
        by_contra c
        simpa [hst, stagedWord, c] using hc 1 le_rfl (by omega)
      have staged : ∀ o, stagedWord (some g) slot o = g.at o := fun o => if_pos same
      simp only [hst, staged] at hc ⊢
      rw [← List.filterMap_eq_map]
      refine List.filterMap_congr fun i hi => ?_
      obtain ⟨v, hv⟩ := Option.isSome_iff_exists.1 (hc (i + 1) (by omega) (by have := List.mem_range.1 hi; omega))
      simp [hv]

/-- Check 5 fails at the lowest sample that is out of range (R30). -/
theorem judgeReport_sample (h : r.count ≤ 3) (hc : u.reportComplete slot r.count) (hh : r.head.val < u.headCount)
    (hs : (u.head r.head).state ≠ .disabled) {sample : Nat} {v : Word} (h1 : 1 ≤ sample) (h2 : sample ≤ r.count)
    (hv : stagedWord u.stage slot sample = some v) (out : v.toInt < -200000 ∨ 2000000 < v.toInt)
    (before : ∀ o k, 1 ≤ o → o < sample → stagedWord u.stage slot o = some k → -200000 ≤ k.toInt ∧ k.toInt ≤ 2000000) :
    judgeReport u slot r = .sampleRange sample := by
  have first : (samplesOf u.stage r.count).findIdx? (fun v => !sampleOk v) = some (sample - 1) := by
    rw [samplesOf_complete hc, List.findIdx?_eq_some_iff_getElem]
    refine ⟨by simp; omega, ?_, fun j hj => ?_⟩
    · have bad : ¬ sampleOk v.toInt = true := by rw [sampleOk_iff]; omega
      simpa [show sample - 1 + 1 = sample by omega, hv] using bad
    · obtain ⟨k, hk⟩ := Option.isSome_iff_exists.1 (hc (j + 1) (by omega) (by omega))
      have good : sampleOk k.toInt = true := (sampleOk_iff _).2 (before (j + 1) k (by omega) (by omega) hk)
      simpa [hk] using good
  rw [judgeReport_complete h hc, if_neg (not_le.2 hh), if_neg hs, first]
  simp [show sample - 1 + 1 = sample by omega]

end

/-- An event that puts nothing out puts nothing into the issue queue. -/
theorem State.Puts.noWrites {s t : State} (h : s.Puts t []) : s.NoWrites t := by
  obtain ⟨⟨⟨writes, -⟩, -⟩, held⟩ := h.2
  have same : ∀ side, s.units.flagQueued side (t.units.notices.get side) = [] := fun side => by
    rw [h.other side (by simp)]
    unfold Units.flagQueued
    rw [if_pos (.inl rfl)]
  refine ⟨?_, held⟩
  rw [writes, same, same]
  simp [Units.puts, Ev.begin]

/-- A header write that changes one head's record and empties the stage: the head, and the pieces that it leaves alone. -/
theorem State.Makes.head_stage {s t : State} {h : Fin 32} {x : Head} {l : List Act}
    (makes : s.Makes t ((s.units.setHead h x).setStage none, l)) :
    t.units.head h = x ∧ ∀ q, q ≠ .stage → q ≠ .head h →
      (∀ side, q = .notice side → ∀ a, a ∈ l → a.on side = false) → s.units.keeps t.units q :=
  ⟨(makes.head h).trans ((Units.head_setHead ..).trans (if_pos rfl)), fun q hs hh hn =>
    makes.keeps (fun _ => Ev.Moves.keeps_trans (Units.setHead_keeps _ _ _ q hh) (Units.setStage_keeps _ none q hs)) hn⟩

theorem Act.notice_on {s side : Side} (n : Notice) (h : side ≠ s) : (Act.notice s n).on side = false :=
  decide_eq_false fun c => h c.symm

/-! ### Ignored reports (O28) -/

/-- A HELLO of a DISABLED head: the present mark and its notice (R31). -/
theorem Ev.Does.hello {e : Ev} (h : Fin 32) (seq : BitVec 8) :
    e.Does ((e.modHead h fun x => { x with present := true }).headNotice (e.units.reportingHead h) (.headPresent h seq))
      (e.units.setHead h { e.units.head h with present := true },
        [.notice (e.units.reportingHead h) (.headPresent h seq)]) :=
  (Ev.Does.modHead _).trans (f := fun u => (u, [.notice (e.units.reportingHead h) (.headPresent h seq)])) (fun _ _ => rfl)
    (Ev.Does.headNotice _ _)

/-- Settles O28 (R29 to R31, R33). -/
theorem reportIgnored : Obligations.ReportIgnored := by
  intro s a w slot clear hw r x side n hello count complete known why
  obtain ⟨done, wrote, stage⟩ := clear.header_taken (w := w) hw
  refine ⟨_, done, wrote, stage, fun hh => ?_, fun hh => ?_⟩
  · obtain ⟨hs, said, absent⟩ := hh
    have makes := clear.header_makes (w := w) hw
      (r := (s.units.setHead r.head { x with present := true }, [.notice side n])) fun e he => by
        have judged : judgeReport e.units slot r = .hello := by
          rw [he, judgeReport_disabled count complete known hs, if_pos ⟨said, absent⟩]
        unfold Ev.reportOutcome
        rw [judged]
        exact (Ev.Does.hello r.head r.seq).congr (by rw [he])
    obtain ⟨record, others⟩ := makes.head_stage
    obtain ⟨-, heard, queued⟩ := makes
    refine ⟨record, heard side, fun q hq => ?_, queued⟩
    simp only [List.mem_cons, List.not_mem_nil, or_false, not_or] at hq
    obtain ⟨hstage, hhead, hn⟩ := hq
    refine others q hstage hhead fun y hy b hb => ?_
    rw [List.mem_singleton.1 hb]
    exact Act.notice_on n fun c => hn (by rw [hy, c])
  · have makes := clear.header_makes (w := w) hw (r := (s.units, [])) fun e he => by
      have judged : judgeReport e.units slot r = .ignored := by
        rw [he]
        by_cases hs : x.state = .disabled
        · rw [judgeReport_disabled count complete known hs, if_neg fun c => hh ⟨hs, c⟩]
        · obtain ⟨samples, seq⟩ := why.resolve_left hs
          exact judgeReport_duplicate count complete known hs samples seq
      unfold Ev.reportOutcome
      rw [judged, ← he]
      exact Ev.Does.refl
    refine ⟨fun q hq => makes.keeps (fun _ => Units.setStage_keeps _ none q (by simpa using hq)) ?_, makes.2.noWrites⟩
    simp

end Sys2Proof.Machine

namespace Sys2Proof.Machine

/-! ### Refused reports (O27) -/

/-- A report refused at check 1, 2 or 3 leaves a notice at side A and nothing else (R30, R35). -/
theorem State.Clear.header_refused {s : State} (clear : s.Clear) {a : Addr} {w : Word} {slot : Nat} {cause : ReportCause}
    (hw : s.units.inWindow a .report (4 * slot))
    (judged : judgeReport s.units slot (reportHeader w) = .refused cause) :
    let r := reportHeader w
    s.Makes (s.access .hl (.write a allStrobes w))
      (s.units.setStage none, [.notice .a (.reportRefused cause slot r.head r.seq r.count 0)]) := by
  refine clear.header_makes hw (r := (s.units, _)) fun e he => ?_
  unfold Ev.reportOutcome
  rw [he, judged, ← he]
  exact Ev.Does.headNotice _ _

theorem Units.countOutReleasing_blind (h : Fin 32) (c : HealthCause) (side : Side) (z : Zone) (o : OrderRec)
    (kept : Fin 32 → Bool) : Blind fun u => (u.count h 256 c).then fun v => v.outReleasing h side z o kept :=
  Effect.then_blind (Units.count_blind h 256 c) (Units.outReleasing_blind h side z o kept)

/-- The effect of a refusal at check 5: the notice, then what the counter's raise does, and drain complete where it is due
(R32, R35; log entry 13). -/
def Units.sampleRefused (u : Units) (slot sample : Nat) (r : ReportHeader) (f : Units → Effect) : Effect :=
  ((Effect.then (u, [.notice .a (.reportRefused .range slot r.head r.seq r.count sample)]) f).then
    Units.drainEnd).then fun u => (u.setStage none, [])

/-- The same where drain complete does not follow. -/
theorem Units.sampleRefused_idle (u : Units) (slot sample : Nat) (r : ReportHeader) {f : Units → Effect} {e : Effect}
    (hf : f u = e) (hd : e.1.part ≠ .draining) : u.sampleRefused slot sample r f =
      (e.1.setStage none, .notice .a (.reportRefused .range slot r.head r.seq r.count sample) :: e.2) := by
  unfold Units.sampleRefused
  have noticed : ∀ n : Act, Effect.then (u, [n]) f = (e.1, n :: e.2) := fun n => by rw [← hf]; rfl
  rw [noticed]
  unfold Effect.then
  simp only [Units.drainEnd_idle _ (.inl hd), List.append_nil]

/-- A report refused at check 5, the raise of the counter given (R32). -/
theorem State.Clear.header_sample {s : State} (clear : s.Clear) {a : Addr} {w : Word} {slot sample : Nat}
    (hw : s.units.inWindow a .report (4 * slot))
    (judged : judgeReport s.units slot (reportHeader w) = .sampleRange sample) {P : (Units → Effect) → Prop}
    (raises : ∀ e : Ev, e.release = true → (∃ n, e.units = s.units.withNotices n) →
      ∃ f, P f ∧ Blind f ∧ e.Does (e.raiseHealth (reportHeader w).head 8 .range true) (f e.units)) :
    ∃ f, P f ∧ s.Makes (s.access .hl (.write a allStrobes w))
      (s.units.sampleRefused slot sample (reportHeader w) f) := by
  obtain ⟨_, ⟨f, hP, rfl⟩, makes⟩ := clear.header_makes_some hw
    (P := fun e => ∃ f, P f ∧ e = (Effect.then (s.units,
      [.notice .a (.reportRefused .range slot (reportHeader w).head (reportHeader w).seq (reportHeader w).count sample)])
      f).then Units.drainEnd) fun e he hy => by
    unfold Ev.reportOutcome
    rw [he, judged, ← he]
    have noticed : e.Does (e.reportRefused slot (reportHeader w) .range sample) (e.units, [_]) := Ev.Does.headNotice _ _
    obtain ⟨f, hP, blind, does⟩ := raises _ (noticed.release.trans hy) ⟨_, noticed.units.trans (by rw [he])⟩
    exact ⟨_, ⟨f, hP, rfl⟩, (noticed.trans blind does).trans Units.drainEnd_blind Ev.Does.drainTest⟩
  exact ⟨f, hP, makes⟩

/-- Settles O27 (R29, R30, R32, R35, R45). -/
theorem reportRefused : Obligations.ReportRefused := by
  constructor
  · intro s a w slot cause clear hw r n why
    have judged : judgeReport s.units slot r = .refused cause := by
      rcases why with ⟨rfl, long⟩ | ⟨rfl, count, incomplete⟩ | ⟨rfl, count, complete, unknown⟩
      · exact judgeReport_length long
      · exact judgeReport_incomplete count incomplete
      · exact judgeReport_range count complete unknown
    obtain ⟨done, wrote, stage⟩ := clear.header_taken (w := w) hw
    have makes := clear.header_refused hw judged
    have ⟨_, heard, queued⟩ := makes
    refine ⟨_, done, wrote, stage, heard .a, fun q hq => ?_, queued⟩
    simp only [List.mem_cons, List.not_mem_nil, or_false, not_or] at hq
    refine makes.keeps (fun _ => Units.setStage_keeps _ none q hq.1) fun y hy b hb => ?_
    rw [List.mem_singleton.1 hb]
    exact Act.notice_on n fun c => hq.2 (by rw [hy, c])
  · intro s a w slot sample v clear hw r h x count complete known enabled h1 h2 hv out before refused
    have judged : judgeReport s.units slot r = .sampleRange sample :=
      judgeReport_sample count complete known enabled h1 h2 hv out before
    obtain ⟨done, wrote, stage⟩ := clear.header_taken (w := w) hw
    have plain : (256 ≤ x.health + 8 → ∀ side, x.state = .discharging (.bag side) →
        s.units.unreleased side h .unconfirmed) → s.Makes (s.access .hl (.write a allStrobes w))
          (refused fun u => u.raise h 8 .range) := fun hr => by
      obtain ⟨_, rfl, makes⟩ := clear.header_sample hw judged (P := fun f => f = fun u => u.raise h 8 .range)
        fun e _ ⟨n, he⟩ => ⟨_, rfl, Units.raise_blind h 8 .range,
          Ev.Does.raiseHealth h 8 .range true (by simp) fun top side hs => by rw [he] at top hs ⊢; exact hr top side hs⟩
      exact makes
    refine ⟨_, done, wrote, stage, fun idle inside low => ?_, plain, fun side z o hs top follows => ?_⟩
    · have makes := plain fun top => absurd low (by omega)
      have raised : s.units.raise h 8 .range = s.units.count h (x.health + 8) .range :=
        Units.raise_below s.units h 8 .range inside enabled (show x.health + 8 < 256 by omega) (.inr (.inr (.inl low)))
      have effect : refused (fun u => u.raise h 8 .range) =
          ((s.units.setHead h { x with health := x.health + 8 }).setStage none,
            .notice .a (.reportRefused .range slot h r.seq r.count sample) :: s.units.levelActs h (x.health + 8) .range) :=
        Units.sampleRefused_idle s.units slot sample r (f := fun u => u.raise h 8 .range)
          (e := s.units.count h (x.health + 8) .range) raised idle
      rw [effect] at makes
      obtain ⟨record, others⟩ := makes.head_stage
      refine ⟨record, fun q hq => ?_⟩
      simp only [List.mem_cons, List.not_mem_nil, or_false, not_or] at hq
      obtain ⟨hstage, hhead, hn, hr⟩ := hq
      refine others q hstage hhead fun y hy b hb => ?_
      rcases List.mem_cons.1 hb with rfl | hb
      · exact Act.notice_on _ fun c => hn (by rw [hy, c])
      · exact Units.levelActs_on s.units h _ _ y (fun c => hr (by rw [hy, c])) b hb
    · obtain ⟨_, ⟨kept, rfl⟩, makes⟩ := clear.header_sample hw judged
        (P := fun f => ∃ kept, f = fun u => (u.count h 256 .range).then fun v => v.outReleasing h side z o kept)
        fun e hy ⟨n, he⟩ => by
          obtain ⟨kept, does⟩ := Ev.Does.raiseHealth_release (e := e) h 8 .range true side z o (by rw [he]; exact top)
            (by rw [he]; exact hs) (by rw [he]; exact follows) (by rw [he]; exact clear.unpending side) hy
          exact ⟨_, ⟨kept, rfl⟩, Units.countOutReleasing_blind h .range side z o kept, does⟩
      exact ⟨kept, makes⟩

end Sys2Proof.Machine

namespace Sys2Proof.Machine

/-! ### Taken reports, flag by flag (O23, O30) -/

/-- BOARD-FAULT as a report has it where no release follows: the counter raised by 32 (R37). -/
def Units.boardFault (u : Units) (r : ReportHeader) : Effect :=
  if r.boardFault = true then u.raise r.head 32 .boardFault else (u, [])

/-- A report's BOARD-FAULT takes its head OUT (R44, R45). -/
def ReportHeader.takesOut (r : ReportHeader) (x : Head) : Prop := r.boardFault = true ∧ 256 ≤ x.health + 32

/-- The head's record as a report's flags find it (R34). -/
def Head.sequenced (x : Head) (r : ReportHeader) : Head := { x with lastSeq := some r.seq }

/-- A report's GATE-CLOSED confirms a discharge: with the gate sequence as the echo, and no entry to OUT before it (R34,
R38). -/
def ReportHeader.confirms (r : ReportHeader) (x : Head) : Prop :=
  r.gateClosed = true ∧ x.gateSeq = r.echo ∧ ¬ r.takesOut x

/-- The parts of a report where no release follows a mark (R34). -/
def Units.reportedPlain (u : Units) (r : ReportHeader) (weight : Option Int) : Effect :=
  u.reported r weight (fun v => v.raise r.head 32 .boardFault) fun v => v.confirm r.head

/-- BOARD-FAULT at a head that discharges to a side, and that does not go OUT, changes its counter only (R37, R45). -/
theorem Units.boardFault_bag {u : Units} {r : ReportHeader} {side : Side}
    (hs : (u.head r.head).state = .discharging (.bag side)) (hb : ¬ r.takesOut (u.head r.head)) :
    ∃ n, (u.boardFault r).1 = u.setHead r.head { u.head r.head with health := n } := by
  unfold Units.boardFault
  by_cases fault : r.boardFault = true
  · have below : (u.head r.head).health + 32 < 256 := by
      by_contra c
      exact hb ⟨fault, by omega⟩
    rw [if_pos fault, Units.raise_below u r.head 32 .boardFault (by rw [hs]; simp) (by rw [hs]; simp) below
      (.inl (by rw [hs]; simp [CycleState.name]))]
    exact ⟨_, rfl⟩
  · rw [if_neg fault]
    exact ⟨(u.head r.head).health, (Units.setHead_head_self u r.head).symm⟩

/-- A head that discharges to a side behind BOARD-FAULT did so before it, and has not gone OUT. -/
theorem Units.boardFault_was_bag {u : Units} {r : ReportHeader} {side : Side}
    (hs : ((u.boardFault r).1.head r.head).state = .discharging (.bag side)) :
    (u.head r.head).state = .discharging (.bag side) ∧ ¬ r.takesOut (u.head r.head) := by
  unfold Units.boardFault at hs
  by_cases fault : r.boardFault = true
  · rw [if_pos fault] at hs
    obtain ⟨was, below, -⟩ := Units.raise_bag hs
    exact ⟨was, fun out => absurd out.2 (by omega)⟩
  · rw [if_neg fault] at hs
    exact ⟨hs, fun out => fault out.1⟩

/-- The part of a report that comes before GATE-CLOSED (R34). -/
def Ev.faultPart (e : Ev) (r : ReportHeader) : Ev :=
  if r.boardFault then e.raiseHealth r.head 32 .boardFault true else e

/-- BOARD-FAULT where no release follows. -/
theorem Ev.Does.faultPart {e : Ev} (r : ReportHeader)
    (hr : r.takesOut (e.units.head r.head) → ∀ side, (e.units.head r.head).state = .discharging (.bag side) →
      e.units.unreleased side r.head .unconfirmed) : e.Does (e.faultPart r) (e.units.boardFault r) := by
  unfold Ev.faultPart Units.boardFault
  split
  · exact Ev.Does.raiseHealth r.head 32 .boardFault true (by simp) fun top => hr ⟨by assumption, top⟩
  · exact Ev.Does.refl

section
variable {s : State} {a : Addr} {w : Word} {slot : Nat} {r : ReportHeader}

/-- A report that passes its checks has the effect of its parts, those of BOARD-FAULT and of a confirmation given
(R34). -/
theorem State.Clear.report_takes (clear : s.Clear) (hw : s.units.inWindow a .report (4 * slot)) (hr : reportHeader w = r)
    (passes : s.units.reportPasses slot r) {P : (Units → Effect) → (Units → Effect) → Prop}
    (d : ∀ e : Ev, e.release = true →
      e.units = s.units.setHead r.head ((s.units.head r.head).sequenced r) →
      ∃ fault confirm, P fault confirm ∧ Blind fault ∧ Blind confirm ∧
        (r.boardFault = true → e.Does (e.raiseHealth r.head 32 .boardFault true) (fault e.units)) ∧
        (r.gateClosed = true → ((e.faultPart r).units.head r.head).gateSeq = r.echo →
          (e.faultPart r).Does ((e.faultPart r).gateClosed r.head r.echo) (confirm (e.faultPart r).units))) :
    ∃ fault confirm, P fault confirm ∧ s.Makes (s.access .hl (.write a allStrobes w))
      (s.units.taken r fun v => v.reported r (s.units.stableWeight r) fault confirm) := by
  subst hr
  obtain ⟨t, _, ⟨fault, confirm, hP, rfl⟩, done, -, -, makes⟩ := clear.report_makes_some hw passes
    (P := fun f => ∃ fault confirm, P fault confirm ∧
      f = fun v => v.reported (reportHeader w) (s.units.stableWeight (reportHeader w)) fault confirm)
    fun e hy he => by
      obtain ⟨fault, confirm, hP, hf, hc, df, dc⟩ := d e hy he
      exact ⟨_, Units.reported_blind _ _ hf hc, ⟨fault, confirm, hP, rfl⟩,
        Ev.Does.reportParts _ _ hc df fun gate f hfe echo => by
          rw [hfe] at echo ⊢
          exact dc gate echo⟩
  obtain rfl : s.access .hl (.write a allStrobes w) = t := Host.Outcome.next.inj done
  exact ⟨fault, confirm, hP, makes⟩

end

/-- What stands behind BOARD-FAULT at a head that discharges to a side and does not go OUT: a counter, and notices. -/
theorem Ev.faultPart_bag {e : Ev} {r : ReportHeader} {side : Side}
    (hs : (e.units.head r.head).state = .discharging (.bag side)) (hb : ¬ r.takesOut (e.units.head r.head)) :
    (e.faultPart r).release = e.release ∧ ∃ n m, (e.faultPart r).units =
      (e.units.setHead r.head { e.units.head r.head with health := n }).withNotices m := by
  have does := Ev.Does.faultPart (e := e) r fun c => absurd c hb
  obtain ⟨n, hn⟩ := Units.boardFault_bag hs hb
  exact ⟨does.release, n, _, does.units.trans (by rw [hn])⟩

section
variable {s : State} {a : Addr} {w : Word} {slot : Nat} {r : ReportHeader}

/-- A taken report where no release follows a mark (R34). -/
theorem State.Clear.report_plain (clear : s.Clear) (hw : s.units.inWindow a .report (4 * slot)) (hr : reportHeader w = r)
    (passes : s.units.reportPasses slot r)
    (quiet : let x := s.units.head r.head
      ∀ side, x.state = .discharging (.bag side) → (r.takesOut x → s.units.unreleased side r.head .unconfirmed) ∧
        (r.confirms x → s.units.unreleased side r.head .confirmed)) :
    s.Makes (s.access .hl (.write a allStrobes w))
      (s.units.taken r fun v => v.reportedPlain r (s.units.stableWeight r)) := by
  obtain ⟨_, _, ⟨rfl, rfl⟩, makes⟩ := clear.report_takes hw hr passes
    (P := fun fault confirm => (fault = fun v => v.raise r.head 32 .boardFault) ∧ confirm = fun v => v.confirm r.head)
    fun e _ he => by
      have hx : e.units.head r.head = (s.units.head r.head).sequenced r := by
        rw [he, Units.head_setHead, if_pos rfl]
      have out : r.takesOut (e.units.head r.head) → ∀ side, (e.units.head r.head).state = .discharging (.bag side) →
          e.units.unreleased side r.head .unconfirmed := fun top side hs => by
        rw [hx] at top hs
        rw [he]
        exact (quiet side hs).1 top
      refine ⟨_, _, ⟨rfl, rfl⟩, Units.raise_blind r.head 32 .boardFault, Units.confirm_blind _, fun fault => ?_, fun gate echo => ?_⟩
      · exact Ev.Does.raiseHealth r.head 32 .boardFault true (by simp) fun top => out ⟨fault, top⟩
      · refine Ev.Does.gateClosed r.head r.echo echo fun side hs => ?_
        have behind : (e.faultPart r).units.head r.head = (e.units.boardFault r).1.head r.head := by
          rw [(Ev.Does.faultPart r out).units, Units.withNotices_head]
        obtain ⟨was, inside⟩ := Units.boardFault_was_bag (behind ▸ hs)
        obtain ⟨-, n, m, units⟩ := Ev.faultPart_bag was inside
        rw [units, Units.withNotices_head, Units.head_setHead, if_pos rfl] at echo
        rw [hx] at was inside echo
        rw [units, he]
        exact (quiet side was).2 ⟨gate, echo, inside⟩
  exact makes

/-- A taken report that takes a bag's head OUT, the release following (R34, R128; log entry 12). -/
theorem State.Clear.report_outReleasing (clear : s.Clear) (hw : s.units.inWindow a .report (4 * slot))
    (hr : reportHeader w = r) (passes : s.units.reportPasses slot r) {side : Side} {z : Zone} {o : OrderRec}
    (hs : (s.units.head r.head).state = .discharging (.bag side)) (out : r.takesOut (s.units.head r.head))
    (follows : s.units.releaseFollows side r.head .unconfirmed z o) (unlisted : r.gateClosed = true → r.head ∉ o.heads) :
    ∃ kept, s.Makes (s.access .hl (.write a allStrobes w)) (s.units.taken r fun v =>
      v.reported r (s.units.stableWeight r)
        (fun u => (u.count r.head 256 .boardFault).then fun u => u.outReleasing r.head side z o kept)
        fun v => v.confirm r.head) := by
  obtain ⟨_, _, ⟨kept, rfl, rfl⟩, makes⟩ := clear.report_takes hw hr passes
    (P := fun fault confirm => ∃ kept,
      (fault = fun u => (u.count r.head 256 .boardFault).then fun u => u.outReleasing r.head side z o kept) ∧
        confirm = fun v => v.confirm r.head)
    fun e hy he => by
      have hx : e.units.head r.head = (s.units.head r.head).sequenced r := by
        rw [he, Units.head_setHead, if_pos rfl]
      obtain ⟨kept, does⟩ := Ev.Does.raiseHealth_release (e := e) r.head 32 .boardFault true side z o
        (by rw [hx]; exact out.2) (by rw [hx]; exact hs) (by rw [he]; exact follows)
        (by rw [he]; exact clear.unpending side) hy
      refine ⟨_, _, ⟨kept, rfl, rfl⟩, Units.countOutReleasing_blind r.head .boardFault side z o kept, Units.confirm_blind _, fun _ => does,
        fun gate echo => ?_⟩
      have part : e.faultPart r = e.raiseHealth r.head 32 .boardFault true := if_pos out.1
      refine Ev.Does.gateClosed r.head r.echo echo fun side' hs' => ?_
      rw [part, does.units, Units.withNotices_head, Effect.then_fst, Units.outReleasing_head _ _ _ _ _ _ (unlisted gate)]
        at hs'
      cases hs'
  exact ⟨kept, makes⟩

/-- A taken report whose confirmation completes a bag's dump, the release following (R34, R128; log entry 14). -/
theorem State.Clear.report_confirmReleasing (clear : s.Clear) (hw : s.units.inWindow a .report (4 * slot))
    (hr : reportHeader w = r) (passes : s.units.reportPasses slot r) {side : Side} {z : Zone} {o : OrderRec}
    (hs : (s.units.head r.head).state = .discharging (.bag side)) (confirms : r.confirms (s.units.head r.head))
    (follows : s.units.releaseFollows side r.head .confirmed z o) :
    ∃ kept, s.Makes (s.access .hl (.write a allStrobes w)) (s.units.taken r fun v =>
      v.reported r (s.units.stableWeight r) (fun v => v.raise r.head 32 .boardFault)
        fun u => (u.confirm r.head).then fun u => u.release side z o kept) := by
  obtain ⟨gate, echo, inside⟩ := confirms
  obtain ⟨_, _, ⟨kept, rfl, rfl⟩, makes⟩ := clear.report_takes hw hr passes
    (P := fun fault confirm => ∃ kept, (fault = fun v => v.raise r.head 32 .boardFault) ∧
      confirm = fun u => (u.confirm r.head).then fun u => u.release side z o kept)
    fun e hy he => by
      have hx : e.units.head r.head = (s.units.head r.head).sequenced r := by
        rw [he, Units.head_setHead, if_pos rfl]
      have hs' : (e.units.head r.head).state = .discharging (.bag side) := by rw [hx]; exact hs
      have inside' : ¬ r.takesOut (e.units.head r.head) := by rw [hx]; exact inside
      obtain ⟨release, n, m, units⟩ := Ev.faultPart_bag hs' inside'
      have behind : (e.faultPart r).units.head r.head = { e.units.head r.head with health := n } := by
        rw [units, Units.withNotices_head, Units.head_setHead, if_pos rfl]
      obtain ⟨kept, does⟩ := Ev.Does.gateClosed_release (e := e.faultPart r) r.head r.echo side z o
        (by rw [behind]; exact hs') (by rw [behind, hx]; exact echo) (by rw [units, he]; exact follows)
        (by rw [units, he]; exact clear.unpending side) (release.trans hy)
      refine ⟨_, _, ⟨kept, rfl, rfl⟩, Units.raise_blind r.head 32 .boardFault, ?_, fun fault => ?_, fun _ _ => does⟩
      · exact Effect.then_blind (Units.confirm_blind _) (Units.release_blind side z o kept)
      · exact Ev.Does.raiseHealth r.head 32 .boardFault true (by simp) fun top => absurd ⟨fault, top⟩ inside'
  exact ⟨kept, makes⟩

end

end Sys2Proof.Machine

namespace Sys2Proof.Machine

/-! ### The parts of a report that ask for nothing (R24, R34, R38) -/

section
variable {u : Units} {r : ReportHeader}

/-- A report without a stable weight. -/
theorem Units.stableWeight_none (h : ∀ weight, u.reportWeight r ≠ some (weight, true)) : u.stableWeight r = none := by
  unfold Units.stableWeight
  rcases hw : u.reportWeight r with _ | ⟨weight, _ | _⟩
  · rfl
  · rfl
  · exact absurd hw (h weight)

/-- BOARD-FAULT alone (R37). -/
theorem Units.reported_fault {fault confirm : Units → Effect} (hb : r.boardFault = true) (hp : r.poolDrop = false)
    (hg : r.gateClosed = false) : u.reported r none fault confirm = fault u := by
  have gate : ∀ v : Units, v.confirmed r confirm = (v, []) := fun v => if_neg (by simp [hg])
  have drop : ∀ v : Units, v.dropped r = (v, []) := fun v => if_neg (by simp [hp])
  unfold Units.reported Units.faulted Units.weighAny Effect.then
  simp only [hb, if_true, gate, drop, List.append_nil]

/-- GATE-CLOSED without the gate sequence as its echo, or at a head that does not discharge (R38). -/
theorem Units.confirmed_idle
    (h : r.gateClosed = true → (u.head r.head).gateSeq = r.echo → (u.head r.head).state.name ≠ .discharging) :
    u.confirmed r (fun v => v.confirm r.head) = (u, []) := by
  unfold Units.confirmed
  split
  next hc => exact Units.confirm_idle u r.head (h hc.1 hc.2)
  · rfl

/-- A stable weight of a DISCHARGING or OUT head, or inside the disturbance band of a READY or CLAIMED one (R24, R40). -/
theorem Units.useWeight_idle {h : Fin 32} {m : Int} (seq : BitVec 8) (dropped : Bool)
    (hs : (u.head h).state.name = .discharging ∨ (u.head h).state = .out ∨
      (((u.head h).state.name = .ready ∨ (u.head h).state.name = .claimed) ∧ ∀ f, (u.head h).frozen = some f →
        m - (u.head h).zero - f ≤ (u.params h).disturbBand ∧ f - (m - (u.head h).zero) ≤ (u.params h).disturbBand)) :
    u.useWeight h m seq dropped = (u, []) := by
  unfold Units.useWeight
  simp only
  cases hx : (u.head h).state with
  | discharging | out | disabled => rfl
  | ready | claimed =>
    cases hf : (u.head h).frozen with
    | none => rfl
    | some f =>
      obtain ⟨below, above⟩ : m - (u.head h).zero - f ≤ (u.params h).disturbBand ∧
          f - (m - (u.head h).zero) ≤ (u.params h).disturbBand := by simpa [hx, hf, CycleState.name] using hs
      exact if_neg (by omega)
  | empty | settling | stopped => simp [hx, CycleState.name] at hs

/-- Such a weight is kept as the last stable one (R5). -/
theorem Units.weighAny_idle {weight : Option Int}
    (hw : ∀ m, weight = some m → (u.weighed r.head m).useWeight r.head m r.seq r.poolDrop = (u.weighed r.head m, [])) :
    u.weighAny r weight =
      (u.setHead r.head { u.head r.head with lastStable := weight.or (u.head r.head).lastStable }, []) := by
  cases weight with
  | none => exact Prod.ext (Units.setHead_head_self u r.head).symm rfl
  | some m => exact hw m rfl

end

/-- A head's record as a quiet report leaves it, but for the SILENCE timer (R5, R34). -/
def Head.quietly (x : Head) (r : ReportHeader) (weight : Option Int) : Head :=
  { x with lastSeq := some r.seq, lastStable := weight.or x.lastStable }

/-- A report whose flags and weight ask for nothing. -/
theorem Units.reported_quiet (u : Units) (r : ReportHeader) (weight : Option Int) (hb : r.boardFault = false)
    (hp : r.poolDrop = false)
    (hg : r.gateClosed = true → (u.head r.head).gateSeq = r.echo → (u.head r.head).state.name ≠ .discharging)
    (hw : let x := u.head r.head
      let b := u.params r.head
      ∀ m, weight = some m → x.state.name = .discharging ∨ x.state = .out ∨
        ((x.state.name = .ready ∨ x.state.name = .claimed) ∧ ∀ f, x.frozen = some f →
          m - x.zero - f ≤ b.disturbBand ∧ f - (m - x.zero) ≤ b.disturbBand)) :
    (u.setHead r.head ((u.head r.head).sequenced r)).reportedPlain r weight =
      (u.setHead r.head ((u.head r.head).quietly r weight), []) := by
  have hx : (u.setHead r.head ((u.head r.head).sequenced r)).head r.head = (u.head r.head).sequenced r := by
    rw [Units.head_setHead, if_pos rfl]
  have drop : ∀ v : Units, v.dropped r = (v, []) := fun v => if_neg (by simp [hp])
  unfold Units.reportedPlain
  rw [Units.reported_unfaulted _ _ _ _ _ hb, Units.confirmed_idle (by rw [hx]; exact hg), Effect.then_nil, drop,
    Effect.then_nil, Units.weighAny_idle fun m hm => ?_]
  · rw [hx, Units.setHead_twice]
    rfl
  · refine Units.useWeight_idle r.seq r.poolDrop ?_
    unfold Units.weighed
    rw [Units.head_setHead, if_pos rfl, hx]
    exact hw m hm

/-- A taken report that leaves its head's record changed, and with it the SILENCE timer (R34): the drain condition has not
become true. -/
theorem State.Makes.taken_record {s t : State} {r : ReportHeader} {f : Units → Effect} {x : Head} {l : List Act}
    (makes : s.Makes t (s.units.taken r f))
    (hf : f (s.units.setHead r.head ((s.units.head r.head).sequenced r)) = (s.units.setHead r.head x, l))
    (hd : (s.units.setHead r.head x).part ≠ .draining ∨ ((s.units.setHead r.head x).heardFrom r.head).drained = false) :
    t.units.head r.head = { x with
        timer := if s.units.active = true ∧
            (x.state.name = .empty ∨ x.state.name = .ready ∨ x.state.name = .claimed) then
          .running .silence (s.units.params r.head).silenceLimit else x.timer } ∧
      (∀ q, q ≠ .stage → q ≠ .head r.head → (∀ side, q = .notice side → ∀ a, a ∈ l → a.on side = false) →
        s.units.keeps t.units q) ∧ s.Puts t l := by
  rw [Units.taken_of s.units r hf hd] at makes
  refine ⟨(makes.head r.head).trans ?_, fun q hs hh hn => ?_, makes.2⟩
  · refine (Units.heardFrom_head _ _).trans ?_
    rw [Units.head_setHead, if_pos rfl]
    rfl
  · exact makes.heard_keeps hs hh (fun _ => Units.setHead_keeps _ _ _ q hh) hn

/-- A change of a head's record that keeps its cycle state does not make the drain condition true (R156). -/
theorem Units.heardFrom_same_state {u : Units} {h : Fin 32} {x : Head} (undrained : u.undrained)
    (hs : x.state = (u.head h).state) :
    (u.setHead h x).part ≠ .draining ∨ ((u.setHead h x).heardFrom h).drained = false := by
  by_cases hd : (u.head h).state.name = .discharging
  · exact .inr (Units.heardFrom_discharging (by rw [Units.head_setHead, if_pos rfl, hs]; exact hd)).2
  · exact Units.heardFrom_undrained undrained hd

end Sys2Proof.Machine

namespace Sys2Proof.Machine

/-! ### What a raise leaves of its head (R16, R44, R45) -/

section
variable {u : Units} {h : Fin 32} {k : Nat} {c : HealthCause}

theorem Units.raise_part : (u.raise h k c).1.part = u.part := by
  unfold Units.raise
  simp only
  split
  · rfl
  · split
    · exact (Units.goOut_keeps (u.count h _ c).1 h .part (by simp) (by simp) (by simp)).1
    · split
      · exact Units.expel_part (u.count h _ c).1 h .barred .barred
      · rfl

variable (h0 : (u.head h).state ≠ .out) (h1 : (u.head h).state ≠ .disabled)
include h0 h1

theorem Units.raise_head_top (hk : 256 ≤ (u.head h).health + k) : (u.raise h k c).1.head h = (u.head h).outed := by
  rw [Units.raise_top u h k c h0 h1 hk, Effect.then_fst, Units.goOut_head, Units.count_head]
  rfl

theorem Units.raise_head_barred (hk : (u.head h).health + k < 256) (hc : c ≠ .disturbed)
    (hs : (u.head h).state.name = .ready ∨ (u.head h).state.name = .claimed) (hlow : (u.head h).health < 128)
    (hhigh : 128 ≤ (u.head h).health + k) :
    (u.raise h k c).1.head h =
      ({ u.head h with health := (u.head h).health + k } : Head).purged .barred (u.params h).gateLimit := by
  have sum : min 256 ((u.head h).health + k) = (u.head h).health + k := by omega
  rw [Units.raise_barred u h k c (by tauto) (by omega) ⟨hlow, by omega, hc⟩, sum, Effect.then_fst,
    Units.expel_head _ h _ _ (by rw [Units.count_head]; exact hs), Units.count_head]
  rfl

theorem Units.raise_head_below (hk : (u.head h).health + k < 256)
    (hs : ¬ (((u.head h).state.name = .ready ∨ (u.head h).state.name = .claimed) ∧ (u.head h).health < 128 ∧
      128 ≤ (u.head h).health + k)) :
    (u.raise h k c).1 = u.setHead h { u.head h with health := (u.head h).health + k } := by
  rw [Units.raise_below u h k c h0 h1 hk]
  · rfl
  · by_contra n
    exact hs ⟨by tauto, by omega, by omega⟩

end

/-- The head of a taken report while the part is not DRAINING (R34). -/
theorem State.Makes.taken_head {s t : State} {r : ReportHeader} {f : Units → Effect} {e : Effect}
    (makes : s.Makes t (s.units.taken r f)) (hf : f (s.units.setHead r.head ((s.units.head r.head).sequenced r)) = e)
    (hp : e.1.part = s.units.part) (hd : s.units.part ≠ .draining) :
    t.units.head r.head = { e.1.head r.head with
      timer := if e.1.active = true ∧ ((e.1.head r.head).state.name = .empty ∨ (e.1.head r.head).state.name = .ready ∨
          (e.1.head r.head).state.name = .claimed) then
        .running .silence (e.1.params r.head).silenceLimit else (e.1.head r.head).timer } :=
  (makes.head r.head).trans ((Units.taken_head s.units r hf hp fun c => absurd c hd).trans (Units.heardFrom_head ..))

/-- A head that neither is EMPTY nor READY nor CLAIMED behind its report has no SILENCE timer to restart (R34). -/
theorem State.Makes.taken_unwatched {s t : State} {r : ReportHeader} {f : Units → Effect} {e : Effect} {x : Head}
    (makes : s.Makes t (s.units.taken r f)) (hf : f (s.units.setHead r.head ((s.units.head r.head).sequenced r)) = e)
    (hp : e.1.part = s.units.part) (hd : s.units.part ≠ .draining) (hx : e.1.head r.head = x)
    (hs : x.state.name ≠ .empty ∧ x.state.name ≠ .ready ∧ x.state.name ≠ .claimed) : t.units.head r.head = x := by
  rw [makes.taken_head hf hp hd, hx, if_neg (by tauto)]

theorem Units.reportPasses.enabled {u : Units} {slot : Nat} {r : ReportHeader} (passes : u.reportPasses slot r) :
    (u.head r.head).state ≠ .disabled := by
  obtain ⟨-, -, -, enabled, -⟩ := passes
  exact enabled

/-- Settles O23 (R16, R37, R45). -/
theorem reportBoardFault : Obligations.ReportBoardFault := by
  intro s a w slot clear hw r h x b y z passes hb hp hg unstable unreleased
  obtain ⟨done, wrote, stage⟩ := clear.header_taken (w := w) hw
  have alone : ∀ (v : Units) (fault confirm : Units → Effect),
      v.reported r (s.units.stableWeight r) fault confirm = fault v := fun v fault confirm => by
    rw [Units.stableWeight_none unstable]
    exact Units.reported_fault hb hp hg
  have plain : unreleased → s.Makes (s.access .hl (.write a allStrobes w))
      (s.units.taken r fun v => v.raise h 32 .boardFault) := fun hr => by
    have makes := clear.report_plain (r := r) hw rfl passes fun side hs =>
      ⟨fun out => hr out.2 side hs, fun confirms => by rw [confirms.1] at hg; cases hg⟩
    simpa only [Units.reportedPlain, alone] using makes
  refine ⟨_, done, wrote, stage, fun idle hr => ?_, plain, fun side zone o hs top follows => ?_⟩
  · have makes := plain hr
    obtain ⟨v, hv⟩ : ∃ v, v = s.units.setHead h y := ⟨_, rfl⟩
    have hy : v.head h = y := by rw [hv, Units.head_setHead, if_pos rfl]
    have enabled : (v.head h).state ≠ .disabled := by rw [hy]; exact passes.enabled
    have part : (v.raise h 32 .boardFault).1.part = s.units.part := Units.raise_part.trans (by rw [hv]; rfl)
    have effect : (s.units.setHead h y).raise h 32 .boardFault = v.raise h 32 .boardFault := by rw [hv]
    refine ⟨fun out => ?_, fun inside top => ?_, fun inside below => ?_⟩
    · refine makes.taken_unwatched effect part idle ?_ ?_
      · rw [Units.raise_none v h 32 _ (.inl (by rw [hy]; exact out)), hy]
      · show x.state.name ≠ _ ∧ x.state.name ≠ _ ∧ x.state.name ≠ _
        rw [out]
        simp [CycleState.name]
    · refine makes.taken_unwatched effect part idle ?_ (by simp [Head.outed, CycleState.name])
      rw [Units.raise_head_top (by rw [hy]; exact inside) enabled (by rw [hy]; exact top), hy]
    · by_cases bars : (x.state.name = .ready ∨ x.state.name = .claimed) ∧ x.health < 128 ∧ 128 ≤ x.health + 32
      · rw [if_pos bars]
        obtain ⟨hs, low, high⟩ := bars
        refine makes.taken_unwatched effect part idle ?_ (by simp [Head.purged, CycleState.name])
        rw [Units.raise_head_barred (by rw [hy]; exact inside) enabled (by rw [hy]; exact below) (by simp)
          (by rw [hy]; exact hs) (by rw [hy]; exact low) (by rw [hy]; exact high), hy, hv]
        rfl
      · rw [if_neg bars]
        have raised := Units.raise_head_below (u := v) (k := 32) (c := .boardFault) (by rw [hy]; exact inside) enabled
          (by rw [hy]; exact below) (by rw [hy]; exact bars)
        rw [makes.taken_head effect part idle, raised, Units.head_setHead, if_pos rfl, hy, hv]
        rfl
  · obtain ⟨kept, makes⟩ := clear.report_outReleasing (r := r) hw rfl passes hs ⟨hb, top⟩ follows fun gate => by
      rw [gate] at hg; cases hg
    exact ⟨kept, by simpa only [alone] using makes⟩

end Sys2Proof.Machine

namespace Sys2Proof.Machine

/-! ### POOL-DROP of a head that is EMPTY (R14) -/

/-- A head whose pool feed has dropped into its bucket (R14). -/
def Head.filling (x : Head) (limit : Nat) : Head :=
  { x with bucket := x.pool.map Feed.ticks, pool := none, state := .settling, timer := .running .settle limit }

theorem Head.issued_state (x : Head) (ticks : Option Nat) : (x.issued ticks).state = x.state := by
  cases ticks <;> rfl

/-- POOL-DROP of an EMPTY head: the SETTLE timer starts, and the feed follows (R14). -/
theorem Units.dropPool_empty {u : Units} {h : Fin 32} (hs : (u.head h).state = .empty) :
    u.dropPool h = (u.setHead h ((u.head h).filling (u.params h).settleLimit)).feed h := by
  unfold Units.dropPool
  rw [hs]
  rfl

theorem Units.filled_head (u : Units) (h : Fin 32) (y : Head) (hp : u.part = .running) (hs : y.state = .settling) :
    ((u.setHead h y).feed h).1.head h = y.issued ((u.setHead h y).issueTicks h) := by
  have hy : (u.setHead h y).head h = y := by rw [Units.head_setHead, if_pos rfl]
  rw [Units.feed_head (u.setHead h y) h hp (by rw [hy, hs]; simp), hy]

theorem Units.feed_part (u : Units) (h : Fin 32) : (u.feed h).1.part = u.part :=
  (Units.feed_keeps u h .part (by simp) (by simp)).1

/-! ### A confirmation while RUNNING (R21, R46, R127) -/

/-- A head whose discharge is confirmed while the part is RUNNING (R21, R46). -/
def Head.freed (x : Head) (d : Destination) (limit : Nat) : Head :=
  { x with
    state := .empty, frozen := none, retryUsed := false, timer := .running .silence limit
    health := if d = .reject .recover then x.health else x.health - 1 }

theorem Units.confirm_running {u : Units} {h : Fin 32} {d : Destination} (hp : u.part = .running)
    (hs : (u.head h).state = .discharging d) :
    (u.confirm h).1.head h = (u.head h).freed d (u.params h).silenceLimit ∧
      ∀ q, q ≠ .head h → (∀ side, q ≠ .release side) → u.keeps (u.confirm h).1 q := by
  have record : ∃ v : Units, (v = u.setHead h ((u.head h).freed d (u.params h).silenceLimit)) ∧
      ((u.confirm h).1 = v ∨ ∃ side, (u.confirm h).1 = (v.markDump side h .confirmed).1) := by
    refine ⟨_, rfl, ?_⟩
    cases d with
    | bag side =>
      right
      refine ⟨side, ?_⟩
      unfold Units.confirm
      simp only [hs, hp, if_true]
      rw [Units.setHead_lower u h _ .confirm (by rfl)]
      rfl
    | reject why =>
      left
      rw [Units.confirm_reject u h why hs, hp]
      cases why <;> rfl
  obtain ⟨v, rfl, confirmed⟩ := record
  have self : (u.setHead h ((u.head h).freed d (u.params h).silenceLimit)).head h = _ :=
    (Units.head_setHead ..).trans (if_pos rfl)
  rcases confirmed with same | ⟨side, marked⟩
  · rw [same]
    exact ⟨self, fun q hq _ => Units.setHead_keeps _ _ _ q hq⟩
  · rw [marked]
    exact ⟨Eq.trans (Units.markDump_keeps _ side h .confirmed (.head h) (by simp)) self, fun q hq hr =>
      Ev.Moves.keeps_trans (Units.setHead_keeps _ _ _ q hq) (Units.markDump_keeps _ side h .confirmed q (hr side))⟩

/-- A report with POOL-DROP, behind its confirmation (R34). -/
theorem Units.reported_drop {u : Units} {r : ReportHeader} {fault confirm : Units → Effect} (hb : r.boardFault = false)
    (hp : r.poolDrop = true) :
    u.reported r none fault confirm = (u.confirmed r confirm).then fun v => v.dropPool r.head := by
  have drop : ∀ v : Units, v.dropped r = v.dropPool r.head := fun v => if_pos hp
  rw [Units.reported_unfaulted _ _ _ _ _ hb]
  unfold Units.weighAny Effect.then
  simp only [drop, List.append_nil]

/-- A head that a report leaves SETTLING, with the feed behind it, while the part is RUNNING (R14, R58). -/
theorem State.Makes.taken_filled {s t : State} {r : ReportHeader} {f : Units → Effect} {u : Units} {y : Head}
    (makes : s.Makes t (s.units.taken r f))
    (hf : (f (s.units.setHead r.head ((s.units.head r.head).sequenced r))).1 = ((u.setHead r.head y).feed r.head).1)
    (hr : s.units.part = .running) (hp : u.part = s.units.part) (hs : y.state = .settling) (hc : u.config = s.units.config)
    (hz : ∀ z, u.zones.get z = s.units.zones.get z) :
    t.units.head r.head = y.issued ((s.units.setHead r.head y).issueTicks r.head) := by
  have ticks : (u.setHead r.head y).issueTicks r.head = (s.units.setHead r.head y).issueTicks r.head :=
    Units.issueTicks_congr r.head hc (fun z => by rw [Units.setHead_zones, Units.setHead_zones, hz])
      (by simp) (by simp) (by simp)
  have filled := Units.filled_head u r.head y (hp.trans hr) hs
  rw [← hf, ticks] at filled
  refine makes.taken_unwatched rfl ?_ (by rw [hr]; simp) filled (by rw [Head.issued_state, hs]; simp [CycleState.name])
  rw [hf]
  exact (Units.feed_part _ _).trans hp

section
variable {s t : State} {r : ReportHeader} (hr : s.units.part = .running) (hb : r.boardFault = false)
  (hp : r.poolDrop = true) (makes : s.Makes t (s.units.taken r fun v => v.reportedPlain r none))
include hr hb hp makes

/-- POOL-DROP of an EMPTY head: the head settles, and nothing else changes but for the feed (R14). -/
theorem State.Makes.drop_empty (hs : (s.units.head r.head).state = .empty) :
    let y := ((s.units.head r.head).sequenced r).filling (s.units.params r.head).settleLimit
    t.units.head r.head = y.issued ((s.units.setHead r.head y).issueTicks r.head) ∧
      ∀ z, s.units.zoneOf r.head.val = some z →
        s.units.onlyChanges t.units [.stage, .head r.head, .zone z, .notice (s.units.reporting z)] := by
  intro y
  obtain ⟨v, hv⟩ : ∃ v, v = s.units.setHead r.head ((s.units.head r.head).sequenced r) := ⟨_, rfl⟩
  have hx : v.head r.head = (s.units.head r.head).sequenced r := by rw [hv, Units.head_setHead, if_pos rfl]
  have empty : (v.head r.head).state = .empty := by rw [hx]; exact hs
  have effect : v.reportedPlain r none = (s.units.setHead r.head y).feed r.head := by
    unfold Units.reportedPlain
    rw [Units.reported_drop hb hp, Units.confirmed_idle fun _ _ => by rw [empty]; simp [CycleState.name],
      Effect.then_nil, Units.dropPool_empty empty, hx, hv, Units.setHead_twice]
    rfl
  rw [hv] at effect
  refine ⟨makes.taken_filled (u := s.units) (congrArg Prod.fst effect) hr rfl rfl rfl fun _ => rfl, fun z hz q hq => ?_⟩
  simp only [List.mem_cons, List.not_mem_nil, or_false, not_or] at hq
  obtain ⟨hstage, hh, hzone, hside⟩ := hq
  have zone : ∀ z', (s.units.setHead r.head y).zoneOf r.head.val = some z' → z' = z := fun z' hz' =>
    Option.some.inj (hz'.symm.trans hz)
  have idle : ((s.units.setHead r.head y).feed r.head).1.part ≠ .draining := by
    rw [Units.feed_part, Units.setHead_part, hr]
    simp
  rw [Units.taken_of s.units r effect (.inl idle)] at makes
  refine makes.heard_keeps hstage hh (fun _ => ?_) fun side hq => ?_
  · exact Ev.Moves.keeps_trans (Units.setHead_keeps _ _ _ q hh)
      (Units.feed_keeps _ _ q hh fun z' hz' => by rw [zone z' hz']; exact hzone)
  · exact Units.feed_on _ _ side fun z' hz' c => hside (by rw [hq, c, zone z' hz']; rfl)

/-- POOL-DROP behind the confirmation of a DISCHARGING head: the head settles (R14, R21). -/
theorem State.Makes.drop_confirmed {d : Destination} (hs : (s.units.head r.head).state = .discharging d)
    (hc : r.confirms (s.units.head r.head)) :
    let b := s.units.params r.head
    let y := (((s.units.head r.head).sequenced r).freed d b.silenceLimit).filling b.settleLimit
    t.units.head r.head = y.issued ((s.units.setHead r.head y).issueTicks r.head) := by
  intro b y
  obtain ⟨gate, echo, -⟩ := hc
  obtain ⟨v, hv⟩ : ∃ v, v = s.units.setHead r.head ((s.units.head r.head).sequenced r) := ⟨_, rfl⟩
  have hx : v.head r.head = (s.units.head r.head).sequenced r := by rw [hv, Units.head_setHead, if_pos rfl]
  obtain ⟨freed, others⟩ := Units.confirm_running (u := v) (h := r.head) (d := d) (by rw [hv]; exact hr)
    (by rw [hx]; exact hs)
  have before : ∀ q, q ≠ .head r.head → (∀ side, q ≠ .release side) → s.units.keeps (v.confirm r.head).1 q :=
    fun q hh hq => Ev.Moves.keeps_trans (hv ▸ Units.setHead_keeps _ _ _ q hh) (others q hh hq)
  have part : (v.confirm r.head).1.part = s.units.part := (before .part (by simp) (by simp)).1
  have config : (v.confirm r.head).1.config = s.units.config := (before .loaded (by simp) (by simp)).1
  have zones : ∀ z, (v.confirm r.head).1.zones.get z = s.units.zones.get z := fun z =>
    before (.zone z) (by simp) (by simp)
  have params : (v.confirm r.head).1.params r.head = b := Units.params_congr r.head config fun z => by rw [zones]
  have record : ((v.confirm r.head).1.head r.head).filling b.settleLimit = y := by
    rw [freed, hx, hv]
    rfl
  have effect : (v.reportedPlain r none).1 = (((v.confirm r.head).1.setHead r.head y).feed r.head).1 := by
    have confirmed : v.confirmed r (fun v => v.confirm r.head) = v.confirm r.head := if_pos ⟨gate, by rw [hx]; exact echo⟩
    unfold Units.reportedPlain
    rw [Units.reported_drop hb hp, confirmed, Effect.then_fst, Units.dropPool_empty (by rw [freed]; rfl), params, record]
  refine makes.taken_filled (u := (v.confirm r.head).1) ?_ hr part rfl config zones
  rw [← effect, hv]

end

/-- Settles O30 (R14, R21, R24, R34, R37 to R40, R45, R58 to R60, R127, R128). -/
theorem reportTakenWhole : Obligations.ReportTakenWhole := by
  intro s a w slot clear hw r h x b weight goesOut confirms raise confirm settling fills passes
  obtain ⟨done, wrote, stage⟩ := clear.header_taken (w := w) hw
  have plain := clear.report_plain (r := r) hw rfl passes
  have inside : r.boardFault = false → ¬ goesOut := fun hb out => by rw [out.1] at hb; cases hb
  refine ⟨_, done, wrote, stage, plain, fun side z o hs unlisted => ⟨fun out follows => ?_, fun conf follows => ?_⟩,
    fun undrained hb hp hg hq => ?_, fun hr hb hp hn hs => ?_, fun d hr hb hp hn hs conf hu => ?_⟩
  · exact clear.report_outReleasing (r := r) hw rfl passes hs out follows fun _ => unlisted
  · exact clear.report_confirmReleasing (r := r) hw rfl passes hs conf follows
  · have makes := plain fun side hs =>
      ⟨fun out => absurd out (inside hb), fun conf => absurd (by rw [hs]; rfl) (hg conf)⟩
    have effect := Units.reported_quiet s.units r weight hb hp (fun gate echo => hg ⟨gate, echo, inside hb⟩) hq
    obtain ⟨record, others, puts⟩ := makes.taken_record effect (Units.heardFrom_same_state undrained rfl)
    refine ⟨record, fun q hq => ?_, puts⟩
    simp only [List.mem_cons, List.not_mem_nil, or_false, not_or] at hq
    exact others q hq.1 hq.2 (by simp)
  · have makes := plain fun side c => by rw [hs] at c; cases c
    rw [show s.units.stableWeight r = none from hn] at makes
    obtain ⟨filled, others⟩ := State.Makes.drop_empty hr hb hp makes hs
    exact ⟨fun _ _ => filled, others⟩
  · have makes := plain fun side c =>
      ⟨fun out => absurd out (inside hb), fun _ => hu side (CycleState.discharging.inj (hs.symm.trans c))⟩
    rw [show s.units.stableWeight r = none from hn] at makes
    exact fun _ _ => State.Makes.drop_confirmed hr hb hp makes hs conf

end Sys2Proof.Machine

namespace Sys2Proof.Machine

/-! ### ZERO-SET and RECOVER (O18, O21) -/

section
variable {e : Ev} {arg : BitVec 8} {h : Fin 32}

/-- A head command of no head below the head count is refused with ARG (R152). -/
theorem Ev.headCommand_arg (ht : e.units.part ≠ .transparent) (ha : e.units.headCount ≤ arg.toNat)
    (rule : Fin 32 → Taken) : e.headCommand arg rule = e.refused .arg 0 := (if_neg ht).trans (if_pos ha)

theorem Ev.cmdZeroSet_arg (e : Ev) {arg : BitVec 8} (ht : e.units.part ≠ .transparent)
    (ha : e.units.headCount ≤ arg.toNat) : e.cmdZeroSet arg = e.refused .arg 0 := Ev.headCommand_arg ht ha _

/-- ZERO-SET refused with STATE (R43). -/
theorem Ev.cmdZeroSet_state (ht : e.units.part ≠ .transparent) (ha : arg.toNat = h.val) (hh : h.val < e.units.headCount)
    (hs : ¬ ((e.units.head h).state = .stopped ∨ (e.units.head h).state = .empty) ∨ (e.units.head h).lastStable = none) :
    e.cmdZeroSet arg = e.refused .state 0 := by
  unfold Ev.cmdZeroSet
  rw [Ev.headCommand_eq e arg _ h ht ha hh]
  cases hw : (e.units.head h).lastStable with
  | none => simp only [hw]
  | some w => simp only [hw, if_neg (hs.resolve_right (by simp [hw]))]

/-- ZERO-SET taken: the zero is the last stable weight (R43). -/
theorem Ev.cmdZeroSet_taken (ht : e.units.part ≠ .transparent) (ha : arg.toNat = h.val) (hh : h.val < e.units.headCount)
    (hs : (e.units.head h).state = .stopped ∨ (e.units.head h).state = .empty) {w : Int}
    (hw : (e.units.head h).lastStable = some w) :
    e.cmdZeroSet arg = ({ e with units := e.units.setHead h { e.units.head h with zero := w } }, .done 0) := by
  unfold Ev.cmdZeroSet
  rw [Ev.headCommand_eq e arg _ h ht ha hh]
  simp [hw, hs, Ev.modHead]

/-- RECOVER taken while STOPPED (R48). -/
theorem Ev.cmdRecover_stopped (hp : e.units.part = .stopped) (ha : arg.toNat = h.val) (hh : h.val < e.units.headCount)
    (hs : (e.units.head h).state = .out) :
    ∃ e', e.cmdRecover arg = (e', .done 0) ∧
      e.Does e' ((e.units.count h 128 .recover).then fun v => (v.setHead h { v.head h with state := .stopped }, [])) := by
  refine ⟨_, ?_, (Ev.Does.setHealth h 128 .recover).trans 
    (f := fun v => (v.setHead h { v.head h with state := .stopped }, [])) (fun _ _ => rfl)
    (Ev.Does.modHead fun x => { x with state := .stopped })⟩
  have part : (e.setHealth h 128 .recover).units.part = .stopped := by rw [(Ev.Does.setHealth h 128 .recover).units]; exact hp
  unfold Ev.cmdRecover
  rw [Ev.headCommand_eq e arg _ h (by simp [hp]) ha hh]
  simp [hp, hs, part]

/-- RECOVER taken while RUNNING: the purge with reason RECOVER, then the feed (R48). -/
theorem Ev.cmdRecover_running (hp : e.units.part = .running) (ha : arg.toNat = h.val) (hh : h.val < e.units.headCount)
    (hs : (e.units.head h).state = .out) :
    ∃ e', e.cmdRecover arg = (e', .done 0) ∧
      e.Does e' (((e.units.count h 128 .recover).then fun v => v.purge h .recover none).then fun v => v.feed h) := by
  refine ⟨_, ?_, ((Ev.Does.setHealth h 128 .recover).trans (Units.purge_blind h .recover none)
    (Ev.Does.purge h .recover none)).trans (Units.feed_blind h) (Ev.Does.feedIssue h)⟩
  have part : (e.setHealth h 128 .recover).units.part = .running := by rw [(Ev.Does.setHealth h 128 .recover).units]; exact hp
  unfold Ev.cmdRecover
  rw [Ev.headCommand_eq e arg _ h (by simp [hp]) ha hh]
  simp [hp, hs, part]

end

/-- Settles O21 (R43, R152). -/
theorem zeroSetTakenOrRefused : Obligations.ZeroSetTakenOrRefused := by
  intro s p slot arg turn hp ht
  have exec := Command.exec_instr .zeroSet p slot arg s
  have refused := turn.command_refused (.inr hp) slot .zeroSet arg
  refine ⟨_, exec, fun high => ?_, fun h ha hh => ⟨fun w takes hw => ?_, fun why => ?_⟩⟩
  · exact refused .arg 0 fun k => (Ev.begin s.units true k).cmdZeroSet_arg ht high
  · obtain ⟨t, done, taken⟩ := turn.command_head hp slot .zeroSet arg 0 h { s.units.head h with zero := w } fun k =>
      Ev.cmdZeroSet_taken (e := .begin s.units true k) ht ha hh takes hw
    obtain rfl : _ = t := Host.Outcome.next.inj (exec.symm.trans done)
    exact taken
  · exact refused .state 0 fun k => Ev.cmdZeroSet_state (e := .begin s.units true k) ht ha hh why

/-- The counter of an OUT head at 256 falls to 128: its level goes from OUT to BARRED (R47, R48). -/
theorem Units.count_recover {u : Units} {h : Fin 32} {z : Zone} (hz : u.zoneOf h.val = some z)
    (hx : (u.head h).health = 256) : u.count h 128 .recover =
      (u.setHead h { u.head h with health := 128 }, [.notice (u.reporting z) (.healthLevel h .out .barred 128 .recover)]) := by
  have acts : u.levelActs h 128 .recover = [.notice (u.reportingHead h) (.healthLevel h .out .barred 128 .recover)] := by
    unfold Units.levelActs
    rw [hx]
    rfl
  unfold Units.count
  rw [acts, Units.reportingHead_zone hz]

/-- A purge and the feed behind it, while the part is RUNNING: the purged record, with the feed that is to be issued (R20,
R58, R60). -/
theorem Units.purge_feed_head {u : Units} {h : Fin 32} {r : PurgeReason} {w : Option Int} (hp : u.part = .running) :
    ((u.purge h r w).then fun v => v.feed h).1.head h =
      ((u.head h).purged r (u.params h).gateLimit).issued (u.issueTicks h) := by
  have fed := Units.feed_head (u.purge h r w).1 h hp (by rw [Units.purge_head]; simp [Head.purged])
  rwa [Units.purge_issueTicks, Units.purge_head] at fed

/-- Settles O18 (R20, R47, R48, R58 to R60). -/
theorem recoverTaken : Obligations.RecoverTaken := by
  intro s p slot arg h z clear hp part ha hz hs hx side x n
  have exec := Command.exec_instr .recover p slot arg s
  have hh := Units.zoneOf_lt hz
  have counted := Units.count_recover hz hx
  have self : ∀ y, (s.units.setHead h y).head h = y := fun y => (Units.head_setHead ..).trans (if_pos rfl)
  have notice : ∀ y, y ≠ side → ∀ a, a ∈ [n] → a.on y = false := fun y hy a ha => by
    rw [List.mem_singleton.1 ha]
    exact Act.notice_on _ hy
  rcases part with hstop | hrun
  · have effect : ((s.units.count h 128 .recover).then fun v => (v.setHead h { v.head h with state := .stopped }, [])) =
        (s.units.setHead h { x with state := .stopped }, [n]) := by
      rw [counted]
      simp only [Effect.then, self, Units.setHead_twice, List.append_nil]
      rfl
    obtain ⟨commanded, makes⟩ := clear.command_makes (.inr hp) slot .recover arg (v := 0) fun k =>
      effect ▸ Ev.cmdRecover_stopped (e := .begin s.units true k) hstop ha hh hs
    refine ⟨_, exec, commanded, fun _ => ⟨?_, fun q hq => ?_, makes⟩, fun c => by rw [hstop] at c; cases c⟩
    · exact Eq.trans (makes.1 (.head h) (by simp)) (self _)
    · simp only [List.mem_cons, List.not_mem_nil, or_false, not_or] at hq
      obtain ⟨hm, hh, hn⟩ := hq
      exact makes.keeps hm (fun _ => Units.setHead_keeps _ _ _ _ hh) fun y hy => notice y fun c => hn (by rw [hy, c])
  · obtain ⟨commanded, makes⟩ := clear.command_makes (.inr hp) slot .recover arg (v := 0) fun k =>
      counted ▸ Ev.cmdRecover_running (e := .begin s.units true k) hrun ha hh hs
    have ticks : (s.units.setHead h x).issueTicks h = s.units.issueTicks h :=
      Units.issueTicks_congr h rfl (fun _ => rfl) (by rw [self]) (by rw [self]) (by rw [self])
    refine ⟨_, exec, commanded, (fun c => by rw [hrun] at c; cases c), fun _ => ⟨?_, fun q hq => ?_, makes⟩⟩
    · refine Eq.trans (makes.1 (.head h) (by simp)) ?_
      rw [Effect.then_assoc, ← ticks]
      exact (Units.purge_feed_head (u := s.units.setHead h x) hrun).trans (by rw [self]; rfl)
    · simp only [List.mem_cons, List.not_mem_nil, or_false, not_or] at hq
      obtain ⟨hm, hh, hzone, hn⟩ := hq
      refine makes.keeps hm (fun _ => ?_) fun y hy => ?_
      · exact Ev.Moves.keeps_trans (Units.setHead_keeps _ _ _ _ hh)
          (Units.purge_feed_keeps (s.units.setHead h x) h .recover none z hz q hh hzone)
      · have other : y ≠ side := fun c => hn (by rw [hy, c])
        rw [Effect.then_assoc]
        exact Act.on_append (notice y other) (Units.purge_feed_on (s.units.setHead h x) h .recover none z hz y other)

end Sys2Proof.Machine

namespace Sys2Proof.Machine

/-! ### Expiries of head timers (O51 to O53) -/

theorem Units.head_setHead_same (u : Units) (h : Fin 32) (x : Head) : (u.setHead h x).head h = x :=
  (Units.head_setHead ..).trans (if_pos rfl)

section
variable {s : State} {h : Fin 32} {k : TimerKind} {left : Nat}

/-- An expiry commanded while the timer runs is the event of the expiry (R50; log entry 4). -/
theorem State.headExpiry_running (ht : (s.units.head h).timer = .running k left) :
    s.headExpiry h k = s.takeOrHold (.headTimer h) fun e => e.expire h k := by
  unfold State.headExpiry
  rw [ht]
  exact if_pos rfl

/-- With everything clear the expiry has its effect, where no release follows a mark (R51 to R53, R156). -/
theorem State.Clear.expiry_makes (clear : s.Clear) (ht : (s.units.head h).timer = .running k left)
    (hr : k ≠ .gate ∨ (s.units.head h).retryUsed = true ∨ 256 ≤ (s.units.head h).health + 32 →
      ∀ side, (s.units.head h).state = .discharging (.bag side) → s.units.unreleased side h .unconfirmed) :
    s.Inside (s.headExpiry h k) ∧ s.Makes (s.headExpiry h k) ((s.units.expiry h k).then Units.drainEnd) := by
  rw [State.headExpiry_running ht]
  exact clear.event_makes (.headTimer h) _ fun n => Ev.Does.expire (e := .begin s.units true n) h k hr

end

/-- An effect behind which the drain condition does not become true (R156). -/
theorem Effect.then_drainEnd (e : Effect) (hd : e.1.part ≠ .draining ∨ e.1.drained = false) :
    e.then Units.drainEnd = e := by
  unfold Effect.then
  rw [Units.drainEnd_idle _ hd, List.append_nil]

/-- What waits for its head not to have gone OUT, behind an effect that leaves the head inside. -/
theorem Effect.then_inside {e : Effect} {h : Fin 32} (hs : (e.1.head h).state ≠ .out) (f : Units → Effect) :
    (e.then fun v => if (v.head h).state = .out then (v, []) else f v) = e.then f := by
  simp only [Effect.then, if_neg hs]

/-- The same behind one that takes it OUT. -/
theorem Effect.then_outside {e : Effect} {h : Fin 32} (hs : (e.1.head h).state = .out) (f : Units → Effect) :
    (e.then fun v => if (v.head h).state = .out then (v, []) else f v) = e := by
  simp only [Effect.then, if_pos hs, List.append_nil]

/-- An event whose effect is one head's record and things put out to the head's reporting side. -/
theorem State.Makes.one_head {s t : State} {h : Fin 32} {x : Head} {l : List Act}
    (makes : s.Makes t (s.units.setHead h x, l))
    (on : ∀ side, side ≠ s.units.reportingHead h → ∀ a, a ∈ l → a.on side = false) :
    t.units.head h = x ∧ s.units.onlyChanges t.units [.head h, .notice (s.units.reportingHead h)] ∧ s.Puts t l := by
  refine ⟨(makes.head h).trans ((Units.head_setHead ..).trans (if_pos rfl)), fun q hq => ?_, makes.2⟩
  simp only [List.mem_cons, List.not_mem_nil, or_false, not_or] at hq
  exact makes.keeps (fun _ => Units.setHead_keeps _ _ _ q hq.1) fun side c => on side fun d => hq.2 (by rw [c, d])

/-- A head whose counter has risen. -/
def Head.raised (x : Head) (amount : Nat) : Head := { x with health := x.health + amount }

section
variable {u : Units} {h : Fin 32}

/-- A SETTLE expiry that leaves the head below OUT: the counter, then the purge (R51). -/
theorem Units.settleExpiry_below (hs : (u.head h).state = .settling) (below : (u.head h).health + 8 < 256) :
    u.expiry h .settle =
      (u.setHead h (((u.head h).raised 8).purged .unsettled (u.params h).gateLimit),
        u.levelActs h ((u.head h).health + 8) .settle ++ [.write (u.purgeEntry h .unsettled),
          .notice (u.reportingHead h) (.purge h .unsettled ((u.head h).gateSeq + 1) none)]) := by
  have raised : u.raise h 8 .settle = (u.setHead h ((u.head h).raised 8), u.levelActs h ((u.head h).health + 8) .settle) :=
    Units.raise_below u h 8 .settle (by simp [hs]) (by simp [hs]) below (.inl (by simp [hs, CycleState.name]))
  have self : (u.setHead h ((u.head h).raised 8)).head h = (u.head h).raised 8 := (Units.head_setHead ..).trans (if_pos rfl)
  have entry : (u.setHead h ((u.head h).raised 8)).purgeEntry h .unsettled = u.purgeEntry h .unsettled :=
    Units.purgeEntry_congr h _ rfl (by rw [self]; rfl)
  unfold Units.expiry
  rw [raised, Effect.then_inside (by rw [self]; simp [Head.raised, hs])]
  unfold Effect.then Units.purge
  simp only [self, entry, Units.setHead_twice]
  rfl

/-- A GATE expiry is the last one where the retry is used, and otherwise the first one (R53). -/
theorem Units.gateExpiry_eq {d : Destination} (hs : (u.head h).state = .discharging d) :
    u.expiry h .gate = if (u.head h).retryUsed then u.raise h 256 .gateFinal
      else (u.raise h 32 .gate).then fun v => if (v.head h).state = .out then (v, []) else v.reissue h d := by
  unfold Units.expiry
  simp only [hs]

/-- A first GATE expiry that leaves the head below OUT: the counter, then the gate command again (R53). -/
theorem Units.gateExpiry_below {d : Destination} (hs : (u.head h).state = .discharging d)
    (first : (u.head h).retryUsed = false) (below : (u.head h).health + 32 < 256) :
    u.expiry h .gate =
      (u.setHead h { u.head h with
          health := (u.head h).health + 32, gateSeq := (u.head h).gateSeq + 1, retryUsed := true
          timer := .running .gate (u.params h).gateLimit },
        u.levelActs h ((u.head h).health + 32) .gate ++
          [.write ⟨BitVec.ofNat 20 (u.base .gate + h.val), gateWord d 0 ((u.head h).gateSeq + 1)⟩]) := by
  have raised : u.raise h 32 .gate = (u.setHead h ((u.head h).raised 32), u.levelActs h ((u.head h).health + 32) .gate) :=
    Units.raise_below u h 32 .gate (by simp [hs]) (by simp [hs]) below (.inl (by simp [hs, CycleState.name]))
  have self : (u.setHead h ((u.head h).raised 32)).head h = (u.head h).raised 32 := (Units.head_setHead ..).trans (if_pos rfl)
  rw [Units.gateExpiry_eq hs, if_neg (by simp [first]), raised, Effect.then_inside (by rw [self]; simp [Head.raised, hs])]
  unfold Effect.then Units.reissue
  simp only [self, Units.setHead_twice]
  rfl

end

/-- Settles O51 (R20, R45, R51). -/
theorem settleExpiryPurges : Obligations.SettleExpiryPurges := by
  intro s h left clear ht hs x
  obtain ⟨inside, makes⟩ := clear.expiry_makes ht fun _ side c => by rw [hs] at c; cases c
  refine ⟨_, rfl, inside, fun below => ?_, makes⟩
  rw [Units.settleExpiry_below hs below, Effect.then_drainEnd _ (.inr (Units.drained_discharging (h := h)
    (by rw [Units.head_setHead, if_pos rfl]; rfl)))] at makes
  exact makes.one_head fun side other => Act.on_append (Units.levelActs_on _ h _ _ side other)
    (Units.purge_on _ h .unsettled none side other)

/-- Settles O53 (R45, R53). -/
theorem gateExpiryReissues : Obligations.GateExpiryReissues := by
  intro s h left d clear ht hs first below x
  obtain ⟨inside, makes⟩ := clear.expiry_makes ht fun c => absurd c (by rw [first]; simp; omega)
  rw [Units.gateExpiry_below hs first below, Effect.then_drainEnd _ (.inr (Units.drained_discharging (h := h)
    (by rw [Units.head_setHead, if_pos rfl]; exact congrArg CycleState.name hs)))] at makes
  exact ⟨_, rfl, inside, makes.one_head fun side other => Act.on_append (Units.levelActs_on _ h _ _ side other)
    fun a ha => by rw [List.mem_singleton.1 ha]; rfl⟩

/-! ### SILENCE expiries (O52) -/

/-- A change of a head's record that keeps its cycle state does not make the drain condition true (R156). -/
theorem Units.undrained_setHead {u : Units} {h : Fin 32} {x : Head} (undrained : u.undrained)
    (hs : x.state = (u.head h).state) :
    (u.setHead h x).part ≠ .draining ∨ (u.setHead h x).drained = false := by
  by_cases hp : u.part = .draining
  · right
    rw [← undrained hp]
    refine Units.drained_congr (fun _ => rfl) (fun _ => rfl) fun g => ?_
    rw [Units.head_setHead]
    split
    next hg => rw [hg, hs]
    next => rfl
  · exact .inl hp

section
variable {u : Units} {h : Fin 32} {k : Nat} {c : HealthCause} {side : Side} {o : OrderRec}

/-- A raise that makes a CLAIMED head BARRED: its order is withdrawn, and the head purged (R16, R113). -/
theorem Units.raise_barred_claimed (hs : (u.head h).state = .claimed side o.accept) (hc : c ≠ .disturbed)
    (hlow : (u.head h).health < 128) (hhigh : 128 ≤ (u.head h).health + k) (hk : (u.head h).health + k < 256)
    (hn : ((u.orders.get side).queue.map OrderRec.accept).Nodup) (ho : o ∈ (u.orders.get side).queue) :
    ∃ y, (u.raise h k c).1 = (u.withdrawn side o h).setHead h y := by
  have sum : min 256 ((u.head h).health + k) = (u.head h).health + k := by omega
  have self : (u.setHead h ((u.head h).raised k)).head h = (u.head h).raised k := (Units.head_setHead ..).trans (if_pos rfl)
  rw [Units.raise_barred u h k c (by simp [hs]) (by omega) ⟨hlow, by omega, hc⟩, sum, Effect.then_fst]
  show ∃ y, (Units.expel (u.setHead h ((u.head h).raised k)) h .barred .barred).1 = _
  rw [Units.expel_claimed (u.setHead h ((u.head h).raised k)) h .barred .barred side o (by rw [self]; exact hs) hn ho,
    Units.setHead_withdrawn, Units.setHead_twice]
  exact ⟨_, rfl⟩

/-- What the withdrawal of the order that claims a head leaves of the queue and of the order's other heads (R17, R113). -/
theorem State.Makes.withdrawn {s t : State} {e : Effect} {y : Head} (makes : s.Makes t e)
    (he : e.1 = (s.units.withdrawn side o h).setHead h y)
    (hn : ((s.units.orders.get side).queue.map OrderRec.accept).Nodup) (ho : o ∈ (s.units.orders.get side).queue) :
    (t.units.orders.get side).queue = (s.units.orders.get side).queue.filter (· ≠ o) ∧
      ∀ g, g ∈ o.heads → g ≠ h → t.units.head g = (s.units.head g).watched .ready (s.units.params g).silenceLimit := by
  constructor
  · have order : t.units.orders.get side = e.1.orders.get side := makes.1 (.order side) (by simp)
    rw [order, he, Units.setHead_orders, Units.withdrawn_order]
    exact (OrderSide.find_order hn ho).2
  · intro g hg hne
    rw [makes.head g, he, Units.head_setHead, if_neg hne, Units.withdrawn_head, if_pos ⟨hg, hne⟩]

end

/-- A head whose SILENCE timer starts again (R52). -/
def Head.rewatched (x : Head) (limit : Nat) : Head := { x with timer := .running .silence limit }

theorem Units.silenceExpiry_eq (u : Units) (h : Fin 32) : u.expiry h .silence =
    (u.setHead h ((u.head h).rewatched (u.params h).silenceLimit)).raise h 8 .silence := rfl

/-- An EMPTY, READY or CLAIMED head takes every raise, and is READY or CLAIMED when it is not EMPTY. -/
theorem CycleState.of_watched {c : CycleState} (hs : c.name = .empty ∨ c.name = .ready ∨ c.name = .claimed) :
    c ≠ .out ∧ c ≠ .disabled ∧ c.name ≠ .discharging ∧ (c = .empty ∨ c.name = .ready ∨ c.name = .claimed) := by
  cases c <;> simp [CycleState.name] at hs ⊢

section
variable {u : Units} {h : Fin 32}

/-- A SILENCE expiry that neither bars the head nor takes it OUT: the counter, and the timer again (R52). -/
theorem Units.silenceExpiry_below
    (hs : (u.head h).state.name = .empty ∨ (u.head h).state.name = .ready ∨ (u.head h).state.name = .claimed)
    (below : (u.head h).health + 8 < 256)
    (hb : ¬ ((u.head h).state ≠ .empty ∧ (u.head h).health < 128 ∧ 128 ≤ (u.head h).health + 8)) :
    u.expiry h .silence = (u.setHead h (((u.head h).raised 8).rewatched (u.params h).silenceLimit),
      u.levelActs h ((u.head h).health + 8) .silence) := by
  obtain ⟨h0, h1, -, -⟩ := CycleState.of_watched hs
  have self := u.head_setHead_same h ((u.head h).rewatched (u.params h).silenceLimit)
  have acts := Units.levelActs_congr (u := u) h ((u.head h).health + 8) .silence (by rw [self]; rfl)
    (Units.setHead_config u h ((u.head h).rewatched (u.params h).silenceLimit))
  have untouched : (u.head h).state.name ≠ .ready ∧ (u.head h).state.name ≠ .claimed ∨ 128 ≤ (u.head h).health ∨
      (u.head h).health + 8 < 128 := by
    by_cases empty : (u.head h).state = .empty
    · exact .inl (by simp [empty, CycleState.name])
    · right
      by_contra c
      exact hb ⟨empty, by omega, by omega⟩
  rw [Units.silenceExpiry_eq, Units.raise_below _ h 8 .silence (by rw [self]; exact h0) (by rw [self]; exact h1)
    (by rw [self]; exact below) (by rw [self]; exact untouched.imp_right fun c => c.imp_right .inl), self]
  refine Prod.ext ?_ acts
  unfold Units.count
  rw [self, Units.setHead_twice]
  rfl

/-- A SILENCE expiry that makes a READY or CLAIMED head BARRED (R16, R52). -/
theorem Units.silenceExpiry_barred
    (hs : (u.head h).state.name = .empty ∨ (u.head h).state.name = .ready ∨ (u.head h).state.name = .claimed)
    (hb : (u.head h).state ≠ .empty ∧ (u.head h).health < 128 ∧ 128 ≤ (u.head h).health + 8) :
    (u.expiry h .silence).1.head h = ((u.head h).raised 8).purged .barred (u.params h).gateLimit := by
  obtain ⟨h0, h1, -, filled⟩ := CycleState.of_watched hs
  obtain ⟨full, low, high⟩ := hb
  have self := u.head_setHead_same h ((u.head h).rewatched (u.params h).silenceLimit)
  have below : (u.head h).health + 8 < 256 := by omega
  rw [Units.silenceExpiry_eq, Units.raise_head_barred (by rw [self]; exact h0) (by rw [self]; exact h1)
    (by rw [self]; exact below) (by simp) (by rw [self]; exact filled.resolve_left full) (by rw [self]; exact low)
    (by rw [self]; exact high), self]
  rfl

/-- One that makes a CLAIMED head BARRED withdraws its order (R113). -/
theorem Units.silenceExpiry_claimed {side : Side} {o : OrderRec} (hc : (u.head h).state = .claimed side o.accept)
    (low : (u.head h).health < 128) (high : 128 ≤ (u.head h).health + 8)
    (hn : ((u.orders.get side).queue.map OrderRec.accept).Nodup) (ho : o ∈ (u.orders.get side).queue) :
    ∃ y, (u.expiry h .silence).1 = (u.withdrawn side o h).setHead h y := by
  have self := u.head_setHead_same h ((u.head h).rewatched (u.params h).silenceLimit)
  have below : (u.head h).health + 8 < 256 := by omega
  obtain ⟨y, hy⟩ := Units.raise_barred_claimed (u := u.setHead h ((u.head h).rewatched (u.params h).silenceLimit))
    (c := .silence) (k := 8) (by rw [self]; exact hc) (by simp) (by rw [self]; exact low) (by rw [self]; exact high)
    (by rw [self]; exact below) hn ho
  exact ⟨y, by rw [Units.silenceExpiry_eq, hy, Units.setHead_withdrawn, Units.setHead_twice]⟩

end

/-- Settles O52 (R16, R45, R52, R113). -/
theorem silenceExpiryRaises : Obligations.SilenceExpiryRaises := by
  intro s h left clear ht hs x b bars
  obtain ⟨-, -, settled, -⟩ := CycleState.of_watched hs
  obtain ⟨inside, makes⟩ := clear.expiry_makes ht fun _ side c => absurd (by rw [c]; rfl) settled
  have plain (undrained : s.units.undrained) (below : x.health + 8 < 256) (hb : ¬ bars) :
      s.Makes (s.headExpiry h .silence)
        (s.units.setHead h ((x.raised 8).rewatched b.silenceLimit), s.units.levelActs h (x.health + 8) .silence) := by
    have idle := Units.undrained_setHead (h := h) (x := (x.raised 8).rewatched b.silenceLimit) undrained rfl
    rw [Units.silenceExpiry_below hs below hb] at makes
    rwa [Effect.then_drainEnd _ idle] at makes
  have barred (hb : bars) : s.Makes (s.headExpiry h .silence) (s.units.expiry h .silence) := by
    rwa [Effect.then_drainEnd _ (.inr (Units.drained_discharging (h := h)
      (by rw [Units.silenceExpiry_barred hs hb]; rfl)))] at makes
  have on := Units.levelActs_on s.units h (x.health + 8) .silence
  refine ⟨_, rfl, inside, fun undrained below => ?_, fun undrained below hb => ((plain undrained below hb).one_head on).2,
    fun side k o running hc hb ho hk hn => ?_, makes⟩
  · by_cases hb : bars
    · rw [if_pos hb, (barred hb).head, Units.silenceExpiry_barred hs hb]
      rfl
    · rw [if_neg hb]
      exact ((plain undrained below hb).one_head on).1
  · subst hk
    obtain ⟨-, low, high⟩ := id hb
    obtain ⟨y, hy⟩ := Units.silenceExpiry_claimed hc low high hn ho
    exact (barred hb).withdrawn hy hn ho

end Sys2Proof.Machine

namespace Sys2Proof.Machine

/-! ### Expiries that take a head OUT (O54) -/

/-- The cycle state and the counter in which an expiry of a kind takes a head OUT (R51 to R53). -/
def Head.expiresOut (x : Head) : TimerKind → Prop
  | .settle => x.state = .settling ∧ 248 ≤ x.health
  | .silence => (x.state.name = .empty ∨ x.state.name = .ready ∨ x.state.name = .claimed) ∧ 248 ≤ x.health
  | .gate => x.state.name = .discharging ∧ (x.retryUsed = true ∨ 224 ≤ x.health)

/-- What an entry to OUT puts out last: HEAD-OUT, and the feed stop (R22, R49; log entry 12). -/
def Units.outActs (u : Units) (h : Fin 32) : List Act :=
  [.flag (u.reportingHead h) .headOut, .write (u.feedEntry h 0 0 ((u.head h).feedSeq + 1))]

theorem Units.outActs_on (u : Units) (h : Fin 32) (side : Side) (hs : side ≠ u.reportingHead h) :
    ∀ a, a ∈ u.outActs h → a.on side = false := by
  intro a ha
  simp only [Units.outActs, List.mem_cons, List.not_mem_nil, or_false] at ha
  rcases ha with rfl | rfl
  · exact decide_eq_false fun c => hs c.symm
  · rfl

/-- The effect e takes a head OUT: things put out to its reporting side first, as the counter reaches 256, and then the
entry to OUT, of a record y that agrees with the head's own in the cycle state and in what the entry keeps. -/
structure Units.TakesOut (u : Units) (h : Fin 32) (e : Effect) (y : Head) (l : List Act) : Prop where
  effect : e = Effect.then (u.setHead h y, l) fun v => v.goOut h
  state : y.state = (u.head h).state
  outed : y.outed = (u.head h).outed
  on : ∀ side, side ≠ u.reportingHead h → ∀ a, a ∈ l → a.on side = false

namespace Units.TakesOut

variable {u : Units} {h : Fin 32} {e : Effect} {y : Head} {l : List Act}

/-- A raise to 256, the head's record as y before it (R45). -/
theorem of_raise {k : Nat} {c : HealthCause} (hs : y.state = (u.head h).state) (hy : y.outed = (u.head h).outed)
    (h0 : y.state ≠ .out) (h1 : y.state ≠ .disabled) (hk : 256 ≤ y.health + k) :
    u.TakesOut h ((u.setHead h y).raise h k c) { y with health := 256 } ((u.setHead h y).levelActs h 256 c) := by
  have self := u.head_setHead_same h y
  refine ⟨?_, hs, hy, Units.levelActs_on (u.setHead h y) h 256 c⟩
  rw [Units.raise_top (u.setHead h y) h k c (by rwa [self]) (by rwa [self]) (by rwa [self])]
  unfold Units.count
  rw [self, Units.setHead_twice]

variable (d : u.TakesOut h e y l)
include d

theorem head : e.1.head h = (u.head h).outed := by
  rw [d.effect, Effect.then_fst, Units.goOut_head, Units.head_setHead_same, d.outed]

theorem part : e.1.part = u.part := by
  rw [d.effect]
  exact (Units.goOut_keeps (u.setHead h y) h .part (by simp) (by simp) (by simp)).1

theorem flag : .flag (u.reportingHead h) .headOut ∈ e.2 := by
  rw [d.effect]
  exact List.mem_append_right _ (List.mem_append_right _ (List.mem_cons_self ..))

theorem of_goOut {v : Units} {m : List Act} (hg : (u.setHead h y).goOut h = (v, m)) : e = (v, l ++ m) := by
  simp only [d.effect, Effect.then, hg]

theorem feedSeq : y.feedSeq + 1 = (u.head h).feedSeq + 1 := congrArg Head.feedSeq d.outed

/-- A head that no order claims and no dump awaits. -/
theorem plain (hc : (u.head h).state.name ≠ .claimed) (hb : ∀ side, (u.head h).state ≠ .discharging (.bag side)) :
    e = (u.setHead h (u.head h).outed, l ++ u.outActs h) := by
  have self := u.head_setHead_same h y
  have plain := Units.goOut_plain (u.setHead h y) h (by rwa [self, d.state]) fun side => by rw [self, d.state]; exact hb side
  rw [self, d.outed, Units.setHead_twice, d.feedSeq] at plain
  exact d.of_goOut plain

/-- A head that an order claims: the order is withdrawn (R113). -/
theorem claimed {side : Side} {o : OrderRec} (hs : (u.head h).state = .claimed side o.accept)
    (hn : ((u.orders.get side).queue.map OrderRec.accept).Nodup) (ho : o ∈ (u.orders.get side).queue) :
    e = ((u.withdrawn side o h).setHead h (u.head h).outed,
      l ++ [.order side (.orderWithdrawn o.tag .headOut (some (h, o.heads.idxOf h + 1)) o.heads o.total),
        .flag side .orderEnded] ++ u.outActs h) := by
  have self := u.head_setHead_same h y
  have claimed := Units.goOut_claimed (u.setHead h y) h side o (by rwa [self, d.state]) hn ho
  rw [self, d.outed, Units.setHead_withdrawn, Units.setHead_twice, d.feedSeq] at claimed
  rw [List.append_assoc]
  exact d.of_goOut claimed

/-- A head that discharges to a side: its mark in the dump that awaits it is UNCONFIRMED (R127). -/
theorem bag {side : Side} (hs : (u.head h).state = .discharging (.bag side)) :
    e = ((u.markDump side h .unconfirmed).1.setHead h (u.head h).outed,
      l ++ (u.markDump side h .unconfirmed).2 ++ u.outActs h) := by
  have self := u.head_setHead_same h y
  have bag := Units.goOut_bag (u.setHead h y) h side (by rwa [self, d.state])
  rw [self, d.outed, d.feedSeq] at bag
  rw [List.append_assoc, ← Units.setHead_twice (u.markDump side h .unconfirmed).1 h y]
  exact d.of_goOut bag

end Units.TakesOut

/-- Such an expiry takes its head OUT (R49, R51 to R53). -/
theorem Units.expiry_takesOut {u : Units} {h : Fin 32} {k : TimerKind} (out : (u.head h).expiresOut k) :
    ∃ y l, u.TakesOut h (u.expiry h k) y l := by
  have raised (n : Nat) (c : HealthCause) (h0 : (u.head h).state ≠ .out) (h1 : (u.head h).state ≠ .disabled)
      (hk : 256 ≤ (u.head h).health + n) : ∃ y l, u.TakesOut h (u.raise h n c) y l := by
    have d := Units.TakesOut.of_raise (u := u) (h := h) (y := u.head h) (c := c) rfl rfl h0 h1 hk
    rw [Units.setHead_head_self] at d
    exact ⟨_, _, d⟩
  cases k with
  | settle =>
    obtain ⟨hs, hk⟩ := out
    obtain ⟨y, l, d⟩ := raised 8 .settle (by simp [hs]) (by simp [hs]) (by omega)
    refine ⟨y, l, ?_⟩
    unfold Units.expiry
    rwa [Effect.then_outside (by rw [d.head]; rfl)]
  | silence =>
    obtain ⟨hs, hk⟩ := out
    obtain ⟨h0, h1, -, -⟩ := CycleState.of_watched hs
    exact ⟨_, _, Units.TakesOut.of_raise (k := 8) (c := .silence) rfl rfl h0 h1 (show 256 ≤ (u.head h).health + 8 by omega)⟩
  | gate =>
    obtain ⟨hs, hk⟩ := out
    obtain ⟨dest, hs⟩ := CycleState.name_eq_discharging hs
    rw [Units.gateExpiry_eq hs]
    by_cases used : (u.head h).retryUsed = true
    · rw [if_pos used]
      exact raised 256 .gateFinal (by simp [hs]) (by simp [hs]) (by omega)
    · rw [if_neg used]
      obtain ⟨y, l, d⟩ := raised 32 .gate (by simp [hs]) (by simp [hs]) (by have := hk.resolve_left used; omega)
      exact ⟨y, l, by rwa [Effect.then_outside (by rw [d.head]; rfl)]⟩

/-- The mark of a head that the first open dump awaits (R127, R128). -/
theorem Units.markDump_first {u : Units} {side : Side} {h : Fin 32} {m : Mark} {d : Dump} {rest : List Dump}
    (hd : (u.releases.get side).dumps = d :: rest) (ha : d.awaits h = true) :
    u.markDump side h m = (u.setRelease side { u.releases.get side with
        dumps := if (d.mark h m).complete then rest else d.mark h m :: rest },
      if (d.mark h m).complete then [.order side (d.mark h m).notice] else []) := by
  simp only [Units.markDump, hd, dumpsAfter, ha, if_true, List.find?_cons_of_pos]

/-- A GATE expiry that takes a bag's head OUT, the release following (R49, R53, R128; log entry 12). -/
theorem Ev.Does.gateExpiry_release {e : Ev} {h : Fin 32} {side : Side} {z : Zone} {o : OrderRec}
    (hs : (e.units.head h).state = .discharging (.bag side))
    (out : (e.units.head h).retryUsed = true ∨ 224 ≤ (e.units.head h).health)
    (follows : e.units.releaseFollows side h .unconfirmed z o) (unlisted : h ∉ o.heads)
    (unpending : (e.units.releases.get side).releasePending = false) (hy : e.release = true) :
    ∃ kept, e.Does (e.gateExpiry h)
      ((e.units.count h 256 (if (e.units.head h).retryUsed then .gateFinal else .gate)).then fun u =>
        u.outReleasing h side z o kept) := by
  unfold Ev.gateExpiry
  simp only [hs]
  by_cases used : (e.units.head h).retryUsed = true
  · simp only [used, if_true]
    exact raiseHealth_release h 256 .gateFinal false side z o (by omega) hs follows unpending hy
  · simp only [used, if_false, Bool.false_eq_true]
    obtain ⟨kept, d⟩ := raiseHealth_release (e := e) h 32 .gate true side z o
      (by have := out.resolve_left used; omega) hs follows unpending hy
    refine ⟨kept, ?_⟩
    have gone : ((e.raiseHealth h 32 .gate true).units.head h).state = .out := by
      rw [d.head, Effect.then_fst, Units.outReleasing_head _ h side z o kept unlisted]
      rfl
    rwa [if_pos gone]

theorem State.Clear.gateExpiry_release {s : State} (clear : s.Clear) {h : Fin 32} {left : Nat} {side : Side} {z : Zone}
    {o : OrderRec} (ht : (s.units.head h).timer = .running .gate left)
    (hs : (s.units.head h).state = .discharging (.bag side))
    (out : (s.units.head h).retryUsed = true ∨ 224 ≤ (s.units.head h).health)
    (follows : s.units.releaseFollows side h .unconfirmed z o) (unlisted : h ∉ o.heads) :
    ∃ kept, s.Makes (s.headExpiry h .gate)
      (((s.units.count h 256 (if (s.units.head h).retryUsed then .gateFinal else .gate)).then fun u =>
        u.outReleasing h side z o kept).then Units.drainEnd) := by
  rw [State.headExpiry_running ht]
  obtain ⟨n, leaves, -⟩ := clear.event (.headTimer h) fun e => e.expire h .gate
  obtain ⟨kept, d⟩ := Ev.Does.gateExpiry_release (e := .begin s.units true n) hs out follows unlisted (clear.unpending side) rfl
  exact ⟨kept, leaves.makes (d.trans Units.drainEnd_blind Ev.Does.drainTest) rfl rfl clear.unpending⟩

/-- A head that an event with drain complete behind it has taken OUT (R23, R156). -/
theorem State.Makes.head_outed {s t : State} {e : Effect} {h : Fin 32} {x : Head}
    (makes : s.Makes t (e.then Units.drainEnd)) (he : e.1.head h = x.outed) : t.units.head h = x.outed := by
  rw [makes.head, Effect.then_fst, Units.drainEnd_head _ h fun _ => by rw [he]; rfl, he]

/-- A flag that an event has put out is set (R163). -/
theorem State.Puts.has_flag {s t : State} {l : List Act} (puts : s.Puts t l) {side : Side} {f : Flag}
    (hf : .flag side f ∈ l) : (t.units.notices.get side).has f = true := by
  obtain ⟨-, -, -, -, -, flags, -⟩ := puts.1 side
  exact NoticeSide.has_of_flags ((s.units.puts_gives l side).flag f hf) flags

/-- Settles O54 (R22, R45, R49, R51 to R53, R113, R127, R128; log entry 12). -/
theorem expiryTakesOut : Obligations.ExpiryTakesOut := by
  intro s h k i left clear ht x reporting outs cause unreleased
  obtain ⟨out, done⟩ : x.expiresOut k ∧ exec i s = .next (s.headExpiry h k) := by
    rcases cause with ⟨rfl, rfl, hs, hk⟩ | ⟨rfl, rfl, hs, hk⟩ | ⟨rfl, rfl, hs, hk⟩ <;> exact ⟨⟨hs, hk⟩, rfl⟩
  obtain ⟨y, l, d⟩ := Units.expiry_takesOut out
  have inside : s.Inside (s.headExpiry h k) := by
    rw [State.headExpiry_running ht]
    obtain ⟨-, -, inside⟩ := clear.event (.headTimer h) fun e => e.expire h k
    exact inside
  have makes (hu : unreleased) : s.Makes (s.headExpiry h k) ((s.units.expiry h k).then Units.drainEnd) :=
    (clear.expiry_makes ht fun _ => hu).2
  have idle (running : s.units.part ≠ .draining) (hu : unreleased) : s.Makes (s.headExpiry h k) (s.units.expiry h k) :=
    Effect.then_drainEnd _ (.inl (by rwa [d.part])) ▸ makes hu
  have bagless (hb : ∀ side, x.state ≠ .discharging (.bag side)) : unreleased := fun side c => absurd c (hb side)
  refine ⟨_, done, inside, fun hu => ⟨(makes hu).head_outed d.head, ?_, makes hu⟩, fun running hc hb => ?_,
    fun side n o running hs ho hn hd => ?_, fun side dump rest running hu hs hd ha => ?_,
    fun side z o hs follows unlisted => ?_⟩
  · exact (makes hu).2.has_flag (List.mem_append_left _ d.flag)
  · have plain := d.plain hc hb ▸ idle running (bagless hb)
    obtain ⟨-, only, puts⟩ := plain.one_head fun side other => Act.on_append (d.on side other)
      (s.units.outActs_on h side other)
    exact ⟨only, l, puts⟩
  · subst hn
    have claimed := d.claimed hs hd ho
    have taken := idle running (bagless fun side' c => by rw [hs] at c; cases c)
    obtain ⟨queue, others⟩ := taken.withdrawn (congrArg Prod.fst claimed) hd ho
    rw [claimed] at taken
    exact ⟨queue, others, l, taken.2⟩
  · have marked := d.bag hs
    rw [Units.markDump_first hd ha] at marked
    have taken := marked ▸ idle running hu
    refine ⟨?_, l, taken.2⟩
    exact Eq.trans (taken.1 (.release side) (by simp)) (by simp)
  · obtain rfl : k = .gate := by
      cases k with
      | gate => rfl
      | settle => exact absurd (hs.symm.trans out.1) (by simp)
      | silence => exact absurd (by rw [hs]; rfl) (CycleState.of_watched out.1).2.2.1
    obtain ⟨kept, released⟩ := clear.gateExpiry_release ht hs out.2 follows unlisted
    refine ⟨released.head_outed ?_, kept, released⟩
    rw [Effect.then_fst, Units.outReleasing_head _ h side z o kept unlisted, Units.count_head]
    rfl

end Sys2Proof.Machine

namespace Sys2Proof.Machine

/-! ### Zero tracking (O19) -/

/-- A zero drift: its notice, and the counter raised by 16 (R42). -/
def Units.drifts (u : Units) (h : Fin 32) (notice : Act) : Effect :=
  Effect.then (u, [notice]) fun v => v.raise h 16 .zeroDrift

section
variable {u : Units} {h : Fin 32} (hs : (u.head h).state = .empty ∨ (u.head h).state = .stopped)
include hs

/-- A stable weight of an EMPTY or STOPPED head goes to zero tracking (R24). -/
theorem Units.useWeight_tracks (weight : Int) (seq : BitVec 8) :
    u.useWeight h weight seq false = u.trackZero h weight seq := by
  unfold Units.useWeight
  rcases hs with hs | hs <;> simp only [hs] <;> rfl

omit hs in
/-- Inside the zero band the zero moves (R41). -/
theorem Units.trackZero_near {weight : Int} (seq : BitVec 8)
    (near : weight - (u.head h).zero ≤ (u.params h).zeroBand ∧ (u.head h).zero - weight ≤ (u.params h).zeroBand) :
    u.trackZero h weight seq =
      (u.setHead h { u.head h with zero := (u.head h).zero + (weight - (u.head h).zero).tdiv 4 }, []) := if_pos near

omit hs in
/-- Beyond the zero band the weight drifts (R42). -/
theorem Units.trackZero_far {weight : Int} (seq : BitVec 8)
    (far : ¬ (weight - (u.head h).zero ≤ (u.params h).zeroBand ∧ (u.head h).zero - weight ≤ (u.params h).zeroBand)) :
    u.trackZero h weight seq =
      u.drifts h (.notice (u.reportingHead h) (.zeroDrift h seq weight (u.head h).zero)) := if_neg far

/-- A raise of the counter of an EMPTY or STOPPED head: the counter, or the entry to OUT at 256 (R45). -/
theorem Units.raise_resting (n : Nat) (c : HealthCause) :
    ∃ l, u.raise h n c =
        (u.setHead h (if (u.head h).health + n < 256 then (u.head h).raised n else (u.head h).outed), l) ∧
      ∀ side, side ≠ u.reportingHead h → ∀ a, a ∈ l → a.on side = false := by
  have h0 : (u.head h).state ≠ .out := by rcases hs with hs | hs <;> simp [hs]
  have h1 : (u.head h).state ≠ .disabled := by rcases hs with hs | hs <;> simp [hs]
  by_cases below : (u.head h).health + n < 256
  · refine ⟨_, ?_, Units.levelActs_on u h ((u.head h).health + n) c⟩
    rw [if_pos below]
    exact Units.raise_below u h n c h0 h1 below (.inl (by rcases hs with hs | hs <;> simp [hs, CycleState.name]))
  · have d := Units.TakesOut.of_raise (u := u) (h := h) (y := u.head h) (c := c) (k := n) rfl rfl h0 h1 (by omega)
    rw [Units.setHead_head_self] at d
    refine ⟨_, ?_, fun side other => Act.on_append (d.on side other) (u.outActs_on h side other)⟩
    rw [if_neg below]
    exact d.plain (by rcases hs with hs | hs <;> simp [hs, CycleState.name]) (by rcases hs with hs | hs <;> simp [hs])

/-- A zero drift of an EMPTY or STOPPED head tells its reporting side alone (R42). -/
theorem Units.drifts_resting (n : Notice) :
    ∃ l, u.drifts h (.notice (u.reportingHead h) n) =
        (u.setHead h (if (u.head h).health + 16 < 256 then (u.head h).raised 16 else (u.head h).outed), l) ∧
      ∀ side, side ≠ u.reportingHead h → ∀ a, a ∈ l → a.on side = false := by
  obtain ⟨l, raised, on⟩ := Units.raise_resting hs 16 .zeroDrift
  refine ⟨.notice (u.reportingHead h) n :: l, ?_, fun side other =>
    List.forall_mem_cons.2 ⟨Act.notice_on n other, on side other⟩⟩
  rw [Units.drifts, Effect.then, raised]
  rfl

end

/-- A taken report whose stable weight leaves its head's record changed, and things put out to the head's reporting side
(R34): the drain condition has not become true. -/
theorem State.Makes.weighed_record {s t : State} {r : ReportHeader} {weight : Int} {g : Units → Effect} {x : Head}
    {l : List Act} (makes : s.Makes t (s.units.taken r fun v => g (v.weighed r.head weight)))
    (hg : g (s.units.setHead r.head ((s.units.head r.head).weighedBy r weight)) = (s.units.setHead r.head x, l))
    (undrained : s.units.undrained) (hs : (s.units.head r.head).state.name ≠ .discharging)
    (on : ∀ side, side ≠ s.units.reportingHead r.head → ∀ a, a ∈ l → a.on side = false) :
    t.units.head r.head = { x with
        timer := if s.units.active = true ∧
            (x.state.name = .empty ∨ x.state.name = .ready ∨ x.state.name = .claimed) then
          .running .silence (s.units.params r.head).silenceLimit else x.timer } ∧
      s.units.onlyChanges t.units [.stage, .head r.head, .notice (s.units.reportingHead r.head)] ∧ s.Puts t l := by
  obtain ⟨record, others, puts⟩ := makes.taken_record ((congrArg g (Units.weighed_sequenced ..)).trans hg)
    (Units.heardFrom_undrained undrained hs)
  refine ⟨record, fun q hq => ?_, puts⟩
  simp only [List.mem_cons, List.not_mem_nil, or_false, not_or] at hq
  obtain ⟨hstage, hhead, hn⟩ := hq
  exact others q hstage hhead fun side c => on side fun d => hn (by rw [c, d])

/-- Of the EMPTY and STOPPED heads the EMPTY ones have a SILENCE timer (R8). -/
theorem CycleState.watched_resting {c : CycleState} (hs : c = .empty ∨ c = .stopped) :
    (c.name = .empty ∨ c.name = .ready ∨ c.name = .claimed) ↔ c = .empty := by
  rcases hs with rfl | rfl <;> simp [CycleState.name]

/-- Settles O19 (R34, R41, R42, R45). -/
theorem reportTracksZero : Obligations.ReportTracksZero := by
  intro s a w slot weight clear undrained hw r h x side y near passes hb hp stable hs
  have settled : x.state.name ≠ .discharging := by rcases hs with c | c <;> rw [c] <;> simp [CycleState.name]
  obtain ⟨v, hv⟩ : ∃ v, v = s.units.setHead h (x.weighedBy r weight) := ⟨_, rfl⟩
  have hx : v.head h = x.weighedBy r weight := by rw [hv, Units.head_setHead_same]
  have resting : (v.head h).state = .empty ∨ (v.head h).state = .stopped := by rw [hx]; exact hs
  have tracks := Units.useWeight_tracks resting weight r.seq
  have zero : (v.head h).zero = x.zero := by rw [hx]; rfl
  have band : (v.params h).zeroBand = (s.units.params h).zeroBand := by rw [hv]; rfl
  have weighs (g : Units → Effect) (hg : v.trackZero h weight r.seq = g v) :=
    clear.report_weighs hw rfl passes hb hp stable settled (g := g) (by subst hv; exact tracks.trans hg)
  have watched := CycleState.watched_resting hs
  by_cases inside : near
  · obtain ⟨t, done, wrote, stage, makes⟩ := weighs (fun v => v.trackZero h weight r.seq) rfl
    obtain ⟨record, only, puts⟩ := makes.weighed_record (g := fun v => v.trackZero h weight r.seq)
      (x := { x.weighedBy r weight with zero := x.zero + (weight - x.zero).tdiv 4 }) (l := [])
      (by
        rw [← hv, Units.trackZero_near r.seq (by rw [zero, band]; exact inside), zero, hx, hv, Units.setHead_twice])
      undrained settled (by simp)
    refine ⟨t, done, wrote, stage, only, fun _ => ⟨record.trans ?_, puts⟩, fun far => absurd inside far⟩
    simp only [Head.weighedBy, watched]
    rfl
  · have side_eq : v.reportingHead h = side := by rw [hv]; rfl
    have far := Units.trackZero_far (u := v) (h := h) r.seq (by rw [zero, band]; exact inside)
    rw [zero, side_eq] at far
    obtain ⟨t, done, wrote, stage, makes⟩ :=
      weighs (fun v => v.drifts h (.notice side (.zeroDrift h r.seq weight x.zero))) far
    obtain ⟨l, drifts, on⟩ := Units.drifts_resting resting (.zeroDrift h r.seq weight x.zero)
    rw [side_eq] at drifts on
    obtain ⟨record, only, -⟩ := makes.weighed_record
      (g := fun v => v.drifts h (.notice side (.zeroDrift h r.seq weight x.zero)))
      (x := if x.health + 16 < 256 then (x.weighedBy r weight).raised 16 else (x.weighedBy r weight).outed) (l := l)
      (by
        rw [← hv, drifts, hx, hv, Units.setHead_twice]
        rfl)
      undrained settled on
    refine ⟨t, done, wrote, stage, only, fun c => absurd c inside, fun _ => ⟨fun below => ?_, fun top => ?_, makes⟩⟩
    · rw [if_pos below] at record
      refine record.trans ?_
      simp only [Head.raised, Head.weighedBy, watched]
      rfl
    · rw [if_neg (by omega)] at record
      refine record.trans ?_
      rw [if_neg (by simp [Head.outed, CycleState.name])]
      rfl

end Sys2Proof.Machine

namespace Sys2Proof.Machine

/-! ### Envelope writes (O45, O46) -/

/-- A port's write whose word goes on to memory rewritten, and whose event neither queues anything nor touches the notice
and release units: the units are as the event left them (R139, R143). -/
theorem State.Turn.rewrites {s : State} {p : Port} (turn : s.Turn p) {a : Addr} {w order : Word} {v : Units}
    (body : ∀ e : Ev, e.units = s.units →
      Ev.write p a allStrobes w e = { e with units := v, word := some order })
    (notices : v.notices = s.units.notices) (releases : v.releases = s.units.releases) :
    s.Wrote (s.access p (.write a allStrobes w)) p a order ∧
      (∀ q, v.keeps (s.access p (.write a allStrobes w)).units q) ∧ s.NoWrites (s.access p (.write a allStrobes w)) := by
  obtain ⟨-, -, -, unpending, mem, -⟩ := turn.1
  obtain ⟨k, leaves⟩ := turn.write a allStrobes w _ (fun _ => body _ rfl) ⟨rfl, rfl⟩ fun side =>
    congrArg (fun n => (PerSide.get n side).flagWord) notices
  refine ⟨leaves.wrote rfl mem, fun q => ?_, leaves.silent rfl fun side => ?_, leaves.held fun side => ?_⟩
  · by_cases unit : ∃ side, q = .notice side
    · obtain ⟨side, rfl⟩ := unit
      have same : v.notices.get side = s.units.notices.get side := by rw [notices]
      exact (leaves.frame (.notice side) same).trans same.symm
    · exact leaves.piece q fun side hq => unit ⟨side, hq⟩
  · exact congrArg (fun n => (PerSide.get n side).flagWord) notices
  · exact (congrArg (fun r => (PerSide.get r side).releasePending) releases).trans (unpending side)

/-- The class of a write to a head's FEED word by CA or CB (R56, R64). -/
theorem classWrite_feedHead {u : Units} {p : Port} {a : Addr} {h : Fin 32} (w : Word) (hp : p ≠ .hl)
    (hw : u.inWindow a .feed h.val) : classWrite u p a allStrobes w = .feedHead h := by
  have number : headNumber h.val = h := Fin.ext (Nat.mod_eq_of_lt h.isLt)
  rw [classWrite_window hw]
  unfold classWindow
  simp only [hp, h.isLt, number, if_true, if_false]

/-- The class of a write to a zone's top word by CA or CB (R56, R68). -/
theorem classWrite_feedTop {u : Units} {p : Port} {a : Addr} {z : Zone} (w : Word) (hp : p ≠ .hl)
    (hw : u.inWindow a .feed (32 + z.number)) : classWrite u p a allStrobes w = .feedTop z := by
  rw [classWrite_window hw]
  unfold classWindow
  simp only [hp, if_false, if_neg (Nat.not_lt.2 (Nat.le_add_right 32 z.number))]
  cases z <;> rfl

/-- The order that a head's board holds, at an amplitude: the outstanding feed's, or a stop with the current sequence
(R64). -/
def Head.heldOrder (x : Head) (amplitude : Nat) : Word :=
  match x.pool with
  | some f => feedWord amplitude f.ticks f.seq
  | none => feedWord amplitude 0 x.feedSeq

section
variable {e : Ev} {u : Units} {p : Port} {a : Addr} {w : Word}

/-- A valid feed envelope's write at its grant (R64). -/
theorem Ev.write_feedEnvelope {h : Fin 32} (he : e.units = u) (hp : p ≠ .hl) (hw : u.inWindow a .feed h.val)
    (hh : h.val < u.headCount) (valid : (envelopeOf w).valid = true) :
    Ev.write p a allStrobes w e =
      { e with
        units := u.setHead h { u.head h with envelope := some (envelopeOf w) }
        word := some ((u.head h).heldOrder (bits w 0 7)) } := by
  subst he
  unfold Ev.write Ev.feedEnvelope
  simp only [classWrite_feedHead w hp hw, not_le.2 hh, valid, if_false, Bool.not_true, Bool.false_eq_true]
  rfl

/-- A valid top envelope's write at its grant (R68). -/
theorem Ev.write_topEnvelope {z : Zone} (he : e.units = u) (hp : p ≠ .hl) (hw : u.inWindow a .feed (32 + z.number))
    (hz : z.number < u.zoneCount) (valid : (topEnvelopeOf w).valid = true) :
    Ev.write p a allStrobes w e =
      { e with
        units := u.setZone z { u.zones.get z with top := (u.zones.get z).top.write (topEnvelopeOf w) }
        word := some (topWord ((topEnvelopeOf w).apply (u.zones.get z).top.trim) ((u.zones.get z).top.seq + 1)) } := by
  subst he
  unfold Ev.write Ev.topEnvelope
  simp only [classWrite_feedTop w hp hw, not_le.2 hz, valid, if_false, Bool.not_true, Bool.false_eq_true]
  rfl

end

/-- The amplitude of a top envelope under a trim, without the cut at 0 that the minimum makes needless (R67). -/
theorem TopEnvelope.apply_eq (t : TopEnvelope) (trim : Int) :
    (t.apply trim : Int) = max (t.minimum : Int) (min (t.maximum : Int) ((t.nominal : Int) + trim)) :=
  Int.toNat_of_nonneg (le_max_of_le_left (Int.natCast_nonneg _))

/-- Settles O45 (R64). -/
theorem feedEnvelopeStored : Obligations.FeedEnvelopeStored := by
  intro s p a w h turn hp hw hh amplitude tmin tmax x order
  have valid : (envelopeOf w).valid = true := by simp [Envelope.valid, envelopeOf, amplitude, tmin, tmax]
  obtain ⟨wrote, left, silent⟩ := turn.rewrites (fun _ he => Ev.write_feedEnvelope he hp hw hh valid) rfl rfl
  refine ⟨_, rfl, wrote, (left (.head h)).trans (Units.head_setHead_same ..), fun q hq => ?_, silent⟩
  exact Ev.Moves.keeps_trans (Units.setHead_keeps _ _ _ q (by simpa using hq)) (left q)

/-- Settles O46 (R67, R68). -/
theorem topEnvelopeStored : Obligations.TopEnvelopeStored := by
  intro s p a w z turn hp hw hz nominal minimum maximum low high old
  have valid : (topEnvelopeOf w).valid = true := by
    simp [TopEnvelope.valid, topEnvelopeOf, nominal, minimum, maximum, low, high]
  obtain ⟨wrote, left, silent⟩ := turn.rewrites (fun _ he => Ev.write_topEnvelope he hp hw hz valid) rfl rfl
  have stored : (s.units.setZone z { old with top := old.top.write (topEnvelopeOf w) }).zones.get z =
      { old with top := old.top.write (topEnvelopeOf w) } := by
    rw [Units.setZone_zones, PerZone.get_set, if_pos rfl]
  refine ⟨_, (topEnvelopeOf w).apply old.top.trim, rfl, wrote, TopEnvelope.apply_eq _ _, (left (.zone z)).trans stored,
    fun q hq => ?_, silent⟩
  exact Ev.Moves.keeps_trans (Units.setZone_keeps _ _ _ q (by simpa using hq)) (left q)

end Sys2Proof.Machine

namespace Sys2Proof.Machine

/-! ### Candidate windows (O34, O35) -/

theorem headNumber_val (h : Fin 32) : headNumber h.val = h := Fin.ext (Nat.mod_eq_of_lt h.isLt)

theorem Units.setView_keeps (u : Units) (s : Side) (x : View) (q : Piece) (hq : q ≠ .view s) : u.keeps (u.setView s x) q := by
  cases q <;> simp [Units.keeps, Units.mirrorWord] at hq ⊢
  intro c; exact absurd c hq

/-- A read by CA or CB in a candidate window is a served read (R91, R137). -/
theorem Units.servedAt_candidate {u : Units} {p : Port} {a : Addr} {side : Side} {off : Nat} (hp : p ≠ .hl)
    (hw : u.windowAt a = some (.candidate side, off)) : u.servedAt p a = some (side, off) := by
  unfold Units.servedAt
  cases p with
  | hl => exact absurd rfl hp
  | ca | cb => rw [hw]

/-! The fields of the served words (R170). Each word is named at the width that its fields add up to, which is where the
lemmas of `++` apply. -/

/-- A header word holds the generation, the part state and the offered count. -/
theorem candidateHeaderWord_fields (g : BitVec 16) (part : PartState) {n : Nat} (hn : n < 64) :
    (candidateHeaderWord g part n).extractLsb' 16 16 = g ∧ (candidateHeaderWord g part n).extractLsb' 8 2 = part.code ∧
      ((candidateHeaderWord g part n).extractLsb' 0 6).toNat = n := by
  let w := g ++ 0#6 ++ part.code ++ 0#2 ++ BitVec.ofNat 6 n
  show w.extractLsb' 16 16 = _ ∧ w.extractLsb' 8 2 = _ ∧ (w.extractLsb' 0 6).toNat = _
  simp (disch := decide) only [w, BitVec.extractLsb'_append_eq_of_le, BitVec.extractLsb'_append_eq_of_add_le]
  simp [Nat.mod_eq_of_lt hn]

/-- An entry word holds state, marks, level, age and frozen weight of its entry. -/
theorem candidateEntryWord_fields (e : ViewEntry) :
    let w := candidateEntryWord e
    w.extractLsb' 29 3 = e.state.code ∧ w.extractLsb' 28 1 = bit e.offered ∧ w.extractLsb' 27 1 = bit e.stale ∧
      w.extractLsb' 25 2 = e.level.code ∧ w.extractLsb' 21 4 = BitVec.ofNat 4 (min 15 e.age) ∧
      w.extractLsb' 0 21 = BitVec.ofInt 21 e.frozen := by
  let w := e.state.code ++ bit e.offered ++ bit e.stale ++ e.level.code ++ BitVec.ofNat 4 (min 15 e.age) ++
    BitVec.ofInt 21 e.frozen
  show w.extractLsb' 29 3 = _ ∧ w.extractLsb' 28 1 = _ ∧ w.extractLsb' 27 1 = _ ∧ w.extractLsb' 25 2 = _ ∧
    w.extractLsb' 21 4 = _ ∧ w.extractLsb' 0 21 = _
  simp (disch := decide) only [w, BitVec.extractLsb'_append_eq_of_le, BitVec.extractLsb'_append_eq_of_add_le]
  simp

/-- A deviation word holds age and deviation of its entry. -/
theorem candidateDeviationWord_fields (e : ViewEntry) :
    (candidateDeviationWord e).extractLsb' 24 8 = BitVec.ofNat 8 e.age ∧
      (candidateDeviationWord e).extractLsb' 0 24 = BitVec.ofInt 24 e.deviation :=
  ⟨BitVec.extractLsb'_append_eq_left, BitVec.extractLsb'_append_eq_right⟩

/-! The word that stands at each offset of a window (R89). -/

theorem Units.viewWord_header (u : Units) (s : Side) :
    u.viewWord s 0 = candidateHeaderWord (u.views.get s).generation u.part (u.views.get s).offered := rfl

theorem Units.viewWord_entry (u : Units) (s : Side) (h : Fin 32) :
    u.viewWord s (1 + h.val) = candidateEntryWord (u.views.get s).entries[h.val] := by
  simp only [Units.viewWord, if_neg (show ¬ 1 + h.val = 0 by omega), if_pos (show 1 + h.val < 33 by omega),
    Nat.add_sub_cancel_left, headNumber_val]

theorem Units.viewWord_deviation (u : Units) (s : Side) (h : Fin 32) :
    u.viewWord s (33 + h.val) = candidateDeviationWord (u.views.get s).entries[h.val] := by
  simp only [Units.viewWord, if_neg (show ¬ 33 + h.val = 0 by omega), if_neg (show ¬ 33 + h.val < 33 by omega),
    Nat.add_sub_cancel_left, headNumber_val]

/-! What an entry of a latched snapshot says of its head (R93 to R95). -/

section
variable {u : Units} {h : Fin 32}

theorem Units.offered_iff {side : Side} : u.offered h side = true ↔ (u.head h).state = .ready ∧ (u.head h).health < 128 ∧
    u.granted h side = true ∧ ∃ z, u.zoneOf h.val = some z ∧ u.binding side = some z := by
  have zones : ((u.zoneOf h.val).isSome = true ∧ u.zoneOf h.val = u.binding side) ↔
      ∃ z, u.zoneOf h.val = some z ∧ u.binding side = some z := by
    rw [Option.isSome_iff_exists]
    exact ⟨fun ⟨⟨z, hz⟩, same⟩ => ⟨z, hz, same ▸ hz⟩, fun ⟨z, hz, hb⟩ => ⟨⟨z, hz⟩, hz.trans hb.symm⟩⟩
  rw [← zones]
  simp only [Units.offered, Bool.and_eq_true, decide_eq_true_eq]
  tauto

theorem Units.staleMark_iff :
    u.staleMark h = true ↔ ∃ z, u.zoneOf h.val = some z ∧ (u.zoneParams z).staleAge ≤ (u.head h).age := by
  unfold Units.staleMark
  cases u.zoneOf h.val <;> simp

theorem Units.deviation_frozen {f : Int} {z : Zone} (hf : (u.head h).frozen = some f) (hz : u.zoneOf h.val = some z) :
    u.deviation h = f - u.fillTarget h := by
  simp only [Units.deviation, hf, hz]

theorem Units.deviation_none (hn : (u.head h).frozen = none ∨ u.zoneOf h.val = none) : u.deviation h = 0 := by
  unfold Units.deviation
  rcases hn with hn | hn
  · rw [hn]
  · rw [hn]
    cases (u.head h).frozen <;> rfl

end

theorem Units.latched_entry (u : Units) (s : Side) (h : Fin 32) : (u.latched s).entries[h.val] = u.viewEntry s h :=
  Vector.getElem_ofFn h.isLt

/-- The offered count of a latched snapshot is the number of its offered entries (R92). -/
theorem Units.latched_offered (u : Units) (s : Side) :
    (u.latched s).offered = (allHeads.filter fun h => (u.latched s).entries[h.val].offered).length := by
  simp only [Units.latched_entry]
  rfl

/-- At most every head is offered, so the header word's field holds the count. -/
theorem Units.latched_offered_lt (u : Units) (s : Side) : (u.latched s).offered < 64 :=
  (List.length_filter_le _ allHeads).trans_lt (by decide)

@[simp] theorem Units.latchView_view (u : Units) (s : Side) : (u.latchView s).views.get s = u.latched s := by
  simp [Units.latchView]

/-- Settles O34 (R81, R85, R92 to R95, R170). -/
theorem candidateHeaderLatches : Obligations.CandidateHeaderLatches := by
  intro s p a strobes side current upstream hp hw
  have latched := Units.latchView_view s.units side
  have word : (s.units.latchView side).viewWord side 0 =
      candidateHeaderWord (s.units.latched side).generation s.units.part (s.units.latched side).offered := by
    rw [Units.viewWord_header, latched]
    rfl
  obtain ⟨generation, part, count⟩ := candidateHeaderWord_fields (s.units.latched side).generation s.units.part
    (s.units.latched_offered_lt side)
  refine ⟨_, _, _, congrArg Host.Outcome.next
      (State.access_served current upstream a strobes (Units.servedAt_candidate hp hw)), rfl, latched, rfl,
    s.units.latched_offered side, word ▸ generation, word ▸ part, word ▸ count, fun h => ?_, fun q hq => ?_, rfl,
    ⟨rfl, rfl⟩, rfl, rfl⟩
  · simp only [Units.latched_entry]
    exact ⟨rfl, rfl, rfl, rfl, Units.offered_iff, Units.staleMark_iff, fun _ _ => Units.deviation_frozen,
      Units.deviation_none⟩
  · exact Units.setView_keeps _ _ _ q (by simpa using hq)

/-- Settles O35 (R89, R96, R170). -/
theorem candidateEntryServed : Obligations.CandidateEntryServed := by
  intro s p a strobes side h off current upstream hp hw place
  have served := State.access_served current upstream a strobes (Units.servedAt_candidate hp hw)
  rw [if_neg (show ¬ off = 0 by omega)] at served
  refine ⟨s.units.viewWord side off, congrArg Host.Outcome.next served, ?_, ?_⟩
  · rintro rfl
    rw [Units.viewWord_entry]
    exact candidateEntryWord_fields _
  · rintro rfl
    rw [Units.viewWord_deviation]
    exact candidateDeviationWord_fields _

end Sys2Proof.Machine

namespace Sys2Proof.Machine

/-! ### Parameter commands (O22, O24) -/

/-- An APPLY-SIDE argument names the side of its number (R168). -/
theorem sideArg_eq_some {arg : BitVec 8} {x : Side} : sideArg arg = some x ↔ arg.toNat = x.number := by
  unfold sideArg
  cases x <;> simp only [Side.number, ← BitVec.toNat_inj] <;> split_ifs <;> simp_all

/-- An APPLY-ZONE argument names the zone of its number (R168). -/
theorem zoneArg_eq_some {arg : BitVec 8} {z : Zone} : zoneArg arg = some z ↔ arg.toNat = z.number := by
  unfold zoneArg
  cases z <;> simp only [Zone.number, ← BitVec.toNat_inj] <;> split_ifs <;> simp_all

section
variable {e : Ev} {arg : BitVec 8} {x : Side} {z : Zone}

/-- APPLY-SIDE of no enabled side (R116). -/
theorem Ev.cmdApplySide_arg (ht : e.units.part ≠ .transparent)
    (ha : ∀ x : Side, arg.toNat = x.number → e.units.enabled x = false) : e.cmdApplySide arg = e.refused .arg 0 := by
  unfold Ev.cmdApplySide
  rw [if_neg ht]
  cases hs : sideArg arg with
  | none => rfl
  | some x => simp only [ha x (sideArg_eq_some.1 hs), Bool.not_false, if_true]

/-- APPLY-ZONE of no zone below the zone count (R76). -/
theorem Ev.cmdApplyZone_arg (ht : e.units.part ≠ .transparent)
    (ha : ∀ z : Zone, arg.toNat = z.number → e.units.zoneCount ≤ z.number) : e.cmdApplyZone arg = e.refused .arg 0 := by
  unfold Ev.cmdApplyZone
  rw [if_neg ht]
  cases hz : zoneArg arg with
  | none => rfl
  | some z => simp only [ha z (zoneArg_eq_some.1 hz), if_true]

/-- APPLY-SIDE of an enabled side: the first failing check of its block, or the block staged, or staged and at once in effect
(R116, R117). -/
theorem Ev.cmdApplySide_eq (ht : e.units.part ≠ .transparent) (ha : arg.toNat = x.number) (hx : e.units.enabled x = true) :
    let r (i : Nat) : Word := e.units.mirrorWord (sideBlockOffset x + i)
    e.cmdApplySide arg = match firstFailing (sideChecks r) with
      | some i => e.refused .check (detailCheck i)
      | none =>
        if e.units.part = .stopped ∨ (e.units.orders.get x).queue = [] then
          ({ e with units := e.units.setOrder x { e.units.orders.get x with live := some (sideBlockOf r), staged := none } },
            .done detailApplied)
        else
          ({ e with units := e.units.setOrder x { e.units.orders.get x with staged := some (sideBlockOf r) } },
            .done detailStaged) := by
  unfold Ev.cmdApplySide
  simp only [if_neg ht, sideArg_eq_some.2 ha, hx, Bool.not_true, Bool.false_eq_true, if_false]
  cases firstFailing (sideChecks fun i => e.units.mirrorWord (sideBlockOffset x + i)) with
  | some i => rfl
  | none => simp [Ev.modOrder, Ev.sideEffect, OrderSide.effect]

/-- APPLY-ZONE of a zone below the zone count, likewise (R76, R79). -/
theorem Ev.cmdApplyZone_eq (ht : e.units.part ≠ .transparent) (ha : arg.toNat = z.number)
    (hz : z.number < e.units.zoneCount) :
    let r (i : Nat) : Word := e.units.mirrorWord (zoneBlockOffset z + i)
    e.cmdApplyZone arg = match firstFailing (zoneChecks r) with
      | some i => e.refused .check (detailCheck i)
      | none =>
        if e.units.part = .stopped ∨ e.units.claimedIn z = false then
          ({ e with units := e.units.setZone z ((e.units.zones.get z).take (zoneBlockOf r)) }, .done detailApplied)
        else
          ({ e with units := e.units.setZone z { e.units.zones.get z with staged := some (zoneBlockOf r) } },
            .done detailStaged) := by
  have claimed : ∀ y, (e.units.setZone z y).claimedIn z = e.units.claimedIn z := fun _ => rfl
  unfold Ev.cmdApplyZone
  simp only [if_neg ht, zoneArg_eq_some.2 ha, if_neg (not_le.2 hz)]
  cases firstFailing (zoneChecks fun i => e.units.mirrorWord (zoneBlockOffset z + i)) with
  | some i => rfl
  | none => simp [Ev.modZone, Ev.zoneEffect, ZoneRec.effect, ZoneRec.take, claimed]

end

/-- Settles O24 (R76, R116, R168). -/
theorem applyRefused : Obligations.ApplyRefused := by
  intro s p slot c arg why detail turn hp ht clause
  refine turn.exec_refused hp slot c arg why detail fun e he => ?_
  rw [← he] at ht clause
  rcases clause with ⟨rfl, rfl, rfl, ha⟩ | ⟨rfl, rfl, rfl, ha⟩ | ⟨rfl, rfl, x, i, ha, hx, fails, rfl⟩ |
    ⟨rfl, rfl, z, i, ha, hz, fails, rfl⟩
  · exact Ev.cmdApplySide_arg ht ha
  · exact Ev.cmdApplyZone_arg ht ha
  · exact (Ev.cmdApplySide_eq ht ha hx).trans (by rw [fails])
  · exact (Ev.cmdApplyZone_eq ht ha hz).trans (by rw [fails])

/-- A command that needs no entry and leaves the notice and release units alone, taken when the port's turn comes: the units
are as taking it left them, but for the command's word (R152). -/
theorem State.Turn.command_leaves {s : State} {p : Port} (turn : s.Turn p) (hp : p ≠ .hl) (slot : Side) (c : Command)
    (arg : BitVec 8) (detail : BitVec 14) (v : Units)
    (take : ∀ e : Ev, e.units = s.units → e.take slot c arg = ({ e with units := v }, .done detail))
    (notices : v.notices = s.units.notices) (releases : v.releases = s.units.releases)
    (mirror : v.mirror = s.units.mirror) :
    let t := s.command c p slot arg
    s.Commanded t p slot c arg detail ∧ (∀ q, q ≠ .mirror (slotOffset slot) → v.keeps t.units q) ∧ s.NoWrites t := by
  obtain ⟨-, -, -, unpending, -, wf⟩ := turn.1
  have flagWord : ∀ side, (v.notices.get side).flagWord = (s.units.notices.get side).flagWord := fun side =>
    congrArg (fun n => (PerSide.get n side).flagWord) notices
  obtain ⟨k, leaves⟩ := turn.command_silent (.inr hp) slot c arg _ (fun _ => take _ rfl) (fun _ => ⟨rfl, rfl⟩)
    (fun _ => flagWord) fun _ => mirror ▸ wf
  refine ⟨⟨leaves.wrote, leaves.mirror⟩, fun q hq => ?_, leaves.silent rfl flagWord, leaves.held fun side => ?_⟩
  · by_cases unit : ∃ side, q = .notice side
    · obtain ⟨side, rfl⟩ := unit
      have same : v.notices.get side = s.units.notices.get side := by rw [notices]
      exact (leaves.frame (.notice side) hq same).trans same.symm
    · exact leaves.piece q (fun side c => unit ⟨side, c⟩) hq
  · exact (congrArg (fun r => (PerSide.get r side).releasePending) releases).trans (unpending side)

section
variable {s : State} {p : Port}

/-- A command that changes a side's order unit only (R152). -/
theorem State.Turn.command_order (turn : s.Turn p) (hp : p ≠ .hl) (slot : Side) (c : Command) (arg : BitVec 8)
    (detail : BitVec 14) (x : Side) (y : OrderSide)
    (take : ∀ e : Ev, e.units = s.units → e.take slot c arg = ({ e with units := s.units.setOrder x y }, .done detail)) :
    let t := s.command c p slot arg
    s.Commanded t p slot c arg detail ∧ t.units.orders.get x = y ∧
      s.units.onlyChanges t.units [.mirror (slotOffset slot), .order x] ∧ s.NoWrites t := by
  obtain ⟨commanded, left, silent⟩ := turn.command_leaves hp slot c arg detail _ take rfl rfl rfl
  refine ⟨commanded, (left (.order x) (by simp)).trans (by simp), fun q hq => ?_, silent⟩
  simp only [List.mem_cons, List.not_mem_nil, or_false, not_or] at hq
  exact Ev.Moves.keeps_trans (Units.setOrder_keeps _ _ _ q hq.2) (left q hq.1)

/-- A command that changes a zone's record only (R152). -/
theorem State.Turn.command_zone (turn : s.Turn p) (hp : p ≠ .hl) (slot : Side) (c : Command) (arg : BitVec 8)
    (detail : BitVec 14) (z : Zone) (y : ZoneRec)
    (take : ∀ e : Ev, e.units = s.units → e.take slot c arg = ({ e with units := s.units.setZone z y }, .done detail)) :
    let t := s.command c p slot arg
    s.Commanded t p slot c arg detail ∧ t.units.zones.get z = y ∧
      s.units.onlyChanges t.units [.mirror (slotOffset slot), .zone z] ∧ s.NoWrites t := by
  obtain ⟨commanded, left, silent⟩ := turn.command_leaves hp slot c arg detail _ take rfl rfl rfl
  refine ⟨commanded, (left (.zone z) (by simp)).trans (by simp), fun q hq => ?_, silent⟩
  simp only [List.mem_cons, List.not_mem_nil, or_false, not_or] at hq
  exact Ev.Moves.keeps_trans (Units.setZone_keeps _ _ _ q hq.2) (left q hq.1)

end

/-- Settles O22 (R76, R79, R115 to R117). -/
theorem applyTaken : Obligations.ApplyTaken := by
  constructor
  · intro s p slot x arg turn hp ht ha hx valid b now
    have take (e : Ev) (he : e.units = s.units) := Ev.cmdApplySide_eq (e := e) (by rwa [he]) ha (by rwa [he])
    refine ⟨_, Command.exec_instr .applySide p slot arg s, ?_⟩
    by_cases h : now
    · obtain ⟨commanded, order, rest⟩ := turn.command_order hp slot .applySide arg detailApplied x
        { s.units.orders.get x with live := some b, staged := none } fun e he => (take e he).trans (by
          rw [he, valid]; exact if_pos h)
      exact ⟨fun _ => ⟨commanded, order⟩, fun c => absurd h c, rest⟩
    · obtain ⟨commanded, order, rest⟩ := turn.command_order hp slot .applySide arg detailStaged x
        { s.units.orders.get x with staged := some b } fun e he => (take e he).trans (by
          rw [he, valid]; exact if_neg h)
      exact ⟨fun c => absurd c h, fun _ => ⟨commanded, order⟩, rest⟩
  · intro s p slot z arg turn hp ht ha hz valid b old now
    have take (e : Ev) (he : e.units = s.units) := Ev.cmdApplyZone_eq (e := e) (by rwa [he]) ha (by rwa [he])
    refine ⟨_, Command.exec_instr .applyZone p slot arg s, ?_⟩
    by_cases h : now
    · obtain ⟨commanded, zone, rest⟩ := turn.command_zone hp slot .applyZone arg detailApplied z (old.take b)
        fun e he => (take e he).trans (by rw [he, valid]; exact if_pos h)
      exact ⟨fun _ => ⟨commanded, zone⟩, fun c => absurd h c, rest⟩
    · obtain ⟨commanded, zone, rest⟩ := turn.command_zone hp slot .applyZone arg detailStaged z
        { old with staged := some b } fun e he => (take e he).trans (by rw [he, valid]; exact if_neg h)
      exact ⟨fun c => absurd c h, fun _ => ⟨commanded, zone⟩, rest⟩

end Sys2Proof.Machine

namespace Sys2Proof.Machine

/-! ### Writes into the order windows (O40, O43) -/

/-- The class of a write at an offset 1 to 3 of an order slot by the window's owner (R101, R137). -/
theorem classWrite_orderWord {u : Units} {a : Addr} {side : Side} {slot off : Nat} (w : Word)
    (hw : u.inWindow a (.order side) (4 * slot + off)) (h1 : 1 ≤ off) (h3 : off ≤ 3) :
    classWrite u (u.owner side) a allStrobes w = .orderWord side slot off := by
  have word : (4 * slot + off) % 4 = off := by omega
  have group : (4 * slot + off) / 4 = slot := by omega
  rw [classWrite_window hw]
  unfold classWindow
  simp only [ne_eq, not_true, if_false, word, group, show off ≠ 0 by omega]

/-- The class of a write of a commit word by the window's owner (R101, R137). -/
theorem classWrite_commit {u : Units} {a : Addr} {side : Side} {slot : Nat} (w : Word)
    (hw : u.inWindow a (.order side) (4 * slot)) :
    classWrite u (u.owner side) a allStrobes w = .commit side slot := by
  rw [classWrite_window hw]
  unfold classWindow
  simp

/-- A commit word's write at its grant is the commit (R103). -/
theorem Ev.write_commit {e : Ev} {u : Units} {a : Addr} {w : Word} {side : Side} {slot : Nat} (he : e.units = u)
    (hw : u.inWindow a (.order side) (4 * slot)) :
    Ev.write (u.owner side) a allStrobes w e = e.commit side slot w := by
  subst he
  unfold Ev.write
  rw [classWrite_commit w hw]

/-- A head or total word's write at its grant is kept in the side's stage (R102). -/
theorem Ev.write_orderWord {e : Ev} {u : Units} {a : Addr} {w : Word} {side : Side} {slot off : Nat} (he : e.units = u)
    (hw : u.inWindow a (.order side) (4 * slot + off)) (h1 : 1 ≤ off) (h3 : off ≤ 3) :
    Ev.write (u.owner side) a allStrobes w e = e.orderWord side slot off w := by
  subst he
  unfold Ev.write
  rw [classWrite_orderWord w hw h1 h3]

/-- A port's write whose event changes a side's order unit and nothing else. -/
theorem State.Turn.rewrites_order {s : State} {p : Port} (turn : s.Turn p) {a : Addr} {w v : Word} {side : Side}
    {q : OrderSide} (body : ∀ e : Ev, e.units = s.units →
      Ev.write p a allStrobes w e = { e with units := s.units.setOrder side q, word := some v }) :
    let t := s.access p (.write a allStrobes w)
    s.Wrote t p a v ∧ t.units.orders.get side = q ∧ s.units.onlyChanges t.units [.order side] ∧ s.NoWrites t := by
  obtain ⟨wrote, left, silent⟩ := turn.rewrites body rfl rfl
  refine ⟨wrote, (left (.order side)).trans (by simp), fun x hx => ?_, silent⟩
  exact Ev.Moves.keeps_trans (Units.setOrder_keeps _ _ _ x (by simpa using hx)) (left x)

/-- Settles O40 (R101, R102). -/
theorem orderWordStaged : Obligations.OrderWordStaged := by
  rintro s _ a w side slot off turn hw rfl h1 h3
  obtain ⟨g, stage, group, kept, others⟩ := stageWord_spec (s.units.orders.get side).stage slot w h1 h3
  obtain ⟨wrote, order, rest⟩ := turn.rewrites_order (a := a) (w := w) (v := w) (side := side)
    (q := { s.units.orders.get side with stage := some g }) fun e he => (Ev.write_orderWord he hw h1 h3).trans (by
      unfold Ev.orderWord Ev.modOrder
      simp only [he, stage])
  exact ⟨_, g, rfl, wrote, order, group, kept, others, rest⟩

end Sys2Proof.Machine

namespace Sys2Proof.Machine

/-! ### The thirteen checks of a SUBMIT (O41, O43) -/

section
variable {p : Prop} {l m : List Prop} {k k' : Option Nat}

theorem FirstFails.here (h : ¬ p) : FirstFails (p :: l) (some 1) := .inl ⟨h, rfl⟩

theorem FirstFails.later {n : Nat} (h : p) (f : FirstFails l (some n)) : FirstFails (p :: l) (some (n + 1)) :=
  .inr ⟨h, some n, f, rfl⟩

theorem FirstFails.pass (h : p) (f : FirstFails l none) : FirstFails (p :: l) none := .inr ⟨h, none, f, rfl⟩

/-- At most one test of a list is the first that fails. -/
theorem FirstFails.unique (f : FirstFails l k) (g : FirstFails l k') : k = k' := by
  induction l generalizing k k' with
  | nil => exact Eq.trans f (Eq.symm g)
  | cons p rest ih =>
    rcases f with ⟨fails, rfl⟩ | ⟨holds, j, f, rfl⟩
    · rcases g with ⟨-, rfl⟩ | ⟨holds, -⟩
      · rfl
      · exact absurd holds fails
    · rcases g with ⟨fails, -⟩ | ⟨-, j', g, rfl⟩
      · exact absurd holds fails
      · rw [ih f g]

/-- Where every test of a list holds, the first that fails stands in the list behind it. -/
theorem FirstFails.append (f : FirstFails l none) (g : FirstFails m k) : FirstFails (l ++ m) (k.map (· + l.length)) := by
  induction l with
  | nil => simpa using g
  | cons p rest ih =>
    rcases f with ⟨-, c⟩ | ⟨holds, j, f, hj⟩
    · cases c
    · obtain rfl : j = none := by simpa using hj.symm
      refine .inr ⟨holds, _, ih f, ?_⟩
      cases k <;> simp [Nat.add_assoc]

theorem FirstFails.append_left {n : Nat} (f : FirstFails l (some n)) : FirstFails (l ++ m) (some n) := by
  induction l generalizing n with
  | nil => cases f
  | cons p rest ih =>
    rcases f with ⟨fails, hn⟩ | ⟨holds, _ | j, f, hn⟩
    · exact .inl ⟨fails, hn⟩
    · cases hn
    · cases hn
      exact .later holds (ih f)

theorem firstFails_none : FirstFails l none ↔ ∀ p ∈ l, p := by
  induction l with
  | nil => simp [FirstFails]
  | cons p rest ih => rw [List.forall_mem_cons, ← ih]; simp [FirstFails]

/-- The test at a place fails first when those before it hold. -/
theorem FirstFails.at {i : Nat} (hi : i < l.length) (fails : ¬ l[i]) (before : ∀ j (hj : j < i), l[j]) :
    FirstFails l (some (i + 1)) := by
  induction l generalizing i with
  | nil => simp at hi
  | cons p rest ih =>
    cases i with
    | zero => exact .here fails
    | succ i =>
      exact .later (before 0 (by omega)) (ih (by simpa using hi) fails fun j hj => before (j + 1) (by omega))

end

section
variable {l : List Nat} {test : Nat → Nat → Prop}

/-- The first listed head that fails a test, as the order unit finds it (R105, R106). -/
theorem firstListed_fails (fails : Nat → Bool) (h : ∀ i m, l[i]? = some m → (test i m ↔ fails m = false)) :
    FirstFails (l.mapIdx test) (firstListed l fails) := by
  unfold firstListed
  cases hf : l.findIdx? fails with
  | none =>
    rw [List.findIdx?_eq_none_iff] at hf
    rw [Option.map_none, firstFails_none]
    rintro p hp
    obtain ⟨i, hi, rfl⟩ := List.mem_mapIdx.1 hp
    exact (h i l[i] (List.getElem?_eq_getElem hi)).2 (hf _ (List.getElem_mem hi))
  | some i =>
    obtain ⟨hi, fail, before⟩ := List.findIdx?_eq_some_iff_getElem.1 hf
    refine FirstFails.at (by simpa using hi) ?_ fun j hj => ?_
    · rw [List.getElem_mapIdx, h i l[i] (List.getElem?_eq_getElem hi)]
      simp [fail]
    · rw [List.getElem_mapIdx, h j l[j] (List.getElem?_eq_getElem (by omega))]
      simpa using before j hj

/-- The first list position that names a head again (R105; log entry 30). -/
theorem firstDuplicate_fails (l : List Nat) : FirstFails (l.mapIdx fun i m => m ∉ l.take i) (firstDuplicate l) := by
  have repeats : ∀ i (hi : i < l.length), (l.take i).contains (l.getD i 0) = true ↔ l[i] ∈ l.take i := fun i hi => by
    rw [List.contains_iff_mem, List.getD_eq_getElem?_getD, List.getElem?_eq_getElem hi, Option.getD_some]
  unfold firstDuplicate
  cases hf : (List.range l.length).find? fun i => (l.take i).contains (l.getD i 0) with
  | none =>
    rw [Option.map_none, firstFails_none]
    rintro p hp
    obtain ⟨i, hi, rfl⟩ := List.mem_mapIdx.1 hp
    rw [← repeats i hi]
    exact List.find?_eq_none.1 hf i (List.mem_range.2 hi)
  | some i =>
    obtain ⟨again, hi, before⟩ := List.find?_range_eq_some.1 hf
    have hi := List.mem_range.1 hi
    refine FirstFails.at (by simpa using hi) ?_ fun j hj => ?_
    · rw [List.getElem_mapIdx, ← repeats i hi]
      exact not_not.2 again
    · rw [List.getElem_mapIdx, ← repeats j (by omega)]
      simpa using before j hj

/-- Of tests of the listed heads, each with its reason and the first position at which it fails, the first that fails at any
gives the verdict. -/
def firstVerdict : List (OrderReason × Option Nat) → Option OrderVerdict
  | [] => none
  | (why, position) :: rest => (position.map (.refused why)).or (firstVerdict rest)

/-- A test of every listed head holds where it fails at no position. -/
theorem firstFails_listed_none : FirstFails (l.mapIdx test) none ↔ ∀ i m, l[i]? = some m → test i m := by
  rw [firstFails_none]
  simp only [List.mem_mapIdx, List.getElem?_eq_some_iff]
  constructor
  · rintro h i _ ⟨hi, rfl⟩
    exact h _ ⟨i, hi, rfl⟩
  · rintro h _ ⟨i, hi, rfl⟩
    exact h i _ ⟨hi, rfl⟩

theorem firstFails_listed_some {n : Nat} (f : FirstFails (l.mapIdx test) (some n)) :
    ¬ ∀ i m, l[i]? = some m → test i m := fun h => by
  cases f.unique (firstFails_listed_none.2 h)

section
variable {tests : List (Nat → Nat → Prop)} {found : List (OrderReason × Option Nat)}
  (h : List.Forall₂ (fun test x => FirstFails (l.mapIdx test) x.2) tests found)
include h

/-- No verdict: every test holds of every listed head. -/
theorem firstVerdict_none (hv : firstVerdict found = none) :
    FirstFails (tests.map fun test => ∀ i m, l[i]? = some m → test i m) none := by
  induction h with
  | nil => rfl
  | @cons test x tests found first _ ih =>
    obtain ⟨why, position⟩ := x
    obtain ⟨hx, rest⟩ := Option.or_eq_none_iff.1 hv
    obtain rfl := Option.map_eq_none_iff.1 hx
    exact .pass (firstFails_listed_none.1 first) (ih rest)

/-- A verdict is a refusal by the first test that fails, at the first position where it does (R105, R106). -/
theorem firstVerdict_some {v : OrderVerdict} (hv : firstVerdict found = some v) :
    ∃ i test why position, v = .refused why position ∧
      FirstFails (tests.map fun test => ∀ i m, l[i]? = some m → test i m) (some (i + 1)) ∧ tests[i]? = some test ∧
      (found.map Prod.fst)[i]? = some why ∧ FirstFails (l.mapIdx test) (some position) := by
  induction h with
  | nil => cases hv
  | @cons test x tests found first _ ih =>
    obtain ⟨why, _ | position⟩ := x
    · obtain ⟨i, test', why', position, rfl, fails, rest⟩ := ih hv
      exact ⟨i + 1, test', why', position, rfl, .later (firstFails_listed_none.1 first) fails, rest⟩
    · cases hv
      exact ⟨0, test, why, position, rfl, .here (firstFails_listed_some first), rfl, rfl, first⟩

end

end

section
variable (u : Units) (side : Side)

/-- Checks 5 to 9 with their reasons, each with the first list position at which it fails (R104). -/
def Units.headFailures (u : Units) (s : Side) (l : List Nat) : List (OrderReason × Option Nat) :=
  [(.zone, firstListed l fun n => decide (u.headCount ≤ n) || u.zoneOf n != u.binding s),
    (.duplicate, firstDuplicate l),
    (.claimed, firstListed l fun n => (u.head (headNumber n)).state.name = .claimed),
    (.notReady, firstListed l fun n => (u.head (headNumber n)).state ≠ .ready),
    (.notOffered, firstListed l fun n => !u.granted (headNumber n) s || 128 ≤ (u.head (headNumber n)).health)]

theorem judgeHeads_eq_firstVerdict (l : List Nat) : judgeHeads u side l = firstVerdict (u.headFailures side l) := by
  unfold judgeHeads Units.headFailures
  simp only [firstVerdict, Option.orElse_eq_or, Option.or_none]

/-- Each of them fails first where the order unit says. -/
theorem Units.headFailures_fails (l : List Nat) :
    List.Forall₂ (fun test x => FirstFails (l.mapIdx test) x.2) (u.headTests side l) (u.headFailures side l) := by
  refine .cons (firstListed_fails _ fun i m _ => ?_) (.cons (firstDuplicate_fails l) (.cons
    (firstListed_fails _ fun i m _ => ?_) (.cons (firstListed_fails _ fun i m _ => ?_) (.cons
      (firstListed_fails _ fun i m _ => ?_) .nil))))
  · simp
  · simp
  · simp
  · simp

/-- Checks 1 to 4 of a SUBMIT (R104). -/
def Units.orderTests (u : Units) (side : Side) (slot : Nat) (w : Word) : List Prop :=
  let q := u.orders.get side
  let live (test : SideBlock → Prop) : Prop := ∀ b, q.live = some b → test b
  [ u.part = .running,
    u.enabled side = true ∧ q.live.isSome = true ∧ live fun b => b.intake = true,
    (stagedWord q.stage slot 1).isSome = true ∧ (stagedWord q.stage slot 3).isSome = true ∧
      (4 < commitCount w → (stagedWord q.stage slot 2).isSome = true),
    live fun b => b.minHeads ≤ commitCount w ∧ commitCount w ≤ b.maxHeads ]

/-- Checks 10 to 13 (R104, R107). -/
def Units.bagTests (u : Units) (side : Side) (listed : List Nat) (total : Int) : List Prop :=
  let q := u.orders.get side
  let sum : Int := (listed.map fun m => (u.head (headNumber m)).frozen.getD 0).sum
  [ total = sum,
    ∀ b, q.live = some b → b.bagMin ≤ sum ∧ sum ≤ b.bagMax,
    q.queue.length < 2,
    (u.notices.get side).reservations + 1 ≤ (u.notices.get side).room (u.ringSize side) ]

/-- The total word that a SUBMIT's group holds (R102). -/
def Units.submittedTotal (u : Units) (side : Side) (slot : Nat) : Int :=
  ((stagedWord (u.orders.get side).stage slot 3).getD 0).toInt

theorem Units.submitTests_eq (slot : Nat) (w : Word) :
    let listed := u.submitted side slot w
    u.submitTests side slot w = u.orderTests side slot w ++
      (((u.headTests side listed).map fun test => ∀ i m, listed[i]? = some m → test i m) ++
        u.bagTests side listed (u.submittedTotal side slot)) := by
  intro listed
  exact (List.append_assoc ..)

/-- Checks 10 to 13 as the order unit makes them (R107). -/
theorem judgeBag_fails (listed : List Nat) (total : Int) {b : SideBlock} (hb : (u.orders.get side).live = some b) :
    match judgeBag u side b (listed.map headNumber) total with
    | .accepted position => FirstFails (u.bagTests side listed total) none ∧ position = (u.orders.get side).queue.length + 1
    | .refused why position => position = 0 ∧ ∃ i, FirstFails (u.bagTests side listed total) (some (i + 1)) ∧
        submitReasons[9 + i]? = some why := by
  have sum : frozenSum u (listed.map headNumber) = (listed.map fun m => (u.head (headNumber m)).frozen.getD 0).sum := by
    simp [frozenSum, Function.comp_def]
  unfold judgeBag
  rw [sum]
  unfold Units.bagTests
  simp only [hb, Option.some.injEq, forall_eq', show Config.orderDepth = 2 from rfl]
  generalize (listed.map fun m => (u.head (headNumber m)).frozen.getD 0).sum = sum
  by_cases h10 : total = sum
  · rw [if_neg (not_not.2 h10)]
    by_cases h11 : b.bagMin ≤ sum ∧ sum ≤ b.bagMax
    · rw [if_neg (by omega)]
      by_cases h12 : (u.orders.get side).queue.length < 2
      · rw [if_neg (by omega)]
        by_cases h13 : (u.notices.get side).reservations + 1 ≤ (u.notices.get side).room (u.ringSize side)
        · rw [if_neg (by omega)]
          exact ⟨.pass h10 (.pass h11 (.pass h12 (.pass h13 rfl))), rfl⟩
        · rw [if_pos (by omega)]
          exact ⟨rfl, 3, .later h10 (.later h11 (.later h12 (.here h13))), rfl⟩
      · rw [if_pos (by omega)]
        exact ⟨rfl, 2, .later h10 (.later h11 (.here h12)), rfl⟩
    · rw [if_pos (by omega)]
      exact ⟨rfl, 1, .later h10 (.here h11), rfl⟩
  · rw [if_pos h10]
    exact ⟨rfl, 0, .here h10, rfl⟩

end

section
variable {u : Units} {side : Side} {slot : Nat} {w : Word}

/-- The heads that a SUBMIT lists, head word 1 being in the stage (R104). -/
theorem Units.submitted_eq {w1 : Word} (h1 : stagedWord (u.orders.get side).stage slot 1 = some w1) :
    u.submitted side slot w = (List.range (commitCount w)).map
      (headField w1 ((stagedWord (u.orders.get side).stage slot 2).getD 0)) := by
  unfold Units.submitted
  simp only [h1, Option.getD_some]

/-- A group that is complete for the count (R104 check 3): its words, and the heads that they list. -/
theorem orderWords_complete {w1 w3 : Word} (h1 : stagedWord (u.orders.get side).stage slot 1 = some w1)
    (h3 : stagedWord (u.orders.get side).stage slot 3 = some w3)
    (h2 : 4 < commitCount w → (stagedWord (u.orders.get side).stage slot 2).isSome = true) :
    ∃ w2, orderWords (u.orders.get side).stage slot (commitCount w) = some (w1, w2, w3) ∧
      listedNumbers w1 w2 (commitCount w) = u.submitted side slot w := by
  unfold Units.submitted
  simp only [orderWords_eq, h1, h3, Option.bind_some, Option.getD_some]
  by_cases few : commitCount w ≤ 4
  · exact ⟨0, if_pos few, listedNumbers_congr _ _ _ _ fun c => by omega⟩
  · obtain ⟨w2, h2⟩ := Option.isSome_iff_exists.1 (h2 (by omega))
    exact ⟨w2, by rw [if_neg few, h2]; rfl, by rw [h2]; rfl⟩

theorem orderWords_incomplete (h : ¬ ((stagedWord (u.orders.get side).stage slot 1).isSome = true ∧
    (stagedWord (u.orders.get side).stage slot 3).isSome = true ∧
      (4 < commitCount w → (stagedWord (u.orders.get side).stage slot 2).isSome = true))) :
    orderWords (u.orders.get side).stage slot (commitCount w) = none := by
  rw [orderWords_eq]
  cases h1 : stagedWord (u.orders.get side).stage slot 1 with
  | none => rfl
  | some w1 =>
    cases h3 : stagedWord (u.orders.get side).stage slot 3 with
    | none => rfl
    | some w3 =>
      have many : ¬ commitCount w ≤ 4 := fun c => h ⟨by simp [h1], by simp [h3], fun d => by omega⟩
      have third : stagedWord (u.orders.get side).stage slot 2 = none := by
        by_contra c
        exact h ⟨by simp [h1], by simp [h3], fun _ => Option.isSome_iff_ne_none.2 c⟩
      simp [many, third]

/-- A SUBMIT that passes checks 1 to 4 is judged by the others (R104). -/
theorem judgeOrder_listed {b : SideBlock} {w1 w3 : Word} (running : u.part = .running) (enabled : u.enabled side = true)
    (live : (u.orders.get side).live = some b) (intake : b.intake = true)
    (h1 : stagedWord (u.orders.get side).stage slot 1 = some w1)
    (h3 : stagedWord (u.orders.get side).stage slot 3 = some w3)
    (h2 : 4 < commitCount w → (stagedWord (u.orders.get side).stage slot 2).isSome = true)
    (count : b.minHeads ≤ commitCount w ∧ commitCount w ≤ b.maxHeads) :
    let listed := u.submitted side slot w
    (∀ v, judgeHeads u side listed = some v → judgeOrder u side slot w = (v, [], 0)) ∧
      (judgeHeads u side listed = none → judgeOrder u side slot w =
        (judgeBag u side b (listed.map headNumber) w3.toInt, listed.map headNumber, w3.toInt)) := by
  obtain ⟨w2, words, listed⟩ := orderWords_complete h1 h3 h2
  unfold judgeOrder
  simp only [running, live, enabled, intake, words, listed, ne_eq, not_true, Bool.not_true, Bool.or_false, Bool.false_eq_true,
    if_false, if_neg (show ¬ (commitCount w < b.minHeads ∨ b.maxHeads < commitCount w) by omega)]
  exact ⟨fun v h => by rw [h], fun h => by rw [h]⟩

/-- SIDE-OFF (R104 check 2). -/
theorem judgeOrder_sideOff (running : u.part = .running) (off : ¬ (u.enabled side = true ∧
    (u.orders.get side).live.isSome = true ∧ ∀ b, (u.orders.get side).live = some b → b.intake = true)) :
    judgeOrder u side slot w = (.refused .sideOff 0, [], 0) := by
  unfold judgeOrder
  simp only [running, ne_eq, not_true, if_false]
  cases live : (u.orders.get side).live with
  | none => rfl
  | some b =>
    have shut : (!u.enabled side || !b.intake) = true := by
      by_contra c
      simp only [Bool.or_eq_true, Bool.not_eq_true', not_or, Bool.not_eq_false] at c
      exact off ⟨c.1, by simp [live], fun d hd => by cases live.symm.trans hd; exact c.2⟩
    exact if_pos shut

/-- INCOMPLETE and COUNT, where the side takes orders (R104 checks 3 and 4). -/
theorem judgeOrder_on {b : SideBlock} (running : u.part = .running) (enabled : u.enabled side = true)
    (live : (u.orders.get side).live = some b) (intake : b.intake = true) :
    (orderWords (u.orders.get side).stage slot (commitCount w) = none →
      judgeOrder u side slot w = (.refused .incomplete 0, [], 0)) ∧
    (orderWords (u.orders.get side).stage slot (commitCount w) ≠ none →
      ¬ (b.minHeads ≤ commitCount w ∧ commitCount w ≤ b.maxHeads) →
      judgeOrder u side slot w = (.refused .count 0, [], 0)) := by
  unfold judgeOrder
  simp only [running, live, enabled, intake, ne_eq, not_true, Bool.not_true, Bool.or_false, Bool.false_eq_true, if_false]
  cases orderWords (u.orders.get side).stage slot (commitCount w) with
  | none => exact ⟨fun _ => rfl, fun c => absurd rfl c⟩
  | some words => exact ⟨nofun, fun _ c => if_pos (by omega)⟩

/-- Checks 1 to 4: one of them fails and refuses the SUBMIT without a list position, or the others decide (R104). -/
theorem judgeOrder_first (u : Units) (side : Side) (slot : Nat) (w : Word) :
    (∃ i why, i < 4 ∧ judgeOrder u side slot w = (.refused why 0, [], 0) ∧
      FirstFails (u.orderTests side slot w) (some (i + 1)) ∧ submitReasons[i]? = some why) ∨
    (FirstFails (u.orderTests side slot w) none ∧ ∃ b w1 w3, u.part = .running ∧ u.enabled side = true ∧
      (u.orders.get side).live = some b ∧ b.intake = true ∧ stagedWord (u.orders.get side).stage slot 1 = some w1 ∧
      stagedWord (u.orders.get side).stage slot 3 = some w3 ∧
      (4 < commitCount w → (stagedWord (u.orders.get side).stage slot 2).isSome = true) ∧
      b.minHeads ≤ commitCount w ∧ commitCount w ≤ b.maxHeads) := by
  by_cases running : u.part = .running
  swap
  · exact .inl ⟨0, .notRunning, by omega, if_pos running, .here running, rfl⟩
  by_cases on : u.enabled side = true ∧ (u.orders.get side).live.isSome = true ∧
    ∀ b, (u.orders.get side).live = some b → b.intake = true
  swap
  · exact .inl ⟨1, .sideOff, by omega, judgeOrder_sideOff running on, .later running (.here on), rfl⟩
  have ⟨enabled, isLive, intake⟩ := on
  obtain ⟨b, live⟩ := Option.isSome_iff_exists.1 isLive
  obtain ⟨incomplete, counted⟩ := judgeOrder_on (slot := slot) (w := w) running enabled live (intake b live)
  by_cases complete : (stagedWord (u.orders.get side).stage slot 1).isSome = true ∧
    (stagedWord (u.orders.get side).stage slot 3).isSome = true ∧
      (4 < commitCount w → (stagedWord (u.orders.get side).stage slot 2).isSome = true)
  swap
  · exact .inl ⟨2, .incomplete, by omega, incomplete (orderWords_incomplete complete),
      .later running (.later on (.here complete)), rfl⟩
  have ⟨first, third, second⟩ := complete
  obtain ⟨w1, h1⟩ := Option.isSome_iff_exists.1 first
  obtain ⟨w3, h3⟩ := Option.isSome_iff_exists.1 third
  obtain ⟨w2, words, -⟩ := orderWords_complete (w := w) h1 h3 second
  by_cases count : b.minHeads ≤ commitCount w ∧ commitCount w ≤ b.maxHeads
  · exact .inr ⟨.pass running (.pass on (.pass complete (.pass (fun d hd => by cases live.symm.trans hd; exact count) rfl))),
      b, w1, w3, running, enabled, live, intake b live, h1, h3, second, count⟩
  · exact .inl ⟨3, .count, by omega, counted (by simp [words]) count,
      .later running (.later on (.later complete (.here fun c => count (c b live)))), rfl⟩

end

/-- Settles O41 (R104 to R107). -/
theorem acceptedIffThirteenChecks : Obligations.AcceptedIffThirteenChecks := by
  intro u side slot w position heads total q n
  have weights : ∀ l : List (Fin 32), (l.map fun h => (u.head h).frozen.getD 0).sum = frozenSum u l := fun _ => rfl
  simp only [weights]
  constructor
  · intro accepted
    rcases judgeOrder_first u side slot w with ⟨i, why, -, refused, -⟩ |
      ⟨-, b, w1, w3, running, enabled, live, intake, h1, h3, h2, count⟩
    · cases refused.symm.trans accepted
    · obtain ⟨byHeads, byBag⟩ := judgeOrder_listed running enabled live intake h1 h3 h2 count
      cases judged : judgeHeads u side (u.submitted side slot w) with
      | some v =>
        cases (byHeads v judged).symm.trans accepted
        exact absurd rfl (judgeHeads_ne_accepted _ _ _ _ judged position)
      | none =>
        simp only [byBag judged, Prod.mk.injEq] at accepted
        obtain ⟨bag, rfl, rfl⟩ := accepted
        obtain ⟨nodup, zone, fit⟩ := (judgeHeads_eq_none ..).1 judged
        obtain ⟨sum, low, high, depth, place, room⟩ := (judgeBag_eq_accepted ..).1 bag
        have listed := Units.submitted_eq (w := w) h1
        rw [listed] at nodup zone
        exact ⟨running, enabled, b, w1, w3, live, intake, h1, h3, h2, count.1, count.2,
          ⟨congrArg _ listed, nodup, zone⟩, fit, rfl, sum, low, high, depth, place, room⟩
  · rintro ⟨running, enabled, b, w1, w3, live, intake, h1, h3, h2, least, most, ⟨rfl, nodup, zone⟩, fit, rfl, bag⟩
    obtain ⟨sum, low, high, depth, place, room⟩ := bag
    have listed := Units.submitted_eq (w := w) h1
    obtain ⟨-, byBag⟩ := judgeOrder_listed running enabled live intake h1 h3 h2 ⟨least, most⟩
    rw [listed] at byBag
    rw [byBag ((judgeHeads_eq_none ..).2 ⟨nodup, zone, fit⟩)]
    exact congrArg (·, _, _) ((judgeBag_eq_accepted ..).2 ⟨sum, low, high, depth, place, room⟩)

end Sys2Proof.Machine

namespace Sys2Proof.Machine

/-! ### Commits refused or passed on (O43) -/

section
variable {u : Units} {side : Side} {slot : Nat} {w : Word}

/-- At most one reason and position is that of a SUBMIT's refusal (R104 to R106). -/
theorem Units.submitRefuses.unique {why why' : OrderReason} {position position' : Nat}
    (h : u.submitRefuses side slot w why position) (h' : u.submitRefuses side slot w why' position') :
    why = why' ∧ position = position' := by
  obtain ⟨k, fails, reason, place⟩ := h
  obtain ⟨k', fails', reason', place'⟩ := h'
  cases fails.unique fails'
  refine ⟨Option.some.inj (reason.symm.trans reason'), ?_⟩
  have heads : ∀ {test}, 5 ≤ k → (u.headTests side (u.submitted side slot w))[k - 5]? = some test → ¬ (k < 5 ∨ 9 < k) :=
    fun low found c => by
      have := (List.getElem?_eq_some_iff.1 found).1
      simp only [Units.headTests, List.length_cons, List.length_nil] at this
      omega
  rcases place with ⟨test, low, found, first⟩ | ⟨none, zero⟩
  · rcases place' with ⟨test', -, found', first'⟩ | ⟨none, -⟩
    · cases found.symm.trans found'
      exact Option.some.inj (first.unique first')
    · exact absurd none (heads low found)
  · rcases place' with ⟨test', low, found, -⟩ | ⟨-, zero'⟩
    · exact absurd none (heads low found)
    · rw [zero, zero']

/-- The first of checks 1 to 4 that fails refuses a SUBMIT. -/
theorem Units.submitRefuses_order {i : Nat} {why : OrderReason} (hi : i < 4)
    (fails : FirstFails (u.orderTests side slot w) (some (i + 1))) (reason : submitReasons[i]? = some why) :
    u.submitRefuses side slot w why 0 :=
  ⟨i + 1, (u.submitTests_eq ..).symm ▸ fails.append_left, reason, .inr ⟨.inl (by omega), rfl⟩⟩

end

section
variable {u : Units} {side : Side} {slot : Nat} {w : Word} (order : FirstFails (u.orderTests side slot w) none)
include order

/-- The first of checks 5 to 9 that fails, where checks 1 to 4 hold. -/
theorem Units.submitRefuses_heads {i position : Nat} {why : OrderReason} {test : Nat → Nat → Prop}
    (fails : FirstFails ((u.headTests side (u.submitted side slot w)).map fun test =>
      ∀ i m, (u.submitted side slot w)[i]? = some m → test i m) (some (i + 1)))
    (found : (u.headTests side (u.submitted side slot w))[i]? = some test) (reason : submitReasons[4 + i]? = some why)
    (first : FirstFails ((u.submitted side slot w).mapIdx test) (some position)) :
    u.submitRefuses side slot w why position := by
  refine ⟨i + 5, (u.submitTests_eq ..).symm ▸ order.append fails.append_left, ?_, .inl ⟨test, by omega, found, first⟩⟩
  rwa [Nat.add_comm 4 i] at reason

/-- The first of checks 10 to 13 that fails, where checks 1 to 9 hold. -/
theorem Units.submitRefuses_bag {i : Nat} {why : OrderReason}
    (heads : FirstFails ((u.headTests side (u.submitted side slot w)).map fun test =>
      ∀ i m, (u.submitted side slot w)[i]? = some m → test i m) none)
    (fails : FirstFails (u.bagTests side (u.submitted side slot w) (u.submittedTotal side slot)) (some (i + 1)))
    (reason : submitReasons[9 + i]? = some why) : u.submitRefuses side slot w why 0 := by
  refine ⟨i + 10, (u.submitTests_eq ..).symm ▸ order.append (heads.append fails), ?_, .inr ⟨.inr (by omega), rfl⟩⟩
  rwa [Nat.add_comm 9 i] at reason

end

section
variable {u : Units} {side : Side}

/-- The reasons of checks 5 to 9 are the fifth to ninth of all. -/
theorem Units.headFailures_reason {l : List Nat} {i : Nat} {why : OrderReason}
    (h : ((u.headFailures side l).map Prod.fst)[i]? = some why) : submitReasons[4 + i]? = some why := by
  have later : submitReasons.drop 4 =
      (u.headFailures side l).map Prod.fst ++ [.total, .window, .queueFull, .noticeFull] := rfl
  rw [← List.getElem?_drop, later, List.getElem?_append_left (List.getElem?_eq_some_iff.1 h).1, h]

end

/-- The order unit's verdict is that of the thirteen checks (R104 to R107). -/
theorem judgeOrder_verdict (u : Units) (side : Side) (slot : Nat) (w : Word) :
    match (judgeOrder u side slot w).1 with
    | .accepted _ => FirstFails (u.submitTests side slot w) none
    | .refused why position => u.submitRefuses side slot w why position := by
  rcases judgeOrder_first u side slot w with ⟨i, why, hi, refused, fails, reason⟩ |
    ⟨order, b, w1, w3, running, enabled, live, intake, h1, h3, h2, count⟩
  · rw [refused]
    exact Units.submitRefuses_order hi fails reason
  · obtain ⟨byHeads, byBag⟩ := judgeOrder_listed running enabled live intake h1 h3 h2 count
    have failures := u.headFailures_fails side (u.submitted side slot w)
    have verdict := judgeHeads_eq_firstVerdict u side (u.submitted side slot w)
    cases judged : judgeHeads u side (u.submitted side slot w) with
    | some v =>
      obtain ⟨i, test, why, position, rfl, fails, found, reason, first⟩ := firstVerdict_some failures (verdict.symm.trans judged)
      rw [byHeads _ judged]
      exact Units.submitRefuses_heads order fails found (Units.headFailures_reason reason) first
    | none =>
      have heads := firstVerdict_none failures (verdict.symm.trans judged)
      have bag := judgeBag_fails u side (u.submitted side slot w) w3.toInt live
      have total : u.submittedTotal side slot = w3.toInt := by rw [Units.submittedTotal, h3]; rfl
      rw [← total] at bag
      rw [byBag judged, ← total]
      simp only
      cases made : judgeBag u side b ((u.submitted side slot w).map headNumber) (u.submittedTotal side slot) with
      | accepted position =>
        rw [made] at bag
        exact (u.submitTests_eq ..).symm ▸ order.append (heads.append bag.1)
      | refused why position =>
        rw [made] at bag
        obtain ⟨rfl, i, fails, reason⟩ := bag
        exact Units.submitRefuses_bag order heads fails reason

/-- A SUBMIT is refused with a reason and position exactly where the thirteen checks say so (R104 to R106). -/
theorem judgeOrder_refused_iff {u : Units} {side : Side} {slot : Nat} {w : Word} {why : OrderReason} {position : Nat} :
    (judgeOrder u side slot w).1 = .refused why position ↔ u.submitRefuses side slot w why position := by
  have verdict := judgeOrder_verdict u side slot w
  cases judged : (judgeOrder u side slot w).1 with
  | accepted n =>
    rw [judged] at verdict
    refine ⟨nofun, fun ⟨k, fails, _⟩ => ?_⟩
    cases fails.unique verdict
  | refused why' position' =>
    rw [judged] at verdict
    constructor
    · rintro same
      cases same
      exact verdict
    · intro h
      obtain ⟨rfl, rfl⟩ := h.unique verdict
      rfl

section
variable {e : Ev} {side : Side} {slot : Nat} {w : Word}

/-- A commit that is no SUBMIT passes unchanged and empties the stage (R102, R103). -/
theorem Ev.commit_passes (h : isSubmit w = false) : e.commit side slot w =
    { e with
      units := e.units.setOrder side { e.units.orders.get side with stage := none }
      word := some w } := by
  unfold Ev.commit
  rw [if_neg (by simp [h])]
  rfl

/-- A SUBMIT that is refused carries its verdict to memory and empties the stage (R104, R108). -/
theorem Ev.commit_refused {why : OrderReason} {position : Nat} (h : isSubmit w = true)
    (judged : (judgeOrder e.units side slot w).1 = .refused why position) : e.commit side slot w =
    { e with
      units := e.units.setOrder side { e.units.orders.get side with stage := none }
      word := some (orderVerdictWord w (.refused why position)) } := by
  unfold Ev.commit
  rw [if_pos h]
  simp only [judged]
  rfl

end

/-- Settles O43 (R103 to R106, R108; log entry 30). -/
theorem commitPassesOrRefused : Obligations.CommitPassesOrRefused := by
  rintro s _ a w side slot turn hw rfl empties
  refine ⟨fun other => ?_, fun why position => ⟨judgeOrder_refused_iff, fun submit refuses => ?_⟩⟩
  · exact ⟨_, rfl, turn.rewrites_order fun e he => by rw [Ev.write_commit he hw, Ev.commit_passes other, he]⟩
  · refine ⟨_, rfl, turn.rewrites_order fun e he => ?_⟩
    rw [Ev.write_commit he hw, Ev.commit_refused submit (by rw [he]; exact judgeOrder_refused_iff.2 refuses), he]

end Sys2Proof.Machine

namespace Sys2Proof.Machine

/-! ### Hold expiries (O44) -/

/-- The heads of an order in a cycle state, each with its SILENCE timer (R8, R17). -/
def Units.watchOrder (u : Units) (hs : List (Fin 32)) (c : CycleState) : Units :=
  u.mapHeads fun h x => if h ∈ hs then x.watched c (u.params h).silenceLimit else x

section
variable (u : Units) (hs : List (Fin 32)) (c : CycleState)

theorem Units.watchOrder_head (h : Fin 32) : (u.watchOrder hs c).head h =
    if h ∈ hs then (u.head h).watched c (u.params h).silenceLimit else u.head h := Units.mapHeads_head ..

theorem Units.watchOrder_part : (u.watchOrder hs c).part = u.part := Units.mapHeads_part ..

theorem Units.watchOrder_keeps (q : Piece) (hq : q ∉ hs.map Piece.head) : u.keeps (u.watchOrder hs c) q :=
  Units.mapHeads_keeps _ _ q fun _ e => if_neg fun m => hq (e ▸ List.mem_map_of_mem m)

/-- An order's heads watched and a side's order unit changed: nothing else. -/
theorem Units.watchOrder_setOrder_keeps (side : Side) (x : OrderSide) (q : Piece)
    (hq : q ∉ .order side :: hs.map Piece.head) : u.keeps ((u.watchOrder hs c).setOrder side x) q := by
  rw [List.mem_cons, not_or] at hq
  exact Ev.Moves.keeps_trans (u.watchOrder_keeps hs c q hq.2) (Units.setOrder_keeps _ _ _ q hq.1)

end

/-- What such an event leaves, with things put out to the side alone. -/
theorem State.Makes.watchOrder {s t : State} {hs : List (Fin 32)} {c : CycleState} {side : Side} {x : OrderSide}
    {l : List Act} (makes : s.Makes t ((s.units.watchOrder hs c).setOrder side x, l))
    (on : ∀ y, y ≠ side → ∀ a, a ∈ l → a.on y = false) :
    t.units.orders.get side = x ∧
      (∀ h, t.units.head h = if h ∈ hs then (s.units.head h).watched c (s.units.params h).silenceLimit else s.units.head h) ∧
      s.units.onlyChanges t.units (.order side :: .notice side :: hs.map .head) := by
  refine ⟨?_, fun h => ?_, fun q hq => ?_⟩
  · exact Eq.trans (makes.1 (.order side) (by simp)) ((PerSide.get_set ..).trans (if_pos rfl))
  · rw [makes.head]
    simp only [Units.setOrder_head, Units.watchOrder_head]
  · simp only [List.mem_cons, not_or] at hq
    obtain ⟨order, notice, heads⟩ := hq
    exact makes.keeps (fun _ => s.units.watchOrder_setOrder_keeps hs c side x q (by
      rw [List.mem_cons, not_or]
      exact ⟨order, heads⟩)) fun y hy => on y fun c => notice (by rw [hy, c])

section
variable {s : State} {side : Side} {place : Fin 2} {o : OrderRec} {left : Nat}

/-- A hold expiry commanded while the timer runs, with everything clear (R111; log entry 4). -/
theorem State.Clear.holdExpiry_makes (clear : s.Clear)
    (queued : (s.units.orders.get side).queue[place.val]? = some o) (running : o.hold = .running left)
    (distinct : ((s.units.orders.get side).queue.map OrderRec.accept).Nodup) :
    s.Inside (s.holdExpiry side place) ∧
      s.Makes (s.holdExpiry side place) (Effect.then
        ((s.units.watchOrder o.heads .ready).setOrder side
            { s.units.orders.get side with queue := (s.units.orders.get side).queue.eraseIdx place.val },
          [.order side (.orderExpired o.tag o.heads o.total), .flag side .orderEnded]) Units.drainEnd) := by
  obtain ⟨found, removed⟩ := acceptNumbers_find _ _ _ queued distinct
  have expiry : s.holdExpiry side place = s.takeOrHold (.hold side o.accept) fun e => e.holdExpiry side o.accept := by
    unfold State.holdExpiry
    simp only [queued, running]
  rw [expiry, ← removed]
  exact clear.event_makes (.hold side o.accept) _ fun k =>
    Ev.Does.holdExpiry (e := .begin s.units true k) side o.accept o found

end

/-- Settles O44 (R8, R17, R111, R112, R156; log entry 4). -/
theorem holdExpiryReturnsHeads : Obligations.HoldExpiryReturnsHeads := by
  intro s side place o left clear queued running distinct q record puts
  obtain ⟨inside, makes⟩ := clear.holdExpiry_makes queued running distinct
  refine ⟨_, rfl, inside, fun part => ?_, makes⟩
  have idle : ((s.units.watchOrder o.heads .ready).setOrder side q).part ≠ .draining := by
    rwa [Units.setOrder_part, Units.watchOrder_part]
  rw [Effect.then_drainEnd _ (.inl idle)] at makes
  have on : ∀ y, y ≠ side → ∀ a, a ∈ puts → a.on y = false := fun y hy => by
    simp [puts, Act.on, Ne.symm hy]
  obtain ⟨order, heads, only⟩ := makes.watchOrder on
  obtain ⟨-, -, number, -, reservations, -, -⟩ := makes.2.1 side
  have gives := s.units.puts_gives puts side
  exact ⟨order, fun h _ => heads h, number.trans (gives.number.trans (by simp [puts, Act.numbers])),
    reservations.trans (gives.reserved.trans (by simp [puts, Act.reserves])), makes.2.has_flag (by simp), only, makes.2⟩

end Sys2Proof.Machine

namespace Sys2Proof.Machine

/-! ### Accepted orders (O42) -/

/-- The order that an acceptance queues (R109). -/
def SideBlock.orderOf (b : SideBlock) (accept : Nat) (tag : BitVec 16) (heads : List (Fin 32)) (total : Int) : OrderRec :=
  { accept := accept, tag := tag, heads := heads, total := total, target := b.bagTarget, hold := .running b.holdLimit }

/-- A side's order unit with one more order in its queue (R109). -/
def OrderSide.enqueue (q : OrderSide) (b : SideBlock) (tag : BitVec 16) (heads : List (Fin 32)) (total : Int) : OrderSide :=
  { q with accepts := q.accepts + 1, queue := q.queue ++ [b.orderOf q.accepts tag heads total] }

/-- A side's order unit with its stage empty (R102). -/
def OrderSide.unstaged (q : OrderSide) : OrderSide := { q with stage := none }

/-- The end of a commit: its word, and the side's stage empty (R102, R103). -/
def Ev.commitEnd (e : Ev) (side : Side) (v : Word) : Ev := ({ e with word := some v } : Ev).modOrder side OrderSide.unstaged

/-- A side's stage emptied, and nothing put out (R102). -/
def Units.unstage (u : Units) (side : Side) : Effect := (u.setOrder side (u.orders.get side).unstaged, [])

section
variable {f g : Units → Effect} {u v : Units} {l : List Act}

theorem Effect.then_of_eq (h : f u = (v, [])) : Effect.then (u, l) f = (v, l) := by
  unfold Effect.then
  simp only [h, List.append_nil]

theorem Effect.then_congr (h : f u = g v) : Effect.then (u, l) f = Effect.then (v, l) g := by
  unfold Effect.then
  simp only [h]

end

section
variable (u : Units) (side : Side) (x : OrderSide)

theorem Units.setOrder_unstage : (u.setOrder side x).unstage side = (u.setOrder side x.unstaged, []) := by
  cases side <;> rfl

theorem Units.release_unstage (z : Zone) (o : OrderRec) (kept : Fin 32 → Bool) :
    ((u.setOrder side x).release side z o kept).then (·.unstage side) =
      (u.setOrder side x.unstaged).release side z o kept := Units.release_stage ..

end

/-- An acceptance without the release that may follow it: the heads claimed, the order queued, its notice reserved (R109). -/
def Ev.enqueue (e : Ev) (side : Side) (b : SideBlock) (tag : BitVec 16) (heads : List (Fin 32)) (total : Int) : Ev :=
  ((e.eachHead heads fun h f => f.enterWatched h (.claimed side (e.units.orders.get side).accepts)).modOrder side
    fun q => q.enqueue b tag heads total).modNotice side fun n => { n with reservations := n.reservations + 1 }

section
variable (e : Ev) (side : Side) (b : SideBlock) (tag : BitVec 16) (heads : List (Fin 32)) (total : Int)

theorem Ev.enqueue_required : (e.enqueue side b tag heads total).required = e.required := by
  obtain ⟨-, -, required, -⟩ :=
    Ev.claimHeads_head e.units (.claimed side (e.units.orders.get side).accepts) heads e fun _ => rfl
  exact required

theorem Ev.enqueue_releases : (e.enqueue side b tag heads total).units.releases = e.units.releases := by
  obtain ⟨-, -, -, -, -, -, -, -, releases, -⟩ :=
    Ev.claimHeads_head e.units (.claimed side (e.units.orders.get side).accepts) heads e fun _ => rfl
  exact releases

theorem Ev.enqueue_order : (e.enqueue side b tag heads total).units.orders.get side =
    (e.units.orders.get side).enqueue b tag heads total := by
  obtain ⟨-, -, -, -, -, -, -, orders, -⟩ :=
    Ev.claimHeads_head e.units (.claimed side (e.units.orders.get side).accepts) heads e fun _ => rfl
  refine (PerSide.get_set ..).trans ((if_pos rfl).trans ?_)
  rw [orders]

end

section
variable {e : Ev} {side : Side} {b : SideBlock} {tag : BitVec 16} {heads : List (Fin 32)} {total : Int}

theorem Ev.Does.enqueue : e.Does (e.enqueue side b tag heads total)
    ((e.units.watchOrder heads (.claimed side (e.units.orders.get side).accepts)).setOrder side
        ((e.units.orders.get side).enqueue b tag heads total), [.reserve side]) := by
  obtain ⟨-, -, -, -, -, -, -, orders, -, -⟩ :=
    Ev.claimHeads_head e.units (.claimed side (e.units.orders.get side).accepts) heads e fun _ => rfl
  have claimed : e.Does _ (e.units.watchOrder heads (.claimed side (e.units.orders.get side).accepts), []) :=
    Ev.Does.watchedHeads _ e.units heads e fun _ => rfl
  have queued := claimed.trans (f := fun v => (v.setOrder side ((e.units.orders.get side).enqueue b tag heads total), []))
    (fun _ _ => rfl) ((Ev.Does.modOrder fun q => q.enqueue b tag heads total).congr (by rw [orders]))
  exact queued.trans (f := fun v => (v, [.reserve side])) (fun _ _ => rfl) (Ev.Does.act (.reserve side))

end

section
variable {e : Ev} {side : Side} {slot position : Nat} {w : Word} {heads : List (Fin 32)} {total : Int} {b : SideBlock}
  {tag : BitVec 16}

/-- An acceptance: the order is queued, and the release that a SET latch asks for follows (R109; log entry 18). -/
theorem Ev.accept_eq (live : (e.units.orders.get side).live = some b) :
    let f := e.enqueue side b tag heads total
    let r := e.units.releases.get side
    e.accept side tag heads total = if r.latch = true ∧ r.dumps.length < 2 then f.doRelease side else f := by
  intro f r
  have releases : f.units.releases.get side = r := by rw [Ev.enqueue_releases]
  have accept : e.accept side tag heads total =
      if (f.units.releases.get side).latch && (f.units.releases.get side).dumps.length < 2 then f.doRelease side else f := by
    unfold Ev.accept
    simp only [live]
    rfl
  rw [accept, releases]
  simp only [Bool.and_eq_true, decide_eq_true_eq]

/-- A SUBMIT that is accepted carries its verdict to memory and empties the stage (R102, R108, R109). -/
theorem Ev.commit_accepted (submit : isSubmit w = true)
    (judged : judgeOrder e.units side slot w = (.accepted position, heads, total)) :
    e.commit side slot w =
      (e.accept side (commitTag w) heads total).commitEnd side (orderVerdictWord w (.accepted position)) := by
  unfold Ev.commit
  rw [if_pos submit, judged]
  rfl

theorem Ev.Does.commitEnd {f : Ev} {r : Effect} (d : e.Does f r) (v : Word) :
    e.Does (f.commitEnd side v) (r.then (·.unstage side)) :=
  (d.aside (w := some v) (k := f.spare) (q := f.required)).trans (fun _ _ => rfl) (Ev.Does.modOrder _)

/-- The units with an order accepted, before any release (R109). -/
def Units.accept (u : Units) (side : Side) (b : SideBlock) (tag : BitVec 16) (heads : List (Fin 32)) (total : Int) : Units :=
  (u.watchOrder heads (.claimed side (u.orders.get side).accepts)).setOrder side
    ((u.orders.get side).enqueue b tag heads total).unstaged

/-- An acceptance without a release (R109). -/
theorem Ev.Does.accepted (v : Word) :
    e.Does ((e.enqueue side b tag heads total).commitEnd side v)
      (e.units.accept side b tag heads total, [.reserve side]) :=
  (Ev.Does.enqueue.commitEnd v).congr (Effect.then_of_eq (Units.setOrder_unstage ..))

/-- An acceptance with the release of the oldest order in the same event (R109, R121; log entry 18). -/
theorem Ev.Does.acceptedReleasing {z : Zone} {o : OrderRec} {rest : List OrderRec} (v : Word)
    (bound : e.units.binding side = some z)
    (oldest : ((e.units.orders.get side).enqueue b tag heads total).queue = o :: rest) (distinct : o.heads.Nodup) :
    ∃ kept, e.Does (((e.enqueue side b tag heads total).doRelease side).commitEnd side v)
      (Effect.then (e.units.accept side b tag heads total, [.reserve side]) fun u => u.release side z o kept) := by
  have queued := Ev.Does.enqueue (e := e) (side := side) (b := b) (tag := tag) (heads := heads) (total := total)
  have bound' : (e.enqueue side b tag heads total).units.binding side = some z := by
    unfold Units.binding at bound ⊢
    rwa [queued.config]
  rw [← Ev.enqueue_order] at oldest
  obtain ⟨kept, -, -, released⟩ := Ev.Does.doRelease side z o rest bound' oldest distinct
  refine ⟨kept, ((queued.trans (Units.release_blind side z o kept) released).commitEnd v).congr ?_⟩
  rw [Effect.then_assoc]
  exact Effect.then_congr (Units.release_unstage ..)

end
end Sys2Proof.Machine

namespace Sys2Proof.Machine

/-- A reservation is counted at its side, and nothing else of a notice unit changes (R162). -/
theorem Ev.Does.reserved {e e' : Ev} {v : Units} {side : Side} (d : e.Does e' (v, [.reserve side])) (x : Side) :
    e'.units.notices.get x = { e.units.notices.get x with
      reservations := (e.units.notices.get x).reservations + if x = side then 1 else 0 } := by
  rw [d.units]
  cases x <;> cases side <;> rfl

/-- A port's write whose event does no more to the notice units than to reserve a notice, at the port's turn (R141, R143). -/
theorem State.Turn.write_reserves {s : State} {p : Port} (turn : s.Turn p) {a : Addr} {w v : Word} {side : Side} {u : Units}
    (e : Nat → Ev) (write : ∀ k, Ev.write p a allStrobes w (.begin s.units true k) = e k)
    (word : ∀ k, (e k).word = some v) (free : (e 0).required = ⟨false, false⟩)
    (d : ∀ k, (Ev.begin s.units true k).Does (e k) (u, [.reserve side])) :
    let t := s.access p (.write a allStrobes w)
    s.Wrote t p a v ∧ s.Makes t (u, [.reserve side]) ∧
      t.units.notices.get side = { s.units.notices.get side with
        reservations := (s.units.notices.get side).reservations + 1 } ∧ s.NoWrites t := by
  intro t
  obtain ⟨-, -, -, unpending, mem, -⟩ := turn.1
  have out : ∀ k, (e k).out = [] := fun k => (d k).out
  have flagWord : ∀ k x, ((e k).units.notices.get x).flagWord = (s.units.notices.get x).flagWord := fun k x => by
    rw [(d k).reserved x]
    rfl
  obtain ⟨k, leaves⟩ := turn.write a allStrobes w e write ⟨out 0, free⟩ (flagWord 0)
  have reserved := (d k).reserved side
  rw [if_pos rfl] at reserved
  have makes := leaves.makes (d k) rfl rfl unpending
  have ⟨_, _, _, held⟩ := makes
  have notice := leaves.notice_exact (d k).cbase (d k).noteKept side (by rw [reserved]; exact ⟨rfl, rfl, rfl⟩)
  exact ⟨leaves.wrote (word k) mem, makes, notice.trans reserved, leaves.silent (out k) (flagWord k), held⟩

/-- The position of an accepted order in its side's queue (R107). -/
theorem judgeOrder_position {u : Units} {side : Side} {slot position : Nat} {w : Word} {heads : List (Fin 32)} {total : Int}
    (judged : judgeOrder u side slot w = (.accepted position, heads, total)) :
    position = (u.orders.get side).queue.length + 1 := by
  obtain ⟨-, -, _, _, _, -, -, -, -, -, -, -, -, -, -, -, -, -, -, place, -⟩ :=
    (acceptedIffThirteenChecks u side slot w position heads total).1 judged
  exact place

/-- The latch asks for a release in the event of an acceptance (log entry 18). -/
def ReleaseSide.asks (r : ReleaseSide) : Prop := r.latch = true ∧ r.dumps.length < 2

section
variable {e : Ev} {u : Units} {a : Addr} {w : Word} {side : Side} {slot position : Nat} {heads : List (Fin 32)} {total : Int}
  {b : SideBlock} (he : e.units = u) (window : u.inWindow a (.order side) (4 * slot)) (submit : isSubmit w = true)
  (judged : judgeOrder u side slot w = (.accepted position, heads, total)) (live : (u.orders.get side).live = some b)
include he window submit judged live

/-- The commit word's write of a SUBMIT that is accepted, where no release follows (R109). -/
theorem Ev.write_accepted (quiet : ¬ (u.releases.get side).asks) :
    Ev.write (u.owner side) a allStrobes w e =
      (e.enqueue side b (commitTag w) heads total).commitEnd side (orderVerdictWord w (.accepted position)) := by
  subst he
  rw [Ev.write_commit rfl window, Ev.commit_accepted submit judged, Ev.accept_eq live]
  exact congrArg (Ev.commitEnd · _ _) (if_neg quiet)

/-- The same where a release of the side's oldest order follows in the event (R109; log entry 18). -/
theorem Ev.write_acceptedReleasing (asks : (u.releases.get side).asks) :
    Ev.write (u.owner side) a allStrobes w e =
      ((e.enqueue side b (commitTag w) heads total).doRelease side).commitEnd side
        (orderVerdictWord w (.accepted position)) := by
  subst he
  rw [Ev.write_commit rfl window, Ev.commit_accepted submit judged, Ev.accept_eq live]
  exact congrArg (Ev.commitEnd · _ _) (if_pos asks)

end

/-- Settles O42 (R102, R108, R109, R121; log entry 18). -/
theorem orderAccepted : Obligations.OrderAccepted := by
  rintro s _ a w side slot position heads total b window rfl submit judged live q old record order q'
  have place := judgeOrder_position judged
  refine ⟨fun turn latch => ?_, fun z o rest clear latch dumps bound oldest distinct => ?_⟩
  · have quiet : ¬ old.asks := fun ⟨set, room⟩ => by
      rcases latch with reset | full
      · exact Bool.false_ne_true (reset.symm.trans set)
      · omega
    obtain ⟨wrote, makes, notice, silent⟩ := turn.write_reserves (side := side)
      (u := s.units.accept side b (commitTag w) heads total) _
      (fun _ => Ev.write_accepted rfl window submit judged live quiet) (fun _ => rfl)
      (Ev.enqueue_required (.begin s.units true 0) side b (commitTag w) heads total) fun _ => Ev.Does.accepted _
    have on : ∀ y, y ≠ side → ∀ x, x ∈ [Act.reserve side] → x.on y = false := fun y hy => by simp [Act.on, Ne.symm hy]
    obtain ⟨queued, claimed, only⟩ := makes.watchOrder on
    exact ⟨_, rfl, wrote, place, fun h _ => claimed h, queued, notice, only, silent⟩
  · obtain ⟨k, leaves⟩ := clear.write (s.units.owner side) a allStrobes w
    have begun : (Ev.begin s.units true k).units = s.units := rfl
    rw [Ev.write_acceptedReleasing begun window submit judged live ⟨latch, dumps⟩] at leaves
    obtain ⟨kept, d⟩ := Ev.Does.acceptedReleasing (e := .begin s.units true k) _ bound oldest distinct
    exact ⟨_, kept, rfl, leaves.wrote rfl clear.mem_wf, place, leaves.makes d rfl rfl clear.unpending⟩

end Sys2Proof.Machine

namespace Sys2Proof.Machine

/-! ### The end of a pulse (O50) -/

theorem Units.setRelease_same (u : Units) (side : Side) (x : ReleaseSide) : (u.setRelease side x).releases.get side = x :=
  (PerSide.get_set ..).trans (if_pos rfl)

/-- Settles O50 (R125; log entry 4). -/
theorem pulseEnds : Obligations.PulseEnds := by
  intro s side
  have ended : (s.units.pulseEnd side).releases.get side = { s.units.releases.get side with disch := none } :=
    Units.setRelease_same ..
  refine ⟨s.setUnits (s.units.pulseEnd side), rfl, ?_, ended, fun q hq => ?_, ⟨rfl, rfl, rfl, rfl⟩, rfl, rfl⟩
  · exact congrArg (fun r : ReleaseSide => r.disch.isSome) ended
  · exact Units.setRelease_keeps _ _ _ q (by simpa using hq)

end Sys2Proof.Machine

namespace Sys2Proof.Machine

/-! ### HEAD-PURGE (O20) -/

/-- The weight that the notice of a commanded purge carries: a READY head's frozen one (R130). -/
def Head.purgeWeight (x : Head) : Option Int := if x.state = .ready then x.frozen else none

/-- HEAD-PURGE taken: a purge with reason COMMAND (R130). -/
theorem Ev.cmdHeadPurge_taken {e : Ev} {arg : BitVec 8} {h : Fin 32} (active : e.units.active = true)
    (ha : arg.toNat = h.val) (hh : h.val < e.units.headCount)
    (hs : (e.units.head h).state = .empty ∨ (e.units.head h).state = .settling ∨ (e.units.head h).state = .ready) :
    e.cmdHeadPurge arg = (e.purge h .command (e.units.head h).purgeWeight, .done 0) := by
  have part : e.units.part ≠ .transparent ∧ e.units.part ≠ .stopped := by
    unfold Units.active at active
    constructor <;> intro c <;> simp [c] at active
  unfold Ev.cmdHeadPurge Head.purgeWeight
  rw [Ev.headCommand_eq e arg _ h part.1 ha hh]
  simp only [if_neg part.2]
  rcases hs with hs | hs | hs <;> simp [hs]

/-- Settles O20 (R20, R129, R130). -/
theorem headPurgeTaken : Obligations.HeadPurgeTaken := by
  intro s p slot arg h clear hp active ha hh hs side w n
  obtain ⟨commanded, makes⟩ := clear.command_makes (.inr hp) slot .headPurge arg (v := 0)
    (r := s.units.purge h .command w) fun k =>
      ⟨_, Ev.cmdHeadPurge_taken (e := .begin s.units true k) active ha hh hs, Ev.Does.purge h .command _⟩
  refine ⟨_, Command.exec_instr .headPurge p slot arg s, commanded, ?_, fun q hq => ?_, makes.2⟩
  · exact (makes.1 (.head h) (by simp)).trans (Units.purge_head ..)
  · simp only [List.mem_cons, List.not_mem_nil, or_false, not_or] at hq
    obtain ⟨hm, hh, hn⟩ := hq
    exact makes.keeps hm (fun _ => Units.purge_keeps _ h _ _ q hh) fun y hy =>
      Units.purge_on _ h _ _ y fun c => hn (by rw [hy, c])

end Sys2Proof.Machine

namespace Sys2Proof.Machine

/-! ### Request edges and the setting of DOUBLE-REQUEST (O47) -/

/-- A side's release unit with its request latch SET (R118). -/
def ReleaseSide.latched (r : ReleaseSide) : ReleaseSide := { r with latch := true }

@[simp] theorem ReleaseSide.latched_latch (r : ReleaseSide) : r.latched.latch = true := rfl
@[simp] theorem ReleaseSide.latched_dumps (r : ReleaseSide) : r.latched.dumps = r.dumps := rfl

/-- A side's release unit with no setting of DOUBLE-REQUEST pending (R118). -/
def ReleaseSide.settled (r : ReleaseSide) : ReleaseSide := { r with doublePending := false }

theorem ReleaseSide.settled_self {r : ReleaseSide} (h : r.doublePending = false) : r.settled = r := by
  unfold ReleaseSide.settled
  rw [← h]

theorem Units.setRelease_self (u : Units) (side : Side) : u.setRelease side (u.releases.get side) = u := by
  cases side <;> rfl

/-- The four tests of a release, the request latch just SET (R120). -/
theorem Units.releasable_latched (u : Units) (side : Side) :
    (u.setRelease side (u.releases.get side).latched).releasable side = true ↔
      u.active = true ∧ (u.orders.get side).queue ≠ [] ∧ (u.releases.get side).dumps.length < Config.dumpDepth := by
  have active : (u.setRelease side (u.releases.get side).latched).active = u.active := rfl
  unfold Units.releasable
  simp [active, and_assoc]

section
variable {s : State} {side : Side}

/-- A request edge that nothing takes (R118). -/
theorem State.bagRequest_ignored (h : ¬ (s.units.active = true ∧ s.units.enabled side = true)) :
    s.bagRequest side = s := by
  refine if_pos ?_
  simpa [imp_iff_not_or] using h

variable (takes : s.units.active = true ∧ s.units.enabled side = true)
include takes

/-- A request edge that finds the latch CLEAR (R118). -/
theorem State.bagRequest_clear (hl : (s.units.releases.get side).latch = false) :
    s.bagRequest side = s.takeOrHold (.release side) (Ev.requestEdge side) := by
  obtain ⟨active, enabled⟩ := takes
  unfold State.bagRequest
  simp [active, enabled, hl]

/-- A request edge that finds the latch SET (R118). -/
theorem State.bagRequest_set (hl : (s.units.releases.get side).latch = true) :
    s.bagRequest side =
      if (s.units.notices.get side).has .doubleRequest = true ∨ (s.units.releases.get side).doublePending = true then s
      else s.takeOrHold (.double side) fun e => e.doubleRequest side := by
  obtain ⟨active, enabled⟩ := takes
  unfold State.bagRequest
  simp [active, enabled, hl]

end

namespace Ev.Does

variable {e : Ev} {side : Side}

/-- The setting of DOUBLE-REQUEST (R118). -/
theorem doubleRequest : e.Does (e.doubleRequest side)
    (e.units.setRelease side (e.units.releases.get side).settled, [.flag side .doubleRequest]) :=
  (setFlag side .doubleRequest).trans (f := fun v => (v.setRelease side (v.releases.get side).settled, []))
    (fun _ _ => rfl) (modRelease ReleaseSide.settled fun c => c)

/-- A request edge that finds the latch CLEAR, and that no release follows (R118, R120). -/
theorem requestEdge_latch
    (h : (e.units.orders.get side).queue = [] ∨ Config.dumpDepth ≤ (e.units.releases.get side).dumps.length) :
    e.Does (Ev.requestEdge side e) (e.units.setRelease side (e.units.releases.get side).latched, []) := by
  have fails : ¬ (e.modRelease side ReleaseSide.latched).units.releasable side = true := by
    rw [Ev.modRelease_units, Units.releasable_latched]
    rintro ⟨-, queued, room⟩
    rcases h with empty | full
    · exact queued empty
    · omega
  have edge : Ev.requestEdge side e = e.modRelease side ReleaseSide.latched := by
    refine if_neg ?_
    rw [Bool.and_eq_true]
    exact fun c => fails c.1
  rw [edge]
  exact modRelease ReleaseSide.latched fun c => c

end Ev.Does

/-- A flag put out is set at its side, and queues nothing of its own (R163, R165). -/
theorem Units.puts_flag (u : Units) (side : Side) (f : Flag) :
    (u.puts [.flag side f]).out = [] ∧
      (u.puts [.flag side f]).units.notices.get side = (u.notices.get side).setFlag f :=
  ⟨rfl, (PerSide.get_set ..).trans (if_pos rfl)⟩

theorem Act.flag_on {x side : Side} (f : Flag) (h : x ≠ side) : ∀ a, a ∈ [Act.flag side f] → a.on x = false := by
  simp [Act.on, Ne.symm h]

/-- What the setting of DOUBLE-REQUEST leaves (R118). -/
theorem State.Makes.doubleRequest {s t : State} {side : Side}
    (makes : s.Makes t (s.units.setRelease side (s.units.releases.get side).settled, [.flag side .doubleRequest])) :
    t.units.releases.get side = (s.units.releases.get side).settled ∧
      (t.units.notices.get side).sameAs ((s.units.notices.get side).setFlag .doubleRequest) ∧
      s.units.onlyChanges t.units [.notice side, .release side] ∧ s.Queued t [] := by
  obtain ⟨out, notice⟩ := s.units.puts_flag side .doubleRequest
  obtain ⟨same, queued⟩ := makes.2
  refine ⟨?_, notice ▸ same side, fun q hq => ?_, out ▸ queued⟩
  · exact (makes.1 (.release side) (by simp)).trans (Units.setRelease_same ..)
  · simp only [List.mem_cons, List.not_mem_nil, or_false, not_or] at hq
    exact makes.keeps (fun _ => Units.setRelease_keeps _ _ _ q hq.2) fun x hx =>
      Act.flag_on .doubleRequest fun c => hq.1 (by rw [hx, c])

/-- Settles O47 (R118, R120, R144). -/
theorem requestsLatched : Obligations.RequestsLatched := by
  constructor
  · intro s side clear r takes
    refine ⟨_, rfl, State.bagRequest_ignored, fun ok set => ?_, fun ok reset idle => ?_⟩
    · rw [State.bagRequest_set ok set]
      refine ⟨fun done => if_pos done, fun unset settled => ?_⟩
      rw [if_neg (by simp [unset, show (s.units.releases.get side).doublePending = false from settled])]
      obtain ⟨inside, makes⟩ := clear.event_makes (.double side) (fun e => e.doubleRequest side)
        (r := (s.units.setRelease side (s.units.releases.get side).settled, [.flag side .doubleRequest])) fun k =>
          Ev.Does.doubleRequest (e := .begin s.units true k)
      obtain ⟨release, notice, only, queued⟩ := makes.doubleRequest
      rw [ReleaseSide.settled_self settled] at release
      refine ⟨inside, notice, fun q hq => ?_, queued⟩
      by_cases same : q = .release side
      · exact same ▸ release
      · exact only q (by simpa [same] using hq)
    · rw [State.bagRequest_clear ok reset]
      obtain ⟨inside, makes⟩ := clear.event_makes (.release side) (Ev.requestEdge side)
        (r := (s.units.setRelease side (s.units.releases.get side).latched, [])) fun k =>
          Ev.Does.requestEdge_latch (e := .begin s.units true k) idle
      refine ⟨inside, (makes.1 (.release side) (by simp)).trans (Units.setRelease_same ..),
        fun q hq => ?_, makes.2.noWrites⟩
      exact makes.keeps (fun _ => Units.setRelease_keeps _ _ _ q (by simpa using hq)) (by simp)
  · intro s side need quiet queue tail unpending
    refine ⟨fun settled => congrArg Host.Outcome.next (if_neg (by simp [settled])), fun pending held => ?_⟩
    have tested := State.retestOwner_answers held (by simp)
    obtain ⟨fits, -⟩ := tested.pending unpending rfl nofun
    have makes := fits (by simp [State.waitingWrites, queue, tail])
    obtain ⟨release, notice, only, queued⟩ := State.Makes.doubleRequest makes
    exact ⟨_, congrArg Host.Outcome.next (if_pos pending), State.retestOwner_inside .., queued.2,
      makes.2.has_flag (by simp), release, only, queued.1⟩

end Sys2Proof.Machine

namespace Sys2Proof.Machine

/-! ### What a release leaves of each piece (R83 to R86, R117, R121 to R126) -/

/-- A released head: it discharges to the side (R19, R121). -/
def Head.opened (x : Head) (side : Side) (limit : Nat) : Head :=
  { x with
    state := .discharging (.bag side), retryUsed := false, gateSeq := x.gateSeq + 1
    timer := .running .gate limit }

/-- A READY head of the zone that a release does not list: older by one, and purged at the purge age (R84, R86). -/
def Head.agedIn (x : Head) (b : ZoneBlock) (limit : Nat) : Head :=
  let y : Head := { x with age := min 255 (x.age + 1) }
  if b.purgeAge ≠ 0 ∧ b.purgeAge ≤ y.age then y.purged .stale limit else y

/-- The units with a zone's staged block in effect (R78). -/
def Units.inEffect (u : Units) (z : Zone) : Units := u.setZone z (u.zones.get z).effect

/-- The READY heads of the zone that a release does not list are purged once they have reached the purge age (R84, R86). -/
theorem Units.mem_staleAt {u : Units} {z : Zone} {hs : List (Fin 32)} {h : Fin 32} (unlisted : h ∉ hs)
    (ready : (u.head h).state = .ready) (zone : u.zoneOf h.val = some z) :
    h ∈ u.staleAt z hs ↔ (u.zoneParams z).purgeAge ≠ 0 ∧ (u.zoneParams z).purgeAge ≤ min 255 ((u.head h).age + 1) := by
  unfold Units.staleAt
  rw [List.mem_filter, decide_eq_true_eq]
  exact ⟨fun ⟨_, nonzero, _, _, _, aged⟩ => ⟨nonzero, aged⟩,
    fun ⟨nonzero, aged⟩ => ⟨mem_allHeads h, nonzero, unlisted, ready, zone, aged⟩⟩

section
variable (u : Units) (side : Side) (z : Zone) (o : OrderRec) (kept : Fin 32 → Bool)

theorem Units.release_order : (u.release side z o kept).1.orders.get side =
    { u.orders.get side with queue := (u.orders.get side).queue.tail }.effect := by
  cases side <;> rfl

theorem Units.release_dump : (u.release side z o kept).1.releases.get side = (u.releases.get side).released o := by
  cases side <;> rfl

theorem Units.release_zone :
    let zone := (u.zones.get z).effect
    (u.release side z o kept).1.zones.get z =
      { zone with rotation := (zone.rotation + 1) % ((u.inEffect z).zoneParams z).offer.length } := by
  cases side <;> cases z <;> rfl

theorem Units.release_head (h : Fin 32) : (u.release side z o kept).1.head h =
    if h ∈ o.heads then (u.head h).opened side ((u.inEffect z).params h).gateLimit
    else if (u.head h).state = .ready ∧ u.zoneOf h.val = some z then
      (u.head h).agedIn ((u.inEffect z).zoneParams z) ((u.inEffect z).params h).gateLimit
    else u.head h := by
  unfold Units.release
  simp only [Units.setRelease_head, Units.setOrder_head, Units.setZone_head, Units.mapHeads_head]
  by_cases listed : h ∈ o.heads
  · rw [if_pos listed, if_pos listed]
    rfl
  · rw [if_neg listed, if_neg listed]
    by_cases ages : (u.head h).state = .ready ∧ u.zoneOf h.val = some z
    · rw [if_pos ages, if_pos ages]
      exact if_congr (Units.mem_staleAt (u := u.inEffect z) listed ages.1 ages.2) rfl rfl
    · rw [if_neg ages, if_neg ages]

theorem Units.release_keeps (q : Piece) (ho : q ≠ .order side) (hr : q ≠ .release side) (hz : q ≠ .zone z)
    (hh : ∀ h, q ≠ .head h) : u.keeps (u.release side z o kept).1 q := by
  refine Ev.Moves.keeps_trans ?_ (Units.setRelease_keeps _ side _ q hr)
  refine Ev.Moves.keeps_trans ?_ (Units.setOrder_keeps _ side _ q ho)
  refine Ev.Moves.keeps_trans ?_ (Units.setZone_keeps _ z _ q hz)
  exact Units.mapHeads_keeps u _ q fun h c => absurd c (hh h)

end

/-- What an event that is a release leaves of each piece. -/
theorem State.Makes.released {s t : State} {side : Side} {z : Zone} {o : OrderRec} {kept : Fin 32 → Bool}
    (makes : s.Makes t (s.units.release side z o kept)) (q : Piece) :
    s.units.keeps t.units q ∨ q = .order side ∨ q = .release side ∨ q = .zone z ∨ (∃ h, q = .head h) ∨
      q = .notice (s.units.reporting z) := by
  by_contra! other
  obtain ⟨changed, order, release, zone, heads, notice⟩ := other
  exact changed (makes.keeps (fun _ => s.units.release_keeps side z o kept q order release zone heads) fun x hx =>
    s.units.release_on side z o kept x (.inr fun c => notice (by rw [hx, c])))

/-! ### Releases, and pending releases in their place (O49) -/

/-- A request edge that the release of the oldest order follows (R118, R120, R121). -/
theorem Ev.Does.requestEdge_release {e : Ev} {side : Side} {z : Zone} {o : OrderRec} {rest : List OrderRec}
    (active : e.units.active = true) (room : (e.units.releases.get side).dumps.length < Config.dumpDepth)
    (unpending : (e.units.releases.get side).releasePending = false) (allowed : e.release = true)
    (bound : e.units.binding side = some z) (queued : (e.units.orders.get side).queue = o :: rest)
    (distinct : o.heads.Nodup) :
    let stale := (e.units.inEffect z).staleAt z o.heads
    ∃ kept : Fin 32 → Bool, (4 * stale.length ≤ e.spare → ∀ h, kept h = true) ∧
      (e.spare = 0 → (Ev.requestEdge side e).out.length = e.out.length + o.heads.length + stale.length) ∧
      e.Does (Ev.requestEdge side e) (e.units.release side z o kept) := by
  intro stale
  obtain ⟨f, hf⟩ : ∃ f, f = e.modRelease side ReleaseSide.latched := ⟨_, rfl⟩
  have latched : e.Does f (e.units.setRelease side (e.units.releases.get side).latched, []) :=
    hf ▸ modRelease ReleaseSide.latched fun c => c
  have edge : Ev.requestEdge side e = f.doRelease side := by
    have test : f.units.releasable side = true := by
      rw [hf, Ev.modRelease_units, Units.releasable_latched]
      exact ⟨active, by simp [queued], room⟩
    have pending : (f.units.releases.get side).releasePending = false := by
      rw [hf, Ev.modRelease_units]
      simpa [ReleaseSide.latched] using unpending
    have release : f.release = true := latched.release.trans allowed
    show Ev.releaseTest (e.modRelease side ReleaseSide.latched) side = _
    rw [← hf]
    unfold Ev.releaseTest
    simp [test, pending, release]
  obtain ⟨kept, all, alone, does⟩ := doRelease (e := f) side z o rest (by rw [hf]; exact bound) (by rw [hf]; exact queued)
    distinct
  rw [hf] at all alone
  rw [edge]
  refine ⟨kept, all, fun unspared => hf ▸ (alone unspared).1, (latched.trans (Units.release_blind side z o kept) does).congr ?_⟩
  exact Units.release_latch e.units side _ true rfl z o kept

/-- With everything clear such an event is taken, and every notice of its purges kept while everything fits (R122, R143). -/
theorem State.Clear.release_makes {s : State} (clear : s.Clear) {side : Side} {z : Zone} {o : OrderRec}
    {rest : List OrderRec} (active : s.units.active = true)
    (room : (s.units.releases.get side).dumps.length < Config.dumpDepth) (bound : s.units.binding side = some z)
    (queued : (s.units.orders.get side).queue = o :: rest) (distinct : o.heads.Nodup) {body : Ev → Ev}
    (edge : ∀ k, body (.begin s.units true k) = Ev.requestEdge side (.begin s.units true k)) :
    let t := s.takeOrHold (.release side) body
    s.Inside t ∧ ∃ kept, (o.heads.length + 5 * ((s.units.inEffect z).staleAt z o.heads).length + 2 ≤ 64 →
      ∀ h, kept h = true) ∧ s.Makes t (s.units.release side z o kept) := by
  intro t
  have does := fun k => Ev.Does.requestEdge_release (e := .begin s.units true k) active room (clear.unpending side) rfl bound
    queued distinct
  have need := runEvent_need true 0 body s.units
  obtain ⟨-, -, alone, -⟩ := does 0
  rw [edge, alone rfl, show (Ev.begin s.units true 0).out.length = 0 from rfl] at need
  obtain ⟨leaves, inside⟩ := clear.event_at (.release side) body
  rw [edge] at leaves
  obtain ⟨kept, all, -, makes⟩ := does (Config.queueDepth - (runEvent true 0 body s.units).need)
  refine ⟨inside, kept, fun fits => all ?_, leaves.makes makes rfl rfl clear.unpending⟩
  show 4 * ((s.units.inEffect z).staleAt z o.heads).length ≤ 64 - _
  change _ ≤ 0 + _ + ((s.units.inEffect z).staleAt z o.heads).length + 2 at need
  omega

/-- A release on its own with the latch SET is what a request edge that finds it CLEAR comes to (R120). -/
theorem Ev.releaseTest_latched {e : Ev} {side : Side} (hl : (e.units.releases.get side).latch = true) :
    e.releaseTest side = Ev.requestEdge side e := by
  have same : (e.units.releases.get side).latched = e.units.releases.get side := by
    unfold ReleaseSide.latched
    rw [← hl]
  have unchanged : e.modRelease side ReleaseSide.latched = e := by
    unfold Ev.modRelease
    rw [same, Units.setRelease_self]
  show _ = (e.modRelease side ReleaseSide.latched).releaseTest side
  rw [unchanged]

/-- The two commands that make the release test of a side with no release pending (R118, R120). -/
theorem State.release_event {s : State} {side : Side} {z : Zone} {i : Instr} (active : s.units.active = true)
    (bound : s.units.binding side = some z) (unpending : (s.units.releases.get side).releasePending = false)
    (hi : (i = .release side ∧ (s.units.releases.get side).latch = true) ∨
      (i = .bagRequest side ∧ (s.units.releases.get side).latch = false)) :
    ∃ body, exec i s = .next (s.takeOrHold (.release side) body) ∧
      ∀ k, body (.begin s.units true k) = Ev.requestEdge side (.begin s.units true k) := by
  rcases hi with ⟨rfl, set⟩ | ⟨rfl, reset⟩
  · refine ⟨fun e => e.releaseTest side, ?_, fun k => Ev.releaseTest_latched set⟩
    exact congrArg Host.Outcome.next (if_neg (by simp [unpending]))
  · refine ⟨Ev.requestEdge side, ?_, fun k => rfl⟩
    have enabled : s.units.enabled side = true := by rw [Units.enabled, bound]; rfl
    exact congrArg Host.Outcome.next (State.bagRequest_clear ⟨active, enabled⟩ reset)

/-- Settles O49 (R19, R83 to R86, R120 to R126, R143 to R145; log entry 17). -/
theorem releaseTaken : Obligations.ReleaseTaken := by
  constructor
  · intro s side z o rest i clear active bound queued room distinct claimed hi zone u b
    obtain ⟨body, done, edge⟩ := State.release_event active bound (clear.unpending side) hi
    obtain ⟨inside, kept, all, makes⟩ := clear.release_makes active room bound queued distinct edge
    refine ⟨_, done, inside, ?_, ?_, ?_, fun h => ?_, makes.released, kept, all, makes⟩
    · exact (makes.1 (.order side) (by simp)).trans ((Units.release_order ..).trans (by rw [queued]; rfl))
    · exact (makes.1 (.release side) (by simp)).trans (Units.release_dump ..)
    · exact (makes.1 (.zone z) (by simp)).trans (Units.release_zone ..)
    · exact (makes.head h).trans (Units.release_head ..)
  · intro s side need held pending others
    refine ⟨_, congrArg Host.Outcome.next (if_pos pending), State.retestOwner_inside .., ?_⟩
    refine (State.retestOwner_answers held (by simp)).tested fun x hx => ?_
    by_contra other
    have := others x fun c => other (by rw [c])
    rw [hx] at this
    cases this

end Sys2Proof.Machine

namespace Sys2Proof.Machine

/-! ### Confirmations and the dumps that they complete (O32) -/

section
variable {u : Units} {r : ReportHeader}

/-- GATE-CLOSED alone, with the gate sequence as its echo (R34, R38). -/
theorem Units.reported_confirm {fault confirm : Units → Effect} (hb : r.boardFault = false) (hp : r.poolDrop = false)
    (hg : r.gateClosed = true) (echo : (u.head r.head).gateSeq = r.echo) :
    u.reported r none fault confirm = confirm u := by
  have drop : ∀ v : Units, v.dropped r = (v, []) := fun v => if_neg (by simp [hp])
  have confirmed : u.confirmed r confirm = confirm u := if_pos ⟨hg, echo⟩
  rw [Units.reported_unfaulted _ _ _ _ _ hb, confirmed]
  unfold Units.weighAny Effect.then
  simp only [drop, List.append_nil]

/-- The effect of a taken report is that of its parts on the units behind the new last report sequence (R34). -/
theorem Units.taken_congr {f g : Units → Effect}
    (h : let v := u.setHead r.head ((u.head r.head).sequenced r)
      f v = g v) : u.taken r f = u.taken r g := by
  unfold Head.sequenced at h
  unfold Units.taken
  rw [h]

end

/-- A confirmation of a head that discharges to a side, while RUNNING: the head is EMPTY, and then its dump marked (R21, R46,
R127). -/
theorem Units.confirm_bag {u : Units} {h : Fin 32} {side : Side} (hp : u.part = .running)
    (hs : (u.head h).state = .discharging (.bag side)) :
    u.confirm h = Effect.then (u.setHead h ((u.head h).freed (.bag side) (u.params h).silenceLimit),
      u.levelActs h ((u.head h).health - 1) .confirm) fun v => v.markDump side h .confirmed := by
  unfold Units.confirm
  simp only [hs, hp, if_true]
  rw [Units.setHead_lower u h _ .confirm (by rfl)]
  rfl

/-- The same by the side's oldest dump, which leaves the list when the mark completes it (R127, R128). -/
theorem Units.confirm_oldest {u : Units} {h : Fin 32} {side : Side} {d : Dump} {rest : List Dump}
    (hp : u.part = .running) (hs : (u.head h).state = .discharging (.bag side))
    (hd : (u.releases.get side).dumps = d :: rest) (ha : d.awaits h = true) :
    let m := d.mark h .confirmed
    u.confirm h = ((u.setHead h ((u.head h).freed (.bag side) (u.params h).silenceLimit)).setRelease side
        { u.releases.get side with dumps := if m.complete then rest else m :: rest },
      u.levelActs h ((u.head h).health - 1) .confirm ++ if m.complete then [.order side m.notice] else []) := by
  intro m
  have marked := Units.markDump_first (m := .confirmed)
    (u := u.setHead h ((u.head h).freed (.bag side) (u.params h).silenceLimit)) hd ha
  rw [Units.confirm_bag hp hs]
  unfold Effect.then
  simp only [marked]
  rfl

/-- The numbers that the notice of a change of level takes at a side (R47, R161). -/
theorem Units.levelActs_numbers (u : Units) (h : Fin 32) (v : Nat) (c : HealthCause) (side : Side) :
    ((u.levelActs h v c).map (Act.numbers side)).sum =
      if levelOf (u.head h).health ≠ levelOf v ∧ u.reportingHead h = side then 1 else 0 := by
  unfold Units.levelActs
  by_cases same : levelOf (u.head h).health = levelOf v
  · simp [same]
  · simp [same, Act.numbers]

/-- The notice of a change of level gives back no reservation (R162). -/
theorem Units.levelActs_reserves (u : Units) (h : Fin 32) (v : Nat) (c : HealthCause) (side : Side) (n : Nat) :
    (u.levelActs h v c).foldl (fun n a => a.reserves side n) n = n := by
  unfold Units.levelActs
  simp only
  split <;> rfl

/-- What an event counts at a side: the numbers its notices take, and the reservations it gives back (R161, R162). -/
theorem State.Puts.counts {s t : State} {l : List Act} (puts : s.Puts t l) (side : Side) :
    (t.units.notices.get side).number =
        (s.units.notices.get side).number + BitVec.ofNat 16 (l.map (Act.numbers side)).sum ∧
      (t.units.notices.get side).reservations =
        l.foldl (fun n a => a.reserves side n) (s.units.notices.get side).reservations := by
  obtain ⟨-, -, number, -, reservations, -, -⟩ := puts.1 side
  have gives := s.units.puts_gives l side
  exact ⟨number.trans gives.number, reservations.trans gives.reserved⟩

/-- The notice of a change of level, and behind it an order notice to a side: the side counts one number on, or two where the
first is its own too, and gives back one reservation (R161, R162). -/
theorem State.Puts.level_order {s t : State} {h : Fin 32} {v : Nat} {c : HealthCause} {side : Side} {n : Notice}
    (puts : s.Puts t (s.units.levelActs h v c ++ [.order side n])) :
    (t.units.notices.get side).number = (s.units.notices.get side).number +
        (if levelOf (s.units.head h).health ≠ levelOf v ∧ s.units.reportingHead h = side then 2 else 1) ∧
      (t.units.notices.get side).reservations = (s.units.notices.get side).reservations - 1 := by
  obtain ⟨number, reservations⟩ := puts.counts side
  rw [List.map_append, List.sum_append, Units.levelActs_numbers] at number
  rw [List.foldl_append, Units.levelActs_reserves] at reservations
  refine ⟨number.trans ?_, reservations.trans (by simp [Act.reserves])⟩
  split <;> simp [Act.numbers]

/-- What the confirmation of a bag's head by the side's oldest dump leaves, while RUNNING (R21, R46, R127, R128). -/
theorem State.Makes.confirm_oldest {s t : State} {r : ReportHeader} {side : Side} {d : Dump} {rest : List Dump}
    (makes : s.Makes t (s.units.taken r fun v => v.confirm r.head)) (running : s.units.part = .running)
    (hs : (s.units.head r.head).state = .discharging (.bag side)) (hd : (s.units.releases.get side).dumps = d :: rest)
    (ha : d.awaits r.head = true) :
    let x := s.units.head r.head
    let m := d.mark r.head .confirmed
    t.units.head r.head = (x.sequenced r).freed (.bag side) (s.units.params r.head).silenceLimit ∧
      t.units.releases.get side =
        { s.units.releases.get side with dumps := if m.complete then rest else m :: rest } ∧
      s.units.onlyChanges t.units
        [.stage, .head r.head, .release side, .notice side, .notice (s.units.reportingHead r.head)] ∧
      s.Puts t (s.units.levelActs r.head (x.health - 1) .confirm ++ if m.complete then [.order side m.notice] else []) := by
  intro x m
  obtain ⟨y, hy⟩ : ∃ y, y = (x.sequenced r).freed (.bag side) (s.units.params r.head).silenceLimit := ⟨_, rfl⟩
  obtain ⟨old, hold⟩ : ∃ old : ReleaseSide, old =
      { s.units.releases.get side with dumps := if m.complete then rest else m :: rest } := ⟨_, rfl⟩
  have effect : (s.units.setHead r.head (x.sequenced r)).confirm r.head =
      ((s.units.setHead r.head y).setRelease side old,
        s.units.levelActs r.head (x.health - 1) .confirm ++ if m.complete then [.order side m.notice] else []) := by
    have self := s.units.head_setHead_same r.head (x.sequenced r)
    have level : (s.units.setHead r.head (x.sequenced r)).levelActs r.head ((x.sequenced r).health - 1) .confirm =
        s.units.levelActs r.head (x.health - 1) .confirm :=
      Units.levelActs_congr (u := s.units) r.head _ _ (by rw [self]; rfl) rfl
    rw [Units.confirm_oldest (u := s.units.setHead r.head (x.sequenced r)) running (by rw [self]; exact hs) hd ha, self,
      Units.setHead_twice, level, hy, hold]
    rfl
  rw [Units.taken_of s.units r effect (.inl (by rw [Units.setRelease_part, Units.setHead_part, running]; simp))] at makes
  rw [← hy, ← hold]
  refine ⟨(makes.head r.head).trans ?_, ?_, fun q hq => ?_, makes.2⟩
  · refine (Units.heardFrom_head _ _).trans ?_
    rw [Units.setRelease_head, Units.head_setHead_same, hy]
    exact congrArg (fun timer => { (x.sequenced r).freed _ _ with timer := timer }) (ite_self _)
  · refine (makes.1 (.release side) (by simp)).trans ((Units.heardFrom_keeps _ r.head (.release side) (by simp)).trans ?_)
    exact Units.setRelease_same ..
  · simp only [List.mem_cons, List.not_mem_nil, or_false, not_or] at hq
    obtain ⟨stage, head, release, own, reporting⟩ := hq
    refine makes.heard_keeps stage head (fun _ => Ev.Moves.keeps_trans (Units.setHead_keeps _ _ _ q head)
      (Units.setRelease_keeps _ _ _ q release)) fun z hz => Act.on_append ?_ ?_
    · exact Units.levelActs_on _ r.head _ _ z fun c => reporting (by rw [hz, c])
    · intro a mem
      split at mem
      · rw [List.mem_singleton.1 mem]
        exact decide_eq_false fun c => own (by rw [hz, c])
      · cases mem

/-- Settles O32 (R21, R46, R120, R127, R128, R161, R162; log entry 14). -/
theorem confirmationCompletesDump : Obligations.ConfirmationCompletesDump := by
  intro s a w slot side clear hw r h x old n twice passes hb hp hg unstable hs echo
  obtain ⟨done, wrote, stage⟩ := clear.header_taken (w := w) hw
  have confirms : r.confirms x := ⟨hg, echo, fun out => absurd (out.1.symm.trans hb) (by simp)⟩
  have alone : ∀ fault confirm : Units → Effect,
      s.units.taken r (fun v => v.reported r (s.units.stableWeight r) fault confirm) = s.units.taken r confirm :=
    fun fault confirm => Units.taken_congr (by
      rw [Units.stableWeight_none unstable]
      exact Units.reported_confirm hb hp hg (by rw [Units.head_setHead_same]; exact echo))
  have plain : s.units.unreleased side h .confirmed →
      s.Makes (s.access .hl (.write a allStrobes w)) (s.units.taken r fun v => v.confirm h) := fun unreleased => by
    have makes := clear.report_plain (r := r) hw rfl passes fun side' hs' => by
      obtain rfl : side = side' := by simpa using hs.symm.trans hs'
      exact ⟨fun out => absurd (out.1.symm.trans hb) (by simp), fun _ => unreleased⟩
    exact alone _ _ ▸ makes
  refine ⟨_, done, wrote, stage, fun d rest unreleased running hd ha => ?_, plain, fun z o follows => ?_⟩
  · obtain ⟨record, release, only, puts⟩ := (plain unreleased).confirm_oldest running hs hd ha
    refine ⟨record, release, only, puts, fun complete => ?_⟩
    rw [if_pos complete] at puts
    exact puts.level_order
  · obtain ⟨kept, makes⟩ := clear.report_confirmReleasing (r := r) hw rfl passes hs confirms follows
    exact ⟨kept, alone _ _ ▸ makes⟩

end Sys2Proof.Machine

namespace Sys2Proof.Machine

/-! ### Memory and the issue queue (O4) -/

/-- Memory, issue queue and START tail as State.Sound asks for them (R142, R145). -/
def SoundWrites (mem : Memory) (queue startTail : List QueueEntry) : Prop :=
  mem.wf = true ∧ queue.length ≤ Config.queueDepth ∧ (startTail ≠ [] → queue.length = Config.queueDepth)

/-- Every memory write keeps the canonical form. -/
theorem SoundWrites.write {mem : Memory} {queue startTail : List QueueEntry} (h : SoundWrites mem queue startTail)
    (a : Addr) (st : BitVec 4) (w : Word) : SoundWrites (mem.write a st w) queue startTail :=
  ⟨Memory.wf_write mem a st w h.1, h.2⟩

/-- Writes that wait, cut at the queue's depth: a START tail is left only behind 64 entries (R145). -/
theorem soundWrites_cut {mem : Memory} (h : mem.wf = true) (l : List QueueEntry) :
    SoundWrites mem (l.take Config.queueDepth) (l.drop Config.queueDepth) := by
  refine ⟨h, List.length_take_le .., fun tail => ?_⟩
  have longer : Config.queueDepth < l.length := by simpa using tail
  exact List.length_take_of_le longer.le

/-- Settles O4 (R142, R145; log entry 5). -/
theorem stepsKeepMemoryAndQueue : Obligations.StepsKeepMemoryAndQueue := by
  intro s t sound hs
  obtain ⟨t', ht, moves⟩ := step_moves s
  obtain rfl : t' = t := by simpa using ht.symm.trans hs
  exact moves.keeps_writes (P := SoundWrites) (fun _ _ _ a st w h => h.write a st w)
    (fun _ _ _ l h => soundWrites_cut h.1 l) sound

end Sys2Proof.Machine

namespace Sys2Proof.Machine

/-! ### Plain accesses (O36) -/

/-- A read by HL, or one outside the candidate windows, is not served (R91, R137). -/
theorem Units.servedAt_none {u : Units} {p : Port} {a : Addr}
    (h : p = .hl ∨ ∀ side off, u.windowAt a ≠ some (.candidate side, off)) : u.servedAt p a = none := by
  unfold Units.servedAt
  split
  · rfl
  · rename_i port side off hl hw
    rcases h with hp | outside
    · exact absurd hp (by simpa using hl)
    · exact absurd hw (outside side off)
  · rfl

/-- The class of a write outside the windows and the control block (R137). -/
theorem classWrite_plain {u : Units} {a : Addr} (p : Port) (strobes : BitVec 4) (w : Word) (hc : u.controlOffset a = none)
    (hw : u.windowAt a = none) : classWrite u p a strobes w = .plain := by
  unfold classWrite
  rw [hc, hw]

/-- Settles O36 (R98, R133, R137; log entries 6 and 7). -/
theorem plainAccessesPass : Obligations.PlainAccessesPass := by
  constructor
  · intro s p a strobes turn unserved t
    have read : s.access p (.read a strobes) = t := turn.access_read a strobes (Units.servedAt_none unserved)
    exact ⟨congrArg Host.Outcome.next read, congrArg Host.Outcome.next read⟩
  · intro s p a strobes w turn hc hw
    have plain : ∀ e : Ev, e.units = s.units → Ev.write p a strobes w e = { e with word := some w } := by
      intro e he
      unfold Ev.write
      rw [he, classWrite_plain p strobes w hc hw]
    obtain ⟨-, -, -, unpending, mem, -⟩ := turn.1
    obtain ⟨k, leaves⟩ := turn.write a strobes w _ (fun _ => plain _ rfl) ⟨rfl, rfl⟩ fun _ => rfl
    have byte := fun b lane => Memory.byte_write s.mem a b strobes w lane mem
    refine ⟨_, rfl, fun lane hl => ?_, fun b lane hl hb => ?_, leaves.ports, fun q _ => ?_,
      ⟨leaves.silent rfl fun _ => rfl, leaves.held unpending⟩, leaves.granted, leaves.rest⟩
    · simpa [leaves.mem] using byte a lane hl
    · simpa [leaves.mem, hb] using byte b lane hl
    · exact leaves.frame q (Ev.Moves.keeps_refl s.units q)

end Sys2Proof.Machine

namespace Sys2Proof.Machine

/-! ### Refused writes (O38) -/

section
variable {u : Units} {p : Port} {a : Addr} {strobes : BitVec 4} {w : Word}

/-- The class of a whole write to the control block of a loaded part by CA or CB (R147). -/
theorem classWrite_control {off : Nat} (loaded : u.part ≠ .transparent) (hp : p ≠ .hl)
    (ho : u.controlOffset a = some off) : classWrite u p a allStrobes w = classControl off w := by
  unfold classWrite
  rw [ho]
  simp [loaded, hp]

/-- A partial write where partial writes are refused (R138). -/
theorem classWrite_partial (guarded : u.guards a) (hs : strobes ≠ allStrobes) :
    classWrite u p a strobes w = .refused .partialWrite := by
  unfold classWrite
  rcases guarded with ⟨loaded, off, ho⟩ | ⟨window, off, ho, hw⟩
  · rw [ho]
    simp [loaded, hs]
  · rw [ho, hw]
    simp [hs]

/-- A whole write that its port may not make (R137, R147). -/
theorem classWrite_forbidden (forbidden : u.forbids p a) : classWrite u p a allStrobes w = .refused .permission := by
  rcases forbidden with ⟨loaded, off, ho, who⟩ | ⟨window, off, hw, who⟩
  · by_cases hp : p = .hl
    · unfold classWrite
      rw [ho]
      simp [loaded, hp]
    · rw [classWrite_control loaded hp ho]
      rcases who with c | rfl | rfl | rfl
      · exact absurd c hp
      · rfl
      · rfl
      · rfl
  · rw [classWrite_window hw]
    unfold classWindow
    cases window with
    | report => exact if_pos who
    | order side => exact if_pos who
    | feed => exact if_pos who
    | candidate | gate | notice => rfl

/-- The class of a consume word by CA or CB (R147, R164). -/
theorem classWrite_consume {side : Side} (loaded : u.part ≠ .transparent) (hp : p ≠ .hl)
    (ho : u.controlOffset a = some (consumeOffset side)) : classWrite u p a allStrobes w = .consumeWord side := by
  rw [classWrite_control loaded hp ho]
  cases side <;> rfl

variable {e : Ev} (he : e.units = u)
include he

/-- A write that the classifier refuses is refused at its grant (R138). -/
theorem Ev.write_refused {cause : WriteCause} (h : classWrite u p a strobes w = .refused cause) :
    Ev.write p a strobes w e = e.refuse p a cause := by
  unfold Ev.write
  rw [he, h]

/-- A feed envelope for a head beyond the head count (R65). -/
theorem Ev.write_feedRange {off : Nat} (hp : p ≠ .hl) (hw : u.inWindow a .feed off) (ho : off < 32)
    (beyond : u.headCount ≤ off) : Ev.write p a allStrobes w e = e.refuse p a .range := by
  subst he
  unfold Ev.write
  rw [classWrite_feedHead (h := ⟨off, ho⟩) w hp hw]
  exact if_pos beyond

/-- A feed envelope that is not valid (R65). -/
theorem Ev.write_feedValue {off : Nat} (hp : p ≠ .hl) (hw : u.inWindow a .feed off) (ho : off < 32)
    (within : off < u.headCount) (invalid : (envelopeOf w).valid = false) :
    Ev.write p a allStrobes w e = e.refuse p a .value := by
  subst he
  unfold Ev.write
  rw [classWrite_feedHead (h := ⟨off, ho⟩) w hp hw]
  refine (if_neg (Nat.not_le.2 within)).trans (if_pos ?_)
  rw [invalid]
  rfl

/-- A top envelope for a zone beyond the zone count (R68). -/
theorem Ev.write_topRange {z : Zone} (hp : p ≠ .hl) (hw : u.inWindow a .feed (32 + z.number))
    (beyond : u.zoneCount ≤ z.number) : Ev.write p a allStrobes w e = e.refuse p a .range := by
  subst he
  unfold Ev.write
  rw [classWrite_feedTop w hp hw]
  exact if_pos beyond

/-- A top envelope that is not valid (R67, R68). -/
theorem Ev.write_topValue {z : Zone} (hp : p ≠ .hl) (hw : u.inWindow a .feed (32 + z.number))
    (within : z.number < u.zoneCount) (invalid : (topEnvelopeOf w).valid = false) :
    Ev.write p a allStrobes w e = e.refuse p a .value := by
  subst he
  unfold Ev.write
  rw [classWrite_feedTop w hp hw]
  refine (if_neg (Nat.not_le.2 within)).trans (if_pos ?_)
  rw [invalid]
  rfl

/-- A consume word beyond the ring, or beyond what is unread (R164). -/
theorem Ev.write_consumeRange {side : Side} (loaded : u.part ≠ .transparent) (hp : p ≠ .hl)
    (ho : u.controlOffset a = some (consumeOffset side))
    (beyond : u.ringSize side ≤ w.toNat ∨ (u.notices.get side).unread (u.ringSize side) <
      (w.toNat + u.ringSize side - (u.notices.get side).consumeIx) % u.ringSize side) :
    Ev.write p a allStrobes w e = e.refuse p a .range := by
  subst he
  unfold Ev.write
  rw [classWrite_consume loaded hp ho]
  exact if_pos beyond

/-- Every write that R138, R65, R68 or R164 refuses is refused at its grant, with its cause. -/
theorem Ev.write_of_refuses {cause : WriteCause} (h : u.refuses p a strobes w cause) :
    Ev.write p a strobes w e = e.refuse p a cause := by
  cases cause with
  | partialWrite =>
    obtain ⟨guarded, hs⟩ := h
    exact Ev.write_refused he (classWrite_partial guarded hs)
  | permission =>
    obtain ⟨forbidden, rfl⟩ := h
    exact Ev.write_refused he (classWrite_forbidden forbidden)
  | range =>
    obtain ⟨hp, rfl, ⟨off, hw, ho, beyond⟩ | ⟨z, hw, beyond⟩ | ⟨side, loaded, ho, beyond⟩⟩ := h
    · exact Ev.write_feedRange he hp hw ho beyond
    · exact Ev.write_topRange he hp hw beyond
    · exact Ev.write_consumeRange he loaded hp ho beyond
  | value =>
    obtain ⟨hp, rfl, ⟨off, hw, ho, within, out⟩ | ⟨z, hw, within, out⟩⟩ := h
    · refine Ev.write_feedValue he hp hw ho within ?_
      unfold Envelope.valid envelopeOf
      simp only [Bool.and_eq_false_iff, decide_eq_false_iff_not]
      omega
    · refine Ev.write_topValue he hp hw within ?_
      unfold TopEnvelope.valid topEnvelopeOf
      simp only [Bool.and_eq_false_iff, decide_eq_false_iff_not]
      omega

end

/-- What a refused write puts out: the flag, then the notice (R138). -/
def refusedActs (p : Port) (a : Addr) (cause : WriteCause) : List Act :=
  [.flag (refusalSide p) .writeRefused, .notice (refusalSide p) (.writeRefused p a cause)]

/-- A refused write's event, of which nothing has happened yet (R138). -/
theorem Ev.Does.refuse {u : Units} {release : Bool} {k : Nat} (p : Port) (a : Addr) (cause : WriteCause) :
    (Ev.begin u release k).Does ((Ev.begin u release k).refuse p a cause) (u, refusedActs p a cause) :=
  Ev.Does.acts (refusedActs p a cause)

/-- A refused write carries no word to memory (R138). -/
theorem Ev.refuse_word (e : Ev) (p : Port) (a : Addr) (cause : WriteCause) : (e.refuse p a cause).word = none := by
  unfold Ev.refuse
  rw [Ev.headNotice_eq]
  rfl

theorem refusedActs_on {p : Port} {side : Side} (a : Addr) (cause : WriteCause) (h : side ≠ refusalSide p) :
    ∀ x, x ∈ refusedActs p a cause → x.on side = false := by
  simp [refusedActs, Act.on, Ne.symm h]

theorem refusalSide_eq (p : Port) : refusalSide p = if p = .cb then .b else .a := by cases p <;> rfl

/-- Settles O38 (R65, R68, R138, R147, R161, R162, R164). -/
theorem writeRefused : Obligations.WriteRefused := by
  intro s p a strobes w cause clear refused side u n
  have hside : refusalSide p = side := refusalSide_eq p
  obtain ⟨k, leaves⟩ := clear.write p a strobes w
  rw [Ev.write_of_refuses rfl refused] at leaves
  have makes := leaves.makes (Ev.Does.refuse p a cause) rfl rfl clear.unpending
  have puts : s.units.puts (refusedActs p a cause) = u.heard side n := by
    unfold refusedActs
    rw [hside]
    rfl
  obtain ⟨same, queued⟩ := makes.2
  rw [puts] at same queued
  refine ⟨_, rfl, leaves.refused (Ev.refuse_word ..), same side, makes.2.has_flag (by simp [refusedActs, hside]),
    fun q hq => ?_, queued⟩
  exact makes.keeps (fun _ => Ev.Moves.keeps_refl s.units q) fun x hx =>
    refusedActs_on a cause fun c => hq (by simp [hx, c, hside])

end Sys2Proof.Machine

namespace Sys2Proof.Machine

/-! ### Held writes (O39) -/

/-- Settles O39 (R143, R144). -/
theorem writeHeld : Obligations.WriteHeld := by
  intro s p a strobes w need turn held
  have stalled : s.access p (.write a strobes w) = s.stalled p (.write a strobes w) need := by
    rw [turn.access_write, held]
  have nothing : (s.front p).upstream = [] := (turn.1.1 p).2
  refine congrArg Host.Outcome.next (stalled.trans ?_)
  unfold State.stalled
  rw [← nothing]
  rfl

end Sys2Proof.Machine

namespace Sys2Proof.Machine

/-! ### Queue grants and what is held (O60) -/

/-- The command of a held event's owner tests it in its place (R50, R111, R118; log entry 4). -/
def State.commands (s : State) (i : Instr) (o : Owner) : Prop :=
  (∃ h, o = .headTimer h ∧
      ((i = .settleExpiry h ∧ (s.units.head h).timer = .expired .settle) ∨
        (i = .silenceExpiry h ∧ (s.units.head h).timer = .expired .silence) ∨
        (i = .gateExpiry h ∧ (s.units.head h).timer = .expired .gate))) ∨
    (∃ side place r, o = .hold side r.accept ∧ i = .holdExpiry side place ∧
      (s.units.orders.get side).queue[place.val]? = some r ∧ r.hold = .expired) ∨
    (∃ side, o = .double side ∧ i = .doubleRequestSetting side ∧
      (s.units.releases.get side).doublePending = true)

/-- A head timer's expiry that is pending is tested in its place (R50). -/
theorem State.headExpiry_expired {s : State} {h : Fin 32} {k : TimerKind} (ht : (s.units.head h).timer = .expired k) :
    s.headExpiry h k = s.retestOwner (.headTimer h) := by
  unfold State.headExpiry
  rw [ht]
  exact if_pos rfl

/-- A hold expiry that is pending is tested in its place (R111). -/
theorem State.holdExpiry_expired {s : State} {side : Side} {place : Fin 2} {r : OrderRec}
    (hr : (s.units.orders.get side).queue[place.val]? = some r) (expired : r.hold = .expired) :
    s.holdExpiry side place = s.retestOwner (.hold side r.accept) := by
  unfold State.holdExpiry
  rw [hr]
  simp only [expired]

theorem State.commands.exec {s : State} {i : Instr} {o : Owner} (h : s.commands i o) :
    (∀ p, o ≠ .port p) ∧ exec i s = .next (s.retestOwner o) := by
  rcases h with ⟨h, rfl, ⟨rfl, ht⟩ | ⟨rfl, ht⟩ | ⟨rfl, ht⟩⟩ | ⟨side, place, r, rfl, rfl, hr, expired⟩ |
    ⟨side, rfl, rfl, pending⟩
  · exact ⟨nofun, congrArg Host.Outcome.next (State.headExpiry_expired ht)⟩
  · exact ⟨nofun, congrArg Host.Outcome.next (State.headExpiry_expired ht)⟩
  · exact ⟨nofun, congrArg Host.Outcome.next (State.headExpiry_expired ht)⟩
  · exact ⟨nofun, congrArg Host.Outcome.next (State.holdExpiry_expired hr expired)⟩
  · exact ⟨nofun, congrArg Host.Outcome.next (if_pos pending)⟩

/-- With nothing waiting in the issue queue its turn does nothing (R142). -/
theorem State.drain_empty {s : State} (hq : s.queue = []) : s.drain = s := by
  unfold State.drain
  rw [hq]
  rfl

/-- The grant that leaves the oldest entry written tests the one held event behind it (R142, R144). -/
theorem State.Quiet.drain_tested {s : State} (quiet : s.Quiet) (hq : s.queue ≠ []) {o : Owner} {need : Nat}
    (held : s.held = [⟨o, need⟩]) (ho : ∀ p, o ≠ .port p)
    (alone : ∀ side, (s.units.releases.get side).releasePending = true → o = .release side) :
    s.writeEntry.Inside s.drain ∧ s.writeEntry.Tested s.drain o := by
  have granted : s.drain = State.retest heldFuel 0 s.writeEntry := by
    rw [quiet.drain_grant hq]
    exact if_neg (by simpa using hq)
  rw [granted]
  refine ⟨State.retest_inside .., ?_⟩
  refine (State.retest_answers (s.writeEntry_held.trans held) ho _).tested fun side => ?_
  rw [State.writeEntry_releases]
  exact alone side

/-! A port's held write behind a queue grant (R133, R141, R143, R144). -/

/-- With no grant to a port next, no grant is made for a port. -/
theorem State.servePorts_none {s : State} (h : ∀ p, s.choice ≠ some (.port p)) (n : Nat) : State.servePorts n s = s := by
  cases n with
  | zero => rfl
  | succ n =>
    unfold State.servePorts
    split
    · rename_i p hp
      exact absurd hp (h p)
    · rfl

/-- A port's held write is not tested by the tests of the held list: it waits for a grant of its own (R144). -/
theorem State.retest_port {s : State} {p : Port} {need : Nat} (held : s.held = [⟨.port p, need⟩]) (fuel : Nat) :
    State.retest (fuel + 1) 0 s = s := by
  have scan : s.scan [] [⟨.port p, need⟩] = (s, false) := by
    have same : s.setHeld [⟨.port p, need⟩] = s := by
      unfold State.setHeld
      rw [← held]
    show (s.setHeld [⟨.port p, need⟩], false) = (s, false)
    rw [same]
  unfold State.retest
  rw [held]
  simp only [List.take_zero, List.drop_zero, scan]
  rfl

section
variable {s : State} {p : Port}

/-- One port alone holds an access, with nothing issued behind it. -/
structure State.Alone (s : State) (p : Port) (x : Access) : Prop where
  current : (s.front p).current = some x
  upstream : (s.front p).upstream = []
  others : ∀ q, q ≠ p → (s.front q).current = none ∧ (s.front q).upstream = []

theorem State.Alone.of_ports {t : State} {x : Access} (alone : s.Alone p x) (same : t.ports = s.ports) : t.Alone p x := by
  have front : ∀ q, t.front q = s.front q := fun q => congrArg (fun ports => PerPort.get ports q) same
  exact ⟨by rw [front]; exact alone.current, by rw [front]; exact alone.upstream,
    fun q hq => by rw [front]; exact alone.others q hq⟩

/-- Behind a queue that has entries and the turn, a port that alone waits is not granted (R141). -/
theorem State.Alone.choice_queue {x : Access} (alone : s.Alone p x) (hq : s.queue ≠ [])
    (turn : 48 ≤ s.queue.length ∨ p ∉ portsFirst s.lastGranted) : s.choice = some .queue := by
  have other : ∀ q, q ≠ p → s.waits (.port q) = false := fun q hqp => by simp [State.waits, (alone.others q hqp).1]
  have queue : s.waits .queue = true := by simpa [State.waits] using hq
  unfold State.choice
  by_cases urgent : Config.queueUrgent ≤ s.queue.length
  · exact if_pos urgent
  · rw [if_neg urgent]
    have later : p ∉ portsFirst s.lastGranted := turn.resolve_left urgent
    cases hg : s.lastGranted with
    | queue => cases p <;> simp [hg, portsFirst] at later
    | port g =>
      rw [hg] at later
      cases g <;> cases p <;> simp_all [cyclicAfter, portsFirst]

/-- Behind fewer than 48 entries, the queue granted last, a port that alone waits has the grant (R141). -/
theorem State.Alone.choice_port {x : Access} (alone : s.Alone p x) (hq : s.queue.length < 48)
    (granted : s.lastGranted = .queue) : s.choice = some (.port p) := by
  have waits : ∀ q, s.waits (.port q) = decide (q = p) := fun q => by
    by_cases same : q = p
    · subst same
      simp [State.waits, alone.current]
    · simp [State.waits, (alone.others q same).1, same]
  unfold State.choice
  rw [if_neg (by simpa [Config.queueUrgent] using hq), granted]
  cases p <;> simp [cyclicAfter, waits]

variable {a : Addr} {st : BitVec 4} {w : Word} {need : Nat}

/-- The queue's turn ahead of a port's held write: one grant to it, then those that come to the port (R141, R142). -/
theorem State.Alone.drain {x : Access} (alone : s.Alone p x) (held : s.held = [⟨.port p, need⟩]) (hq : s.queue ≠ [])
    (turn : 48 ≤ s.queue.length ∨ p ∉ portsFirst s.lastGranted) : s.drain = s.writeEntry.settlePorts := by
  have nonempty : ¬ s.queue.isEmpty = true := by simpa using hq
  have fuel : s.grantFuel = 1023 + s.startTail.length + 1 := by
    unfold State.grantFuel
    omega
  have granted : s.grantQueue = s.writeEntry :=
    (if_neg nonempty).trans (State.retest_port (s.writeEntry_held.trans held) _)
  unfold State.drain
  rw [if_neg nonempty, fuel]
  unfold State.until
  rw [alone.choice_queue hq turn]
  exact congrArg State.settlePorts granted

/-- A grant to a port whose front end holds a write (R141). -/
theorem State.grantPort_write (hc : (s.front p).current = some (.write a st w)) :
    s.grantPort p = (s.setGranted (.port p)).grantWrite p a st w := by
  unfold State.grantPort
  have same : ((s.setGranted (.port p)).front p).current = some (.write a st w) := hc
  simp only [same]

/-- A write at a grant with nothing held, or with nothing held but itself: its event is tested against all free entries
(R143, R144). -/
theorem State.grantWrite_own (held : s.held = [] ∨ ∃ need, s.held = [⟨.port p, need⟩]) :
    (∀ e, attempt s.free (Ev.write p a st w) s.units = .ok e → s.grantWrite p a st w = s.performed p a st e) ∧
      ∀ n, attempt s.free (Ev.write p a st w) s.units = .error n → s.grantWrite p a st w = s.setHeld [⟨.port p, n⟩] := by
  have ahead : aheadOf s.held p = [] := by
    rcases held with h | ⟨need, h⟩ <;> simp [aheadOf, h]
  have again : ∀ n, holdPort s.held p n = [⟨.port p, n⟩] := fun n => by
    rcases held with h | ⟨need, h⟩ <;> simp [holdPort, h]
  unfold State.grantWrite
  rw [ahead, State.available_nil]
  refine ⟨fun e he => by rw [he], fun n hn => ?_⟩
  rw [hn]
  exact congrArg s.setHeld (again n)

/-- With nothing left in the held list there is no event to test again (R144). -/
theorem State.afterEvent_unheld (before : List Held) (hh : s.held = []) : s.afterEvent before = s := by
  unfold State.afterEvent
  simp only
  split
  · exact State.retest_nil s _ _ hh
  · rfl

/-- A write that was held is performed like one that was not, where no release is pending behind it (R133, R144). -/
theorem State.performed_own {e : Ev} (held : s.held = [⟨.port p, need⟩])
    (unpending : ∀ side, (e.units.releases.get side).releasePending = false) :
    s.performed p a st e = (s.setHeld []).performed p a st e := by
  have left : s.held.filter (fun x => x.owner ≠ .port p) = [] := by simp [held]
  have unheld : ((((s.setHeld []).commit e).store a st e.word).answer p .acknowledged).held = [] :=
    (State.store_held ..).trans (heldAfter_nil _ unpending)
  unfold State.performed
  simp only [left]
  exact congrArg (fun t => State.next t p) ((State.afterEvent_unheld s.held unheld).trans (State.afterEvent_nil _).symm)

/-- A grant to the one port that waits, with nothing held: its write is taken, or held with its need (R143). -/
theorem State.Alone.grantPort (alone : s.Alone p (.write a st w)) (unheld : s.held = []) :
    (∀ e, attempt s.free (Ev.write p a st w) s.units = .ok e → s.grantPort p = s.taken p a st e) ∧
      ∀ n, attempt s.free (Ev.write p a st w) s.units = .error n →
        s.grantPort p = (s.setGranted (.port p)).setHeld [⟨.port p, n⟩] := by
  obtain ⟨ok, error⟩ := State.grantWrite_own (s := s.setGranted (.port p)) (a := a) (st := st) (w := w) (.inl unheld)
  rw [State.grantPort_write alone.current]
  exact ⟨fun e he => (ok e he).trans (State.performed_nil (s.setGranted (.port p)) p a st e unheld alone.upstream), error⟩

/-- A port's held write has its grant again as if it were made anew, where no release is pending behind it (R144). -/
theorem State.Alone.grantPort_anew (alone : s.Alone p (.write a st w)) (held : s.held = [⟨.port p, need⟩])
    (unpending : ∀ side, (((s.setHeld []).grantPort p).units.releases.get side).releasePending = false) :
    s.grantPort p = (s.setHeld []).grantPort p := by
  have own := State.grantPort_write alone.current
  have anew := State.grantPort_write (s := s.setHeld []) alone.current
  have freed : (s.setHeld []).Alone p (.write a st w) := alone.of_ports rfl
  obtain ⟨ok, error⟩ := State.grantWrite_own (s := s.setGranted (.port p)) (a := a) (st := st) (w := w) (.inr ⟨need, held⟩)
  obtain ⟨ok', error'⟩ := freed.grantPort rfl
  cases ha : attempt s.free (Ev.write p a st w) s.units with
  | ok e =>
    rw [ok' e ha, State.taken_units] at unpending
    have performed := State.performed_own (s := s.setGranted (.port p)) (a := a) (st := st) held unpending
    obtain ⟨again, -⟩ := State.grantWrite_own (s := (s.setHeld []).setGranted (.port p)) (p := p) (a := a) (st := st)
      (w := w) (.inl rfl)
    exact ((own.trans (ok e ha)).trans performed).trans (anew.trans (again e ha)).symm
  | error n => exact (own.trans (error n ha)).trans (error' n ha).symm

/-- Behind the grant to the one port that waits, with nothing held, no port's grant follows: the port is idle, or its write
is held behind entries that wait (R141). -/
theorem State.Alone.grantPort_last (alone : s.Alone p (.write a st w)) (unheld : s.held = []) (tail : s.startTail = [])
    (q : Port) : (s.grantPort p).choice ≠ some (.port q) := by
  obtain ⟨ok, error⟩ := alone.grantPort unheld
  cases ha : attempt s.free (Ev.write p a st w) s.units with
  | ok e =>
    rw [ok e ha]
    refine State.Quiet.choice (fun r => ?_) q
    by_cases same : r = p
    · simp [State.taken, same]
    · have idle : (s.taken p a st e).front r = s.front r :=
        ((State.front_setFront ..).trans (if_neg same)).trans (State.store_front ..)
      rw [idle]
      exact alone.others r same
  | error n =>
    rw [error n ha]
    have nonempty : s.queue ≠ [] := fun empty => by
      have free : s.free = Config.queueDepth := by simp [State.free, empty, tail]
      rw [free, attempt_clear] at ha
      cases ha
    have waits : ((s.setGranted (.port p)).setHeld [⟨.port p, n⟩]).Alone p (.write a st w) :=
      alone.of_ports rfl
    rw [waits.choice_queue nonempty (.inr (show p ∉ portsFirst (.port p) by cases p <;> decide))]
    simp

/-- The accesses of an idle port that has the arbiter's next grant: its own, then those that come to a port (R133, R141). -/
theorem State.access_granted {x : Access} (current : (s.front p).current = none) (upstream : (s.front p).upstream = [])
    (hx : s.served p x = none)
    (next : (s.setFront p { (s.front p) with current := some x, upstream := [] }).choice = some (.port p)) :
    s.access p x = ((s.setFront p { (s.front p) with current := some x, upstream := [] }).grantPort p).settlePorts := by
  obtain ⟨t, ht⟩ : ∃ t, t = s.setFront p { (s.front p) with current := some x, upstream := [] } := ⟨_, rfl⟩
  have holds : (t.front p).current.isSome = true := by simp [ht]
  have fuel : t.grantFuel = 1023 + t.startTail.length + 1 := by
    unfold State.grantFuel
    omega
  unfold State.access
  simp only [State.issue_idle s p x current upstream hx, current, ← ht, holds]
  rw [← ht] at next
  rw [fuel]
  unfold State.until
  rw [next]
  exact congrArg State.settlePorts (if_pos rfl)

/-- The next grants of a state in which a port's held write is the one that waits: its own, and no other port's. -/
theorem State.Alone.settlePorts {x : Access} (alone : s.Alone p x) (hq : s.queue.length < 48)
    (granted : s.lastGranted = .queue) (last : ∀ q, (s.grantPort p).choice ≠ some (.port q)) :
    s.settlePorts = s.grantPort p := by
  unfold State.settlePorts
  rw [show s.waiting + 3 = s.waiting + 2 + 1 from rfl]
  unfold State.servePorts
  rw [alone.choice_port hq granted]
  exact State.servePorts_none last _

end

/-- The state before a held port write, as if the port had not made it: nothing is held, and the port is idle. -/
def State.anew (s : State) (p : Port) : State :=
  { s with held := [], ports := s.ports.set p { (s.front p) with current := none } }

/-- The port makes its write again: it stands at its front end as it did. -/
theorem State.Alone.anew_again {s : State} {p : Port} {x : Access} (alone : s.Alone p x) :
    (s.anew p).setFront p { ((s.anew p).front p) with current := some x, upstream := [] } = s.setHeld [] := by
  have front : { (s.front p) with current := some x, upstream := [] } = s.front p := by
    rw [← alone.current, ← alone.upstream]
  unfold State.anew State.setFront
  simp only [State.front, PerPort.get_set, if_true] at front ⊢
  rw [front]
  simp [State.setHeld]

section
variable {s : State} {p : Port} {a : Addr} {st : BitVec 4} {w : Word} {need : Nat}

/-- The write made anew has its grant, and no other port's follows. -/
theorem State.Alone.access_anew (alone : s.Alone p (.write a st w)) (hq : s.queue.length < 48)
    (granted : s.lastGranted = .queue) (tail : s.startTail = []) :
    (s.anew p).access p (.write a st w) = (s.setHeld []).grantPort p := by
  have freed : (s.setHeld []).Alone p (.write a st w) := alone.of_ports rfl
  have again := alone.anew_again
  have idle : ((s.anew p).front p).current = none ∧ ((s.anew p).front p).upstream = [] := by
    simpa [State.anew, State.front] using alone.upstream
  rw [State.access_granted idle.1 idle.2 rfl (by rw [again]; exact freed.choice_port hq granted), again]
  exact State.servePorts_none (freed.grantPort_last rfl tail) _

/-- Behind the entry that a queue grant writes, a port's held write has its grant again, unless 48 entries still wait
(R141, R144). -/
theorem State.Alone.settlePorts_anew (alone : s.Alone p (.write a st w)) (held : s.held = [⟨.port p, need⟩])
    (hq : s.queue.length < 48) (granted : s.lastGranted = .queue) (tail : s.startTail = [])
    (unpending : ∀ side,
      (((s.anew p).access p (.write a st w)).units.releases.get side).releasePending = false) :
    s.settlePorts = (s.anew p).access p (.write a st w) := by
  rw [alone.access_anew hq granted tail] at unpending ⊢
  have freed : (s.setHeld []).Alone p (.write a st w) := alone.of_ports rfl
  have same := alone.grantPort_anew held unpending
  rw [alone.settlePorts hq granted (by rw [same]; exact freed.grantPort_last rfl tail), same]

end

/-- The entries that still wait behind the one written, where they are less than 48: no START tail is among them (R145). -/
theorem State.EntryWritten.short {s t : State} {x : QueueEntry} {rest : List QueueEntry} (written : s.EntryWritten t x rest)
    (room : rest.length < 48) : t.queue = rest ∧ t.startTail = [] := by
  obtain ⟨-, -, waiting, queue, -⟩ := written
  rw [List.take_of_length_le (by omega)] at queue
  unfold State.waitingWrites at waiting
  rw [queue] at waiting
  exact ⟨queue, by simpa using waiting⟩

/-- Where 48 entries or more still wait behind the one written, no port is granted (R141). -/
theorem State.EntryWritten.urgent {s t : State} {x : QueueEntry} {rest : List QueueEntry} (written : s.EntryWritten t x rest)
    (urgent : 48 ≤ rest.length) : t.settlePorts = t := by
  obtain ⟨-, -, -, queue, -⟩ := written
  have full : Config.queueUrgent ≤ t.queue.length := by
    rw [queue, List.length_take]
    exact le_min (by decide) urgent
  have choice : t.choice = some .queue := if_pos full
  exact State.servePorts_none (by simp [choice]) _

/-- Settles O60 (R50, R111, R118, R120, R122, R133, R141 to R145, R167; log entries 1, 4, 10, 17 and 31). -/
theorem oldestEntryWritten : Obligations.OldestEntryWritten := by
  refine ⟨fun s quiet mem => ⟨fun empty => congrArg Host.Outcome.next (State.drain_empty empty),
    fun x rest hq hw => ⟨fun unheld => ?_, fun o need held ho alone => ?_⟩⟩, ?_, fun s o need i held unpending commands => ?_⟩
  · exact ⟨_, congrArg Host.Outcome.next (quiet.drain unheld hq), State.writeEntry_written mem hw⟩
  · exact ⟨_, _, rfl, State.writeEntry_written mem hw, quiet.drain_tested hq held ho alone⟩
  · intro s p a st w need x rest current upstream others held mem hq hw turn
    have alone : s.Alone p (.write a st w) := ⟨current, upstream, others⟩
    have drain := alone.drain held hq turn
    have written := State.writeEntry_written mem hw
    refine ⟨s.writeEntry, written, fun urgent => congrArg Host.Outcome.next (drain.trans (written.urgent urgent)),
      fun room => ⟨_, rfl, fun settled => congrArg Host.Outcome.next (drain.trans ?_)⟩⟩
    obtain ⟨queue, tail⟩ := written.short room
    obtain ⟨-, -, -, -, held', ports, granted, -⟩ := written
    exact (alone.of_ports ports).settlePorts_anew (held'.trans held) (by rw [queue]; exact room) granted tail settled
  · obtain ⟨ho, done⟩ := State.commands.exec commands
    refine ⟨_, done, State.retestOwner_inside .., (State.retestOwner_answers held ho).tested fun side pending => ?_⟩
    rw [unpending side] at pending
    cases pending

end Sys2Proof.Machine

namespace Sys2Proof.Machine

/-! ### The machine at reset (O2, O3) -/

/-- Settles O3. -/
theorem invariantsAtReset : Obligations.InvariantsAtReset := by
  have sound : State.reset.Sound := ⟨rfl, by decide, fun tail => absurd rfl tail⟩
  have kept := (Units.firm_iff (.initial 0 false)).1 ⟨Units.initial_firm 0 false, Nat.zero_le 32⟩
  exact ⟨sound, Units.initial_good 0 false, kept.1⟩

@[simp] theorem Units.initial_head (cbase : BitVec 4) (oneck : Bool) (h : Fin 32) :
    (Units.initial cbase oneck).head h = .cleared := by simp [Units.head, Units.initial]

/-- The machine that the reset input leaves where no access waits at any port (R159). -/
def State.afterReset (s : State) (cbase : BitVec 4) (oneck : Bool) : State :=
  { State.reset with units := .initial cbase oneck, mem := s.mem, pending := s.pending }

theorem State.afterReset_front (s : State) (cbase : BitVec 4) (oneck : Bool) (p : Port) :
    (s.afterReset cbase oneck).front p = .cleared := by cases p <;> rfl

theorem State.afterReset_quiet (s : State) (cbase : BitVec 4) (oneck : Bool) : (s.afterReset cbase oneck).Quiet :=
  fun p => by rw [State.afterReset_front]; exact ⟨rfl, rfl⟩

/-- A front end that holds no access has none to issue again at reset release (R133). -/
theorem FrontEnd.reset_idle {f : FrontEnd} (idle : f.current = none ∧ f.upstream = []) : f.reset = .cleared := by
  simp [FrontEnd.reset, FrontEnd.cleared, idle]

theorem State.Quiet.resetInput {s : State} (quiet : s.Quiet) (cbase : BitVec 4) (oneck : Bool) :
    s.resetInput cbase oneck = s.afterReset cbase oneck := by
  have ca : s.ports.ca.reset = .cleared := FrontEnd.reset_idle (quiet .ca)
  have cb : s.ports.cb.reset = .cleared := FrontEnd.reset_idle (quiet .cb)
  have hl : s.ports.hl.reset = .cleared := FrontEnd.reset_idle (quiet .hl)
  have idle := s.afterReset_quiet cbase oneck
  have again (p : Port) : (s.afterReset cbase oneck).next p = s.afterReset cbase oneck :=
    State.next_nil _ p (idle p).2
  unfold State.resetInput
  rw [ca, cb, hl]
  change ((((s.afterReset cbase oneck).next .ca).next .cb).next .hl).settlePorts = _
  rw [again .ca, again .cb, again .hl]
  exact idle.settlePorts

/-- Settles O2 (R133, R159; log entry 9). -/
theorem resetInputInitializes : Obligations.ResetInputInitializes := by
  intro s cbase oneck quiet
  refine ⟨s.afterReset cbase oneck, congrArg Host.Outcome.next (quiet.resetInput cbase oneck), rfl, fun _ => rfl, rfl, rfl,
    rfl, rfl, rfl, rfl, Units.initial_head cbase oneck, fun z => ?zone, fun x => ?order, fun x => ?release,
    fun x => ?notice, fun x => ?view, rfl, rfl, rfl, rfl, rfl, s.afterReset_front cbase oneck⟩
  case zone => cases z <;> rfl
  all_goals cases x <;> rfl

end Sys2Proof.Machine

namespace Sys2Proof.Machine

/-! ### Refused commands (O6, O7) -/

/-- A command that is refused where it is taken leaves nothing behind but its word with the verdict, of every port that may
give a command (R147, R152). -/
theorem State.Turn.instr_refused {s : State} {p : Port} (turn : s.Turn p) (hp : s.mayCommand p) (slot : Side) (c : Command)
    (arg : BitVec 8) (why : CommandReason) (detail : BitVec 14)
    (take : ∀ e : Ev, e.units = s.units → e.take slot c arg = e.refused why detail) :
    ∃ t, exec (c.instr p slot arg) s = .next t ∧ s.CommandRefused t p slot c arg why detail :=
  ⟨_, c.exec_instr p slot arg s, turn.command_refused hp slot c arg why detail fun _ => take _ rfl⟩

section
variable {e : Ev}

/-- Every head command goes by the rule of the head commands (R152). -/
theorem Ev.take_ofHead {c : Command} (ofHead : c.ofHead = true) (slot : Side) (arg : BitVec 8) :
    ∃ rule, e.take slot c arg = e.headCommand arg rule := by
  cases c with
  | headEnable => unfold Ev.take Ev.cmdHeadEnable; exact ⟨_, rfl⟩
  | headDisable => unfold Ev.take Ev.cmdHeadDisable; exact ⟨_, rfl⟩
  | recover => unfold Ev.take Ev.cmdRecover; exact ⟨_, rfl⟩
  | headPurge => unfold Ev.take Ev.cmdHeadPurge; exact ⟨_, rfl⟩
  | zeroSet => unfold Ev.take Ev.cmdZeroSet; exact ⟨_, rfl⟩
  | load | unload | start | stop | halt | applySide | applyZone | noteAck => cases ofHead

/-- The part states of the table of commands refuse a command with STATE (R152). -/
theorem Ev.take_refusedIn {c : Command} (h : c.refusedIn e.units.part = true) (slot : Side) (arg : BitVec 8) :
    e.take slot c arg = e.refused .state 0 := by
  have byHead := fun ofHead => Ev.take_ofHead (e := e) (c := c) ofHead slot arg
  cases c with
  | load =>
    have active : e.units.active = true := by simpa [Command.refusedIn, Units.active] using h
    exact if_pos active
  | unload => exact if_pos (by simpa [Command.refusedIn] using h)
  | start => exact if_pos (by simpa [Command.refusedIn] using h)
  | stop => exact if_pos (by simpa [Command.refusedIn] using h)
  | halt =>
    have inactive : (!e.units.active) = true := by
      have part : e.units.part = .transparent ∨ e.units.part = .stopped := by simpa [Command.refusedIn] using h
      rcases part with part | part <;> simp [Units.active, part]
    exact if_pos inactive
  | headEnable | headDisable | recover | headPurge | zeroSet =>
    obtain ⟨rule, take⟩ := byHead rfl
    exact take.trans (if_pos (by simpa [Command.refusedIn] using h))
  | applySide | applyZone | noteAck => exact if_pos (by simpa [Command.refusedIn] using h)

/-- The table of commands refuses a head command with ARG at and above the head count (R152). -/
theorem Ev.take_argRefused {c : Command} (ofHead : c.ofHead = true) (ht : e.units.part ≠ .transparent) {arg : BitVec 8}
    (ha : e.units.headCount ≤ arg.toNat) (slot : Side) : e.take slot c arg = e.refused .arg 0 := by
  obtain ⟨rule, take⟩ := Ev.take_ofHead (e := e) ofHead slot arg
  exact take.trans (Ev.headCommand_arg ht ha rule)

/-- A LOAD whose configuration fails is refused with CHECK (R150). -/
theorem Ev.cmdLoad_check (ha : e.units.active = false) {detail : BitVec 14} (hf : loadFailure e.units = some detail) :
    e.cmdLoad = e.refused .check detail := by simp [Ev.cmdLoad, ha, hf]

/-- A START is refused with BUSY while a head is DISCHARGING (R154). -/
theorem Ev.cmdStart_busy (hp : e.units.part = .stopped) {h : Fin 32} (hd : e.units.dischargingHead = some h) :
    e.cmdStart = e.refused .busy (detailHead h) := by simp [Ev.cmdStart, hp, hd]

/-- A START is refused with CHECK for an enabled head without a feed envelope (R154). -/
theorem Ev.cmdStart_head (hp : e.units.part = .stopped) (hd : e.units.dischargingHead = none) {h : Fin 32}
    (hb : e.units.bareHead = some h) : e.cmdStart = e.refused .check (detailHead h) := by simp [Ev.cmdStart, hp, hd, hb]

/-- A START is refused with CHECK for a zone without a top envelope (R154). -/
theorem Ev.cmdStart_zone (hp : e.units.part = .stopped) (hd : e.units.dischargingHead = none)
    (hb : e.units.bareHead = none) {z : Zone} (hz : e.units.bareZone = some z) :
    e.cmdStart = e.refused .check (detailZone z) := by simp [Ev.cmdStart, hp, hd, hb, hz]

end

/-- Settles O6 (R152, R168). -/
theorem tableRefusesCommand : Obligations.TableRefusesCommand := by
  intro s p slot c arg why turn hp cases
  refine turn.instr_refused hp slot c arg why 0 fun e he => ?_
  rcases cases with ⟨rfl, state⟩ | ⟨rfl, part, ofHead, above⟩
  · exact Ev.take_refusedIn (by rw [he]; exact state) slot arg
  · exact Ev.take_argRefused ofHead (by rw [he]; exact part) (by rw [he]; exact above) slot

/-- Settles O7 (R150, R152, R154). -/
theorem checkRefusesLoadAndStart : Obligations.CheckRefusesLoadAndStart := by
  constructor
  · intro s p slot arg detail turn hp inactive fails
    exact turn.instr_refused hp slot .load arg .check detail fun e he =>
      Ev.cmdLoad_check (by rw [he]; exact inactive) (by rw [he]; exact fails)
  · intro s p slot arg why detail turn hp part cases
    refine turn.instr_refused (.inr hp) slot .start arg why detail fun e he => ?_
    rw [← he] at part cases
    rcases cases with ⟨h, busy, rfl, rfl⟩ | ⟨quiet, rfl, ⟨h, bare, rfl⟩ | ⟨z, covered, bare, rfl⟩⟩
    · exact Ev.cmdStart_busy part busy
    · exact Ev.cmdStart_head part quiet bare
    · exact Ev.cmdStart_zone part quiet covered bare

end Sys2Proof.Machine

namespace Sys2Proof.Machine

/-! ### STOP (O12) -/

/-- What a part-state change puts out: the status word, and PART-STATE on both sides (R158). -/
def statusActs (x : QueueEntry) : List Act := [.write x, .flag .a .partState, .flag .b .partState]

theorem Units.puts_statusActs (u : Units) (x : QueueEntry) :
    (u.puts (statusActs x)).out = [x] ∧
      ∀ side, (u.puts (statusActs x)).units.notices.get side = (u.notices.get side).setFlag .partState :=
  ⟨rfl, fun side => by cases side <;> rfl⟩

/-- A part-state change and nothing else put out: PART-STATE is set on both sides, and the status word is queued. -/
theorem State.Puts.of_statusActs {s t : State} {x : QueueEntry} (puts : s.Puts t (statusActs x)) :
    (∀ side, (t.units.notices.get side).sameAs { (s.units.notices.get side) with
        flags := (s.units.notices.get side).flags ||| Flag.partState.mask }) ∧ s.Queued t [x] := by
  obtain ⟨notices, queued⟩ := puts
  obtain ⟨out, flags⟩ := s.units.puts_statusActs x
  refine ⟨fun side => (notices side).trans ?_, out ▸ queued⟩
  rw [flags]
  exact NoticeSide.setFlag_sameAs _ .partState

theorem Units.partChanged_keeps (u : Units) (q : Piece) (hq : q ≠ .part) : u.keeps u.partChanged.1 q := by
  cases q with
  | part => exact absurd rfl hq
  | loaded => exact ⟨rfl, rfl, rfl, rfl⟩
  | _ => rfl

theorem Units.setPart_steady (u : Units) (x : PartState) : u.Steady (u.setPart x) :=
  ⟨⟨rfl, rfl, rfl, rfl⟩, rfl, fun _ pending => pending⟩

/-- A change of the part state. -/
theorem Ev.Does.setPart {e : Ev} (x : PartState) : e.Does (e.mod fun u => u.setPart x) (e.units.setPart x, []) :=
  Ev.Does.mod _ rfl (e.units.setPart_steady x)

section
variable {e : Ev}

/-- STOP with orders, dumps or discharges left (R155). -/
theorem Ev.Does.stop_draining (hp : e.units.part = .running) (hd : e.units.drained = false) :
    ∃ e', e.cmdStop = (e', .done detailDraining) ∧ e.Does e' (e.units.setPart .draining).partChanged := by
  have undrained : (e.units.setPart .draining).drained = false := hd
  have taken : e.cmdStop = ((e.mod fun u => u.setPart .draining).partChange, .done detailDraining) := by
    simp [Ev.cmdStop, hp, undrained]
  exact ⟨_, taken, (Ev.Does.setPart .draining).trans Units.partChanged_blind Ev.Does.partChange⟩

/-- STOP with the drain condition already true (R155, R156). -/
theorem Ev.Does.stop_drained (hp : e.units.part = .running) (hd : e.units.drained = true) :
    ∃ e', e.cmdStop = (e', .done detailStopped) ∧ e.Does e' (e.units.setPart .draining).drainEnd := by
  have drained : (e.units.setPart .draining).drained = true := hd
  have taken : e.cmdStop = ((e.mod fun u => u.setPart .draining).drainTest, .done detailStopped) := by
    simp [Ev.cmdStop, Ev.drainTest, hp, drained]
  exact ⟨_, taken, (Ev.Does.setPart .draining).trans Units.drainEnd_blind Ev.Does.drainTest⟩

end

/-- The units after the part-state change to STOPPED that takes heads to what a map gives, clears both latches and lets the
staged blocks take effect (R156, R157). -/
def Units.stoppedBy (u : Units) (f : Head → Head) : Units :=
  (Units.partChanged (((u.mapHeads fun _ x => f x).setPart .stopped).blocksTaken)).1

/-- What that change leaves of the units, piece by piece. -/
structure Units.StoppedBy (u v : Units) (f : Head → Head) : Prop where
  part : v.part = .stopped
  count : v.changeCount = u.changeCount + 1
  head : ∀ h, v.head h = f (u.head h)
  release : ∀ x, v.releases.get x = { u.releases.get x with latch := false, releasePending := false }
  order : ∀ x, v.orders.get x = (u.orders.get x).effect
  zone : ∀ z, v.zones.get z = (u.zones.get z).effect
  config : v.config = u.config
  view : ∀ x, v.views.get x = u.views.get x
  stage : v.stage = u.stage

theorem Units.stoppedBy_of (u : Units) (f : Head → Head) : u.StoppedBy (u.stoppedBy f) f := by
  have same (q : Piece) (hq : ∀ h, q ≠ .head h) : u.keeps (u.mapHeads fun _ x => f x) q :=
    Units.mapHeads_keeps u _ q fun h c => absurd c (hq h)
  have head (h : Fin 32) : (u.mapHeads fun _ x => f x).head h = f (u.head h) := Units.mapHeads_head ..
  have part := same .part (by simp)
  have loaded := same .loaded (by simp)
  have stage := same .stage (by simp)
  have release (x : Side) := same (.release x) (by simp)
  have order (x : Side) := same (.order x) (by simp)
  have zone (z : Zone) := same (.zone z) (by simp)
  have view (x : Side) := same (.view x) (by simp)
  unfold Units.stoppedBy
  generalize u.mapHeads (fun _ x => f x) = v at *
  exact
    { part := rfl
      count := congrArg (· + 1) part.2
      head := head
      release := fun x => by rw [← show v.releases.get x = _ from release x]; cases x <;> rfl
      order := fun x => by rw [← show v.orders.get x = _ from order x]; cases x <;> rfl
      zone := fun z => by rw [← show v.zones.get z = _ from zone z]; cases z <;> rfl
      config := loaded.1
      view := view
      stage := stage }

/-- A command that stops the part so. -/
theorem State.CommandMakes.stoppedBy {s t : State} {slot : Side} {u : Units} {f : Head → Head} {l : List Act}
    (makes : s.CommandMakes t slot (u.stoppedBy f, l)) : u.StoppedBy t.units f := by
  have same (q : Piece) (hq : q ∉ [Piece.mirror (slotOffset slot), .notice .a, .notice .b]) :
      (u.stoppedBy f).keeps t.units q := makes.1 q hq
  have done := u.stoppedBy_of f
  have part := same .part (by simp)
  have loaded := same .loaded (by simp)
  exact
    { part := part.1.trans done.part
      count := part.2.trans done.count
      head := fun h => Eq.trans (same (.head h) (by simp)) (done.head h)
      release := fun x => Eq.trans (same (.release x) (by simp)) (done.release x)
      order := fun x => Eq.trans (same (.order x) (by simp)) (done.order x)
      zone := fun z => Eq.trans (same (.zone z) (by simp)) (done.zone z)
      config := loaded.1.trans done.config
      view := fun x => Eq.trans (same (.view x) (by simp)) (done.view x)
      stage := Eq.trans (same .stage (by simp)) done.stage }

/-- The status word is formed of the straps and the change count. -/
theorem Units.statusEntry_congr {u v : Units} (cbase : v.cbase = u.cbase) (oneck : v.oneck = u.oneck)
    (count : v.changeCount = u.changeCount) (x : PartState) : v.statusEntry x = u.statusEntry x := by
  unfold Units.statusEntry Units.statusAddr Units.controlBase
  rw [cbase, oneck, count]

theorem Units.stoppedBy_puts (u : Units) (f : Head → Head) :
    (Units.partChanged (((u.mapHeads fun _ x => f x).setPart .stopped).blocksTaken)).2 =
      statusActs (u.statusEntry .stopped) := by
  have loaded := Units.mapHeads_keeps u (fun _ x => f x) .loaded (by simp)
  have part := Units.mapHeads_keeps u (fun _ x => f x) .part (by simp)
  generalize u.mapHeads (fun _ x => f x) = v at loaded part ⊢
  obtain ⟨-, -, cbase, oneck⟩ := loaded
  exact congrArg statusActs (Units.statusEntry_congr cbase oneck part.2 .stopped)

/-- Drain complete is such a change (R156). -/
theorem Units.drainEnd_done {u : Units} (hp : u.part = .draining) (hd : u.drained = true) :
    u.drainEnd = (u.stoppedBy fun x => if stopsAtDrain x.state.name then x.halted else x,
      statusActs (u.statusEntry .stopped)) := by
  rw [← Units.stoppedBy_puts u fun x => if stopsAtDrain x.state.name then x.halted else x]
  unfold Units.drainEnd Units.stoppedBy
  rw [if_pos ⟨hp, hd⟩]
  unfold Units.mapHeads Units.blocksTaken Units.setPart
  rfl

/-- Settles O12 (R23, R78, R117, R119, R155, R156, R158). -/
theorem stopDrainsOrCompletes : Obligations.StopDrainsOrCompletes := by
  intro s p slot arg clear hp running
  refine ⟨_, Command.exec_instr .stop p slot arg s, ?_⟩
  cases drained : s.units.drained with
  | false =>
    obtain ⟨commanded, makes⟩ := clear.command_makes (.inr hp) slot .stop arg
      (v := detailDraining) (r := (s.units.setPart .draining).partChanged) fun k =>
        Ev.Does.stop_draining (e := .begin s.units true k) running drained
    obtain ⟨flags, queued⟩ := State.Puts.of_statusActs makes.2
    have part := makes.1 .part (by simp)
    refine ⟨part.2, flags, fun _ => ⟨commanded, part.1, fun q hq => ?_, queued⟩, nofun⟩
    simp only [List.mem_cons, List.not_mem_nil, or_false, not_or] at hq
    obtain ⟨notPart, notMirror, notA, notB⟩ := hq
    exact Ev.Moves.keeps_trans (Ev.Moves.keeps_trans (s.units.setPart_keeps .draining q notPart)
      ((s.units.setPart .draining).partChanged_keeps q notPart)) (makes.1 q (by simp [notMirror, notA, notB]))
  | true =>
    obtain ⟨commanded, makes⟩ := clear.command_makes (.inr hp) slot .stop arg
      (v := detailStopped) (r := (s.units.setPart .draining).drainEnd) fun k =>
        Ev.Does.stop_drained (e := .begin s.units true k) running drained
    rw [Units.drainEnd_done (u := s.units.setPart .draining) rfl drained] at makes
    obtain ⟨flags, queued⟩ := State.Puts.of_statusActs makes.2
    obtain ⟨part, count, head, release, order, zone, config, view, stage⟩ := makes.stoppedBy
    exact ⟨count, flags, nofun, fun _ => ⟨commanded, part, head, release, order, zone, config, view, stage, queued⟩⟩

end Sys2Proof.Machine

namespace Sys2Proof.Machine

/-! ### HALT (O13) -/

/-- HALT numbers one notice for each order that it withdraws at a side (R114). -/
theorem Units.haltActs_numbers (u : Units) (side s : Side) :
    ((u.haltActs side).map (Act.numbers s)).sum = if side = s then (u.orders.get side).queue.length else 0 := by
  unfold Units.haltActs
  induction (u.orders.get side).queue with
  | nil => simp
  | cons o rest ih =>
    rw [List.flatMap_cons, List.map_append, List.sum_append, ih]
    by_cases same : side = s
    · simp [Act.numbers, same, Nat.add_comm]
    · simp [Act.numbers, same]

/-- Each order that HALT withdraws sets ORDER-ENDED (R114). -/
theorem Units.orderEnded_mem_haltActs {u : Units} {side : Side} (queued : (u.orders.get side).queue ≠ []) :
    Act.flag side .orderEnded ∈ u.haltActs side := by
  obtain ⟨o, rest, hq⟩ := List.exists_cons_of_ne_nil queued
  unfold Units.haltActs
  rw [hq]
  simp

theorem Units.feedStops_numbers (u : Units) (hs : List (Fin 32)) (side : Side) :
    ((hs.map fun h => Act.write (u.feedEntry h 0 0 ((u.head h).feedSeq + 1))).map (Act.numbers side)).sum = 0 :=
  List.sum_eq_zero fun n hn => by
    obtain ⟨a, ha, rfl⟩ := List.mem_map.1 hn
    obtain ⟨h, -, rfl⟩ := List.mem_map.1 ha
    rfl

/-- What HALT puts out: the withdrawals, side A before side B, the feed stops, and the part-state change (R157). -/
def Units.haltPuts (u : Units) : List Act :=
  u.haltActs .a ++ u.haltActs .b ++
    ((allHeads.filter fun h => feedsAtHalt (u.head h).state.name).map fun h =>
      .write (u.feedEntry h 0 0 ((u.head h).feedSeq + 1))) ++
    statusActs (u.statusEntry .stopped)

theorem Units.haltPuts_numbers (u : Units) (side : Side) :
    (u.haltPuts.map (Act.numbers side)).sum = (u.orders.get side).queue.length := by
  have status : ((statusActs (u.statusEntry .stopped)).map (Act.numbers side)).sum = 0 := rfl
  unfold Units.haltPuts
  simp only [List.map_append, List.sum_append, Units.haltActs_numbers, Units.feedStops_numbers, status]
  cases side <;> simp

/-- Both order queues emptied. -/
def Units.unqueued (u : Units) : Units :=
  (u.setOrder .a { u.orders.get .a with queue := [] }).setOrder .b { u.orders.get .b with queue := [] }

theorem Units.unqueued_order (u : Units) (side : Side) :
    u.unqueued.orders.get side = { u.orders.get side with queue := [] } := by cases side <;> rfl

/-- What HALT makes of a head's record (R23, R157). -/
def Head.atHalt (x : Head) : Head :=
  let y := if feedsAtHalt x.state.name then x.unfed else x
  if stopsAtHalt x.state.name then y.halted else y

/-- Settles O13 (R23, R61, R114, R119, R157; log entry 31). -/
theorem haltStops : Obligations.HaltStops := by
  intro s p slot arg clear hp active
  obtain ⟨commanded, makes⟩ := clear.command_makes (.inr hp) slot .halt arg
    (v := 0) (r := (s.units.unqueued.stoppedBy Head.atHalt, s.units.haltPuts)) fun k =>
      Ev.Does.halt (e := .begin s.units true k) active
  obtain ⟨part, count, head, release, order, zone, config, view, stage⟩ := makes.stoppedBy
  have flags (side : Side) : Act.flag side .partState ∈ s.units.haltPuts := by
    cases side <;> simp [Units.haltPuts, statusActs]
  have ended (side : Side) (queued : (s.units.orders.get side).queue ≠ []) :
      Act.flag side .orderEnded ∈ s.units.haltPuts := by
    have mem := Units.orderEnded_mem_haltActs queued
    cases side <;> simp [Units.haltPuts, mem]
  refine ⟨_, Command.exec_instr .halt p slot arg s, commanded, part, count, head, fun x => ?_, release, zone,
    fun x => ⟨?_, makes.2.has_flag (flags x), fun queued => makes.2.has_flag (ended x queued)⟩, config, view, stage, makes.2⟩
  · rw [order, Units.unqueued_order]
  · rw [(makes.2.counts x).1, Units.haltPuts_numbers]

end Sys2Proof.Machine

namespace Sys2Proof.Machine

/-! ### LOAD and UNLOAD (O9, O10) -/

/-- The notice unit that LOAD and UNLOAD leave, with PART-STATE set by the part-state change (R151, R153). -/
def NoticeSide.reloaded (n : NoticeSide) : NoticeSide := n.unloaded.setFlag .partState

/-- What taking LOAD or UNLOAD makes of the units: everything new but the straps, the control mirror, and what the release
and notice units keep (R151, R153). -/
structure Units.Replaces (u v : Units) : Prop where
  cbase : v.cbase = u.cbase
  oneck : v.oneck = u.oneck
  count : v.changeCount = u.changeCount
  mirror : v.mirror = u.mirror
  stage : v.stage = none
  release : ∀ x, v.releases.get x = (u.releases.get x).unloaded
  notice : ∀ x, v.notices.get x = (u.notices.get x).unloaded
  view : ∀ x, v.views.get x = .cleared

/-- The units after UNLOAD, up to the part-state change (R153). -/
def Units.configRemoved (u : Units) : Units := { u.unloaded with part := .transparent }

theorem Units.configRemoved_replaces (u : Units) : u.Replaces u.configRemoved where
  cbase := rfl
  oneck := rfl
  count := rfl
  mirror := rfl
  stage := rfl
  release := fun x => by cases x <;> rfl
  notice := fun x => by cases x <;> rfl
  view := fun x => by cases x <;> rfl

theorem Units.loaded_replaces (u : Units) : u.Replaces u.loaded where
  cbase := u.loaded_cbase
  oneck := u.loaded_oneck
  count := u.loaded_changeCount
  mirror := u.loaded_mirror
  stage := u.loaded_stage
  release := fun x => by rw [u.loaded_releases]; cases x <;> rfl
  notice := fun x => by rw [u.loaded_notices]; cases x <;> rfl
  view := fun x => by rw [u.loaded_views]; cases x <;> rfl

/-- A LOAD or an UNLOAD has been taken, its units before the part-state change given. -/
structure State.Replaced (s t : State) (slot : Side) (v : Units) : Prop where
  part : t.units.part = v.part
  count : t.units.changeCount = s.units.changeCount + 1
  piece : ∀ q, q ≠ .part → q ≠ .mirror (slotOffset slot) → (∀ x, q ≠ .notice x) → v.keeps t.units q
  mirror : ∀ o, o ≠ slotOffset slot → t.units.mirrorWord o = s.units.mirrorWord o
  notice : ∀ x, (t.units.notices.get x).sameAs { (s.units.notices.get x) with
    writeIx := 0, consumeIx := 0, number := 0, holding := [], reservations := 0,
    flags := (s.units.notices.get x).flags ||| Flag.partState.mask }
  queued : s.Queued t [s.units.statusEntry v.part]

/-- The event of a LOAD or an UNLOAD with everything clear (R143, R151, R153). -/
theorem State.Clear.replaced {s : State} {p : Port} (clear : s.Clear) (hp : s.mayCommand p) (slot : Side) (c : Command)
    (arg : BitVec 8) {f : Units → Units} (replaces : s.units.Replaces (f s.units))
    (taken : ∀ e : Ev, e.units = s.units → e.take slot c arg = ((e.mod f).partChange, .done 0)) :
    s.Commanded (s.command c p slot arg) p slot c arg 0 ∧ s.Replaced (s.command c p slot arg) slot (f s.units) := by
  have ⟨⟨_, _, _, _, _, wf⟩, _⟩ := clear
  obtain ⟨k, leaves⟩ := clear.command hp slot c arg
  rw [taken _ rfl] at leaves
  obtain ⟨e, he⟩ : ∃ e, e = (Ev.begin s.units true k).mod f := ⟨_, rfl⟩
  have units : e.units = f s.units := by rw [he]; rfl
  have out : e.out = [] := by rw [he]; rfl
  rw [← he] at leaves
  have kept (q : Piece) (hp : q ≠ .part) (hn : ∀ x, q ≠ .notice x) : (f s.units).keeps e.partChange.units q :=
    units ▸ e.partChange_keeps q hp hn
  obtain ⟨-, -, cbase, -⟩ := kept .loaded (by simp) (by simp)
  have notice (x : Side) : e.partChange.units.notices.get x = (s.units.notices.get x).reloaded := by
    rw [e.partChange_notice, units, replaces.notice]
    rfl
  have mirror : e.partChange.units.mirror = s.units.mirror := by
    rw [e.partChange_eq]
    exact (congrArg Units.mirror units).trans replaces.mirror
  have writes : e.partChange.out = [s.units.statusEntry (f s.units).part] := by
    have entry := Units.statusEntry_congr replaces.cbase replaces.oneck replaces.count (f s.units).part
    rw [e.partChange_eq, ← entry, ← units]
    simp [out]
  have leaves := leaves (by rw [mirror]; exact wf)
  have piece (q : Piece) (hp : q ≠ .part) (hm : q ≠ .mirror (slotOffset slot)) (hn : ∀ x, q ≠ .notice x) :
      (f s.units).keeps (s.command c p slot arg).units q :=
    Ev.Moves.keeps_trans (kept q hp hn) (leaves.piece q hn hm)
  have part := leaves.piece .part (by simp) (by simp)
  refine ⟨⟨leaves.wrote, leaves.mirror⟩, ?_⟩
  exact
    { part := part.1.trans (e.partChange_part.trans (by rw [units]))
      count := part.2.trans (e.partChange_count.trans (by rw [units, replaces.count]))
      piece := piece
      mirror := fun o ho => Eq.trans (piece (.mirror o) (by simp) (by simpa using ho) (by simp))
        (congrArg (Cells.read · o) replaces.mirror)
      notice := fun x => (leaves.notices x).trans (by rw [notice]; exact ⟨rfl, rfl, rfl, rfl, rfl, rfl, rfl⟩)
      queued := writes ▸ leaves.queued (cbase.trans replaces.cbase)
        (fun x => by rw [notice]; exact ⟨rfl, rfl, rfl⟩)
        (fun x => by rw [show e.partChange.units.releases.get x = _ from kept (.release x) (by simp) (by simp),
          replaces.release]; rfl) }

theorem State.Replaced.keeps {s t : State} {slot : Side} {v : Units} (r : s.Replaced t slot v) (q : Piece)
    (part : q ≠ .part := by simp) (word : q ≠ .mirror (slotOffset slot) := by simp) (notice : ∀ x, q ≠ .notice x := by simp) :
    v.keeps t.units q :=
  r.piece q part word notice

/-- Settles O10 (R125, R132, R153; log entry 31). -/
theorem unloadEmpties : Obligations.UnloadEmpties := by
  intro s p slot arg clear hp stopped
  obtain ⟨commanded, done⟩ := clear.replaced (.inr hp) slot .unload arg (f := Units.configRemoved)
    s.units.configRemoved_replaces fun e he => if_neg (by simp [he, stopped])
  have new := s.units.configRemoved_replaces
  obtain ⟨config, clock, cbase, oneck⟩ := done.keeps .loaded
  have head (h : Fin 32) : s.units.configRemoved.head h = .cleared := by
    simp [Units.head, Units.configRemoved, Units.unloaded]
  refine ⟨_, Command.exec_instr .unload p slot arg s, commanded, done.part, config, clock, done.count, cbase, oneck,
    Eq.trans (done.keeps .stage) new.stage, fun h => Eq.trans (done.keeps (.head h)) (head h),
    fun z => Eq.trans (done.keeps (.zone z)) ?zone, fun x => Eq.trans (done.keeps (.order x)) ?order,
    fun x => Eq.trans (done.keeps (.release x)) (new.release x),
    fun x => Eq.trans (done.keeps (.view x)) (new.view x), done.notice, done.mirror, done.queued⟩
  case zone => cases z <;> rfl
  case order => cases x <;> rfl

/-! ### The heads after LOAD -/

/-- A configuration that LOAD takes has one zone or two (R149 check 2). -/
theorem loadFailure_zoneCount {u : Units} (passes : loadFailure u = none) :
    (loadedOf u.mirrorWord).zoneCount = 1 ∨ (loadedOf u.mirrorWord).zoneCount = 2 := by
  unfold loadFailure at passes
  simp only [Option.orElse_eq_or, Option.or_eq_none_iff] at passes
  obtain ⟨record, -⟩ := passes
  have check := Ev.Moves.firstFailing_none (by simpa using record)
    ((u.mirrorWord 1).toNat == 1 || (u.mirrorWord 1).toNat == 2) (by simp [recordChecks])
  simpa [loadedOf] using check

theorem Units.loaded_zone (u : Units) (z : Zone) : u.loaded.zones.get z = u.loadZone (loadedOf u.mirrorWord) z := by
  rw [u.loaded_zones]
  cases z <;> rfl

theorem Units.loaded_order (u : Units) (x : Side) : u.loaded.orders.get x = u.loadSide (loadedOf u.mirrorWord) x := by
  rw [u.loaded_orders]
  cases x <;> rfl

/-- The zone of a head number below the head count of a record (R73). -/
def Loaded.zoneFor (c : Loaded) (h : Nat) : Zone := if c.zoneCount = 2 ∧ c.split ≤ h then .z1 else .z0

theorem Loaded.zoneFor_number {c : Loaded} (zones : c.zoneCount = 1 ∨ c.zoneCount = 2) (h : Nat) :
    (c.zoneFor h).number < c.zoneCount := by
  unfold Loaded.zoneFor
  split
  · simp only [Zone.number]; omega
  · simp only [Zone.number]; omega

theorem Units.loaded_zoneOf (u : Units) (h : Nat) :
    u.loaded.zoneOf h =
      if h < (loadedOf u.mirrorWord).headCount then some ((loadedOf u.mirrorWord).zoneFor h) else none := by
  unfold Units.zoneOf Loaded.zoneFor
  rw [u.loaded_config]
  simp only
  split
  · split <;> rfl
  · rfl

/-- A head at or above the head count holds nothing after LOAD. -/
theorem Units.loaded_head_above {u : Units} {h : Fin 32} (above : (loadedOf u.mirrorWord).headCount ≤ h.val) :
    u.loaded.head h = .cleared := by
  rw [u.loaded_head, u.loaded_zoneOf, if_neg (Nat.not_lt.2 above)]
  rfl

/-- A head below the head count is STOPPED after LOAD with its zone's initial yield (R9, R151). -/
theorem Units.loaded_head_below {u : Units} (passes : loadFailure u = none) {h : Fin 32}
    (below : h.val < (loadedOf u.mirrorWord).headCount) :
    ∃ b, (u.loaded.zones.get ((loadedOf u.mirrorWord).zoneFor h.val)).live = some b ∧
      u.loaded.head h = { Head.cleared with state := .stopped, yield := b.initialYield } := by
  have zone := Loaded.zoneFor_number (loadFailure_zoneCount passes) h.val
  obtain ⟨b, live⟩ : ∃ b, (u.loaded.zones.get ((loadedOf u.mirrorWord).zoneFor h.val)).live = some b := by
    rw [u.loaded_zone]
    exact ⟨_, if_pos zone⟩
  refine ⟨b, live, ?_⟩
  rw [u.loaded_head, u.loaded_zoneOf, if_pos below]
  unfold loadedHead
  simp only [live, Option.map_some, Option.getD_some]

/-- A LOAD that passes its checks is taken (R151). -/
theorem Ev.cmdLoad_taken {e : Ev} (inactive : e.units.active = false) (passes : loadFailure e.units = none) :
    e.cmdLoad = ((e.mod Units.loaded).partChange, .done 0) := by simp [Ev.cmdLoad, inactive, passes]

/-- Settles O9 (R9, R74, R115, R149 to R151; log entry 31). -/
theorem loadTakesConfiguration : Obligations.LoadTakesConfiguration := by
  intro s p slot arg clear hp inactive passes r c
  obtain ⟨commanded, done⟩ := clear.replaced hp slot .load arg s.units.loaded_replaces fun e he =>
    Ev.cmdLoad_taken (by rw [he]; exact inactive) (by rw [he]; exact passes)
  have new := s.units.loaded_replaces
  obtain ⟨config, clock, cbase, oneck⟩ := done.keeps .loaded
  have head (h : Fin 32) := done.keeps (.head h)
  have zone (z : Zone) := done.keeps (.zone z)
  refine ⟨_, Command.exec_instr .load p slot arg s, commanded, done.part.trans s.units.loaded_part,
    config.trans s.units.loaded_config, clock.trans s.units.loaded_clock, done.count, cbase.trans new.cbase,
    oneck.trans new.oneck, Eq.trans (done.keeps .stage) new.stage,
    fun h above => (head h).trans (Units.loaded_head_above above), fun h below => ?_,
    fun z => (zone z).trans (s.units.loaded_zone z), fun x => Eq.trans (done.keeps (.order x)) (s.units.loaded_order x),
    fun x => Eq.trans (done.keeps (.release x)) (new.release x),
    fun x => Eq.trans (done.keeps (.view x)) (new.view x), done.notice, done.mirror,
    s.units.loaded_part ▸ done.queued⟩
  obtain ⟨b, live, stopped⟩ := Units.loaded_head_below passes below
  exact ⟨b, (congrArg ZoneRec.live (zone _)).trans live, (head h).trans stopped⟩

end Sys2Proof.Machine

namespace Sys2Proof.Machine

/-! ### START (O11) -/

/-- What every step of an event done at each head of a list keeps, the event keeps. -/
theorem Ev.eachHead_invariant (I : Ev → Prop) (f : Fin 32 → Ev → Ev) (step : ∀ h e, I e → I (f h e))
    (hs : List (Fin 32)) : ∀ e : Ev, I e → I (e.eachHead hs f) := by
  induction hs with
  | nil => exact fun _ holds => holds
  | cons h rest ih => exact fun e holds => ih (f h e) (step h e holds)

/-- START beyond its tests: the part RUNNING, START at every head, and the part-state change (R154). -/
def Ev.started (e : Ev) : Ev :=
  ((e.mod fun u => u.setPart .running).eachHead allHeads fun h e => e.startHead h).partChange

/-- The effect of START (R13, R154). -/
def Units.startedBy (u : Units) : Effect :=
  (Effect.atEach (u.setPart .running, []) allHeads Units.startAt).then Units.partChanged

theorem Ev.Does.started {e : Ev} : e.Does e.started e.units.startedBy :=
  (Ev.Does.atEach Units.startAt_blind (fun h e => e.startHead h) (fun h _ => Ev.Does.startHead h) allHeads
    (Ev.Does.setPart .running)).trans Units.partChanged_blind Ev.Does.partChange

/-- A START that passes its tests is taken (R154). -/
theorem Ev.cmdStart_taken {e : Ev} (stopped : e.units.part = .stopped) (quiet : e.units.dischargingHead = none)
    (heads : e.units.bareHead = none) (zones : e.units.bareZone = none) : e.cmdStart = (e.started, .done 0) := by
  simp [Ev.cmdStart, Ev.started, stopped, quiet, heads, zones]

theorem Units.keeps_symm {u v : Units} {q : Piece} (kept : u.keeps v q) : v.keeps u q := by
  cases q with
  | part => exact ⟨kept.1.symm, kept.2.symm⟩
  | loaded =>
    obtain ⟨config, clock, cbase, oneck⟩ := kept
    exact ⟨config.symm, clock.symm, cbase.symm, oneck.symm⟩
  | _ => exact Eq.symm kept

/-- What START, given at a slot, leaves of the units (R13, R154). -/
structure Units.Started (u v : Units) (slot : Side) : Prop where
  part : v.part = .running
  count : v.changeCount = u.changeCount + 1
  head : ∀ h, v.head h = Head.started u h (u.head h)
  zone : ∀ z, (v.zones.get z).live = (u.zones.get z).live ∧ (v.zones.get z).staged = (u.zones.get z).staged ∧
    (v.zones.get z).rotation = (u.zones.get z).rotation
  others : ∀ q, q ≠ .part → q ≠ .mirror (slotOffset slot) → (∀ h, q ≠ .head h) → (∀ z, q ≠ .zone z) →
    (∀ x, q ≠ .notice x) → u.keeps v q

/-- Units that agree with them but in the slot's word and in the notice units. -/
theorem Units.Started.congr {u v w : Units} {slot : Side} (started : u.Started v slot)
    (same : ∀ q, q ≠ .mirror (slotOffset slot) → (∀ x, q ≠ .notice x) → v.keeps w q) : u.Started w slot where
  part := (same .part (by simp) (by simp)).1.trans started.part
  count := (same .part (by simp) (by simp)).2.trans started.count
  head := fun h => Eq.trans (same (.head h) (by simp) (by simp)) (started.head h)
  zone := fun z => by
    rw [show w.zones.get z = v.zones.get z from same (.zone z) (by simp) (by simp)]
    exact started.zone z
  others := fun q hp hm hh hz hn => Ev.Moves.keeps_trans (started.others q hp hm hh hz hn) (same q hm hn)

/-- START at a head leaves every other head as it was. -/
theorem Ev.startHead_other (e : Ev) {h g : Fin 32} (other : g ≠ h) :
    (e.startHead h).units.head g = e.units.head g :=
  (Ev.Moves.startHead_of (T := fun q => q ≠ .head g) e h (by simpa using other.symm) (by simp) (by simp)).frame
    (.head g) (by simp)

/-- START at the heads leaves every piece that is no head, zone or notice unit. -/
theorem Ev.startHeads_keeps (e : Ev) (hs : List (Fin 32)) {q : Piece} (heads : ∀ h, q ≠ .head h)
    (zones : ∀ z, q ≠ .zone z) (notices : ∀ x, q ≠ .notice x) :
    e.units.keeps (e.eachHead hs fun h e => e.startHead h).units q :=
  (Ev.Moves.eachHead (T := fun p => p ≠ q) hs _ (fun h _ e => Ev.Moves.startHead_of e h (heads h).symm
    (fun z => (zones z).symm) fun x => (notices x).symm) e).frame q (by simp)

theorem Ev.started_units (e : Ev) (slot : Side) : e.units.Started e.started.units slot := by
  have begun : Ev.starting e.units (e.mod fun u => u.setPart .running) := ⟨rfl, rfl, fun _ => ⟨rfl, rfl, rfl⟩⟩
  have each : Ev.starting e.units ((e.mod fun u => u.setPart .running).eachHead allHeads fun h e => e.startHead h) :=
    Ev.eachHead_invariant _ _ (fun h e i => (Ev.startHead_head _ h e i).1) _ _ begun
  have heads (g : Fin 32) := Ev.eachHead_head (Ev.starting e.units) (Head.started e.units) (fun h e => e.startHead h)
    allHeads allHeads_nodup (fun h e i => (Ev.startHead_head _ h e i).1) (fun h e i => (Ev.startHead_head _ h e i).2)
    (fun h g e _ other => e.startHead_other other) _ begun g
  have same (q : Piece) := (e.mod fun u => u.setPart .running).startHeads_keeps allHeads (q := q)
  unfold Ev.started
  generalize ((e.mod fun u => u.setPart .running).eachHead allHeads fun h e => e.startHead h) = e' at each heads same ⊢
  obtain ⟨part, -, zone⟩ := each
  have count := (same .part (by simp) (by simp) (by simp)).2
  have kept (q : Piece) (hp : q ≠ .part) (hn : ∀ x, q ≠ .notice x) := e'.partChange_keeps q hp hn
  exact
    { part := e'.partChange_part.trans part
      count := e'.partChange_count.trans (congrArg (· + 1) count)
      head := fun h => (Eq.trans (kept (.head h) (by simp) (by simp)) (heads h)).trans (if_pos (mem_allHeads h))
      zone := fun z => by
        rw [show e'.partChange.units.zones.get z = _ from kept (.zone z) (by simp) (by simp)]
        exact zone z
      others := fun q hp _ hh hz hn => Ev.Moves.keeps_trans (e.units.setPart_keeps .running q hp)
        (Ev.Moves.keeps_trans (same q hh hz hn) (kept q hp hn)) }

/-- A head that is DISABLED or OUT is left as it was by START (R13). -/
theorem Head.started_idle {u : Units} {h : Fin 32} {x : Head} (idle : x.state = .disabled ∨ x.state = .out) :
    Head.started u h x = x := if_pos idle

/-- Any other head is purged when its bucket holds product and goes to EMPTY otherwise, and is fed (R13). -/
theorem Head.started_head {u : Units} {h : Fin 32} (enabled : (u.head h).state ≠ .disabled)
    (inside : (u.head h).state ≠ .out) : Head.started u h (u.head h) =
      (if (u.head h).full (u.params h).emptyBand then (u.head h).purged .start (u.params h).gateLimit
       else (u.head h).watched .empty (u.params h).silenceLimit).issued (u.issueTicks h) := by
  unfold Head.started
  rw [if_neg (not_or.2 ⟨enabled, inside⟩), Units.setHead_head_self]

/-- Settles O11 (R13, R154, R158; log entries 29 and 31). -/
theorem startRuns : Obligations.StartRuns := by
  intro s p slot arg clear hp stopped quiet heads zones
  have does (k : Nat) := Ev.Does.started (e := .begin s.units true k)
  obtain ⟨commanded, makes⟩ := clear.command_makes (.inr hp) slot .start arg (v := 0) (r := s.units.startedBy)
    fun k => ⟨_, Ev.cmdStart_taken stopped quiet heads zones, does k⟩
  have started : s.units.Started (s.command .start p slot arg).units slot :=
    ((Ev.begin s.units true 0).started_units slot).congr fun q hm hn =>
      Ev.Moves.keeps_trans (Units.keeps_symm ((does 0).piece q hn)) (makes.1 q (by simp [hm, hn]))
  have flags (x : Side) : Act.flag x .partState ∈ s.units.startedBy.2 := by
    cases x <;> simp [Units.startedBy, Effect.then_snd, Units.partChanged]
  refine ⟨_, Command.exec_instr .start p slot arg s, commanded, started.part, started.count,
    fun h idle => (started.head h).trans (Head.started_idle idle),
    fun h enabled inside => (started.head h).trans (Head.started_head enabled inside), fun q => ?_, started.zone,
    fun x => makes.2.has_flag (flags x), makes⟩
  by_cases others : q = .part ∨ q = .mirror (slotOffset slot) ∨ (∃ h, q = .head h) ∨ (∃ z, q = .zone z) ∨
      ∃ x, q = .notice x
  · exact .inr others
  · simp only [not_or, not_exists] at others
    obtain ⟨part, mirror, head, zone, notice⟩ := others
    exact .inl (started.others q part mirror head zone notice)

end Sys2Proof.Machine

namespace Sys2Proof.Machine

/-! ### The checks of a configuration (O8) -/

/-! #### The first failing check of a table -/

theorem firstFailing_cons (b : Bool) (bs : List Bool) :
    firstFailing (b :: bs) = if b then (firstFailing bs).map (· + 1) else some 1 := by
  unfold firstFailing
  rw [List.findIdx?_cons]
  cases b
  · rfl
  · simp

/-- A check says what its test says, and behind a check that passes the rest of the table says what the rest of the tests
says. -/
theorem FirstFails.check {p : Prop} {ps : List Prop} {b : Bool} {bs : List Bool} (first : p ↔ b = true)
    (rest : p → FirstFails ps (firstFailing bs)) : FirstFails (p :: ps) (firstFailing (b :: bs)) := by
  rw [firstFailing_cons]
  cases b with
  | false => exact .inl ⟨by simpa using first, rfl⟩
  | true =>
    have holds : p := first.2 rfl
    exact .inr ⟨holds, _, rest holds, rfl⟩

theorem FirstFails.checked : FirstFails [] (firstFailing []) := rfl

/-- A table of checks that says, check by check, what a list of tests says. -/
theorem firstFails_of_checks {ps : List Prop} {bs : List Bool} (same : List.Forall₂ (fun p b => p ↔ b = true) ps bs) :
    FirstFails ps (firstFailing bs) := by
  induction same with
  | nil => exact .checked
  | cons first _ ih => exact .check first fun _ => ih

/-- The number of a test that fails first is at least 1. -/
theorem FirstFails.pos {ps : List Prop} {k : Nat} (fails : FirstFails ps (some k)) : 1 ≤ k := by
  cases ps with
  | nil => cases fails
  | cons p rest =>
    rcases fails with ⟨-, hk⟩ | ⟨-, j, -, hk⟩
    · exact (Option.some.inj hk).ge
    · obtain ⟨n, -, rfl⟩ := Option.map_eq_some_iff.1 hk.symm
      exact Nat.le_add_left 1 n

/-! #### The record's own fields (R149) -/

/-- The zone that a side is bound to by its two bits of the record (R149). -/
def boundZone (on zone1 : Bool) : Option Zone := if on then some (if zone1 then .z1 else .z0) else none

theorem loadedOf_binding (r : Nat → Word) (side : Side) : (loadedOf r).binding.get side =
    match side with
    | .a => boundZone ((r 3).getLsbD 0) ((r 3).getLsbD 1)
    | .b => boundZone ((r 3).getLsbD 4) ((r 3).getLsbD 5) := by cases side <;> rfl

/-- A side is bound to a zone below the zone count. -/
theorem boundZone_below {zones : Nat} (count : zones = 1 ∨ zones = 2) (on zone1 : Bool) :
    (∀ z, boundZone on zone1 = some z → z.number < zones) ↔ (!on || !zone1 || zones == 2) = true := by
  cases on with
  | false => simp [boundZone]
  | true =>
    have bound : (∀ z, boundZone true zone1 = some z → z.number < zones) ↔
        (if zone1 then Zone.z1 else Zone.z0).number < zones := by simp [boundZone]
    rw [bound]
    rcases count with rfl | rfl
    · cases zone1 <;> decide
    · cases zone1 <;> decide

/-- A side is bound to the zone of a number. -/
theorem boundZone_eq (on zone1 : Bool) (z : Zone) :
    boundZone on zone1 = some z ↔ (on && zone1 == decide (z = .z1)) = true := by
  cases on <;> cases zone1 <;> cases z <;> decide

theorem Side.forall_iff {P : Side → Prop} : (∀ side, P side) ↔ P .a ∧ P .b :=
  ⟨fun h => ⟨h .a, h .b⟩, fun ⟨a, b⟩ side => by cases side; exacts [a, b]⟩

theorem Side.exists_iff {P : Side → Prop} : (∃ side, P side) ↔ P .a ∨ P .b :=
  ⟨fun ⟨side, h⟩ => by cases side; exacts [.inl h, .inr h], fun h => h.elim (⟨_, ·⟩) (⟨_, ·⟩)⟩

theorem Zone.forall_iff {P : Zone → Prop} : (∀ z, P z) ↔ P .z0 ∧ P .z1 :=
  ⟨fun h => ⟨h .z0, h .z1⟩, fun ⟨a, b⟩ z => by cases z; exacts [a, b]⟩

/-- The tests of the record's own fields (R149). -/
def recordTests (r : Nat → Word) : List Prop :=
  let n (i : Nat) : Nat := (r i).toNat
  let binding := (loadedOf r).binding
  [ 1 ≤ n 0 ∧ n 0 ≤ 32,
    n 1 = 1 ∨ n 1 = 2,
    n 1 = 2 → 1 ≤ n 2 ∧ n 2 + 1 ≤ n 0,
    ∀ side z, binding.get side = some z → z.number < n 1,
    ∀ z : Zone, z.number < n 1 → ∃ side, binding.get side = some z,
    1000 ≤ n 4 ∧ n 4 ≤ 100000,
    16 ≤ n 5 ∧ n 5 ≤ 512,
    (2 ≤ n 6 ∧ n 6 ≤ 16) ∧ 2 ≤ n 7 ∧ n 7 ≤ 16,
    (16 ≤ n 8 ∧ n 8 ≤ 256) ∧ 16 ≤ n 9 ∧ n 9 ≤ 256 ]

theorem recordChecks_fails (r : Nat → Word) : FirstFails (recordTests r) (firstFailing (recordChecks r)) := by
  refine .check (by simp) fun _ => .check (by simp) fun zones => .check ?split fun _ => .check ?bound fun _ =>
    .check ?covered fun _ => .check (by simp) fun _ => .check (by simp) fun _ => .check ?slots fun _ =>
    .check ?rings fun _ => .checked
  case split => by_cases two : (r 1).toNat = 2 <;> simp [two]
  case bound =>
    rw [Side.forall_iff, Bool.and_eq_true]
    exact and_congr (boundZone_below zones _ _) (boundZone_below zones _ _)
  case covered =>
    rw [Zone.forall_iff]
    simp only [Side.exists_iff, loadedOf_binding, boundZone_eq, Zone.number]
    rcases zones with one | two
    · simp [one]
    · simp [two]
  case slots => simp [and_assoc]
  case rings => simp [and_assoc]

end Sys2Proof.Machine

namespace Sys2Proof.Machine

/-! #### Side and zone blocks (R75, R115) -/

/-- The tests of a side block (R115). -/
def sideTests (r : Nat → Word) : List Prop :=
  let n (i : Nat) : Nat := (r i).toNat
  let mg (i : Nat) : Int := (r i).toInt
  [ 0 ≤ mg 0 ∧ mg 0 ≤ 4000000,
    mg 0 ≤ mg 1 ∧ mg 1 ≤ 4000000,
    mg 1 ≤ mg 2 ∧ mg 2 ≤ 4000000,
    1 ≤ n 3 ∧ n 3 ≤ 8,
    n 3 ≤ n 4 ∧ n 4 ≤ 8,
    100 ≤ n 5 ∧ n 5 ≤ 10000,
    n 6 = 0 ∨ n 6 = 1 ]

theorem word_toNat_eq (w : Word) {k : Nat} (small : k < 2 ^ 32) : w.toNat = k ↔ w = BitVec.ofNat 32 k := by
  rw [BitVec.toNat_eq, BitVec.toNat_ofNat, Nat.mod_eq_of_lt small]

theorem sideChecks_fails (r : Nat → Word) : FirstFails (sideTests r) (firstFailing (sideChecks r)) := by
  refine .check (by simp) fun _ => .check (by simp) fun _ => .check (by simp) fun _ => .check (by simp) fun _ =>
    .check (by simp) fun _ => .check (by simp) fun _ => .check ?intake fun _ => .checked
  case intake =>
    rw [word_toNat_eq (r 6) (k := 0) (by decide), word_toNat_eq (r 6) (k := 1) (by decide), Bool.or_eq_true, beq_iff_eq,
      beq_iff_eq]
    exact Iff.rfl

/-- The tests of a zone block (R75). -/
def zoneTests (r : Nat → Word) : List Prop :=
  let n (i : Nat) : Nat := (r i).toNat
  let mg (i : Nat) : Int := (r i).toInt
  [ 1000 ≤ mg 0x00 ∧ mg 0x00 ≤ 500000,
    1 ≤ n 0x01 ∧ n 0x01 ≤ 16,
    ∀ i, i < n 0x01 → -32768 ≤ mg (0x02 + i) ∧ mg (0x02 + i) ≤ 32767,
    1 ≤ n 0x12 ∧ n 0x12 ≤ 16,
    ∀ i, i < n 0x12 → n (0x13 + i) = 1 ∨ n (0x13 + i) = 2 ∨ n (0x13 + i) = 3,
    1 ≤ n 0x23 ∧ n 0x23 ≤ 63,
    n 0x24 = 0 ∨ (n 0x23 + 1 ≤ n 0x24 ∧ n 0x24 ≤ 255),
    0 ≤ mg 0x25 ∧ mg 0x25 ≤ 5000,
    0 ≤ mg 0x26 ∧ mg 0x26 ≤ 20000,
    0 ≤ mg 0x27 ∧ mg 0x27 ≤ 20000,
    0 ≤ mg 0x28 ∧ mg 0x28 ≤ 500000,
    mg 0x28 < mg 0x29 ∧ mg 0x29 ≤ 2000000,
    ∀ i, i < n 0x01 →
      mg 0x28 ≤ max 500 (mg 0x00 + mg (0x02 + i)) ∧ max 500 (mg 0x00 + mg (0x02 + i)) ≤ mg 0x29,
    0 ≤ mg 0x2A ∧ mg 0x2A ≤ 20000,
    50 ≤ n 0x2B ∧ n 0x2B ≤ 2550,
    20 ≤ n 0x2C ∧ n 0x2C ≤ 1000,
    100 ≤ n 0x2D ∧ n 0x2D ≤ 5000,
    n 0x2E ≤ 15,
    16 ≤ n 0x2F ∧ n 0x2F ≤ 1048575 ]

/-- Of a table of at most 16 entries every one is read (R75). -/
theorem all_entries {α : Type} (f : Nat → α) (test : α → Bool) {len : Nat} (short : len ≤ 16) :
    ((List.range (min 16 len)).map f).all test = true ↔ ∀ i, i < len → test (f i) = true := by
  rw [Nat.min_eq_right short]
  simp

theorem offer_isSome (w : Word) : (Offer.ofWord w).isSome = true ↔ w.toNat = 1 ∨ w.toNat = 2 ∨ w.toNat = 3 := by
  rw [word_toNat_eq w (k := 1) (by decide), word_toNat_eq w (k := 2) (by decide), word_toNat_eq w (k := 3) (by decide)]
  change (if w = 1#32 then some Offer.a else if w = 2#32 then some Offer.b else if w = 3#32 then some Offer.ab
    else none).isSome = true ↔ _
  split_ifs with one two three
  · simp [one]
  · simp [two]
  · simp [three]
  · simp [one, two, three]

theorem zoneChecks_fails (r : Nat → Word) : FirstFails (zoneTests r) (firstFailing (zoneChecks r)) := by
  refine .check (by simp) fun _ => .check (by simp) fun spread => .check ?spread fun _ => .check (by simp) fun offer =>
    .check ?offer fun _ => .check (by simp) fun _ => .check (by simp) fun _ => .check (by simp) fun _ =>
    .check (by simp) fun _ => .check (by simp) fun _ => .check (by simp) fun _ => .check (by simp) fun _ =>
    .check ?target fun _ => .check (by simp) fun _ => .check (by simp) fun _ => .check (by simp) fun _ =>
    .check (by simp) fun _ => .check (by simp) fun _ => .check (by simp) fun _ => .checked
  case spread =>
    rw [spreadOf, all_entries _ _ spread.2]
    simp
  case offer =>
    rw [offerWords, all_entries _ _ offer.2]
    simp only [offer_isSome]
  case target =>
    rw [spreadOf, all_entries _ _ spread.2]
    simp [Config.targetFloor]

/-! #### The window table (R135, R136) -/

/-- The first of the window checks that some window fails, with the first window that fails it. -/
def FirstWindow (rows : List WindowRow) (tests : List (Nat → WindowRow → Prop)) (found : Option (Nat × Nat)) : Prop :=
  FirstFails (tests.map fun t => ∀ i x, rows[i]? = some x → t i x) (found.map Prod.fst) ∧
    ∀ k w t, found = some (k, w) → tests[k - 1]? = some t → FirstFails (rows.mapIdx t) (some w)

/-- No test of a list's elements fails where each holds; firstFails_listed_none for any elements. -/
theorem firstFails_mapIdx_none {α : Type} {l : List α} {test : Nat → α → Prop} :
    FirstFails (l.mapIdx test) none ↔ ∀ i x, l[i]? = some x → test i x := by
  rw [firstFails_none]
  simp only [List.mem_mapIdx, List.getElem?_eq_some_iff]
  constructor
  · rintro holds i _ ⟨hi, rfl⟩
    exact holds _ ⟨i, hi, rfl⟩
  · rintro holds _ ⟨i, hi, rfl⟩
    exact holds i _ ⟨hi, rfl⟩

theorem firstFailingWindow_cons (rows : List Bool) (checks : List (List Bool)) :
    firstFailingWindow (rows :: checks) = ((firstFailing rows).map fun w => (1, w)).or
      ((firstFailingWindow checks).map fun (k, w) => (k + 1, w)) := by
  unfold firstFailingWindow
  rw [List.zipIdx_cons, List.filterMap_cons, List.zipIdx_succ, List.filterMap_map]
  cases failing : firstFailing rows with
  | some w => simp [failing]
  | none => simp [failing, Function.comp_def, List.map_findSome?]

/-- A window check says of each window what its test says, and behind one that every window passes the rest of the checks
say what the rest of the tests says. -/
theorem FirstWindow.check {rows : List WindowRow} {t : Nat → WindowRow → Prop} {tests : List (Nat → WindowRow → Prop)}
    {bs : List Bool} {checks : List (List Bool)} (first : FirstFails (rows.mapIdx t) (firstFailing bs))
    (rest : (∀ i x, rows[i]? = some x → t i x) → FirstWindow rows tests (firstFailingWindow checks)) :
    FirstWindow rows (t :: tests) (firstFailingWindow (bs :: checks)) := by
  rw [firstFailingWindow_cons]
  cases failing : firstFailing bs with
  | some w =>
    rw [failing] at first
    refine ⟨.here fun holds => ?_, ?_⟩
    · cases first.unique (firstFails_mapIdx_none.2 holds)
    · rintro k w' t' ⟨⟩ ⟨⟩
      exact first
  | none =>
    have holds := firstFails_mapIdx_none.1 (failing ▸ first)
    obtain ⟨fails, named⟩ := rest holds
    refine ⟨.inr ⟨holds, _, fails, ?_⟩, fun k w t' found at' => ?_⟩
    · cases firstFailingWindow checks <;> rfl
    · obtain ⟨⟨j, w'⟩, found', ⟨⟩⟩ :=
        Option.map_eq_some_iff.1 (show (firstFailingWindow checks).map _ = _ from found)
      rw [found'] at fails
      have pos : 1 ≤ j := FirstFails.pos fails
      refine named j w t' found' ?_
      rwa [Nat.add_sub_cancel, ← Nat.sub_add_cancel pos, List.getElem?_cons_succ] at at'

theorem FirstWindow.checked (rows : List WindowRow) : FirstWindow rows [] (firstFailingWindow []) :=
  ⟨rfl, fun _ _ _ found => by cases found⟩

/-- A check made at each window, told as a test of it. -/
theorem firstFails_windows {rows : List WindowRow} {t : Nat → WindowRow → Prop} {bs : List Bool}
    (length : bs.length = rows.length)
    (same : ∀ i x (hi : i < bs.length), rows[i]? = some x → (t i x ↔ bs[i] = true)) :
    FirstFails (rows.mapIdx t) (firstFailing bs) := by
  refine firstFails_of_checks (List.forall₂_iff_get.2 ⟨by simp [length], fun i hi hb => ?_⟩)
  have hr : i < rows.length := length ▸ hb
  simpa using same i rows[i] hb (List.getElem?_eq_getElem hr)

/-- The words of a window of the table (R135). -/
def WindowRow.covers (x : WindowRow) (a : Nat) : Prop := x.base ≤ a ∧ a < x.base + x.size

/-- Two ranges that are not empty overlap where some address lies in both. -/
theorem overlaps_iff {base size base' size' : Nat} (word : 0 < size) (word' : 0 < size') :
    overlaps base size base' size' = true ↔
      ∃ a, (base ≤ a ∧ a < base + size) ∧ base' ≤ a ∧ a < base' + size' := by
  simp only [overlaps, Bool.and_eq_true, decide_eq_true_eq]
  constructor
  · rintro ⟨below, below'⟩
    exact ⟨max base base', by omega⟩
  · rintro ⟨a, ⟨low, high⟩, low', high'⟩
    omega

/-- The sizes that the windows must have, in the order of the table (R135). -/
def windowSizes (r : Nat → Word) : List Nat :=
  let n (i : Nat) : Nat := (r i).toNat
  [4 * n 5, 65, 65, 4 * n 6, 4 * n 7, 34, 32, 4 * n 8, 4 * n 9]

theorem windowSizes_eq (r : Nat → Word) :
    windowSizes r = (windowRows r).map fun x => requiredSize (loadedOf r) x.window := rfl

theorem windowSizes_getD {r : Nat → Word} {i : Nat} {x : WindowRow} (row : (windowRows r)[i]? = some x) :
    (windowSizes r).getD i 0 = requiredSize (loadedOf r) x.window := by
  rw [windowSizes_eq, List.getD_eq_getElem?_getD, List.getElem?_map, row]
  rfl

/-- Every window of a record whose own fields pass must have a word. -/
theorem requiredSize_pos {r : Nat → Word} (passes : firstFailing (recordChecks r) = none) (w : Window) :
    0 < requiredSize (loadedOf r) w := by
  have tests := recordChecks_fails r
  rw [passes, firstFails_none] at tests
  have slots : 16 ≤ (r 5).toNat ∧ (r 5).toNat ≤ 512 := tests _ (by simp [recordTests])
  have orders : (2 ≤ (r 6).toNat ∧ (r 6).toNat ≤ 16) ∧ 2 ≤ (r 7).toNat ∧ (r 7).toNat ≤ 16 :=
    tests _ (by simp [recordTests])
  have rings : (16 ≤ (r 8).toNat ∧ (r 8).toNat ≤ 256) ∧ 16 ≤ (r 9).toNat ∧ (r 9).toNat ≤ 256 :=
    tests _ (by simp [recordTests])
  cases w with
  | report => show 0 < 4 * (r 5).toNat; omega
  | candidate side => exact Nat.zero_lt_succ 64
  | order side =>
    cases side with
    | a => show 0 < 4 * (r 6).toNat; omega
    | b => show 0 < 4 * (r 7).toNat; omega
  | feed => exact Nat.zero_lt_succ 33
  | gate => exact Nat.zero_lt_succ 31
  | notice side =>
    cases side with
    | a => show 0 < 4 * (r 8).toNat; omega
    | b => show 0 < 4 * (r 9).toNat; omega

/-- The tests of the window table (R136). -/
def windowTests (r : Nat → Word) (cbase : BitVec 4) : List (Nat → WindowRow → Prop) :=
  [ fun i x => x.size = (windowSizes r).getD i 0,
    fun _ x => x.base + x.size - 1 ≤ 1048575,
    fun i x => ∀ j y a, j < i → (windowRows r)[j]? = some y → x.covers a → ¬ y.covers a,
    fun _ x => ∀ a, x.covers a → ¬ (cbase.toNat * 65536 ≤ a ∧ a < cbase.toNat * 65536 + 512) ]

/-- The windows in the table before one share no word with it where none of them overlaps it. -/
theorem earlier_apart {rows : List WindowRow} {x : WindowRow} {i : Nat} (word : 0 < x.size)
    (sized : ∀ (j : Nat) (y : WindowRow), rows[j]? = some y → 0 < y.size) :
    (∀ (j : Nat) y a, j < i → rows[j]? = some y → x.covers a → ¬ y.covers a) ↔
      ¬ ∃ y ∈ rows.take i, overlaps y.base y.size x.base x.size = true := by
  have earlier (y : WindowRow) : y ∈ rows.take i ↔ ∃ j, j < i ∧ rows[j]? = some y := by
    simp only [List.mem_iff_getElem?, List.getElem?_take]
    exact exists_congr fun j => by split <;> simp_all
  constructor
  · rintro apart ⟨y, mem, shared⟩
    obtain ⟨j, before, row⟩ := (earlier y).1 mem
    obtain ⟨a, hy, hx⟩ := (overlaps_iff (sized j y row) word).1 shared
    exact apart j y a before row hx hy
  · intro apart j y a before row hx hy
    exact apart ⟨y, (earlier y).2 ⟨j, before, row⟩, (overlaps_iff (sized j y row) word).2 ⟨a, hy, hx⟩⟩

theorem windowChecks_fails {r : Nat → Word} (passes : firstFailing (recordChecks r) = none) (cbase : BitVec 4) :
    FirstWindow (windowRows r) (windowTests r cbase) (firstFailingWindow (windowChecks (loadedOf r) cbase)) := by
  refine .check (firstFails_windows (by simp [loadedOf]) fun i x hi row => ?size) fun sizes => ?rest
  case size =>
    obtain ⟨inside, rfl⟩ := List.getElem?_eq_some_iff.1 row
    rw [windowSizes_getD row]
    simp [loadedOf]
  case rest =>
    have sized (i : Nat) (x : WindowRow) (row : (windowRows r)[i]? = some x) : 0 < x.size := by
      rw [sizes i x row, windowSizes_getD row]
      exact requiredSize_pos passes x.window
    refine .check (firstFails_windows (by simp [loadedOf]) fun i x hi row => ?last) fun _ =>
      .check (firstFails_windows (by simp [loadedOf]) fun i x hi row => ?apart) fun _ =>
      .check (firstFails_windows (by simp [loadedOf]) fun i x hi row => ?control) fun _ => .checked _
    all_goals
      have word := sized i x row
      obtain ⟨inside, rfl⟩ := List.getElem?_eq_some_iff.1 row
    case last =>
      rw [List.getElem_map, decide_eq_true_iff]
      simp only [loadedOf, Config.lastAddress]
      omega
    case apart =>
      rw [earlier_apart word sized]
      simp [loadedOf]
    case control =>
      have control : 0 < Config.controlWords := by decide
      simp only [loadedOf, List.getElem_map, Bool.not_eq_true', ← Bool.not_eq_true, overlaps_iff word control, not_exists,
        not_and]
      exact Iff.rfl

/-- Settles O8 (R75, R115, R135, R136, R149, R150). -/
theorem configurationChecks : Obligations.ConfigurationChecks := fun r cbase =>
  ⟨recordChecks_fails r, sideChecks_fails r, zoneChecks_fails r, fun passes => windowChecks_fails passes cbase⟩

end Sys2Proof.Machine

namespace Sys2Proof.Machine

/-! ### Note pending acknowledged (O25) -/

theorem Units.setNotice_keeps (u : Units) (s : Side) (x : NoticeSide) (q : Piece) (hq : q ≠ .notice s) :
    u.keeps (u.setNotice s x) q := by
  cases q <;> simp [Units.keeps, Units.mirrorWord] at hq ⊢
  intro c; exact absurd c hq

/-- What holds between any notice unit and itself, and between a side's old and new one, holds at both sides when the new one
takes the old one's place. -/
theorem Units.setNotice_each {P : NoticeSide → NoticeSide → Prop} (u : Units) (s : Side) {x : NoticeSide}
    (same : ∀ n, P n n) (new : P (u.notices.get s) x) (side : Side) :
    P (u.notices.get side) ((u.setNotice s x).notices.get side) := by
  rw [Units.setNotice_notices, PerSide.get_set]
  split
  · rename_i h
    rw [h]
    exact new
  · exact same _

/-- Two notice units that agree, and remember the same of note pending and the flag words, are the same. -/
theorem NoticeSide.sameAs.eq {n m : NoticeSide} (same : n.sameAs m) (kept : m.noteKept n) : n = m := by
  obtain ⟨write, consume, number, holding, reservations, flags, enables⟩ := same
  obtain ⟨last, wait, pending⟩ := kept
  cases n
  cases m
  simp_all

/-- No flag rises where every flag set afterwards was set before (R167). -/
theorem flagRises_of_flags {before after : NoticeSide} (h : after.flags &&& ~~~before.flags = 0) :
    flagRises before after = false := by
  simp [flagRises, h]

/-- A side whose flag word is as it was, and whose note pending has not become set, remembers the same flag word queued last
and awaits the same flag words (R165, R167). -/
theorem State.FlagWords.remembers {s t : State} {l : List QueueEntry} (h : s.FlagWords t l) {side : Side}
    (word : (t.units.notices.get side).flagWord = (s.units.notices.get side).flagWord)
    (unset : (t.units.notices.get side).notePending = true → (s.units.notices.get side).notePending = true) :
    (t.units.notices.get side).lastFlagWord = (s.units.notices.get side).lastFlagWord ∧
      (t.units.notices.get side).noteWait = (s.units.notices.get side).noteWait := by
  obtain ⟨last, wait⟩ := h.2 side
  have queued : s.units.flagQueued side (t.units.notices.get side) = [] := if_pos (.inl word)
  rw [if_pos queued] at last
  rw [if_neg fun c => by simp [unset c.1] at c] at wait
  exact ⟨last, wait⟩

/-- NOTE-ACK taken: note pending of the slot's side is clear (R167). -/
theorem Ev.cmdNoteAck_taken {e : Ev} (slot : Side) (ht : e.units.part ≠ .transparent) :
    e.cmdNoteAck slot = ({ e with units := e.units.setNotice slot { e.units.notices.get slot with notePending := false } },
      .done 0) := if_neg ht

/-- Settles O25 (R167). -/
theorem noteAckTaken : Obligations.NoteAckTaken := by
  intro s p slot arg turn hp ht
  let x := s.units.notices.get slot
  let v := s.units.setNotice slot { x with notePending := false }
  obtain ⟨-, -, -, unpending, -, wf⟩ := turn.1
  have acked : v.notices.get slot = { x with notePending := false } := by simp [v]
  have kept := s.units.setNotice_each slot (x := { x with notePending := false })
    (P := fun n m => m.flagWord = n.flagWord ∧ m.lastFlagWord = n.lastFlagWord ∧ m.noteWait = n.noteWait)
    (fun _ => ⟨rfl, rfl, rfl⟩) ⟨rfl, rfl, rfl⟩
  obtain ⟨k, leaves⟩ := turn.command_silent (.inr hp) slot .noteAck arg
    (fun k => ({ Ev.begin s.units true k with units := v }, .done 0)) (fun _ => Ev.cmdNoteAck_taken slot ht)
    (fun _ => ⟨rfl, rfl⟩) (fun _ side => (kept side).1) fun _ => wf
  have same := leaves.notices slot
  have pending := leaves.pending slot
  have words := leaves.words rfl (fun side => (kept side).2.1) fun side => (kept side).2.2
  simp only [acked] at same pending
  rw [flagRises_of_flags (by simp [x]), Bool.or_false] at pending
  obtain ⟨last, wait⟩ := words.remembers same.flagWord (by simp [pending])
  have record := same.eq ⟨last, wait, pending⟩
  refine ⟨_, rfl, ⟨leaves.wrote, leaves.mirror⟩, record, ?_, fun q hq => ?_, leaves.silent rfl fun side => (kept side).1,
    leaves.held unpending⟩
  · rw [State.noteLine]
    exact (congrArg (· && _) pending).trans (Bool.false_and _)
  · simp only [List.mem_cons, List.not_mem_nil, or_false, not_or] at hq
    exact leaves.frame q hq.1 (Units.setNotice_keeps _ _ _ _ hq.2)

end Sys2Proof.Machine

namespace Sys2Proof.Machine

/-! ### Clear and enable words (O58) -/

section
variable {u : Units} {p : Port} {a : Addr} {off : Nat} {w : Word}

/-- The class of a write to the control block in TRANSPARENT (R140, R147). -/
theorem classWrite_transparent (strobes : BitVec 4) (transparent : u.part = .transparent)
    (ho : u.controlOffset a = some off) : classWrite u p a strobes w = classTransparent p off strobes w := by
  rw [classWrite, ho]
  exact if_pos transparent

/-- The words of the control block that CA and CB may write whole in every part state have the class of a loaded part in
TRANSPARENT too (R140, R166). -/
theorem classWrite_always {c : WriteClass} (hp : p ≠ .hl) (ho : u.controlOffset a = some off)
    (control : classControl off w = c) (transparent : classTransparent p off allStrobes w = c) :
    classWrite u p a allStrobes w = c := by
  by_cases h : u.part = .transparent
  · exact (classWrite_transparent _ h ho).trans transparent
  · exact (classWrite_control h hp ho).trans control

/-- A whole clear word by CA or CB (R166). -/
theorem classWrite_clear {side : Side} (hp : p ≠ .hl) (ho : u.controlOffset a = some (clearOffset side)) :
    classWrite u p a allStrobes w = .clearWord side := by
  have control : classControl (clearOffset side) w = .clearWord side := by cases side <;> rfl
  refine classWrite_always hp ho control ?_
  simp [classTransparent, control, hp]

/-- A whole enable word by CA or CB (R166). -/
theorem classWrite_enable {side : Side} (hp : p ≠ .hl) (ho : u.controlOffset a = some (enableOffset side)) :
    classWrite u p a allStrobes w = .enableWord side := by
  have control : classControl (enableOffset side) w = .enableWord side := by cases side <;> rfl
  refine classWrite_always hp ho control ?_
  simp [classTransparent, control, hp]

/-- A clear word's write as an event (R148, R166). -/
theorem Ev.write_clear {e : Ev} {side : Side} (hp : p ≠ .hl) (ho : e.units.controlOffset a = some (clearOffset side)) :
    Ev.write p a allStrobes w e =
      ({ e with word := some w }.mirror (clearOffset side) w).modNotice side fun n => n.clear w := by
  rw [Ev.write, classWrite_clear hp ho]

/-- An enable word's write as an event (R148, R166). -/
theorem Ev.write_enable {e : Ev} {side : Side} (hp : p ≠ .hl) (ho : e.units.controlOffset a = some (enableOffset side)) :
    Ev.write p a allStrobes w e =
      ({ e with word := some w }.mirror (enableOffset side) w).modNotice side fun n => n.enable w := by
  rw [Ev.write, classWrite_enable hp ho]

/-- A consume word's write as an event (R148, R164). -/
theorem Ev.write_consume {e : Ev} {side : Side} (loaded : e.units.part ≠ .transparent) (hp : p ≠ .hl)
    (ho : e.units.controlOffset a = some (consumeOffset side)) :
    Ev.write p a allStrobes w e = e.consume p a (consumeOffset side) side w := by
  rw [Ev.write, classWrite_consume loaded hp ho]

end

/-- A word of the notice unit has been taken: it stands in memory and in the mirror, the side's notice unit is y, but for
what the NOTE line and the flag words remember, nothing else has changed, and only the side's flag word is queued. -/
def State.NoticeWordTaken (s t : State) (p : Port) (side : Side) (w : Word) (offset : Nat) (y : NoticeSide) : Prop :=
  s.Wrote t p (s.units.blockAddr offset) w ∧ t.units.mirrorWord offset = w ∧
    (t.units.notices.get side).sameAs y ∧ (t.units.notices.get side).notePending = y.notePending ∧
    s.units.onlyChanges t.units [.mirror offset, .notice side] ∧ t.held = s.held ∧ s.FlagWords t [] ∧
    t.waitingWrites = s.waitingWrites ++ s.units.flagQueued side y

/-- The flag words that end an event which changes one side's notice unit only: that side's alone (R165). -/
theorem flagEntries_one (u v : Units) (side : Side) (y : NoticeSide) (base : v.cbase = u.cbase)
    (one : ∀ x, v.notices.get x = if x = side then y else u.notices.get x)
    (last : y.lastFlagWord = (u.notices.get side).lastFlagWord) :
    flagEntry v .a (u.notices.get .a) (v.notices.get .a) ++ flagEntry v .b (u.notices.get .b) (v.notices.get .b) =
      u.flagQueued side y := by
  have word : flagEntry v side (u.notices.get side) y = u.flagQueued side y := flagEntry_eq u v side y base last y rfl
  rw [one .a, one .b]
  cases side <;> simp [flagEntry_same, word]

/-- A port's write that the notice unit takes for a side, and by which no flag rises (R166). -/
theorem State.Clear.noticeWord {s : State} {p : Port} {side : Side} {w : Word} {offset : Nat} (clear : s.Clear)
    (f : NoticeSide → NoticeSide)
    (body : ∀ e : Ev, e.units = s.units → Ev.write p (s.units.blockAddr offset) allStrobes w e =
      ({ e with word := some w }.mirror offset w).modNotice side f)
    (last : (f (s.units.notices.get side)).lastFlagWord = (s.units.notices.get side).lastFlagWord)
    (wait : (f (s.units.notices.get side)).noteWait = (s.units.notices.get side).noteWait)
    (rises : flagRises (s.units.notices.get side) (f (s.units.notices.get side)) = false) :
    s.NoticeWordTaken (s.access p (.write (s.units.blockAddr offset) allStrobes w)) p side w offset
      (f (s.units.notices.get side)) := by
  let y := f (s.units.notices.get side)
  let v := (s.units.setMirror offset w).setNotice side y
  have one : ∀ x, v.notices.get x = if x = side then y else s.units.notices.get x := fun x => by simp [v]
  have changed : v.notices.get side = y := (one side).trans (if_pos rfl)
  have kept := (s.units.setMirror offset w).setNotice_each side (x := y)
    (P := fun n m => m.lastFlagWord = n.lastFlagWord ∧ m.noteWait = n.noteWait) (fun _ => ⟨rfl, rfl⟩) ⟨last, wait⟩
  obtain ⟨-, -, -, unpending, mem, wf⟩ := clear.1
  obtain ⟨k, leaves⟩ := clear.write p (s.units.blockAddr offset) allStrobes w
  rw [body _ rfl] at leaves
  have same : NoticeSide.sameAs _ (v.notices.get side) := leaves.notices side
  have pending : _ = ((v.notices.get side).notePending || flagRises _ (v.notices.get side)) := leaves.pending side
  rw [changed] at same pending
  have mirrored : v.mirrorWord offset = w := mirror_read s.units offset w wf
  refine ⟨leaves.wrote rfl mem, (leaves.mirror offset).trans mirrored, same, ?_, fun q hq => ?_, leaves.held unpending,
    leaves.words rfl (fun x => (kept x).1) fun x => (kept x).2, ?_⟩
  · rw [pending, rises, Bool.or_false]
  · simp only [List.mem_cons, List.not_mem_nil, or_false, not_or] at hq
    exact leaves.frame q (Ev.Moves.keeps_trans (mirror_keeps _ _ _ _ hq.1) (Units.setNotice_keeps _ _ _ _ hq.2))
  · rw [leaves.writes, List.append_assoc]
    exact congrArg₂ (· ++ ·) (List.append_nil _) (flagEntries_one s.units v side y rfl one last)

/-- A clear word sets no flag (R166). -/
theorem NoticeSide.clear_flags (n : NoticeSide) (w : Word) : (n.clear w).flags &&& ~~~n.flags = 0 := by
  have flags : (n.clear w).flags = n.flags &&& ~~~w.extractLsb' 0 8 := rfl
  rw [flags, BitVec.and_comm, ← BitVec.and_assoc, BitVec.not_and_self]
  exact BitVec.zero_and

/-- Settles O58 (R165, R166; log entry 10). -/
theorem clearAndEnableWords : Obligations.ClearAndEnableWords := by
  intro s p side w clear hp x bits8 leaves
  refine ⟨⟨_, rfl, ?_⟩, _, rfl, ?_⟩
  · have offset := s.units.controlOffset_blockAddr _ (clearOffset_lt side)
    exact clear.noticeWord (fun n => n.clear w) (fun e he => Ev.write_clear hp (by rw [he]; exact offset)) rfl rfl
      (flagRises_of_flags (x.clear_flags w))
  · have offset := s.units.controlOffset_blockAddr _ (enableOffset_lt side)
    exact clear.noticeWord (fun n => n.enable w) (fun e he => Ev.write_enable hp (by rw [he]; exact offset)) rfl rfl
      (flagRises_of_flags (BitVec.and_not_self _))

end Sys2Proof.Machine

namespace Sys2Proof.Machine

/-! ### Notices placed (O56) -/

/-- A side's notice unit after one notice has entered its ring (R160, R161). -/
def NoticeSide.entered (x : NoticeSide) (size : Nat) : NoticeSide :=
  let y := { x with writeIx := (x.writeIx + 1) % size }.setFlag .noticeWritten
  if 3 * size ≤ y.unread size * 4 then y.setFlag .ringHigh else y

section
variable (x : NoticeSide) (size : Nat)

/-- An entry moves the write index and sets flags; the rest of the notice unit is as it was. -/
theorem NoticeSide.entered_eq : x.entered size =
    { x with writeIx := (x.writeIx + 1) % size, flags := (x.entered size).flags } := by
  rw [NoticeSide.entered]
  split <;> rfl

/-- NOTICE-WRITTEN is set, and RING-HIGH from three quarters unread (R165). -/
theorem NoticeSide.entered_has (f : Flag) : (x.entered size).has f = true ↔
    x.has f = true ∨ f = .noticeWritten ∨ (f = .ringHigh ∧ 3 * size ≤ 4 * (x.entered size).unread size) := by
  let y := { x with writeIx := (x.writeIx + 1) % size }.setFlag .noticeWritten
  have unread : (x.entered size).unread size = y.unread size := by
    rw [NoticeSide.entered_eq]
    rfl
  have written : y.has f = (x.has f || decide (Flag.noticeWritten = f)) := NoticeSide.setFlag_has ..
  rw [unread]
  change (if 3 * size ≤ y.unread size * 4 then y.setFlag .ringHigh else y).has f = true ↔ _
  split
  · have high : 3 * size ≤ 4 * y.unread size := by omega
    rw [NoticeSide.setFlag_has, written]
    cases f <;> simp [high]
  · have low : ¬ 3 * size ≤ 4 * y.unread size := by omega
    rw [written]
    cases f <;> simp [low]

/-- What the NOTE line and the flag words remember is left alone (R167). -/
theorem NoticeSide.entered_noteKept : x.noteKept (x.entered size) := by
  rw [NoticeSide.entered_eq]
  exact ⟨rfl, rfl, rfl⟩

end

/-- A ring write leaves the notice unit with one more notice in its ring (R160, R161). -/
theorem Ev.ringWrite_units (e : Ev) (s : Side) (number : BitVec 16) (n : Notice) :
    (e.ringWrite s number n).units =
      e.units.setNotice s ((e.units.notices.get s).entered (e.units.ringSize s)) := rfl

section
variable {e : Ev} {s : Side} {n : Notice}

/-- A notice enters the ring when the holding queue is empty and an entry free (R161 case 1). -/
theorem Ev.place_ring (empty : (e.units.notices.get s).holding = [])
    (free : 0 < (e.units.notices.get s).ringFree (e.units.ringSize s)) :
    e.place s n = { e with
      units := e.units.setNotice s ((e.units.notices.get s).entered (e.units.ringSize s))
      out := e.out ++ e.units.ringEntry s (e.units.notices.get s).writeIx (n.words (e.units.notices.get s).number) } := by
  have ring : e.ringOpen s = true := by simp [Ev.ringOpen, empty, free]
  exact if_pos ring

/-- Otherwise it joins the holding queue's tail (R161 case 2). -/
theorem Ev.place_hold
    (full : (e.units.notices.get s).holding ≠ [] ∨ (e.units.notices.get s).ringFree (e.units.ringSize s) = 0)
    (free : (e.units.notices.get s).holding.length < Config.holdingDepth) :
    e.place s n = { e with units := e.units.setNotice s { e.units.notices.get s with
      holding := (e.units.notices.get s).holding ++ [((e.units.notices.get s).number, n)] } } := by
  have ring : ¬ e.ringOpen s = true := by
    simp only [Ev.ringOpen, Bool.and_eq_true, List.isEmpty_iff, decide_eq_true_eq]
    rintro ⟨empty, open_⟩
    rcases full with held | closed
    · exact held empty
    · omega
  rw [Ev.place, if_neg ring, Ev.holdNotice, Ev.modNotice, if_pos free]

end

/-- An event has put a side's notice of the next number into its ring (R160, R161, R165). -/
def Ev.InRing (e : Ev) (u : Units) (s : Side) (n : Notice) : Prop :=
  let x := u.notices.get s
  let y := e.units.notices.get s
  let size := u.ringSize s
  e.out = u.ringEntry s x.writeIx (n.words (x.number + 1)) ∧ y.writeIx = (x.writeIx + 1) % size ∧ y.holding = [] ∧
    y.consumeIx = x.consumeIx ∧ y.enables = x.enables ∧
    ∀ f, y.has f = true ↔ x.has f = true ∨ f = .noticeWritten ∨ (f = .ringHigh ∧ 3 * size ≤ 4 * y.unread size)

/-- A side's notice unit that has given the next number (R161). -/
def NoticeSide.numbered (x : NoticeSide) : NoticeSide := { x with number := x.number + 1 }

/-- The event of a notice that has taken its side's next number. -/
def Units.numbered (u : Units) (s : Side) : Ev := (Ev.begin u false 0).takeNumber s

/-- A side has room beyond its reservations: free entries of the ring and of the holding queue (R162). -/
def Units.RoomBeyond (u : Units) (s : Side) : Prop :=
  let x := u.notices.get s
  x.reservations < x.ringFree (u.ringSize s) + (8 - x.holding.length)

section
variable {u : Units} {s : Side} {n : Notice}

theorem Units.numbered_notice : (u.numbered s).units.notices.get s = (u.notices.get s).numbered :=
  (PerSide.get_set ..).trans (if_pos rfl)

/-- A notice that has taken its number and enters the ring. -/
theorem Units.numbered_ring (empty : (u.notices.get s).holding = [])
    (free : 0 < (u.notices.get s).ringFree (u.ringSize s)) :
    let e := (u.numbered s).place s n
    e.InRing u s n ∧ e.units.notices.get s = (u.notices.get s).numbered.entered (u.ringSize s) := by
  intro e
  let x := u.notices.get s
  have placed := Ev.place_ring (e := u.numbered s) (s := s) (n := n) (by rw [Units.numbered_notice]; exact empty)
    (by rw [Units.numbered_notice]; exact free)
  have record : e.units.notices.get s = x.numbered.entered (u.ringSize s) := by
    simp only [e, placed, Units.setNotice_notices, PerSide.get_set, if_true, Units.numbered_notice]
    rfl
  have fields := x.numbered.entered_eq (u.ringSize s)
  refine ⟨?_, record⟩
  unfold Ev.InRing
  simp only [record]
  refine ⟨?_, by rw [fields]; rfl, by rw [fields]; exact empty, by rw [fields]; rfl, by rw [fields]; rfl,
    x.numbered.entered_has (u.ringSize s)⟩
  simp only [e, placed, Units.numbered_notice]
  rfl

/-- A notice that has taken its number and joins the holding queue. -/
theorem Units.numbered_hold
    (full : (u.notices.get s).holding ≠ [] ∨ (u.notices.get s).ringFree (u.ringSize s) = 0)
    (free : (u.notices.get s).holding.length < Config.holdingDepth) :
    let e := (u.numbered s).place s n
    let x := u.notices.get s
    e.out = [] ∧ e.units.notices.get s =
      { x with number := x.number + 1, holding := x.holding ++ [(x.number + 1, n)] } := by
  have placed := Ev.place_hold (e := u.numbered s) (s := s) (n := n) (by rw [Units.numbered_notice]; exact full)
    (by rw [Units.numbered_notice]; exact free)
  simp only [placed, Units.setNotice_notices, PerSide.get_set, if_true, Units.numbered_notice]
  exact ⟨rfl, rfl⟩

/-- A head notice's room test, made when it has taken its number, is that of the notice unit before (R162). -/
theorem Units.numbered_hasRoom : (u.numbered s).hasRoom s = true ↔ u.RoomBeyond s := by
  unfold Ev.hasRoom Units.RoomBeyond
  simp only [Units.numbered_notice, decide_eq_true_eq]
  rfl

/-- A head notice with room is placed (R162). -/
theorem Units.heard_room (room : u.RoomBeyond s) :
    u.heard s n = (u.numbered s).place s n := if_pos (Units.numbered_hasRoom.2 room)

/-- A head notice without room is dropped (R162). -/
theorem Units.heard_lost (room : ¬ u.RoomBeyond s) :
    u.heard s n = (u.numbered s).setFlag s .noticeLost := if_neg (mt Units.numbered_hasRoom.1 room)

/-- An order notice is placed, and its reservation is consumed (R162). -/
theorem Units.heardOrder_notice : (u.heardOrder s n).units.notices.get s =
    { ((u.numbered s).place s n).units.notices.get s with
      reservations := (((u.numbered s).place s n).units.notices.get s).reservations - 1 } :=
  (PerSide.get_set ..).trans (if_pos rfl)

end

/-- Settles O56 (R160 to R162). -/
theorem headNoticePlaced : Obligations.HeadNoticePlaced := by
  intro u s n x size room inRing
  refine ⟨?_, ?_⟩
  · have gives := (Act.notice s n).gives (.begin u false 0) s
    refine ⟨gives.number.trans (by simp [Act.numbers, x]), fun lost => ?_, fun has empty free => ?_,
      fun has full free => ?_, fun q hq => ?_⟩
    · rw [Units.heard_lost lost]
      exact ⟨rfl, (PerSide.get_set ..).trans ((if_pos rfl).trans (by rw [Units.numbered_notice]; rfl))⟩
    · rw [Units.heard_room has]
      obtain ⟨placed, record⟩ := Units.numbered_ring (n := n) empty free
      exact ⟨placed, by rw [record, NoticeSide.entered_eq]; rfl⟩
    · rw [Units.heard_room has]
      exact Units.numbered_hold full free
    · exact (Ev.Moves.headNotice (T := fun c => c = .notice s) (e := .begin u false 0) n rfl).frame q hq
  · have gives := (Act.order s n).gives (.begin u false 0) s
    refine ⟨gives.number.trans (by simp [Act.numbers, x]), gives.reserved.trans (by simp [Act.reserves, x]),
      fun empty free => ?_, fun full free => ?_, fun q hq => ?_⟩
    · obtain ⟨placed, -⟩ := Units.numbered_ring (n := n) empty free
      change (u.heardOrder s n).InRing u s n
      unfold Ev.InRing
      simp only [Units.heardOrder_notice]
      exact placed
    · obtain ⟨out, record⟩ := Units.numbered_hold (n := n) full free
      exact ⟨out, by rw [Units.heardOrder_notice, record]⟩
    · exact (Ev.Moves.orderNotice (T := fun c => c = .notice s) (e := .begin u false 0) n rfl).frame q hq

end Sys2Proof.Machine

namespace Sys2Proof.Machine

/-! ### Consume words (O57) -/

theorem NoticeSide.noteKept.trans {x y z : NoticeSide} (h : x.noteKept y) (g : y.noteKept z) : x.noteKept z := by
  obtain ⟨last, wait, pending⟩ := h
  obtain ⟨last', wait', pending'⟩ := g
  exact ⟨last'.trans last, wait'.trans wait, pending'.trans pending⟩

/-- Held notices that move into the ring leave alone what the NOTE line and the flag words remember (R164, R167). -/
theorem Ev.moveHeld_noteKept (s side : Side) (l : List (BitVec 16 × Notice)) (e : Ev) :
    (e.units.notices.get side).noteKept ((e.moveHeld s l).units.notices.get side) := by
  have same : ∀ n : NoticeSide, n.noteKept n := fun _ => ⟨rfl, rfl, rfl⟩
  induction l generalizing e with
  | nil => exact same _
  | cons held rest ih =>
    let left := e.modNotice s fun r => { r with holding := rest }
    have leaves := e.units.setNotice_each s (x := { e.units.notices.get s with holding := rest }) same
      ⟨rfl, rfl, rfl⟩ side
    have enters := left.units.setNotice_each s same ((left.units.notices.get s).entered_noteKept (left.units.ringSize s)) side
    rw [Ev.moveHeld]
    split
    · exact (leaves.trans enters).trans (ih (left.ringWrite s held.1 held.2))
    · exact same _

/-- The held notices that a consume index c lets into the ring: one for each entry then free (R164). -/
def NoticeSide.movable (x : NoticeSide) (size c : Nat) : Nat :=
  min x.holding.length ({ x with consumeIx := c }.ringFree size)

/-- A side's notice unit after a consume word c is taken, but for what the NOTE line and the flag words remember (R160,
R161, R164). -/
structure NoticeSide.Consumed (x : NoticeSide) (size c : Nat) (y : NoticeSide) : Prop where
  consumeIx : y.consumeIx = c
  writeIx : y.writeIx = (x.writeIx + x.movable size c) % size
  holding : y.holding = x.holding.drop (x.movable size c)
  number : y.number = x.number
  reservations : y.reservations = x.reservations
  enables : y.enables = x.enables
  flags : ∀ f, y.has f = true ↔ x.has f = true ∨
    (0 < x.movable size c ∧ (f = .noticeWritten ∨ (f = .ringHigh ∧ 3 * size ≤ 4 * y.unread size)))

theorem NoticeSide.sameAs.unread {n m : NoticeSide} (same : n.sameAs m) (size : Nat) : n.unread size = m.unread size := by
  obtain ⟨write, consume, -⟩ := same
  rw [NoticeSide.unread, NoticeSide.unread, write, consume]

theorem NoticeSide.sameAs.has {n m : NoticeSide} (same : n.sameAs m) (f : Flag) : n.has f = m.has f := by
  obtain ⟨-, -, -, -, -, flags, -⟩ := same
  rw [NoticeSide.has, NoticeSide.has, flags]

theorem NoticeSide.Consumed.of_sameAs {x y z : NoticeSide} {size c : Nat} (h : x.Consumed size c z) (same : y.sameAs z) :
    x.Consumed size c y := by
  have unread := same.unread size
  have has := same.has
  obtain ⟨write, consume, number, holding, reservations, -, enables⟩ := same
  exact ⟨consume.trans h.consumeIx, write.trans h.writeIx, holding.trans h.holding, number.trans h.number,
    reservations.trans h.reservations, enables.trans h.enables, fun f => by rw [has, unread]; exact h.flags f⟩

/-- A consume word that does not pass the write index, as an event: its word, the notice unit it leaves, and the four words
of each held notice that moves (R164). -/
theorem Ev.consume_taken (e : Ev) (p : Port) (a : Addr) (offset : Nat) (side : Side) (w : Word) :
    let size := e.units.ringSize side
    let x := e.units.notices.get side
    x.writeIx < size → w.toNat < size → (w.toNat + size - x.consumeIx) % size ≤ x.unread size →
    ∃ z, x.Consumed size w.toNat z ∧ x.noteKept z ∧
      e.consume p a offset side w = { e with
        word := some w
        units := (e.units.setMirror offset w).setNotice side z
        out := e.out ++ (x.holding.take (x.movable size w.toNat)).zipIdx.flatMap fun (n, i) =>
          e.units.ringEntry side ((x.writeIx + i) % size) (n.2.words n.1) } := by
  intro size x writeIx inside unpassed
  let before := ({ e with word := some w }.mirror offset w).modNotice side fun r => { r with consumeIx := w.toNat }
  have begun : before.units.notices.get side = { x with consumeIx := w.toNat } := by simp [before, x, Ev.mirror]
  have taken : e.consume p a offset side w = before.moveHeld side x.holding :=
    if_neg (not_or.2 ⟨Nat.not_le.2 inside, Nat.not_lt.2 unpassed⟩)
  obtain ⟨z, moves, consumeIx, write, holding, number, reservations, enables, -, flags⟩ :=
    Ev.moveHeld_eq side x.holding before size _ begun rfl writeIx inside rfl
  have kept := before.moveHeld_noteKept side side x.holding
  rw [moves, begun] at kept
  simp only [Units.setNotice_notices, PerSide.get_set, if_true] at kept
  have units : before.units.setNotice side z = (e.units.setMirror offset w).setNotice side z := by
    simp [before, Ev.mirror, Units.setNotice]
  refine ⟨z, ⟨consumeIx, write, holding, number, reservations, enables, flags⟩, kept, ?_⟩
  rw [taken, moves, units]
  rfl

/-- Settles O57 (R160, R161, R164). -/
theorem consumeTaken : Obligations.ConsumeTaken := by
  intro s p side w clear hp loaded size x writeIx _ inside unpassed moved
  obtain ⟨-, -, -, unpending, mem, wf⟩ := clear.1
  have offset := s.units.controlOffset_blockAddr _ (consumeOffset_lt side)
  obtain ⟨k, leaves⟩ := clear.write p (s.units.blockAddr (consumeOffset side)) allStrobes w
  have write : Ev.write p _ allStrobes w (.begin s.units true k) = _ := Ev.write_consume loaded hp offset
  obtain ⟨z, consumed, kept, taken⟩ := (Ev.begin s.units true k).consume_taken p (s.units.blockAddr (consumeOffset side))
    (consumeOffset side) side w writeIx inside unpassed
  rw [write, taken] at leaves
  have record := leaves.notices side
  simp only [Units.setNotice_notices, PerSide.get_set, if_true] at record
  have queued := leaves.queued rfl ((s.units.setMirror _ w).setNotice_each side (fun _ => ⟨rfl, rfl, rfl⟩) kept) unpending
  obtain ⟨consumeIx, writeIx, holding, number, reservations, enables, flags⟩ := consumed.of_sameAs record
  refine ⟨_, _, rfl, leaves.wrote rfl mem, (leaves.mirror _).trans (mirror_read s.units _ w wf), rfl, consumeIx, writeIx,
    holding, number, reservations, enables, flags, fun q hq => ?_, queued⟩
  simp only [List.mem_cons, List.not_mem_nil, or_false, not_or] at hq
  exact leaves.frame q (Ev.Moves.keeps_trans (mirror_keeps _ _ _ _ hq.1) (Units.setNotice_keeps _ _ _ _ hq.2))

end Sys2Proof.Machine

namespace Sys2Proof.Machine

/-! ### Steps of the front command (O1) -/

/-- Settles O1 (log entry 2). -/
theorem stepRunsFrontCommand : Obligations.StepRunsFrontCommand := fun _ _ _ => rfl

end Sys2Proof.Machine

namespace Sys2Proof.Machine

/-! ### Words that are only mirrored (O59) -/

/-- A byte of a word put together from its four lanes (log entry 6). -/
theorem lanes_byte (pick : Nat → Byte) {lane : Nat} (h : lane < 4) :
    (pick 3 ++ pick 2 ++ pick 1 ++ pick 0 : Word).extractLsb' (8 * lane) 8 = pick lane := by
  interval_cases lane <;>
    simp (disch := decide) only [BitVec.extractLsb'_append_eq_of_le, BitVec.extractLsb'_append_eq_of_add_le,
      Nat.reduceMul, Nat.reduceSub, BitVec.extractLsb'_eq_self]

/-- A byte of a merged word: the new word's where the strobe of its lane is on, the old word's elsewhere (R140). -/
theorem mergeLanes_byte (old new : Word) (strobes : BitVec 4) {lane : Nat} (h : lane < 4) :
    (mergeLanes old new strobes).extractLsb' (8 * lane) 8 =
      if strobes.getLsbD lane then new.extractLsb' (8 * lane) 8 else old.extractLsb' (8 * lane) 8 :=
  lanes_byte (fun lane => if strobes.getLsbD lane then new.extractLsb' (8 * lane) 8 else old.extractLsb' (8 * lane) 8) h

section
variable {p : Port} {off : Nat} {strobes : BitVec 4} {w : Word} {side : Side}

/-- Only an issued command word in a slot is a command (R147, R152). -/
theorem classControl_command (h : classControl off w = .command side) :
    (off = 0x100 ∨ off = 0x101) ∧ isIssue w = true := by
  unfold classControl at h
  split_ifs at h with slotA issued slotB issued <;> cases h
  · exact ⟨.inl slotA, issued⟩
  · exact ⟨.inr slotB, issued⟩

/-- Only a clear word's offset has its class (R147, R174). -/
theorem classControl_clear (h : classControl off w = .clearWord side) : off = clearOffset side := by
  unfold classControl at h
  split_ifs at h <;> cases h <;> assumption

/-- Only an enable word's offset has its class (R147, R174). -/
theorem classControl_enable (h : classControl off w = .enableWord side) : off = enableOffset side := by
  unfold classControl at h
  split_ifs at h <;> cases h <;> assumption

/-- A whole write to a loaded part that is no command and outside the words with a class of their own (R147, R148). -/
theorem classControl_mirrored (uncommanded : ¬ ((off = 0x100 ∨ off = 0x101) ∧ isIssue w = true))
    (outside : ¬ (0x102 ≤ off ∧ off ≤ 0x10A)) : classControl off w = .mirrored off := by
  by_cases slot : off = 0x100 ∨ off = 0x101
  · have unissued : isIssue w = false := by simpa [slot] using uncommanded
    rcases slot with rfl | rfl <;> simp [classControl, unissued]
  · simp (disch := omega) only [classControl, if_neg]

/-- A write in TRANSPARENT that is no command, and no whole clear or enable word by CA or CB (R140; log entry 20). -/
theorem classTransparent_mirrored
    (uncommanded : ¬ (strobes = allStrobes ∧ (off = 0x100 ∨ off = 0x101) ∧ isIssue w = true))
    (untaken : ¬ (strobes = allStrobes ∧ p ≠ .hl ∧ ∃ x, off = clearOffset x ∨ off = enableOffset x)) :
    classTransparent p off strobes w = .mirrored off := by
  by_cases whole : strobes = allStrobes
  · rw [classTransparent, if_neg (not_not.2 whole)]
    have byHL : (∃ x, off = clearOffset x ∨ off = enableOffset x) → p = .hl := fun word =>
      not_not.1 fun hp => untaken ⟨whole, hp, word⟩
    cases class_eq : classControl off w with
    | command side => exact absurd ⟨whole, classControl_command class_eq⟩ uncommanded
    | clearWord side => exact if_pos (byHL ⟨side, .inl (classControl_clear class_eq)⟩)
    | enableWord side => exact if_pos (byHL ⟨side, .inr (classControl_enable class_eq)⟩)
    | _ => rfl
  · exact if_pos whole

end

/-- A mirrored word's write as an event (R140, R148). -/
theorem Ev.write_mirrored {e : Ev} {p : Port} {a : Addr} {off : Nat} {strobes : BitVec 4} {w : Word}
    (h : classWrite e.units p a strobes w = .mirrored off) :
    Ev.write p a strobes w e = { e with word := some w }.mirror off (mergeLanes (e.units.mirrorWord off) w strobes) := by
  rw [Ev.write, h]

/-- Settles O59 (R137, R140, R147, R148; log entries 6 and 20). -/
theorem controlWordMirrored : Obligations.ControlWordMirrored := by
  intro s p o strobes w turn uncommanded passes a
  have offset : s.units.controlOffset a = some o.toNat := s.units.controlOffset_blockAddr _ o.isLt
  have mirrored : classWrite s.units p a strobes w = .mirrored o.toNat := by
    rcases passes with ⟨transparent, untaken⟩ | ⟨loaded, hp, rfl, outside⟩
    · exact (classWrite_transparent strobes transparent offset).trans (classTransparent_mirrored uncommanded untaken)
    · exact (classWrite_control loaded hp offset).trans
        (classControl_mirrored (fun issued => uncommanded ⟨rfl, issued⟩) outside)
  obtain ⟨-, -, -, unpending, mem, wf⟩ := turn.1
  obtain ⟨k, leaves⟩ := turn.write a strobes w _ (fun _ => Ev.write_mirrored mirrored) ⟨rfl, rfl⟩ fun _ => rfl
  have byte := fun b lane hl =>
    (congrArg (·.byte b lane) leaves.mem).trans (Memory.byte_write s.mem a b strobes w lane mem hl)
  have word := (leaves.mirror _).trans (mirror_read s.units o.toNat (mergeLanes (s.units.mirrorWord o.toNat) w strobes) wf)
  refine ⟨_, rfl, fun lane hl => ⟨?_, ?_⟩, fun b lane hl hb => ?_, leaves.ports, fun q hq => ?_,
    ⟨leaves.silent rfl fun _ => rfl, leaves.held unpending⟩, leaves.granted, leaves.rest⟩
  · exact (byte a lane hl).trans (by simp)
  · exact (congrArg (·.extractLsb' (8 * lane) 8) word).trans (mergeLanes_byte _ w strobes hl)
  · exact (byte b lane hl).trans (if_neg fun c => hb c.1)
  · exact leaves.frame q (mirror_keeps _ _ _ _ fun c => hq (List.mem_singleton.2 c))

end Sys2Proof.Machine
